-- ==== Sys2Proof/Word.lean ====
section
/-! DEFINITION. The word types, and the sparse table type. -/

namespace Sys2Proof

/-- One byte of memory, of a descriptor or of a record. -/
abbrev Byte := BitVec 8

/-- A 32-bit word: a register word, a sequence number, an epoch, a step, an F32 encoding. -/
abbrev Word := BitVec 32

/-- A 64-bit word: a doorbell-page word, a Nozzle register, an F64 encoding. -/
abbrev Word64 := BitVec 64

/-- Sparse data by number: keys strictly rising, no entry equal to the table's default.
The default is an argument of every operation. -/
abbrev Tab (α : Type) := List (Nat × α)

end Sys2Proof
end

