-- ==== Sys2Proof/Syntax.lean ====
section
/-! DEFINITION. The commands of the block: one constructor for each row of spec/opcode_table.json, with its operands. -/

namespace Sys2Proof

/-- The status of a read response or of a write acknowledgement (R414, R420). `bad` is UNCORRECTABLE on a stack
port and ERROR on a fabric port. -/
inductive PortStatus where
  | ok | unsealed | bad
  deriving DecidableEq, Repr

/-- What the request was made for that a response answers (R414, R420). -/
inductive RequestFor where
  /-- The operand reads of the next tile of a part, or of the header or window of a descriptor. -/
  | operand (ring : Nat) (seq : Word)
  /-- One tile's writes of a part. -/
  | store (ring : Nat) (seq : Word)
  /-- The fetch of a descriptor. -/
  | fetch (ring : Nat) (seq : Word)
  /-- The write of a completion record. -/
  | record (ring : Nat) (seq : Word)
  /-- The oldest unacknowledged Sluice or census write of a basin's queue. -/
  | report
  /-- The read or write of a catch-up entry by the pour logic. -/
  | catchUp (shard group channel : Nat)
  /-- A read that serves no descriptor: a patrol read or a scrub. -/
  | upkeep
  deriving DecidableEq, Repr

/-- The jet stations of R86, in its order. -/
inductive Station where
  | weir | nozzle | crucible | still | cast | wellspring
  deriving DecidableEq, Repr

/-- The unit kinds in which errors are detected, with the class codes of R366. -/
inductive FaultClass where
  | lane | row | column | cistern | reservoir | castUnit | weirUnit | core | aqueduct | stackData | bank
  | planeSeal | pourCopy | wardenCopy
  deriving DecidableEq, Repr

/-- The reset levels of R359. -/
inductive ResetLevel where
  | jet | basin | partition | whole
  deriving DecidableEq, Repr

/-- A command shifted into the Garhal command register, less its OP field, which the row fixes (R407). -/
structure GarhalCmd where
  data     : BitVec 32
  addr     : BitVec 48
  target   : BitVec 5
  unit     : BitVec 2
  reserved : BitVec 5 := 0
  deriving DecidableEq, Repr

/-- How a flit arrives: whether its CRC holds (R421), and the descriptor in whose work it is sent, by ring and sequence number
(R367). -/
structure Arrival where
  crcOk : Bool
  work  : Option (Nat × Word) := none
  deriving DecidableEq, Repr

/-- The commands. Operand names: `ring` a ring number, `seq` a descriptor's sequence number, `jet` a logical jet
(255: the part a basin controller runs, R132), `basin` a basin, `part` the partition a register access or a
doorbell page carries (RG_PART, R424), `value` what is written. -/
inductive Instr where
  /-- LAND (R209): the oldest fetched descriptor of the ring, a LAND, is accepted. -/
  | land (ring : Nat)
  /-- METER (R417): the ring's METER is taken up and the taps are flushed. -/
  | meter (ring : Nat)
  /-- STILL (R228). -/
  | still (ring : Nat)
  /-- CAST (R245). -/
  | cast (ring : Nat)
  /-- VOTE (R231). -/
  | vote (ring : Nat)
  /-- POUR (R237). -/
  | pour (ring : Nat)
  /-- REWIND (R242). -/
  | rewind (ring : Nat)
  /-- CRUCIBLE (R198). -/
  | crucible (ring : Nat)
  /-- GEMV (R281). -/
  | gemv (ring : Nat)
  /-- RILL (R274). -/
  | rill (ring : Nat)
  /-- COPY (R125). -/
  | copy (ring : Nat)
  /-- FILL (R125). -/
  | fill (ring : Nat)
  /-- SCHED (R175). -/
  | sched (ring : Nat)
  /-- FENCE (R126). -/
  | fence (ring : Nat)
  /-- CENSUS (R323). -/
  | census (ring : Nat)
  /-- FWCHUNK (R383). -/
  | fwchunk (ring : Nat)
  /-- FWACTIVATE (R385). -/
  | fwactivate (ring : Nat)
  /-- ATTEST (R391). -/
  | attest (ring : Nat)
  /-- EXPORT (R392). -/
  | exportStream (ring : Nat)
  /-- DESCRIPTOR_FETCH (R119): the basin controller takes its turn. -/
  | descriptorFetch (basin : Nat)
  /-- TILE_START (R185): the next tile of the part on `jet` enters the Nozzle. -/
  | tileStart (ring : Nat) (seq : Word) (jet : Nat)
  /-- TILE_COMMIT (R89): the oldest tile in flight of the part commits. -/
  | tileCommit (ring : Nat) (seq : Word) (jet : Nat)
  /-- DESCRIPTOR_COMPLETE (R132). -/
  | descriptorComplete (ring : Nat) (seq : Word)
  /-- METER_COMPLETE (R210). -/
  | meterComplete (ring : Nat) (seq : Word)
  /-- VOTE_TAKEN (R422): beat 7 of the oldest vote is taken. -/
  | voteTaken
  /-- VERDICT (R235): a record arrives; `whole` says that CD_LAST fell on beat 7 (R422). -/
  | verdict (record : List Byte) (whole : Bool)
  /-- DOORBELL_WRITE (R118), through the doorbell page of `part`. -/
  | doorbellWrite (part ring : Nat) (value : Word64)
  /-- RING_RESUME (R135): a write of the ring's control word. -/
  | ringResume (part ring : Nat) (value : Word64)
  /-- PIN (R100): a read of the shard's pin word. -/
  | pin (part shard : Nat)
  /-- UNPIN (R101): a write of the shard's unpin word. -/
  | unpin (part shard : Nat) (value : Word64)
  /-- DOORBELL_PAGE_BAD_ACCESS (R116): an access of `size` bytes at `offset` of the page. -/
  | doorbellPageBadAccess (part offset size : Nat) (write : Bool)
  /-- REGION_COMMIT (R92): a write of RT_WIN word 0 with KIND not 0h. -/
  | regionCommit (part : Nat) (value : Word)
  /-- REGION_CLEAR (R92): a write of RT_WIN word 0 with KIND 0h. -/
  | regionClear (part : Nat) (value : Word)
  /-- RANGE_ACK (R415) from the memory controller of the stack of `jet`. -/
  | rangeAck (jet : Nat)
  /-- RING_ENABLE (R111): a write of RING_WIN word 0 with ENABLE 1. -/
  | ringEnable (part : Nat) (value : Word)
  /-- RING_DISABLE (R114): a write of RING_WIN word 0 with ENABLE 0. -/
  | ringDisable (part : Nat) (value : Word)
  /-- PROGRAM_COMMIT (R145): a write of NZ_PROG_CTL with COMMIT 1. -/
  | programCommit (part : Nat) (value : Word)
  /-- PROGRAM_CLEAR (R144): a write of NZ_PROG_CTL with CLEAR 1. -/
  | programClear (part : Nat) (value : Word)
  /-- JET_MOVE (R437): a write of JET_PART of `jet`. -/
  | jetMove (part jet : Nat) (value : Word)
  /-- STEP_WRITE (R221): a write of word 4 of a shard context. -/
  | stepWrite (part shard : Nat) (value : Word)
  /-- RETIRE (R227): a write of word 11 of a shard context. -/
  | retire (part shard : Nat) (value : Word)
  /-- PART_GO (R364): a write of RESET_CTL with PART_GO 1. -/
  | partGo (part : Nat) (value : Word)
  /-- PARTITION_RESET_DONE (R364). -/
  | partitionResetDone (part : Nat)
  /-- JET_RST (R362): a write of RESET_CTL with JET_RST 1. -/
  | jetRst (part : Nat) (value : Word)
  /-- CENSUS_LOG_WRITE (R324): a write of word 0 of CENSUS_LOG of partition `log`. -/
  | censusLogWrite (part log : Nat) (value : Word)
  /-- SLUICE_LOG_WRITE (R332): a write of SLUICE_LOG word 0. -/
  | sluiceLogWrite (part : Nat) (value : Word)
  /-- CLR_DROPS (R332): a write of SLUICE_CTL. -/
  | clrDrops (part : Nat) (value : Word)
  /-- ALARM_POP (R333): a write of ALARM_CTL. -/
  | alarmPop (part : Nat) (value : Word)
  /-- ALARM_HEAD_READ (R431): a read of ALARM_HEAD word 0. -/
  | alarmHeadRead (part : Nat)
  /-- COUNTER_LOW_READ (R431): a read of the low word of a 48-bit counter at register address `addr`. -/
  | counterLowRead (part addr : Nat)
  /-- FAULT_CNT_CLEAR (R376): a write of FAULT_CNT of `jet`. -/
  | faultCntClear (part jet : Nat) (value : Word)
  /-- CLK_HOLD_WRITE (R399). -/
  | clkHoldWrite (part : Nat) (value : Word)
  /-- DBG_CTL_WRITE (R406). -/
  | dbgCtlWrite (part : Nat) (value : Word)
  /-- KEYX_GO (R387): a write of KEYX_CTL with GO 1. -/
  | keyxGo (part : Nat) (value : Word)
  /-- KEY_AGREEMENT_DONE (R387). -/
  | keyAgreementDone
  /-- REGISTER_WRITE (R429): a write to a set-up register that has no row of its own. -/
  | registerWrite (part addr : Nat) (value : Word)
  /-- BOOT_GO (R337): a write of BOOT_CTL with GO 1. -/
  | bootGo (part : Nat) (value : Word)
  /-- ROM_DONE (R337); `pufOk`: the root's derivation passed its internal check (R377). -/
  | romDone (pufOk : Bool)
  /-- BOOT_VERIFY (R341); `readOk`: no boot read met an ERROR response (R420). -/
  | bootVerify (readOk : Bool)
  /-- BOOT_MAP (R347); `badLanes`: aqueduct lanes that failed their test, as (basin, direction, lane). -/
  | bootMap (badLanes : List (Nat × Nat × Nat))
  /-- BOOT_LOAD (R348); `gauges`: the first readings, eight a jet. -/
  | bootLoad (gauges : List (List Nat))
  /-- STATION_SELF_TEST_DONE (R349, R363); `inBanks`: a Wellspring failure lies in the banks;
  `spares`: the spares of the station that failed their test, one bit each: the eight of a Nozzle's lanes, the row (bit 0) and
  the column (bit 1) of a Crucible, the two banks of each pseudo-channel of a wellspring stack. -/
  | stationSelfTestDone (jet : Nat) (station : Station) (pass inBanks : Bool) (spares : Nat)
  /-- TEST_END (R348, R354). -/
  | testEnd
  /-- SOAK_SWEEP_DONE (R356). -/
  | soakSweepDone
  /-- SOAK_END (R357). -/
  | soakEnd
  /-- TEMPER_WRITE (R353). -/
  | temperWrite
  /-- TEMPER_WRITE_DONE (R353). -/
  | temperWriteDone
  /-- MZ_RST_ASSERT (R365). -/
  | mzRstAssert
  /-- MZ_RST_DEASSERT (R334). -/
  | mzRstDeassert
  /-- AON_POWER_LOSS (R335). -/
  | aonPowerLoss
  /-- JET_RESET_ASSERT (R359). -/
  | jetResetAssert (jet : Nat)
  /-- JET_RESET_END (R363). -/
  | jetResetEnd (jet : Nat)
  /-- BASIN_RESET_ASSERT (R359). -/
  | basinResetAssert (basin : Nat)
  /-- BASIN_RESET_DEASSERT (R363). -/
  | basinResetDeassert (basin : Nat)
  /-- DRAIN_TIMEOUT (R360): 20 µs after the reset of `level` of jet, basin or partition `index` began. -/
  | drainTimeout (level : ResetLevel) (index : Nat)
  /-- JET_SLEEP (R397): SLEEP_IDLE has passed for the jet. -/
  | jetSleep (jet : Nat)
  /-- BASIN_SLEEP (R397). -/
  | basinSleep (basin : Nat)
  /-- MZ_WAKE (R398, R426): an edge of the pin, a rise where it is low and a fall where it is high. -/
  | mzWake
  /-- WAKE_DONE (R398) of a basin (`ofBasin`) or of a jet. -/
  | wakeDone (ofBasin : Bool) (index : Nat)
  /-- FREEZE (R401). -/
  | freeze
  /-- FREEZE_CLOCKS_STOP (R401). -/
  | freezeClocksStop
  /-- THAW (R403). -/
  | thaw
  /-- TAKE_ACK (R297) of the basin's take-back. -/
  | takeAck (basin : Nat)
  /-- REFRESH_TICK (R291). -/
  | refreshTick (jet bank : Nat)
  /-- REFRESH_ISSUE (R293). -/
  | refreshIssue (jet bank : Nat)
  /-- RILL_START (R293) of the oldest waiting rill of the jet. -/
  | rillStart (jet : Nat)
  /-- RILL_WORD (R276): the next word of the running rill. -/
  | rillWord (jet : Nat)
  /-- OPACK (R419) naming operation `number`; `late`: more than 200 ns late. -/
  | opack (jet number : Nat) (late : Bool)
  /-- BANK_IDLE (R299): IDLE for the positions of `mask` in pseudo-channel `channel`. -/
  | bankIdle (jet channel : Nat) (mask : BitVec 16)
  /-- PEND (R300). -/
  | pend (jet bank : Nat)
  /-- GEMV_DRAIN_DONE (R284) of the oldest tally set waiting for its drain. -/
  | gemvDrainDone (jet : Nat)
  /-- PATROL_READ (R310). -/
  | patrolRead (jet : Nat)
  /-- SEAL_REPORT (R309): a reported write of the bytes `enables` of the beat at stack offset `offset`. -/
  | sealReport (jet offset : Nat) (enables : BitVec 64)
  /-- LANDING_WRITE (R206): a tapped write beat at stack offset `offset`, with byte enables, 64 bytes of data and
  the format tag. -/
  | landingWrite (jet offset : Nat) (enables : BitVec 64) (data : List Byte) (tag : Nat)
  /-- FLUSH_ACK (R417) of the jet's tap. -/
  | flushAck (jet : Nat)
  /-- STACK_RESPONSE (R414). -/
  | stackResponse (jet : Nat) (request : RequestFor) (status : PortStatus)
  /-- FABRIC_RESPONSE (R420). -/
  | fabricResponse (basin : Nat) (request : RequestFor) (status : PortStatus)
  /-- FLIT (R421): a flit from `basin`, direction 0 toward basin + 1 and 1 toward basin + 5. -/
  | flit (basin direction lane : Nat) (arrival : Arrival)
  /-- LANE_RETRAIN (R375); `margin`: the eye margin in ps after retraining. -/
  | laneRetrain (basin direction lane margin : Nat)
  /-- SLUICE_WRITE (R328). -/
  | sluiceWrite (basin : Nat)
  /-- DETECTED_ERROR (R366) in unit `index` of jet or basin `place` (for a copy of the pour logic or the Warden,
  `index` is the minority copy); `work`: the descriptor in whose work it was met. -/
  | detectedError (cls : FaultClass) (place index : Nat) (work : Option (Nat × Word))
  /-- CORRECTION (R366). -/
  | correction (cls : FaultClass) (place index : Nat)
  /-- SELF_TEST_RESULT (R368). -/
  | selfTestResult (cls : FaultClass) (place index : Nat) (pass : Bool)
  /-- ADOPTION_DONE (R370) of logical jet `jet`. -/
  | adoptionDone (jet : Nat)
  /-- BANK_COPY_DONE (R313). -/
  | bankCopyDone (jet : Nat)
  /-- COPY_RELOAD (R372): `pass`: the reloaded copy passed its self-test. -/
  | copyReload (ofWarden : Bool) (copy : Nat) (pass : Bool)
  /-- REPLAN (R375): eight gauge readings for each jet, and the least eye margin of each basin's lanes, in ps. -/
  | replan (gauges : List (List Nat)) (eyes : List Nat)
  /-- CHUNK_FETCH (R384) by core `core` (24 + b: basin controller b; 30: the Warden). -/
  | chunkFetch (core : Nat)
  /-- FW_SWAP (R385). -/
  | fwSwap
  /-- FWACTIVATE_TIMEOUT (R385). -/
  | fwactivateTimeout
  /-- STAT (R408). -/
  | stat (cmd : GarhalCmd)
  /-- REG_RD (R408). -/
  | regRd (cmd : GarhalCmd)
  /-- REG_WR (R408). -/
  | regWr (cmd : GarhalCmd)
  /-- MEM_RD (R408). -/
  | memRd (cmd : GarhalCmd)
  /-- MEM_WR (R408). -/
  | memWr (cmd : GarhalCmd)
  /-- HALT (R409). -/
  | halt (cmd : GarhalCmd)
  /-- RESUME (R408). -/
  | resume (cmd : GarhalCmd)
  /-- STEP (R410). -/
  | step (cmd : GarhalCmd)
  /-- BRK_SET (R410). -/
  | brkSet (cmd : GarhalCmd)
  /-- BRK_CLR (R408). -/
  | brkClr (cmd : GarhalCmd)
  /-- STATE_RD (R411). -/
  | stateRd (cmd : GarhalCmd)
  /-- BREAKPOINT_HIT (R410): breakpoint `index` of unit `unit` (0 core, 1 Nozzle) of a TARGET of R407. -/
  | breakpointHit (target : BitVec 5) (unit index : Nat)
  /-- GH_TRST (R405). -/
  | ghTrst
  /-- RESERVED_OPCODE (R133): the oldest fetched descriptor has a reserved opcode. -/
  | reservedOpcode (ring : Nat)
  /-- GARHAL_RESERVED_OP (R408) with OP `op`. -/
  | garhalReservedOp (op : BitVec 4) (cmd : GarhalCmd)
  /-- INSTRUCTION_REGISTER_UPDATE (R405). -/
  | instructionRegisterUpdate (code : BitVec 4)
  /-- ENGINE_HALTED (R409) for a TARGET of R407. -/
  | engineHalted (target : BitVec 5)
  deriving DecidableEq, Repr

end Sys2Proof
end

