-- ==== Sys2Proof/Decode.lean ====
section
/-! DEFINITION. The words of commands: the command table of the block gives no row bits, so no word spells a command by it. The
Garhal port has a command word of its own (R407). -/

namespace Sys2Proof

/-- The command that a word of `nbits` bits spells by the table's bits: none, since no row of the table has bits. -/
def decodeTableWord (_nbits _w : Nat) : Option Instr :=
  none

/-- The fields of the 96 bits shifted into the command register, bit 0 first (R407): DATA 31:0, ADDR 79:32, TARGET 88:84, UNIT
90:89, and the reserved bits 95:91. -/
def garhalFields (w : BitVec 96) : GarhalCmd :=
  { data := w.extractLsb' 0 32, addr := w.extractLsb' 32 48, target := w.extractLsb' 84 5, unit := w.extractLsb' 89 2
    reserved := w.extractLsb' 91 5 }

/-- The command that the 96 bits become at Update-DR, by OP in bits 83:80 (R407, R408); codes Bh to Fh are reserved. -/
def garhalCommand (w : BitVec 96) : Instr :=
  let c := garhalFields w
  match (w.extractLsb' 80 4).toNat with
  | 0 => .stat c
  | 1 => .regRd c
  | 2 => .regWr c
  | 3 => .memRd c
  | 4 => .memWr c
  | 5 => .halt c
  | 6 => .resume c
  | 7 => .step c
  | 8 => .brkSet c
  | 9 => .brkClr c
  | 0xA => .stateRd c
  | op => .garhalReservedOp (BitVec.ofNat 4 op) c

end Sys2Proof
end

