-- ==== Sys2Proof/Machine/Bits.lean ====
section
/-! DEFINITION. Byte order, bit fields, records of bytes, and sparse tables in one canonical form. -/

namespace Sys2Proof.Machine

/-- The low `n` bytes of `v`, least significant first (R11). -/
def leBytes : Nat → Nat → List Byte
  | 0, _ => []
  | n + 1, v => BitVec.ofNat 8 v :: leBytes n (v / 256)

/-- The number a list of bytes holds, least significant first (R11). -/
def ofLe : List Byte → Nat
  | [] => 0
  | b :: t => b.toNat + 256 * ofLe t

/-- The number a list of bytes holds, most significant first (R379: the integers of the cryptographic standards). -/
def ofBe (l : List Byte) : Nat :=
  l.foldl (fun a b => a * 256 + b.toNat) 0

/-- The low `n` bytes of `v`, most significant first (R379). -/
def beBytes (n v : Nat) : List Byte :=
  (leBytes n v).reverse

/-- Bits `[lo + n - 1 : lo]` of a number. -/
def bits (v lo n : Nat) : Nat :=
  v / 2 ^ lo % 2 ^ n

/-- Bit `i` of a number. -/
def bit (v i : Nat) : Bool :=
  bits v i 1 == 1

/-- A Boolean as the bit it is written as. -/
def b2n (b : Bool) : Nat :=
  if b then 1 else 0

/-- `l` cut or filled with zero bytes to `n` bytes. -/
def padTo (n : Nat) (l : List Byte) : List Byte :=
  l.take n ++ List.replicate (n - l.length) 0#8

/-- Bytes `[at, at + n)` of a record, zero beyond its end. -/
def sliceAt (l : List Byte) (at' n : Nat) : List Byte :=
  padTo n (l.drop at')

/-- The little-endian field of `n` bytes at byte `at'` of a record. -/
def fieldAt (l : List Byte) (at' n : Nat) : Nat :=
  ofLe (sliceAt l at' n)

/-- Write `src` over the bytes of `l` from byte `at'` on; bytes past the end of `l` are lost. -/
def putBytes (l : List Byte) (at' : Nat) (src : List Byte) : List Byte :=
  (l.take at' ++ src ++ l.drop (at' + src.length)).take l.length

/-- Write the little-endian field of `n` bytes at byte `at'`. -/
def putField (l : List Byte) (at' n v : Nat) : List Byte :=
  putBytes l at' (leBytes n v)

/-- The entry of key `i`, or the default `d`. -/
def Tab.get {α : Type} (d : α) : Tab α → Nat → α
  | [], _ => d
  | (k, v) :: t, i => if k = i then v else Tab.get d t i

/-- Give key `i` the value `v`, keeping the keys rising and no entry equal to the default. -/
def Tab.set {α : Type} [DecidableEq α] (d : α) : Tab α → Nat → α → Tab α
  | [], i, v => if v = d then [] else [(i, v)]
  | (k, w) :: t, i, v =>
    if k < i then (k, w) :: Tab.set d t i v
    else
      let rest := if k = i then t else (k, w) :: t
      if v = d then rest else (i, v) :: rest

/-- Change the value of key `i` by `f`. -/
def Tab.upd {α : Type} [DecidableEq α] (d : α) (t : Tab α) (i : Nat) (f : α → α) : Tab α :=
  Tab.set d t i (f (Tab.get d t i))

/-- Keys strictly rising and above `lo`, no entry equal to the default. -/
def Tab.wfFrom {α : Type} [DecidableEq α] (d : α) : Option Nat → Tab α → Bool
  | _, [] => true
  | lo, (k, v) :: t =>
    (match lo with | none => true | some l => decide (l < k)) && decide (v ≠ d) && Tab.wfFrom d (some k) t

/-- The canonical form of a sparse table. -/
def Tab.wf {α : Type} [DecidableEq α] (d : α) (t : Tab α) : Bool :=
  Tab.wfFrom d none t

/-- Change every listed value by `f`, dropping what becomes the default. -/
def Tab.mapVals {α : Type} [DecidableEq α] (d : α) (f : Nat → α → α) : Tab α → Tab α
  | [] => []
  | (k, v) :: t =>
    let v' := f k v
    if v' = d then Tab.mapVals d f t else (k, v') :: Tab.mapVals d f t

/-- Apply `f` to the value of every key of `ks`. -/
def Tab.updAll {α : Type} [DecidableEq α] (d : α) (t : Tab α) (ks : List Nat) (f : Nat → α → α) : Tab α :=
  ks.foldl (fun acc k => Tab.upd d acc k (f k)) t

/-- The least number below `n` that `p` holds of. -/
def leastBelow (n : Nat) (p : Nat → Bool) : Option Nat :=
  (List.range n).find? p

/-- The numbers below `n` whose bit is set in `mask`, rising. -/
def bitsOf (n mask : Nat) : List Nat :=
  (List.range n).filter (fun i => bit mask i)

/-- How many of the low `n` bits of `v` are set. -/
def popcount (n v : Nat) : Nat :=
  (bitsOf n v).length

/-- Element `i` of a list, or the given default. -/
def nth {α : Type} (l : List α) (i : Nat) (d : α) : α :=
  l.getD i d

/-- Replace element `i` of a list by `f` of it. -/
def modAt {α : Type} (f : α → α) : List α → Nat → List α
  | [], _ => []
  | x :: t, 0 => f x :: t
  | x :: t, i + 1 => x :: modAt f t i

/-- The integer a two's-complement code of `w` bits stands for. -/
def toSigned (w v : Nat) : Int :=
  if v < 2 ^ (w - 1) then (v : Int) else (v : Int) - (2 ^ w : Nat)

/-- The two's-complement code of `w` bits of an integer. -/
def ofSigned (w : Nat) (x : Int) : Nat :=
  (x % ((2 ^ w : Nat) : Int)).toNat

/-- Counters that stop at all-ones (R85, R211, R376). -/
def satAdd (w a b : Nat) : Nat :=
  min (a + b) (2 ^ w - 1)

end Sys2Proof.Machine
end

