-- ==== Sys2Proof/Machine/Formats.lean ====
section
/-! DEFINITION. The twelve number formats, the rounding modes, and the conversion of any format into any other (R31 to R57). -/

namespace Sys2Proof.Machine

/-- The formats of R31, in the order of their codes. -/
inductive Fmt where
  | f32 | f64 | f16 | b16 | q8e4 | q8e5 | q4e2 | i8 | u8 | i4 | u4 | ue8
  deriving DecidableEq, Repr

/-- All formats, in the order of their codes (R31). -/
def fmts : List Fmt :=
  [.f32, .f64, .f16, .b16, .q8e4, .q8e5, .q4e2, .i8, .u8, .i4, .u4, .ue8]

/-- The format of a 4-bit code; codes Ch to Fh are reserved (R31, R32). -/
def Fmt.ofCode (c : Nat) : Option Fmt :=
  fmts[c]?

/-- The code of a format (R31). -/
def Fmt.code : Fmt → Nat
  | .f32 => 0 | .f64 => 1 | .f16 => 2 | .b16 => 3 | .q8e4 => 4 | .q8e5 => 5
  | .q4e2 => 6 | .i8 => 7 | .u8 => 8 | .i4 => 9 | .u4 => 10 | .ue8 => 11

/-- The width of an element in bits (R31). -/
def Fmt.width : Fmt → Nat
  | .f64 => 64 | .f32 => 32 | .f16 | .b16 => 16 | .q4e2 | .i4 | .u4 => 4 | _ => 8

/-- The rounding modes of R43. -/
inductive Rnd where
  | rne | rtz | rup | rdn | rsr | rto
  deriving DecidableEq, Repr

/-- The mode of a 3-bit RND field; 6h and 7h are reserved (R43). -/
def Rnd.ofCode : Nat → Option Rnd
  | 0 => some .rne | 1 => some .rtz | 2 => some .rup | 3 => some .rdn | 4 => some .rsr | 5 => some .rto
  | _ => none

/-- The exact value (−1)^neg × m × 2^e. A zero keeps its sign. -/
structure Dy where
  neg : Bool
  m : Nat
  e : Int
  deriving DecidableEq, Repr

/-- What an encoding stands for (R34, R35, R36). -/
inductive Num where
  | nan (signalling : Bool)
  | inf (neg : Bool)
  | fin (d : Dy)
  deriving DecidableEq, Repr

/-- The events the census counts (R83). -/
inductive Event where
  | saturated | flushed | nanProduced
  deriving DecidableEq, Repr

/-- The fields of a floating-point encoding (R34, R35). -/
structure FloatSpec where
  width : Nat
  expBits : Nat
  frac : Nat
  bias : Nat
  hasInf : Bool
  negZero : Bool
  deriving DecidableEq, Repr

/-- R34's table; `none` for the integer formats and UE8. -/
def Fmt.float : Fmt → Option FloatSpec
  | .f64 => some ⟨64, 11, 52, 1023, true, true⟩
  | .f32 => some ⟨32, 8, 23, 127, true, true⟩
  | .f16 => some ⟨16, 5, 10, 15, true, true⟩
  | .b16 => some ⟨16, 8, 7, 127, true, true⟩
  | .q8e5 => some ⟨8, 5, 2, 15, true, true⟩
  | .q8e4 => some ⟨8, 4, 3, 8, false, false⟩
  | .q4e2 => some ⟨4, 2, 1, 1, false, true⟩
  | _ => none

/-- The least and the greatest integer of an integer format (R41). -/
def Fmt.intRange : Fmt → Option (Int × Int)
  | .i8 => some (-128, 127) | .u8 => some (0, 255) | .i4 => some (-8, 7) | .u4 => some (0, 15)
  | _ => none

/-- The canonical NaN of a format; for a format without NaN, the code R51 gives in its place. -/
def Fmt.nanCode : Fmt → Nat
  | .f64 => 0x7FF8000000000000 | .f32 => 0x7FC00000 | .f16 => 0x7E00 | .b16 => 0x7FC0
  | .q8e5 => 0x7E | .q8e4 => 0x80 | .ue8 => 0xFF | _ => 0

/-- Whether the format has NaN encodings (R35, R42). -/
def Fmt.hasNan : Fmt → Bool
  | .q4e2 | .i8 | .u8 | .i4 | .u4 => false
  | _ => true

/-- The significand of the largest finite value: all ones (R34). -/
def FloatSpec.maxSig (s : FloatSpec) : Nat :=
  2 ^ (s.frac + 1) - 1

/-- The exponent of the last bit of the largest finite value (R34, R39). -/
def FloatSpec.maxExp (s : FloatSpec) : Int :=
  (2 ^ s.expBits - (if s.hasInf then 2 else 1) : Nat) - (s.bias : Int) - s.frac

/-- The exponent of the last bit of a subnormal (R34). -/
def FloatSpec.minExp (s : FloatSpec) : Int :=
  1 - (s.bias : Int) - s.frac

/-- The code of magnitude `n` × 2^`q`, `n` below 2^(frac + 1) or equal to it after a carry (R34). -/
def FloatSpec.pack (s : FloatSpec) (neg : Bool) (n : Nat) (q : Int) : Nat :=
  (if neg then 2 ^ (s.width - 1) else 0) + ((q - s.minExp).toNat * 2 ^ s.frac + n)

/-- The code of the largest finite magnitude (R34). -/
def FloatSpec.maxCode (s : FloatSpec) (neg : Bool) : Nat :=
  s.pack neg s.maxSig s.maxExp

/-- The code of infinity (R35). -/
def FloatSpec.infCode (s : FloatSpec) (neg : Bool) : Nat :=
  (if neg then 2 ^ (s.width - 1) else 0) + (2 ^ s.expBits - 1) * 2 ^ s.frac

/-- The code of a zero (R35, R39). -/
def FloatSpec.zeroCode (s : FloatSpec) (neg : Bool) : Nat :=
  if neg && s.negZero then 2 ^ (s.width - 1) else 0

/-- What a floating-point code stands for (R34, R35, R36). -/
def FloatSpec.decode (s : FloatSpec) (code : Nat) : Num :=
  let neg := bit code (s.width - 1)
  let expo := bits code s.frac s.expBits
  let frac := bits code 0 s.frac
  if s.hasInf && expo == 2 ^ s.expBits - 1 then
    if frac == 0 then .inf neg else .nan (!bit code (s.frac - 1) && s.width != 8)
  else if !s.negZero && code == 2 ^ (s.width - 1) then .nan false
  else if expo == 0 then .fin ⟨neg, frac, s.minExp⟩
  else .fin ⟨neg, 2 ^ s.frac + frac, s.minExp + (expo - 1 : Nat)⟩

/-- The dyadic value of an integer. -/
def Dy.ofInt (x : Int) : Dy :=
  ⟨x < 0, x.natAbs, 0⟩

/-- What an element code of a format stands for (R34 to R42). -/
def Fmt.decode (f : Fmt) (code : Nat) : Num :=
  match f.float with
  | some s => s.decode code
  | none =>
    match f with
    | .ue8 => if code == 0xFF then .nan false else .fin ⟨false, 1, (code : Int) - 127⟩
    | .i8 => .fin (.ofInt (toSigned 8 code))
    | .i4 => .fin (.ofInt (toSigned 4 code))
    | _ => .fin ⟨false, code, 0⟩

/-- Round `m` ÷ 2^`s` to an integer; `neg` is the sign of the value and `draw` the draw of R47 (R43 to R46). -/
def roundShift (rnd : Rnd) (draw : Nat) (neg : Bool) (m s : Nat) : Nat :=
  let q := m / 2 ^ s
  let r := m % 2 ^ s
  if r = 0 then q else
  match rnd with
  | .rne => if 2 ^ s < 2 * r ∨ (2 * r = 2 ^ s ∧ q % 2 = 1) then q + 1 else q
  | .rtz => q
  | .rup => if neg then q else q + 1
  | .rdn => if neg then q + 1 else q
  | .rsr => if draw < r * 65536 / 2 ^ s then q + 1 else q
  | .rto => if q % 2 = 1 then q else q + 1

/-- The magnitude of a value in units of 2^`q`, rounded. -/
def Dy.roundAt (rnd : Rnd) (draw : Nat) (d : Dy) (q : Int) : Nat :=
  if q ≤ d.e then d.m * 2 ^ (d.e - q).toNat else roundShift rnd draw d.neg d.m (q - d.e).toNat

/-- The exponent of the leading bit of a nonzero value. -/
def Dy.top (d : Dy) : Int :=
  d.e + (Nat.log2 d.m : Nat)

/-- |a| < |b|. -/
def Dy.magLt (a b : Dy) : Bool :=
  let q := min a.e b.e
  decide (a.m * 2 ^ (a.e - q).toNat < b.m * 2 ^ (b.e - q).toNat)

/-- The result of an overflow of a floating-point target (R52). -/
def FloatSpec.overflow (s : FloatSpec) (rnd : Rnd) (neg : Bool) : Nat :=
  if s.hasInf then
    match rnd with
    | .rne | .rsr => s.infCode neg
    | .rup => if neg then s.maxCode neg else s.infCode neg
    | .rdn => if neg then s.infCode neg else s.maxCode neg
    | .rtz | .rto => s.maxCode neg
  else s.maxCode neg

/-- Round a nonzero finite value into a floating-point format (R44 to R46, R52, R53). RSR of a value below the smallest
subnormal takes its draw, as R53 has the selected mode; RNE rules in its place beyond the largest finite value only (log
128). -/
def FloatSpec.round (s : FloatSpec) (rnd0 : Rnd) (draw : Nat) (d : Dy) : Nat × Option Event :=
  let rnd := if rnd0 = .rsr ∧ Dy.magLt ⟨false, s.maxSig, s.maxExp⟩ d = true then .rne else rnd0
  let q := max (d.top - s.frac) s.minExp
  let n := d.roundAt rnd draw q
  if s.maxExp < q ∨ (q = s.maxExp ∧ s.maxSig < n) then (s.overflow rnd d.neg, some .saturated)
  else if n = 0 then (s.zeroCode d.neg, some .flushed)
  else (s.pack d.neg n q, none)

/-- Round a nonzero finite value into an integer range; the code has `w` bits (R52, R53). -/
def roundInt (w : Nat) (lo hi : Int) (rnd0 : Rnd) (draw : Nat) (d : Dy) : Nat × Option Event :=
  let beyond := if d.neg then Dy.magLt (.ofInt lo) d else Dy.magLt (.ofInt hi) d
  let rnd := if rnd0 = .rsr ∧ beyond = true then .rne else rnd0
  let n : Int := d.roundAt rnd draw 0
  let x := if d.neg then -n else n
  if x < lo then (ofSigned w lo, some .saturated)
  else if hi < x then (ofSigned w hi, some .saturated)
  else (ofSigned w x, none)

/-- Round a positive finite value to a power of two, the target UE8 (R52, R53). -/
def roundUe8 (rnd : Rnd) (d : Dy) : Nat × Option Event :=
  let k := d.top
  let low := 2 ^ Nat.log2 d.m
  let up :=
    if d.m = low then false else
    match rnd with
    | .rtz | .rdn => false
    | .rup => true
    | .rto => (k + 127) % 2 == 0
    | .rne | .rsr => decide (3 * low < 2 * d.m ∨ (2 * d.m = 3 * low ∧ (k + 127) % 2 = 1))
  let k' := if up then k + 1 else k
  if 127 < k' then (0xFE, some .saturated)
  else if k' < -127 then (0, some .flushed)
  else ((k' + 127).toNat, none)

/-- One rounding of an exact value into a target format, with the event it counts (R49, R51 to R53). -/
def convertNum (tgt : Fmt) (rnd : Rnd) (draw : Nat) : Num → Nat × Option Event
  | .nan sig => (tgt.nanCode, if sig || !tgt.hasNan then some .nanProduced else none)
  | .inf neg =>
    match tgt.float, tgt.intRange with
    | some s, _ => if s.hasInf then (s.infCode neg, none) else (s.maxCode neg, some .saturated)
    | none, some (lo, hi) => (ofSigned tgt.width (if neg then lo else hi), some .saturated)
    | none, none => (0xFF, some .nanProduced)
  | .fin d =>
    if d.m = 0 then
      ((match tgt.float with | some s => s.zeroCode d.neg | none => 0), none)
    else
      match tgt.float, tgt.intRange with
      | some s, _ => s.round rnd draw d
      | none, some (lo, hi) => roundInt tgt.width lo hi rnd draw d
      | none, none => if d.neg then (0xFF, some .nanProduced) else roundUe8 rnd d

/-- An exact value times 2^`k`: a UE8 scale applied before rounding (R55). -/
def Num.scale (k : Int) : Num → Num
  | .fin d => .fin { d with e := d.e + k }
  | x => x

/-- The first step of R54: an F64 value rounded to F32 under RTO; nothing is counted in it. -/
def viaF32 : Num → Num
  | .fin d => if d.m = 0 then .fin d else Fmt.f32.decode (convertNum .f32 .rto 0 (.fin d)).1
  | x => x

/-- Convert an element of one format into another: identity, one rounding, or the two steps of R54 (R49, R54). -/
def convert (src tgt : Fmt) (rnd : Rnd) (draw : Nat) (code : Nat) : Nat × Option Event :=
  if src = tgt then (code, none)
  else
    let x := src.decode code
    convertNum tgt rnd draw (if src = .f64 ∧ tgt ≠ .f32 then viaF32 x else x)

/-- The code of the most negative or of the largest value, an infinity where the format has one (R80). -/
def Fmt.extreme (f : Fmt) (neg : Bool) : Nat :=
  match f.float, f.intRange with
  | some s, _ => if s.hasInf then s.infCode neg else s.maxCode neg
  | none, some (lo, hi) => ofSigned f.width (if neg then lo else hi)
  | none, none => if neg then 0 else 0xFE

/-- One round of Philox-4×32 on a counter of four words, under two keys (R47). -/
def philoxRound (k0 k1 : Nat) : Nat × Nat × Nat × Nat → Nat × Nat × Nat × Nat
  | (c0, c1, c2, c3) =>
    let p0 := 0xD2511F53 * c0
    let p1 := 0xCD9E8D57 * c2
    let m := 2 ^ 32
    (Nat.xor (Nat.xor (p1 / m) c1) k0, p1 % m, Nat.xor (Nat.xor (p0 / m) c3) k1, p0 % m)

/-- `n` rounds, the keys raised before each but the first (R47). -/
def philoxRounds : Nat → Nat → Nat → Nat × Nat × Nat × Nat → Nat × Nat × Nat × Nat
  | 0, _, _, c => c
  | n + 1, k0, k1, c =>
    philoxRounds n ((k0 + 0x9E3779B9) % 2 ^ 32) ((k1 + 0xBB67AE85) % 2 ^ 32) (philoxRound k0 k1 c)

/-- Rounding sites of R47. -/
inductive Site where
  | store | castElement | castPlane
  deriving DecidableEq, Repr

/-- The site's number (R47). -/
def Site.code : Site → Nat
  | .store => 1 | .castElement => 2 | .castPlane => 3

/-- The 16-bit draw for an element: Philox-4×32-10 of the seed, the parameter index, the stream, the site and the epoch
(R47). -/
def draw (seed index stream : Nat) (site : Site) (epoch : Nat) : Nat :=
  let c1 := bits index 32 8 + stream % 256 * 2 ^ 8 + site.code * 2 ^ 16
  (philoxRounds 10 (bits seed 0 32) (bits seed 32 32) (index % 2 ^ 32, c1, epoch % 2 ^ 32, 0)).1 % 65536

end Sys2Proof.Machine
end

