-- ==== Sys2Proof/Machine/Arith.lean ====
section
/-! DEFINITION. Element-wise arithmetic on exact values: one rounding for each operation (R71, R77, R149, R150). -/

namespace Sys2Proof.Machine

/-- A value with its sign turned round. -/
def Num.negate : Num → Num
  | .fin d => .fin { d with neg := !d.neg }
  | .inf n => .inf (!n)
  | x => x

/-- The exact sum of two finite values; an exact zero has the sign of R71. -/
def Dy.add (rnd : Rnd) (a b : Dy) : Dy :=
  let e := min a.e b.e
  let x : Int := (a.m * 2 ^ (a.e - e).toNat : Nat)
  let y : Int := (b.m * 2 ^ (b.e - e).toNat : Nat)
  let s := (if a.neg then -x else x) + (if b.neg then -y else y)
  if s = 0 then
    ⟨if a.m = 0 ∧ b.m = 0 ∧ a.neg = b.neg then a.neg else rnd == .rdn, 0, 0⟩
  else ⟨s < 0, s.natAbs, e⟩

/-- The exact product of two finite values. -/
def Dy.mul (a b : Dy) : Dy :=
  ⟨a.neg != b.neg, a.m * b.m, a.e + b.e⟩

/-- A result that may be invalid: R83's 0 × ∞, ∞ − ∞, 0 ÷ 0, √ of a negative number. -/
abbrev Exact := Option Num

/-- Whether a value is a zero. -/
def Num.isZero : Num → Bool
  | .fin d => d.m == 0
  | _ => false

/-- Whether a value is NaN. -/
def Num.isNan : Num → Bool
  | .nan _ => true
  | _ => false

/-- Whether a value is infinite or NaN (R205). -/
def Num.nonFinite : Num → Bool
  | .fin _ => false
  | _ => true

/-- Sum; no operand is NaN. -/
def exactAdd (rnd : Rnd) : Num → Num → Exact
  | .inf a, .inf b => if a = b then some (.inf a) else none
  | .inf a, _ => some (.inf a)
  | _, .inf b => some (.inf b)
  | .fin a, .fin b => some (.fin (a.add rnd b))
  | x, _ => some x

/-- Product; no operand is NaN. -/
def exactMul : Num → Num → Exact
  | .fin a, .fin b => some (.fin (a.mul b))
  | .inf a, .inf b => some (.inf (a != b))
  | .inf a, .fin b => if b.m = 0 then none else some (.inf (a != b.neg))
  | .fin a, .inf b => if a.m = 0 then none else some (.inf (a.neg != b))
  | x, _ => some x

/-- `n` ÷ `d` with at least 130 leading bits and a last bit that records an inexact rest, as (m, e). -/
def quotient (n d : Nat) : Nat × Int :=
  let k := 130 + Nat.log2 d - Nat.log2 n
  let x := n * 2 ^ k
  (2 * (x / d) + (if x % d = 0 then 0 else 1), -(k : Int) - 1)

/-- Quotient; no operand is NaN. -/
def exactDiv : Num → Num → Exact
  | .inf _, .inf _ => none
  | .inf a, .fin b => some (.inf (a != b.neg))
  | .fin a, .inf b => some (.fin ⟨a.neg != b, 0, 0⟩)
  | .fin a, .fin b =>
    if b.m = 0 then (if a.m = 0 then none else some (.inf (a.neg != b.neg)))
    else if a.m = 0 then some (.fin ⟨a.neg != b.neg, 0, 0⟩)
    else
      let (q, e) := quotient a.m b.m
      some (.fin ⟨a.neg != b.neg, q, e + a.e - b.e⟩)
  | x, _ => some x

/-- Newton's step towards the integer root of `n` from above. -/
def isqrtFrom (n : Nat) : Nat → Nat → Nat
  | 0, x => x
  | fuel + 1, x =>
    let y := (x + n / x) / 2
    if y < x then isqrtFrom n fuel y else x

/-- The integer square root. -/
def isqrt (n : Nat) : Nat :=
  if n = 0 then 0 else isqrtFrom n 64 (2 ^ (Nat.log2 n / 2 + 1))

/-- A value m × 2^e as m' × 2^e' with e' even. -/
def Dy.evenExp (d : Dy) : Dy :=
  if d.e % 2 = 0 then d else { d with m := 2 * d.m, e := d.e - 1 }

/-- The root of a finite value that is not negative, with a last bit for an inexact rest. -/
def exactSqrt : Num → Exact
  | .inf false => some (.inf false)
  | .inf true => none
  | .fin d =>
    if d.m = 0 then some (.fin d)
    else if d.neg then none
    else
      let x := d.evenExp
      let n := x.m * 2 ^ 264
      let r := isqrt n
      some (.fin ⟨false, 2 * r + (if r * r = n then 0 else 1), x.e / 2 - 132 - 1⟩)
  | x => some x

/-- One over the root (R150: RSQRT). -/
def exactRsqrt : Num → Exact
  | .inf false => some (.fin ⟨false, 0, 0⟩)
  | .inf true => none
  | .fin d =>
    if d.m = 0 then some (.inf d.neg)
    else if d.neg then none
    else
      let x := d.evenExp
      let k := 132 + Nat.log2 x.m
      let r := isqrt (2 ^ (2 * k) / x.m)
      some (.fin ⟨false, 2 * r + (if r * r * x.m = 2 ^ (2 * k) then 0 else 1), -(k : Int) - x.e / 2 - 1⟩)
  | x => some x

/-- The bits of the working precision of EXP2 and LOG2. -/
def workBits : Nat := 512

/-- The product, in units of 2^−512, of 2^(2^−i) over the set bits of the fraction `f` of `n` bits, most significant
bit first; `root` is 2^(2^−i) of the bit before. -/
def exp2Frac (f : Nat) : Nat → Nat → Nat → Nat
  | 0, _, acc => acc
  | n + 1, root, acc =>
    let r := isqrt (root * 2 ^ workBits)
    exp2Frac f n r (if bit f n then acc * r / 2 ^ workBits else acc)

/-- 2^x (R149, R150: EXP2). An argument that is no integer has an irrational power, so the last bit records an inexact
rest. An argument nearer to 0 than 2^−140 gives 1 plus or minus such a rest. -/
def exactExp2 : Num → Exact
  | .inf neg => some (if neg then .fin ⟨false, 0, 0⟩ else .inf false)
  | .fin d =>
    if d.m = 0 then some (.fin ⟨false, 1, 0⟩)
    else if 13 < d.top then some (.fin ⟨false, 1, if d.neg then -9000 else 9000⟩)
    else if d.top < -140 then some (.fin ⟨false, if d.neg then 2 ^ 200 - 1 else 2 ^ 200 + 1, -200⟩)
    else
      let k := (-d.e).toNat
      let x : Int := if 0 ≤ d.e then (d.m * 2 ^ d.e.toNat : Nat) else d.m
      let v := if d.neg then -x else x
      let whole := v / ((2 ^ k : Nat) : Int)
      let f := (v % ((2 ^ k : Nat) : Int)).toNat
      if f = 0 then some (.fin ⟨false, 1, whole⟩)
      else
        let p := exp2Frac f k (2 * 2 ^ workBits) (2 ^ workBits)
        some (.fin ⟨false, 2 * p + 1, whole - workBits - 1⟩)
  | x => some x

/-- `n` bits of the binary logarithm of y, y in [1, 2) in units of 2^−512, by repeated squaring. -/
def log2Bits : Nat → Nat → Nat → Nat
  | 0, _, acc => acc
  | n + 1, y, acc =>
    let s := y * y / 2 ^ workBits
    if 2 * 2 ^ workBits ≤ s then log2Bits n (s / 2) (2 * acc + 1) else log2Bits n s (2 * acc)

/-- The binary logarithm (R149, R150: LOG2); it is rational only for powers of two, and then whole. -/
def exactLog2 : Num → Exact
  | .inf neg => if neg then none else some (.inf false)
  | .fin d =>
    if d.m = 0 then some (.inf true)
    else if d.neg then none
    else if d.m = 2 ^ Nat.log2 d.m then some (.fin (.ofInt d.top))
    else
      let frac := log2Bits 240 (d.m * 2 ^ workBits / 2 ^ Nat.log2 d.m) 0
      let i := d.top * (2 ^ 240 : Nat) + (frac : Nat)
      some (.fin (if 0 ≤ i then ⟨false, 2 * i.toNat + 1, -241⟩ else ⟨true, (-2 * i - 1).toNat, -241⟩))
  | x => some x

/-- Whether a NaN stands among the operands, and whether one of them is signalling (R36). -/
def nanAmong (xs : List Num) : Option Bool :=
  if xs.any Num.isNan then some (xs.contains (.nan true)) else none

/-- Round the result of an operation into F32 or F64, once; a NaN operand gives the canonical NaN, counted when one
is signalling, and an invalid operation the canonical NaN, counted (R36, R83). -/
def finish (f : Fmt) (rnd : Rnd) (operands : List Num) (r : Exact) : Nat × Option Event :=
  match nanAmong operands with
  | some sig => (f.nanCode, if sig then some .nanProduced else none)
  | none =>
    match r with
    | none => (f.nanCode, some .nanProduced)
    | some x => convertNum f rnd 0 x

/-- a + b. -/
def fAdd (f : Fmt) (rnd : Rnd) (a b : Nat) : Nat × Option Event :=
  finish f rnd [f.decode a, f.decode b] (exactAdd rnd (f.decode a) (f.decode b))

/-- a − b. -/
def fSub (f : Fmt) (rnd : Rnd) (a b : Nat) : Nat × Option Event :=
  finish f rnd [f.decode a, f.decode b] (exactAdd rnd (f.decode a) (f.decode b).negate)

/-- a × b. -/
def fMul (f : Fmt) (rnd : Rnd) (a b : Nat) : Nat × Option Event :=
  finish f rnd [f.decode a, f.decode b] (exactMul (f.decode a) (f.decode b))

/-- a × b + c, or −(a × b) + c; one rounding. -/
def fFma (f : Fmt) (rnd : Rnd) (minus : Bool) (a b c : Nat) : Nat × Option Event :=
  let p := exactMul (f.decode a) (f.decode b)
  finish f rnd [f.decode a, f.decode b, f.decode c]
    (p.bind fun x => exactAdd rnd (if minus then x.negate else x) (f.decode c))

/-- a ÷ b. -/
def fDiv (f : Fmt) (rnd : Rnd) (a b : Nat) : Nat × Option Event :=
  finish f rnd [f.decode a, f.decode b] (exactDiv (f.decode a) (f.decode b))

/-- A function of one operand. -/
def fUnary (f : Fmt) (rnd : Rnd) (g : Num → Exact) (a : Nat) : Nat × Option Event :=
  finish f rnd [f.decode a] (g (f.decode a))

/-- The order of the values, −0 below +0: a key that grows with the value. Not for NaN. -/
def numLt : Num → Num → Bool
  | .inf a, .inf b => a && !b
  | .inf a, _ => a
  | _, .inf b => !b
  | .fin a, .fin b =>
    if a.m == 0 && b.m == 0 then false
    else
      match a.neg && a.m != 0, b.neg && b.m != 0 with
      | true, false => true
      | false, true => false
      | false, false => a.magLt b
      | true, true => b.magLt a
  | _, _ => false

/-- The sign bit of a code. -/
def signBit (f : Fmt) (code : Nat) : Bool :=
  bit code (f.width - 1)

/-- max (`hi`) or min of two codes (R77). -/
def fExt (f : Fmt) (hi : Bool) (a b : Nat) : Nat × Option Event :=
  let x := f.decode a
  let y := f.decode b
  match nanAmong [x, y] with
  | some sig => (f.nanCode, if sig then some .nanProduced else none)
  | none =>
    let takeA :=
      if numLt x y then !hi
      else if numLt y x then hi
      else signBit f a != hi
    (if takeA then a else b, none)

/-- The comparisons of R150: a < b, a ≤ b, a = b, unordered. -/
inductive Cmp where
  | lt | le | eq | un
  deriving DecidableEq, Repr

/-- A comparison: false on a NaN but for `un`; only a signalling NaN counts (R150). -/
def fCmp (f : Fmt) (c : Cmp) (a b : Nat) : Bool × Option Event :=
  let x := f.decode a
  let y := f.decode b
  match nanAmong [x, y] with
  | some sig => (c == .un, if sig then some .nanProduced else none)
  | none =>
    (match c with
     | .lt => numLt x y
     | .le => !numLt y x
     | .eq => !numLt x y && !numLt y x
     | .un => false, none)

/-- ABS, NEG, COPYSIGN: only the sign bit of an operand that is not NaN changes (R149). `sign` is the new sign. -/
def fWithSign (f : Fmt) (sign : Bool) (a : Nat) : Nat × Option Event :=
  match f.decode a with
  | .nan sig => (f.nanCode, if sig then some .nanProduced else none)
  | _ => (a % 2 ^ (f.width - 1) + (if sign then 2 ^ (f.width - 1) else 0), none)

/-- SIGN (R150). -/
def fSign (f : Fmt) (a : Nat) : Nat × Option Event :=
  match f.decode a with
  | .nan sig => (f.nanCode, if sig then some .nanProduced else none)
  | x => if x.isZero then (a, none) else convertNum f .rne 0 (.fin ⟨signBit f a, 1, 0⟩)

/-- CVT and widening: into another floating-point precision, one rounding (R150). -/
def fCvt (src tgt : Fmt) (rnd : Rnd) (a : Nat) : Nat × Option Event :=
  finish tgt rnd [src.decode a] (some (src.decode a))

/-- CVTF: rounded to a format, then widened back exactly (R150). -/
def fCvtf (f tgt : Fmt) (rnd : Rnd) (a : Nat) : Nat × Option Event :=
  if tgt = f then (a, none)
  else
    let (code, ev) := convert f tgt rnd 0 a
    ((convertNum f .rne 0 (tgt.decode code)).1, ev)

/-- ITOF: a signed 32-bit integer. -/
def fOfInt (f : Fmt) (rnd : Rnd) (a : Nat) : Nat × Option Event :=
  convertNum f rnd 0 (.fin (.ofInt (toSigned 32 (a % 2 ^ 32))))

/-- FTOI: to a signed 32-bit integer (R150). -/
def fToInt (f : Fmt) (rnd : Rnd) (a : Nat) : Nat × Option Event :=
  match f.decode a with
  | .nan _ => (0, some .nanProduced)
  | .inf neg => (if neg then 0x80000000 else 0x7FFFFFFF, some .saturated)
  | .fin d => if d.m = 0 then (0, none) else roundInt 32 (-(2 ^ 31)) (2 ^ 31 - 1) rnd 0 d

/-- The element a Nozzle load delivers: widened to F32, kept as F64 from an F64 region, with the event of a
consumed signalling F16 or B16 NaN (R57). -/
def loadElement (f : Fmt) (code : Nat) : Nat × Option Event :=
  if f = .f32 ∨ f = .f64 then (code, none) else fCvt f .f32 .rne code

/-- Whether a value is exactly 1. -/
def Num.isOne : Num → Bool
  | .fin d => !d.neg && !(d.magLt ⟨false, 1, 0⟩) && !(Dy.magLt ⟨false, 1, 0⟩ d)
  | _ => false

/-- An exact multiplication by a factor, rounded once to the element's precision under RNE (R182). A factor of exactly
1.0 leaves the bits alone when `one` says so; under a factor of zero each nonzero element counts as flushed (R213). -/
def scaleElement (f : Fmt) (one : Bool) (factor : Num) (code : Nat) : Nat × Option Event :=
  if one && factor.isOne then (code, none)
  else
    let x := f.decode code
    let r := finish f .rne [x, factor] (exactMul x factor)
    match x with
    | .fin d => if factor.isZero && d.m != 0 then (r.1, some .flushed) else r
    | _ => r

end Sys2Proof.Machine
end

