-- ==== Sys2Proof/Machine/Counts.lean ====
section
/-! DEFINITION. Sets of census counters: four kinds for each format, and the five Cast counters (R83, R265, R315). -/

namespace Sys2Proof.Machine

/-- A set of counters: key 4 × format code + kind, and 48 onward for the Cast counters. -/
abbrev Counts := Tab Nat

/-- The counters of a set (R265, R315). -/
inductive Counter where
  | delivered (f : Fmt)
  | event (f : Fmt) (e : Event)
  | castBlocks | drossEntries | fallbackRoom | fallbackError | nanBlocks
  deriving DecidableEq, Repr

/-- The kind of an event within a format entry (R322). -/
def Event.kind : Event → Nat
  | .saturated => 1 | .flushed => 2 | .nanProduced => 3

/-- The key of a counter. -/
def Counter.key : Counter → Nat
  | .delivered f => 4 * f.code
  | .event f e => 4 * f.code + e.kind
  | .castBlocks => 48 | .drossEntries => 49 | .fallbackRoom => 50 | .fallbackError => 51 | .nanBlocks => 52

/-- Add to a counter; 48 bits, stopping at all-ones (R85). -/
def Counts.add (c : Counts) (k : Counter) (n : Nat) : Counts :=
  Tab.upd 0 c k.key (satAdd 48 · n)

/-- One element delivered at a site, with its event (R56, R315). -/
def Counts.deliver (c : Counts) (f : Fmt) (ev : Option Event) : Counts :=
  let c1 := c.add (.delivered f) 1
  match ev with
  | some e => c1.add (.event f e) 1
  | none => c1

/-- Elements delivered one after another at a site. -/
def Counts.deliverAll (c : Counts) (f : Fmt) (evs : List (Option Event)) : Counts :=
  evs.foldl (fun acc e => acc.deliver f e) c

/-- The sum of two sets, counter by counter. -/
def Counts.sum (a b : Counts) : Counts :=
  b.foldl (fun acc (k, n) => Tab.upd 0 acc k (satAdd 48 · n)) a

/-- What happened to one element over all the operations of a program run, in one precision: each of the three
counters counts at most one (R151). -/
structure Flags where
  used : Bool := false
  saturated : Bool := false
  flushed : Bool := false
  nanProduced : Bool := false
  deriving DecidableEq, Repr

/-- An arithmetic operation on the element, with its event. -/
def Flags.note (x : Flags) : Option Event → Flags
  | none => { x with used := true }
  | some .saturated => { x with used := true, saturated := true }
  | some .flushed => { x with used := true, flushed := true }
  | some .nanProduced => { x with used := true, nanProduced := true }

/-- The element's counts at the arithmetic site (R84, R315). -/
def Counts.flags (c : Counts) (f : Fmt) (x : Flags) : Counts :=
  if x.used then
    (((c.add (.delivered f) 1).add (.event f .saturated) (b2n x.saturated)).add (.event f .flushed) (b2n x.flushed)).add
      (.event f .nanProduced) (b2n x.nanProduced)
  else c

end Sys2Proof.Machine
end

