-- ==== Sys2Proof/Machine/Crypto.lean ====
section
/-! DEFINITION. The published algorithms the Warden uses: SHA-384, HMAC, HKDF, ECDSA and ECDH over P-384, AES-256-GCM
(R377, R379, R387, R393), and the plane checks' CRC-16 (R306). -/

namespace Sys2Proof.Machine

/-- A number of `n` 64-bit words as the list of them, the most significant word first. -/
def words64 : Nat → Nat → List Nat
  | 0, _ => []
  | n + 1, v => v / 2 ^ (64 * n) % 2 ^ 64 :: words64 n v

/-- The 80 round constants of SHA-384, five to a number (FIPS 180-4). -/
def shaConstants : List Nat :=
  [0x428a2f98d728ae227137449123ef65cdb5c0fbcfec4d3b2fe9b5dba58189dbbc3956c25bf348b538,
   0x59f111f1b605d019923f82a4af194f9bab1c5ed5da6d8118d807aa98a303024212835b0145706fbe,
   0x243185be4ee4b28c550c7dc3d5ffb4e272be5d74f27b896f80deb1fe3b1696b19bdc06a725c71235,
   0xc19bf174cf692694e49b69c19ef14ad2efbe4786384f25e30fc19dc68b8cd5b5240ca1cc77ac9c65,
   0x2de92c6f592b02754a7484aa6ea6e4835cb0a9dcbd41fbd476f988da831153b5983e5152ee66dfab,
   0xa831c66d2db43210b00327c898fb213fbf597fc7beef0ee4c6e00bf33da88fc2d5a79147930aa725,
   0x06ca6351e003826f142929670a0e6e7027b70a8546d22ffc2e1b21385c26c9264d2c6dfc5ac42aed,
   0x53380d139d95b3df650a73548baf63de766a0abb3c77b2a881c2c92e47edaee692722c851482353b,
   0xa2bfe8a14cf10364a81a664bbc423001c24b8b70d0f89791c76c51a30654be30d192e819d6ef5218,
   0xd69906245565a910f40e35855771202a106aa07032bbd1b819a4c116b8d2d0c81e376c085141ab53,
   0x2748774cdf8eeb9934b0bcb5e19b48a8391c0cb3c5c95a634ed8aa4ae3418acb5b9cca4f7763e373,
   0x682e6ff3d6b2b8a3748f82ee5defb2fc78a5636f43172f6084c87814a1f0ab728cc702081a6439ec,
   0x90befffa23631e28a4506cebde82bde9bef9a3f7b2c67915c67178f2e372532bca273eceea26619c,
   0xd186b8c721c0c207eada7dd6cde0eb1ef57d4f7fee6ed17806f067aa72176fba0a637dc5a2c898a6,
   0x113f9804bef90dae1b710b35131c471b28db77f523047d8432caab7b40c724933c9ebe0a15c9bebc,
   0x431d67c49c100d4c4cc5d4becb3e42b6597f299cfc657e2a5fcb6fab3ad6faec6c44198c4a475817].flatMap (words64 5)

/-- The initial hash value of SHA-384 (FIPS 180-4). -/
def shaStart : List Nat :=
  words64 8
    0xcbbb9d5dc1059ed8629a292a367cd5079159015a3070dd17152fecd8f70e593967332667ffc00b318eb44a8768581511db0c2e0d64f98fa747b5481dbefa4fa4

/-- A 64-bit word rotated right. -/
def rotr (x n : Nat) : Nat :=
  x / 2 ^ n + x % 2 ^ n * 2 ^ (64 - n)

/-- The exclusive or of three words. -/
def xor3 (a b c : Nat) : Nat :=
  Nat.xor (Nat.xor a b) c

/-- A mixing function of SHA-384: three rotations of a word, the last one a shift where `shift` holds (FIPS 180-4). -/
def shaMix (shift : Bool) (i j k x : Nat) : Nat :=
  xor3 (rotr x i) (rotr x j) (if shift then x / 2 ^ k else rotr x k)

/-- The message schedule: `window` holds the last 16 words, and one word leaves at each step (FIPS 180-4). -/
def shaSchedule : Nat → List Nat → List Nat
  | n + 1, w :: rest =>
    let next := w + shaMix true 1 8 7 (nth rest 0 0) + nth rest 8 0 + shaMix true 19 61 6 (nth rest 13 0)
    w :: shaSchedule n (rest ++ [next % 2 ^ 64])
  | _, _ => []

/-- One round on the eight working words, a first, with the round constant and the schedule word (FIPS 180-4). -/
def shaRound (v : List Nat) (k w : Nat) : List Nat :=
  match v with
  | [a, b, c, d, e, f, g, h] =>
    let choose := Nat.xor g (Nat.land e (Nat.xor f g))
    let major := Nat.xor (Nat.land a b) (Nat.land c (Nat.xor a b))
    let sum := h + shaMix false 14 18 41 e + choose + k + w
    [(sum + shaMix false 28 34 39 a + major) % 2 ^ 64, a, b, c, (d + sum) % 2 ^ 64, e, f, g]
  | _ => v

/-- The big-endian words of `n` × 8 bytes. -/
def beWords : Nat → List Byte → List Nat
  | 0, _ => []
  | n + 1, l => ofBe (l.take 8) :: beWords n (l.drop 8)

/-- The hash value after one 128-byte block. -/
def shaBlock (hash : List Nat) (block : List Byte) : List Nat :=
  let out := (shaConstants.zip (shaSchedule 80 (beWords 16 block))).foldl (fun v x => shaRound v x.1 x.2) hash
  List.zipWith (fun x y => (x + y) % 2 ^ 64) hash out

/-- The hash value after `n` blocks. -/
def shaBlocks : Nat → List Nat → List Byte → List Nat
  | 0, hash, _ => hash
  | n + 1, hash, l => shaBlocks n (shaBlock hash (l.take 128)) (l.drop 128)

/-- A message filled up to whole blocks (FIPS 180-4). -/
def shaPad (l : List Byte) : List Byte :=
  l ++ [0x80#8] ++ List.replicate ((239 - l.length % 128) % 128) 0#8 ++ beBytes 16 (8 * l.length)

/-- The SHA-384 digest, 48 bytes (R379). -/
def sha384 (l : List Byte) : List Byte :=
  let m := shaPad l
  ((shaBlocks (m.length / 128) shaStart m).take 6).flatMap (beBytes 8)

/-- The bytes of an ASCII text. -/
def ascii (s : String) : List Byte :=
  s.toList.map fun c => BitVec.ofNat 8 c.toNat

/-- HMAC-SHA-384 (R234). -/
def hmac (key msg : List Byte) : List Byte :=
  let k := padTo 128 (if 128 < key.length then sha384 key else key)
  sha384 (k.map (· ^^^ 0x5c#8) ++ sha384 (k.map (· ^^^ 0x36#8) ++ msg))

/-- HKDF-SHA-384 for at most 48 bytes of output (RFC 5869; R377, R387). -/
def hkdf (n : Nat) (salt input info : List Byte) : List Byte :=
  (hmac (hmac (if salt = [] then List.replicate 48 0#8 else salt) input) (info ++ [1#8])).take n

/-- The prime of P-384 (FIPS 186-5). -/
def p384P : Nat := 2 ^ 384 - 2 ^ 128 - 2 ^ 96 + 2 ^ 32 - 1

/-- The order of the base point. -/
def p384N : Nat :=
  0xffffffffffffffffffffffffffffffffffffffffffffffffc7634d81f4372ddf581a0db248b0a77aecec196accc52973

/-- The coefficient b of the curve. -/
def p384B : Nat :=
  0xb3312fa7e23ee7e4988e056be3f82d19181d9c6efe8141120314088f5013875ac656398d8a2ed19d2a85c8edd3ec2aef

/-- A point: coordinates, or the point at infinity. -/
abbrev Point := Option (Nat × Nat)

/-- The base point. -/
def p384G : Point := some
  (0xaa87ca22be8b05378eb1c71ef320ad746e1d3b628ba79b9859f741e082542a385502f25dbf55296c3a545e3872760ab7,
   0x3617de4a96262c6f5d9e98bf9292dc29f8f41dbd289a147ce9da3113b5f0b8c00a60b1ce1d7e819d7a431d7c90ea0e5f)

/-- Extended Euclid: keeps r = x × a mod m. -/
def invLoop (m : Nat) : Nat → Nat → Nat → Nat → Nat → Nat
  | 0, _, x0, _, _ => x0
  | fuel + 1, r0, x0, r1, x1 =>
    if r1 = 0 then x0 else invLoop m fuel r1 x1 (r0 % r1) ((x0 + m * m - r0 / r1 * x1) % m)

/-- The inverse of `a` modulo the prime `m`. -/
def invMod (m a : Nat) : Nat :=
  invLoop m 1200 m 0 (a % m) 1

/-- a − b modulo m, for b below m × m. -/
def subMod (m a b : Nat) : Nat :=
  (a + m * m - b) % m

/-- The sum of two points. -/
def pointAdd (a b : Point) : Point :=
  match a, b with
  | none, q => q
  | q, none => q
  | some (x1, y1), some (x2, y2) =>
    if x1 = x2 ∧ (y1 + y2) % p384P = 0 then none
    else
      let l :=
        if x1 = x2 then (subMod p384P (3 * x1 * x1 % p384P) 3) * invMod p384P (2 * y1) % p384P
        else subMod p384P y2 y1 * invMod p384P (subMod p384P x2 x1) % p384P
      let x3 := subMod p384P (l * l) (x1 + x2)
      some (x3, subMod p384P (l * subMod p384P x1 x3 % p384P) y1)

/-- k × a, for the low `n` bits of k, most significant first. -/
def pointMulBits (k : Nat) (a : Point) : Nat → Point → Point
  | 0, acc => acc
  | n + 1, acc =>
    let d := pointAdd acc acc
    pointMulBits k a n (if bit k n then pointAdd d a else d)

/-- k × a. -/
def pointMul (k : Nat) (a : Point) : Point :=
  pointMulBits k a 384 none

/-- The point of a 96-byte key, if it lies on the curve (R379, R390). -/
def pointOf (key : List Byte) : Option (Nat × Nat) :=
  let x := ofBe (key.take 48)
  let y := ofBe ((key.drop 48).take 48)
  if x < p384P ∧ y < p384P ∧ y * y % p384P = (x * x * x + p384B + p384P * p384P - 3 * x) % p384P then some (x, y) else none

/-- The 96 bytes of a point (R379). -/
def pointBytes : Point → List Byte
  | some (x, y) => beBytes 48 x ++ beBytes 48 y
  | none => List.replicate 96 0#8

/-- ECDSA verification of a 96-byte signature over a 48-byte digest (R379). -/
def ecdsaVerify (key digest sig : List Byte) : Bool :=
  let r := ofBe (sig.take 48)
  let s := ofBe ((sig.drop 48).take 48)
  match pointOf key with
  | none => false
  | some q =>
    if r = 0 ∨ p384N ≤ r ∨ s = 0 ∨ p384N ≤ s then false
    else
      let w := invMod p384N s
      let u1 := ofBe digest * w % p384N
      let u2 := r * w % p384N
      match pointAdd (pointMul u1 p384G) (pointMul u2 (some q)) with
      | none => false
      | some (x, _) => x % p384N == r

/-- ECDSA signature of a 48-byte digest under the private key `d` with the nonce `k` (R379). -/
def ecdsaSign (d k : Nat) (digest : List Byte) : List Byte :=
  let r := match pointMul k p384G with | some (x, _) => x % p384N | none => 0
  let s := invMod p384N k * ((ofBe digest + r * d) % p384N) % p384N
  beBytes 48 r ++ beBytes 48 s

/-- A random draw as a private key or a nonce, from 1 to n − 1. -/
def scalarOf (draw : Nat) : Nat :=
  draw % (p384N - 1) + 1

/-- The state (K, V) of HMAC-DRBG after an update with data (SP 800-90A). -/
def drbgUpdate (data : List Byte) (kv : List Byte × List Byte) : List Byte × List Byte :=
  let k1 := hmac kv.1 (kv.2 ++ [0#8] ++ data)
  let v1 := hmac k1 kv.2
  if data = [] then (k1, v1)
  else
    let k2 := hmac k1 (v1 ++ [1#8] ++ data)
    (k2, hmac k2 v1)

/-- HMAC-DRBG seeded with `seed`. -/
def drbgInit (seed : List Byte) : List Byte × List Byte :=
  drbgUpdate seed (List.replicate 48 0#8, List.replicate 48 1#8)

/-- The first candidate c at most n − 2, as the private key c + 1 (FIPS 186-5, testing candidates; R377). -/
def testCandidates : Nat → List Byte × List Byte → Nat
  | 0, _ => 1
  | fuel + 1, (k, v) =>
    let v1 := hmac k v
    let c := ofBe v1
    if c + 2 ≤ p384N then c + 1 else testCandidates fuel (drbgUpdate [] (k, v1))

/-- The identity private key of a root secret (R377). -/
def identityKey (root : List Byte) : Nat :=
  testCandidates 64 (drbgInit (hkdf 48 [] root (ascii "MZ identity")))

/-- Multiplication by x in GF(2^8) of AES. -/
def xtime (a : Nat) : Nat :=
  let b := 2 * a
  if 256 ≤ b then Nat.xor b 0x11b else b

/-- Multiplication in GF(2^8), over the low `n` bits of b. -/
def gmul : Nat → Nat → Nat → Nat
  | 0, _, _ => 0
  | n + 1, a, b => Nat.xor (if b % 2 = 1 then a else 0) (gmul n (xtime a) (b / 2))

/-- a^254: the inverse in GF(2^8). -/
def ginv (a : Nat) : Nat :=
  let sq (x : Nat) := gmul 8 x x
  let a2 := sq a
  let a4 := sq a2
  let a8 := sq a4
  let a16 := sq a8
  let a32 := sq a16
  let a64 := sq a32
  let a128 := sq a64
  [a4, a8, a16, a32, a64, a128].foldl (gmul 8) a2

/-- The AES S-box at a byte (FIPS 197). -/
def sboxAt (a : Nat) : Nat :=
  let b := ginv a
  let rot (n : Nat) := b * 2 ^ n % 256 + b / 2 ^ (8 - n)
  Nat.xor (xor3 (xor3 b (rot 1) (rot 2)) (rot 3) (rot 4)) 0x63

/-- The AES S-box. -/
def sbox : List Nat :=
  (List.range 256).map sboxAt

/-- A word of four bytes through the S-box. -/
def subWord (w : List Nat) : List Nat :=
  w.map fun b => sbox.getD b 0

/-- Exclusive or of two byte lists. -/
def xorBytes (a b : List Nat) : List Nat :=
  List.zipWith Nat.xor a b

/-- The key schedule of AES-256: words from number `i` on, the last eight words held newest first. -/
def aesExpand : Nat → Nat → Nat → List (List Nat) → List (List Nat)
  | 0, _, _, _ => []
  | n + 1, i, rcon, last =>
    let prev := last.getD 0 []
    let t :=
      if i % 8 = 0 then xorBytes (subWord (prev.drop 1 ++ prev.take 1)) [rcon, 0, 0, 0]
      else if i % 8 = 4 then subWord prev
      else prev
    let w := xorBytes (last.getD 7 []) t
    w :: aesExpand n (i + 1) (if i % 8 = 0 then xtime rcon else rcon) (w :: last.take 7)

/-- Cut a list into pieces of `k`. -/
def chunksOf {α : Type} (k : Nat) : Nat → List α → List (List α)
  | 0, _ => []
  | n + 1, l => l.take k :: chunksOf k n (l.drop k)

/-- The 60 words of the AES-256 key schedule. -/
def aesKey (key : List Nat) : List (List Nat) :=
  let ws := chunksOf 4 8 key
  ws ++ aesExpand 52 8 1 ws.reverse

/-- Shift rows of a column-major state. -/
def shiftRows (s : List Nat) : List Nat :=
  (List.range 16).map fun i => s.getD ((i + 4 * (i % 4)) % 16) 0

/-- Mix one column. -/
def mixColumn (c : List Nat) : List Nat :=
  (List.range 4).map fun i =>
    let g (k : Nat) := c.getD ((i + k) % 4) 0
    Nat.xor (Nat.xor (xtime (g 0)) (Nat.xor (xtime (g 1)) (g 1))) (Nat.xor (g 2) (g 3))

/-- AES rounds over the round keys; the last one mixes no columns. -/
def aesRounds : List (List Nat) → List Nat → List Nat
  | [], s => s
  | [k], s => xorBytes (shiftRows (subWord s)) k
  | k :: t, s => aesRounds t (xorBytes ((chunksOf 4 4 (shiftRows (subWord s))).flatMap mixColumn) k)

/-- One AES-256 block. -/
def aesBlock (schedule : List (List Nat)) (blk : List Nat) : List Nat :=
  match chunksOf 16 15 schedule.flatten with
  | k :: t => aesRounds t (xorBytes blk k)
  | [] => blk

/-- Multiplication in GF(2^128) of GCM, bit 127 the coefficient of x^0 (SP 800-38D). -/
def ghashMul (x : Nat) : Nat → Nat → Nat → Nat
  | 0, z, _ => z
  | n + 1, z, v =>
    let z' := if bit x n then Nat.xor z v else z
    let v' := if v % 2 = 1 then Nat.xor (v / 2) (0xe1 * 2 ^ 120) else v / 2
    ghashMul x n z' v'

/-- GHASH over blocks. -/
def ghash (h : Nat) (blocks : List (List Byte)) : Nat :=
  blocks.foldl (fun y b => ghashMul (Nat.xor y (ofBe (padTo 16 b))) 128 0 h) 0

/-- The 16-byte blocks of a byte list, the last one short. -/
def blocks16 (l : List Byte) : List (List Byte) :=
  chunksOf 16 ((l.length + 15) / 16) l

/-- AES-256-GCM encryption with a 12-byte IV: ciphertext and tag (R393, SP 800-38D). -/
def gcmEncrypt (key iv aad plain : List Byte) : List Byte × List Byte :=
  let sch := aesKey (key.map (·.toNat))
  let enc (l : List Byte) : List Byte := (aesBlock sch (l.map (·.toNat))).map (BitVec.ofNat 8)
  let counter (n : Nat) : List Byte := enc (iv ++ beBytes 4 n)
  let bs := blocks16 plain
  let cipher := (bs.zip (List.range bs.length)).flatMap fun (b, i) => List.zipWith (· ^^^ ·) b (counter (i + 2))
  let h := ofBe (enc (List.replicate 16 0#8))
  let s := ghash h (blocks16 aad ++ blocks16 cipher ++ [beBytes 8 (8 * aad.length) ++ beBytes 8 (8 * cipher.length)])
  (cipher, List.zipWith (· ^^^ ·) (beBytes 16 s) (counter 1))

/-- One byte of a CRC with polynomial 1021h over eight bits, most significant first. -/
def crcByte (crc : Nat) (b : Byte) : Nat :=
  (List.range 8).foldl (fun c _ => if 0x8000 ≤ c then Nat.xor (2 * c % 0x10000) 0x1021 else 2 * c)
    (Nat.xor crc (b.toNat * 256))

/-- CRC-16 from the initial value FFFFh (R306). -/
def crc16 (l : List Byte) : Nat :=
  l.foldl crcByte 0xFFFF

end Sys2Proof.Machine
end

