-- ==== Sys2Proof/Machine/Dot.lean ====
section
/-! DEFINITION. The Crucible's dot product: exact products, aligned groups of 16, a 24-bit accumulator (R58 to R69). -/

namespace Sys2Proof.Machine

/-- An operand under its UE8 scale code; FFh makes it NaN (R42, R60). -/
def scaledOperand (f : Fmt) (code : Nat) (scale : Option Nat) : Num :=
  match scale with
  | none => f.decode code
  | some 0xFF => .nan false
  | some e => (f.decode code).scale ((e : Int) - 127)

/-- An accumulator, and whether it counts NaN produced (R68). -/
structure Acc where
  value : Num
  counted : Bool := false
  deriving DecidableEq, Repr

/-- The products of a group that are finite and not zero (R62). -/
def finiteProducts : List (Num × Num) → List Dy
  | [] => []
  | (.fin a, .fin b) :: t => if a.m = 0 ∨ b.m = 0 then finiteProducts t else a.mul b :: finiteProducts t
  | _ :: t => finiteProducts t

/-- The exponent of a product of R62: the operands' exponents added, before the product's own carry. -/
def productExp (a b : Dy) : Int :=
  a.top + b.top

/-- The largest product exponent of a group (R64). -/
def groupExp : List (Num × Num) → Option Int
  | [] => none
  | (.fin a, .fin b) :: t =>
    if a.m = 0 ∨ b.m = 0 then groupExp t
    else some (match groupExp t with | none => productExp a b | some e => max e (productExp a b))
  | _ :: t => groupExp t

/-- The sum of a group's terms in units of 2^(Emax − 23), each magnitude cut before its sign is applied (R64 to R66). -/
def groupSum (emax : Int) : List (Num × Num) → Int
  | [] => 0
  | (.fin a, .fin b) :: t =>
    let p := a.mul b
    let n : Int := p.roundAt .rtz 0 (emax - 23)
    (if p.neg then -n else n) + groupSum emax t
  | _ :: t => groupSum emax t

/-- Whether the product is −0: a zero product of negative sign. -/
def minusZero : Num × Num → Bool
  | (.fin a, .fin b) => (a.m == 0 || b.m == 0) && (a.neg != b.neg)
  | _ => false

/-- The infinities among the products of a group, as signs (R68). -/
def infiniteSigns (g : List (Num × Num)) : List Bool :=
  g.filterMap fun (a, b) =>
    match exactMul a b with
    | some (.inf s) => some s
    | _ => none

/-- The value of a group, and whether it counts NaN produced (R63 to R66, R68). A NaN operand is not counted, signalling or not,
as the table of R68 has it; R36 and R83 speak of a consumed signalling NaN (log 127). -/
def groupValue (g : List (Num × Num)) : Acc :=
  if g.any (fun (a, b) => a.isNan || b.isNan) then { value := .nan false }
  else if g.any (fun (a, b) => (exactMul a b).isNone) then { value := .nan false, counted := true }
  else
    let signs := infiniteSigns g
    if signs.contains true && signs.contains false then { value := .nan false, counted := true }
    else
      match signs with
      | s :: _ => { value := .inf s }
      | [] =>
        match groupExp g with
        | none => { value := .fin ⟨g.all minusZero, 0, 0⟩ }
        | some e =>
          let s := groupSum e g
          { value := .fin ⟨s < 0, s.natAbs, e - 23⟩ }

/-- Rounded to 24 bits under RNE, the exponent unbounded (R67). -/
def round24 (d : Dy) : Dy :=
  if d.m = 0 then d else
  let q := d.top - 23
  ⟨d.neg, d.roundAt .rne 0 q, q⟩

/-- A group's value added to the accumulator (R67, R68). -/
def accAdd (a g : Acc) : Acc :=
  match a.value, g.value with
  | .nan _, _ => a
  | _, .nan _ => { value := .nan false, counted := a.counted || g.counted }
  | x, y =>
    match exactAdd .rne x y with
    | some (.fin d) => { a with value := .fin (round24 d) }
    | some v => { a with value := v }
    | none => { value := .nan false, counted := true }

/-- The accumulator set to the first group's value (R67). -/
def accSet (g : Acc) : Acc :=
  match g.value with
  | .fin d => { g with value := .fin (round24 d) }
  | _ => g

/-- The products in groups of 16 in ascending k (R63). -/
def groupsOf16 : Nat → List (Num × Num) → List (List (Num × Num))
  | 0, _ => []
  | fuel + 1, l => if l = [] then [] else l.take 16 :: groupsOf16 fuel (l.drop 16)

/-- The accumulator after all products, from an initial value if one is supplied (R67, R80). -/
def dot (init : Option Num) (products : List (Num × Num)) : Acc :=
  let gs := (groupsOf16 products.length products).map groupValue
  match init, gs with
  | some x, gs => gs.foldl accAdd { value := x }
  | none, [] => { value := .fin ⟨false, 0, 0⟩ }
  | none, g :: gs => gs.foldl accAdd (accSet g)

/-- The output conversion; an element counts NaN produced at most once (R68, R69). -/
def accOut (f : Fmt) (rnd : Rnd) (a : Acc) : Nat × Option Event :=
  let (code, ev) := convertNum f rnd 0 a.value
  (code, if a.counted then some .nanProduced else ev)

end Sys2Proof.Machine
end

