-- ==== Sys2Proof/Machine/CastTile.lean ====
section
/-! DEFINITION. What Cast makes of one tile: the mould tile, the dross record and the plane tile (R245 to R261). -/

namespace Sys2Proof.Machine

/-- Cut a list into pieces of `k` while anything is left. -/
def pieces {α : Type} (k : Nat) (l : List α) : List (List α) :=
  chunksOf k ((l.length + k - 1) / k) l

/-- What Cast is given for a tile (R245). The codes and the parameter indices stand in mould order. -/
structure CastIn where
  fmt : Fmt
  codes : List Nat
  pidx : List Nat
  ctl : Nat
  rnd : Rnd
  mould : Bool
  dross : Bool
  plane : Bool
  skimK : Nat
  errK : Nat
  seed : Nat
  epoch : Nat
  deriving DecidableEq, Repr

/-- What Cast gives for a tile: bytes to write at offsets of the mould tile, the dross record and the plane tile. -/
structure CastOut where
  mould : List (Nat × List Byte) := []
  dross : List Byte := []
  plane : List Byte := []
  counts : Counts := []
  deriving DecidableEq, Repr

/-- The size n of the rotation, 0 for none (R125, R250). -/
def ctlRotation (ctl : Nat) : Nat :=
  if bits ctl 0 3 = 0 then 0 else 2 ^ (bits ctl 0 3 + 3)

/-- The scale block B (R125). -/
def ctlBlock (ctl : Nat) : Nat :=
  2 ^ (bits ctl 3 2 + 4)

/-- Column direction (R125). -/
def ctlColumn (ctl : Nat) : Bool :=
  bit ctl 5

/-- The mould format (R125). -/
def ctlFormat (ctl : Nat) : Fmt :=
  if bit ctl 6 then .i4 else .q4e2

/-- One Cast conversion of an exact value that came from format `src`, divided by 2^`k` first (R54, R55, R253). -/
def castConvert (src tgt : Fmt) (rnd : Rnd) (d : Nat) (k : Int) (x : Num) : Nat × Option Event :=
  let y := x.scale (-k)
  convertNum tgt rnd d (if src = .f64 then viaF32 y else y)

/-- The sum of squares of finite values in F32, fused, each step rounded once; +0 of none (R73, R252). -/
def sumSquares (xs : List Num) : Nat :=
  match xs with
  | [] => 0
  | x :: t =>
    t.foldl (fun acc y => (finish .f32 .rne [Fmt.f32.decode acc] ((exactMul y y).bind (exactAdd .rne (Fmt.f32.decode acc)))).1)
      (finish .f32 .rne [] (exactMul x x)).1

/-- The magnitude of a finite value. -/
def Num.mag : Num → Dy
  | .fin d => { d with neg := false }
  | _ => ⟨false, 0, 0⟩

/-- The largest magnitude, +0 of none. -/
def maxMag (xs : List Num) : Dy :=
  xs.foldl (fun a x => if a.magLt x.mag then x.mag else a) ⟨false, 0, 0⟩

/-- The least k with amax ≤ m × 2^k, 0 for amax +0, limited to −127 to 127, with the event of the scale (R253). -/
def scaleExp (m : Nat) (amax : Dy) : Int × Option Event :=
  if amax.m = 0 then (0, none) else
  let k0 := amax.top - (Nat.log2 m : Nat)
  let k := if Dy.magLt ⟨false, m, k0⟩ amax then k0 + 1
    else if Dy.magLt ⟨false, m, k0 - 1⟩ amax then k0 else k0 - 1
  if 127 < k then (127, some .saturated) else if k < -127 then (-127, none) else (k, none)

/-- What the blocks of a tile have given so far (R252). -/
structure MouldState where
  room : Nat := 64
  codes : List Nat := []
  scales : List Nat := []
  fallback : List Bool := []
  ext : List (Option (List Nat)) := []
  entries : List (Nat × Nat) := []
  maxErr : Option Nat := none
  counts : Counts := []
  deriving DecidableEq, Repr

/-- A block written whole at Q8E4 (R255). `reason` is the counter of its cause. -/
def fallBack (ci : CastIn) (src : Fmt) (draws : List Nat) (xs : List Num) (reason : Counter) (st : MouldState) : MouldState :=
  let fin := xs.filter (fun x => !x.nonFinite)
  let (k, sev) := scaleExp 240 (maxMag fin)
  let cs := List.zipWith (fun x d => castConvert src .q8e4 ci.rnd d k x) xs draws
  { st with
    codes := st.codes ++ cs.map (fun c => c.1 % 16)
    scales := st.scales ++ [(k + 127).toNat]
    fallback := st.fallback ++ [true]
    ext := st.ext ++ [some (cs.map (fun c => c.1 / 16))]
    counts := (((st.counts.deliver .ue8 sev).deliverAll .q8e4 (cs.map (·.2))).add reason 1).add .castBlocks 1 }

/-- One block of the procedure of R252; `base` is its first mould position. -/
def castBlock (ci : CastIn) (src : Fmt) (base : Nat) (draws : List Nat) (xs : List Num) (st : MouldState) : MouldState :=
  if xs.any Num.isNan then
    { st with
      codes := st.codes ++ xs.map (fun _ => 0)
      scales := st.scales ++ [0xFF]
      fallback := st.fallback ++ [false]
      ext := st.ext ++ [none]
      counts := ((st.counts.deliver .ue8 none).add .nanBlocks 1).add .castBlocks 1 }
  else
    let f := Fmt.f32
    let mf := ctlFormat ci.ctl
    let skim := ci.dross && numLt (.fin ⟨false, 0, 0⟩) (f.decode ci.skimK)
    let fin := xs.filter (fun x => !x.nonFinite)
    let ss := sumSquares fin
    let r := (fUnary f .rne exactSqrt (fDiv f .rne ss (convertNum f .rne 0 (.fin ⟨false, ctlBlock ci.ctl, 0⟩)).1).1).1
    let tau := f.decode (fMul f .rne ci.skimK r).1
    let isOut (x : Num) : Bool := skim && (x.nonFinite || numLt tau (.fin x.mag))
    let nOut := (xs.filter isOut).length
    if st.room < nOut then fallBack ci src draws xs .fallbackRoom st
    else
      let kept := xs.filter (fun x => !x.nonFinite && !isOut x)
      let (k, sev) := scaleExp (if mf = .i4 then 7 else 6) (maxMag kept)
      let conv := List.zipWith (fun x d => if isOut x then (0, none) else castConvert src mf ci.rnd d k x) xs draws
      let pairs := (xs.zip conv).filter (fun (x, _) => !x.nonFinite && !isOut x)
      let diffs := pairs.map fun (x, c) =>
        f.decode (finish f .rne [] (exactAdd .rne x ((mf.decode c.1).scale k).negate)).1
      let num := sumSquares diffs
      let den := sumSquares kept
      let err := if den = 0 then 0 else (fDiv f .rne (fUnary f .rne exactSqrt num).1 (fUnary f .rne exactSqrt den).1).1
      if (fCmp f .lt ci.errK err).1 then fallBack ci src draws xs .fallbackError st
      else
        let outs := ((List.range xs.length).zip (xs.zip draws)).filter (fun (_, x, _) => isOut x)
        let ents := outs.map fun (p, x, d) => (base + p, castConvert src .b16 ci.rnd d 0 x)
        { st with
          room := st.room - nOut
          codes := st.codes ++ conv.map (·.1)
          scales := st.scales ++ [(k + 127).toNat]
          fallback := st.fallback ++ [false]
          ext := st.ext ++ [none]
          entries := st.entries ++ ents.map (fun (p, c) => (p, c.1))
          maxErr := some (match st.maxErr with | none => err | some e => (fExt f true e err).1)
          counts := ((((st.counts.deliver .ue8 sev).deliverAll mf
              (((xs.zip conv).filter (fun (x, _) => !isOut x)).map (·.2.2))).deliverAll .b16
              (ents.map (·.2.2))).add .drossEntries nOut).add .castBlocks 1 }

/-- The blocks of a tile in ascending order (R252). -/
def castBlocks (ci : CastIn) (src : Fmt) : Nat → List (List Nat) → List (List Num) → MouldState → MouldState
  | base, ds :: dt, xs :: xt, st => castBlocks ci src (base + xs.length) dt xt (castBlock ci src base ds xs st)
  | _, _, _, st => st

/-- Two 4-bit codes to a byte, the first in the low half (R33). -/
def packNibbles : List Nat → List Byte
  | [] => []
  | [a] => [BitVec.ofNat 8 a]
  | a :: b :: t => BitVec.ofNat 8 (a + 16 * b) :: packNibbles t

/-- Bits to bytes, the first in bit 0. -/
def packBits (l : List Bool) : List Byte :=
  (pieces 8 l).map fun c => BitVec.ofNat 8 (c.foldr (fun b acc => 2 * acc + b2n b) 0)

/-- The low and the high nibble of each byte. -/
def nibblesOf (l : List Byte) : List Nat :=
  l.flatMap fun b => [b.toNat % 16, b.toNat / 16]

/-- The bytes written of a mould tile (R256, R257). -/
def mouldBytes (ci : CastIn) (st : MouldState) : List (Nat × List Byte) :=
  let b := ctlBlock ci.ctl
  let fb := (st.fallback.filter id).length
  [(0, packNibbles st.codes),
   (0x800, st.scales.map (BitVec.ofNat 8)),
   (0x900, packBits st.fallback),
   (0x920, [BitVec.ofNat 8 (ctlFormat ci.ctl).code, BitVec.ofNat 8 (bits ci.ctl 0 7)] ++ leBytes 2 fb ++
      leBytes 4 ci.epoch ++ leBytes 8 (nth ci.pidx 0 0 % 2 ^ 40))] ++
  ((List.range st.ext.length).zip st.ext).filterMap fun (j, e) =>
    e.map fun hi => (0xA00 + j * b / 2, packNibbles hi)

/-- The bytes written of a dross record (R258). -/
def drossBytes (ci : CastIn) (st : MouldState) : List Byte :=
  leBytes 4 st.entries.length ++ leBytes 4 (st.maxErr.getD 0) ++ leBytes 4 ci.epoch ++ leBytes 4 0 ++
    st.entries.flatMap fun (p, v) => leBytes 2 p ++ leBytes 2 v

/-- The sign of entry (a, b) of the rotation: whether popcount(a AND b) is odd (R250). -/
def oddOverlap (n a b : Nat) : Bool :=
  popcount n (Nat.land a b) % 2 == 1

/-- One rotation group through the Crucible, with the counts of its conversions (R250, R251). -/
def rotateGroup (src : Fmt) (codes : List Nat) (c0 : Counts) : List Nat × Counts :=
  let n := codes.length
  let k := Nat.log2 n
  let direct := src == .f16 || src == .b16
  let ins := codes.map fun c => if direct then (c, none) else convert src .b16 .rne 0 c
  let xs := ins.map fun (c, _) => if direct then src.decode c else Fmt.b16.decode c
  let c1 := if direct then c0 else c0.deliverAll .b16 (ins.map (·.2))
  let outs := (List.range n).map fun a =>
    let acc := dot none ((xs.zip (List.range n)).map fun (x, b) => (x, .fin ⟨oddOverlap k a b, 1, 0⟩))
    accOut .f32 .rne { acc with value := acc.value.scale (-(((k + 1) / 2 : Nat) : Int)) }
  (outs.map (·.1), c1.deliverAll .f32 (outs.map (·.2)))

/-- The values of a tile after rotation, if any: their format, their codes, and the counts (R250, R251). -/
def rotated (ci : CastIn) : Fmt × List Nat × Counts :=
  if ctlRotation ci.ctl = 0 then (ci.fmt, ci.codes, [])
  else
    let (ys, cs) := (pieces (ctlRotation ci.ctl) ci.codes).foldl
      (fun (acc : List (List Nat) × Counts) g => let (y, c) := rotateGroup ci.fmt g acc.2; (y :: acc.1, c)) ([], [])
    (.f32, ys.reverse.flatten, cs)

/-- One segment of a plane tile: its scale, its 128 weights, and the counts (R260). -/
def planeSegment (ci : CastIn) (codes : List Nat) (draws : List Nat) (c0 : Counts) : Nat × List Nat × Counts :=
  let xs := codes.map ci.fmt.decode
  if xs.any Num.isNan then
    (0x7FC0, xs.map (fun _ => 0),
      ((c0.deliver .b16 none).deliverAll .i4 (xs.map fun x => if x.isNan then some .nanProduced else none)).add .nanBlocks 1)
  else
    let amax := maxMag (xs.filter fun x => !x.nonFinite)
    let (sc, sev) :=
      if amax.m = 0 then (0x3F80, none)
      else
        match exactDiv (.fin amax) (.fin ⟨false, 7, 0⟩) with
        | some q => convertNum .b16 .rup 0 q
        | none => (0x3F80, none)
    let sigma := Fmt.b16.decode sc
    let ws := List.zipWith (fun x d =>
      convertNum Fmt.i4 ci.rnd d (if x.nonFinite then x else
        let q := (exactDiv x sigma).getD (.nan false)
        if ci.fmt = Fmt.f64 then viaF32 q else q)) xs draws
    (sc, ws.map (·.1), (c0.deliver .b16 sev).deliverAll .i4 (ws.map (·.2)))

/-- Segments one after another. -/
def planeSegments (ci : CastIn) : List (List Nat) → List (List Nat) → Counts → List (Nat × List Nat) × Counts
  | cs :: ct, ds :: dt, c0 =>
    let (s, w, c1) := planeSegment ci cs ds c0
    let (rest, c2) := planeSegments ci ct dt c1
    ((s, w) :: rest, c2)
  | _, _, c0 => ([], c0)

/-- The plane tile: four bit-planes, 32 scales, and the check of every 32-byte group of every plane (R261, R306). -/
def planeBytes (segs : List (Nat × List Nat)) : List Byte :=
  let ws := segs.flatMap (·.2)
  let planes := (List.range 4).map fun b => packBits (ws.map (fun w => bit w b))
  planes.flatten ++ segs.flatMap (fun s => leBytes 2 s.1) ++
    planes.flatMap fun p => (pieces 32 p).flatMap fun g => leBytes 2 (crc16 g)

/-- The draws of a tile at a Cast site (R47). -/
def castDraws (ci : CastIn) (site : Site) : List Nat :=
  if ci.rnd = .rsr then ci.pidx.map fun p => draw ci.seed p 0 site ci.epoch else ci.pidx.map fun _ => 0

/-- What Cast makes of a tile (R252 to R261). -/
def castTile (ci : CastIn) : CastOut :=
  let (src, codes, c0) := if ci.mould then rotated ci else (ci.fmt, ci.codes, [])
  let b := ctlBlock ci.ctl
  let st := if ci.mould then
      castBlocks ci src 0 (pieces b (castDraws ci .castElement)) (pieces b (codes.map src.decode)) { counts := c0 }
    else {}
  let (segs, c1) := if ci.plane then
      planeSegments ci (pieces 128 ci.codes) (pieces 128 (castDraws ci .castPlane)) st.counts
    else ([], st.counts)
  { mould := if ci.mould then mouldBytes ci st else []
    dross := if ci.dross then drossBytes ci st else []
    plane := if ci.plane then planeBytes segs else []
    counts := c1 }

/-- The decoded operand elements of one mould tile, in mould order, for a CRUCIBLE: code of format `f` under the
fall-back map, and under the block scale when `scaled` (R199, R257, R259). -/
def mouldOperands (f : Fmt) (scaled : Bool) (tile : List Byte) : List Num :=
  let b := ctlBlock (fieldAt tile 0x921 1)
  let codes := nibblesOf (sliceAt tile 0 0x800)
  let exts := nibblesOf (sliceAt tile 0xA00 0x800)
  let blocks := (pieces b codes).zip (pieces b exts)
  ((List.range blocks.length).zip blocks).flatMap fun (j, cs, es) =>
    let s := if scaled then some (fieldAt tile (0x800 + j) 1) else none
    let fb := bit (fieldAt tile (0x900 + j / 8) 1) (j % 8)
    List.zipWith (fun c e => if fb then scaledOperand .q8e4 (16 * e + c) s else scaledOperand f c s) cs es

end Sys2Proof.Machine
end

