-- ==== Sys2Proof/Config.lean ====
section
/-! DEFINITION. What an implementation fixes and the spec leaves open: constants with no body, so that no proof can see a value. -/

namespace Sys2Proof

/-- A fresh free value: the n-th value the spec leaves open (log 3). The state counts how many were drawn. -/
opaque Config.freeWord : Nat → BitVec 64

/-- What is read at fabric address `a`, where there is no memory, after `n` draws (R413, log 106). -/
opaque Config.holeByte (n a : Nat) : BitVec 8

/-- Whether an image chunk that FWCHUNK broadcasts after `n` draws comes to core `c` spoilt, so that it fails its check there
(R384, log 122). -/
opaque Config.chunkSpoilt (n c : Nat) : Bool

/-- The 384-bit root secret that the physically unclonable function gives (R377, log 12). -/
opaque Config.pufRoot : BitVec 384

/-- Haresk's signing public key in the Warden's ROM: X and Y, 48 bytes each, big-endian (R379, log 12). -/
opaque Config.romKey : BitVec 768

/-- The n-th draw of the Warden's random generator: ephemeral private keys, salts, signature nonces (R377, log 12). -/
opaque Config.random : Nat → BitVec 384

/-- What STATE_RD reads of TARGET `t` at an address `a` where the manual leaves the state open, after `n` draws (R411, log 15). -/
opaque Config.stateWord (n t a : Nat) : BitVec 32

end Sys2Proof
end

