-- ==== Sys2Proof/Machine/Program.lean ====
section
/-! DEFINITION. Nozzle program images: their words, instructions, checks at commit, and the built-in programs (R141 to R154, R164, R183, R184). -/

namespace Sys2Proof.Machine

/-- The opcodes of R150. -/
inductive Op where
  | add | sub | mul | fma | fnma | div | sqrt | rsqrt | max | min | abs | neg | sign | copysign | exp2 | log2
  | cvt | cvtf | sel | cmplt | cmple | cmpeq | cmpun | pand | por | pnot
  | iadd | isub | imul | iminu | imaxu | and | or | xor | shl | shr | icmpltu | icmpeq | itof | ftoi | mov
  | cld | cst | cacc | rsum | rssq | rmax | rmin | ramax | ramin | st
  deriving DecidableEq, Repr

/-- The opcodes from 01h to 13h (R150). -/
def opsFrom01 : List Op :=
  [.add, .sub, .mul, .fma, .fnma, .div, .sqrt, .rsqrt, .max, .min, .abs, .neg, .sign, .copysign, .exp2, .log2,
   .cvt, .cvtf, .sel]

/-- The opcodes from 18h to 1Eh (R150). -/
def opsFrom18 : List Op :=
  [.cmplt, .cmple, .cmpeq, .cmpun, .pand, .por, .pnot]

/-- The opcodes from 20h to 2Eh (R150). -/
def opsFrom20 : List Op :=
  [.iadd, .isub, .imul, .iminu, .imaxu, .and, .or, .xor, .shl, .shr, .icmpltu, .icmpeq, .itof, .ftoi, .mov]

/-- The opcodes from 30h to 32h, and from 38h to 3Dh (R150). -/
def opsFrom30 : List Op :=
  [.cld, .cst, .cacc]

/-- The reductions (R150). -/
def opsFrom38 : List Op :=
  [.rsum, .rssq, .rmax, .rmin, .ramax, .ramin]

/-- The operation of an opcode; codes not listed are reserved (R150). -/
def Op.ofCode (c : Nat) : Option Op :=
  if c = 0 then none
  else if c < 0x18 then opsFrom01[c - 1]?
  else if c < 0x20 then opsFrom18[c - 0x18]?
  else if c < 0x30 then opsFrom20[c - 0x20]?
  else if c < 0x38 then opsFrom30[c - 0x30]?
  else if c = 0x3F then some .st
  else opsFrom38[c - 0x38]?

/-- What an instruction writes (R150). -/
inductive Target where
  | nothing | value | predicate
  deriving DecidableEq, Repr

/-- The fields an opcode uses: how many operand selects and how many predicate numbers, what it writes, the bits of
AUX, whether RND and PREC may be nonzero, and whether SRCC and AUX hold a Cistern base (R147, R150, R152, R161). -/
structure Shape where
  selects : Nat
  preds : Nat := 0
  target : Target := .value
  aux : Nat := 0
  rnd : Bool := false
  prec : Bool := false
  base : Bool := false
  deriving DecidableEq, Repr

/-- The shape of each opcode (R150, R152, R161). -/
def Op.shape : Op → Shape
  | .add | .sub | .mul | .div | .max | .min => { selects := 2, rnd := true, prec := true }
  | .fma | .fnma => { selects := 3, rnd := true, prec := true }
  | .sqrt | .rsqrt | .exp2 | .log2 | .cvt | .itof | .ftoi => { selects := 1, rnd := true, prec := true }
  | .abs | .neg | .sign | .mov => { selects := 1, prec := true }
  | .copysign | .sel => { selects := 2, prec := true }
  | .cvtf => { selects := 1, aux := 0xF, rnd := true, prec := true }
  | .cmplt | .cmple | .cmpeq | .cmpun => { selects := 2, target := .predicate, prec := true }
  | .pand | .por => { selects := 0, preds := 2, target := .predicate }
  | .pnot => { selects := 0, preds := 1, target := .predicate }
  | .icmpltu | .icmpeq => { selects := 2, target := .predicate }
  | .cld => { selects := 1, prec := true, base := true }
  | .cst => { selects := 2, target := .nothing, prec := true, base := true }
  | .cacc => { selects := 2, target := .nothing, rnd := true, prec := true, base := true }
  | .rsum | .rssq | .rmax | .rmin | .ramax | .ramin => { selects := 1, target := .nothing, aux := 0x3F, prec := true }
  | .st => { selects := 1, target := .nothing, aux := 0x1F, rnd := true, prec := true }
  | .iadd | .isub | .imul | .iminu | .imaxu | .and | .or | .xor | .shl | .shr => { selects := 2 }

/-- Whether an operation is a reduction. -/
def Op.isReduction : Op → Bool
  | .rsum | .rssq | .rmax | .rmin | .ramax | .ramin => true
  | _ => false

/-- Whether an operation reads or writes the Cistern. -/
def Op.isCistern : Op → Bool
  | .cld | .cst | .cacc => true
  | _ => false

/-- The fields of an instruction word (R147). -/
structure Insn where
  op : Nat
  dst : Nat
  a : Nat
  b : Nat
  c : Nat
  rnd : Nat
  prec : Bool
  maskEn : Bool
  zero : Bool
  inv : Bool
  psel : Nat
  count : Nat
  countK : Bool
  aux : Nat
  deriving DecidableEq, Repr

/-- The instruction of a word (R147). -/
def Insn.ofWord (w : Nat) : Insn :=
  { op := bits w 0 8, dst := bits w 8 4, a := bits w 12 6, b := bits w 18 6, c := bits w 24 6, rnd := bits w 30 3
    prec := bit w 33, maskEn := bit w 34, zero := bit w 35, inv := bit w 36, psel := bits w 37 2
    count := bits w 39 13, countK := bit w 52, aux := bits w 53 11 }

/-- A window word (R164). -/
structure Window where
  writeBack : Bool
  stream : Nat
  cbase : Nat
  words : Nat
  deriving DecidableEq, Repr

/-- The window of a word (R164). -/
def Window.ofWord (w : Nat) : Window :=
  ⟨bit w 0, bits w 1 3, bits w 5 19, bits w 24 20⟩

/-- The words of an image, as numbers (R141). -/
abbrev Image := List Nat

/-- Word `i` of an image. -/
def word (im : Image) (i : Nat) : Nat :=
  im.getD i 0

/-- LEN (R142). -/
def progLen (im : Image) : Nat := bits (word im 0) 0 7

/-- F64 (R142). -/
def progF64 (im : Image) : Bool := bit (word im 0) 7

/-- IN_USED (R142). -/
def progIn (im : Image) : Nat := bits (word im 0) 8 6

/-- OUT_USED (R142). -/
def progOut (im : Image) : Nat := bits (word im 0) 14 4

/-- WIN_USED (R142). -/
def progWin (im : Image) : Nat := bits (word im 0) 18 4

/-- The instructions 1 to LEN (R141). -/
def progInsns (im : Image) : List Insn :=
  (List.range (min (progLen im) 64)).map fun i => .ofWord (word im (21 + i))

/-- The windows in force, in window order (R145). -/
def progWindows (im : Image) : List Window :=
  ((List.range 4).filter fun k => bit (progWin im) k).map fun k => .ofWord (word im (1 + k))

/-- The image of bytes (R141). -/
def imageOfBytes (l : List Byte) : Image :=
  (List.range 96).map fun i => fieldAt l (8 * i) 8

/-- The 768 bytes of an image (R141). -/
def imageBytes (im : Image) : List Byte :=
  (List.range 96).flatMap fun i => leBytes 8 (word im i)

/-- The operand selects that an instruction uses. -/
def Insn.selects (i : Insn) : List Nat :=
  match Op.ofCode i.op with
  | some o => [i.a, i.b, i.c].take o.shape.selects
  | none => []

/-- Reserved operand selects (R148). -/
def reservedSelect (s : Nat) : Bool :=
  s = 0x16 || s = 0x17 || s = 0x1D || s = 0x1E || s = 0x1F

/-- The input streams read per element (R148). -/
def readStreams (is : List Insn) : List Nat :=
  is.flatMap fun i => (i.selects.filter fun s => 0x10 ≤ s && s ≤ 0x15).map (· - 0x10)

/-- The instructions of an operation satisfying `p`. -/
def insnsOf (p : Op → Bool) (is : List Insn) : List Insn :=
  is.filter fun i => (Op.ofCode i.op).any p

/-- The stores of a program. -/
def storesOf (is : List Insn) : List Insn :=
  insnsOf (· == .st) is

/-- The reductions of a program. -/
def reductionsOf (is : List Insn) : List Insn :=
  insnsOf Op.isReduction is

/-- Reason 2h of one instruction (R145, R148, R150, R152, R161). With them a keep-source code of 6 and a nonzero RND of a
reduction, for which the rule names no reason (log 130). -/
def Insn.illFields (i : Insn) : Bool :=
  match Op.ofCode i.op with
  | none => true
  | some o =>
    let sh := o.shape
    let unused := [i.a, i.b, i.c].drop (max sh.selects sh.preds)
    i.selects.any reservedSelect
    || (0 < sh.preds && ([i.a, i.b].take sh.preds).any (3 < ·))
    || (if sh.base then unused.dropLast.any (· != 0) else unused.any (· != 0))
    || (sh.target == .predicate && 3 < i.dst) || (sh.target == .nothing && i.dst != 0)
    || (!sh.base && Nat.land i.aux sh.aux != i.aux)
    || (!sh.rnd && i.rnd != 0) || (!sh.prec && i.prec)
    || (o == .sel && i.maskEn)
    || (o == .st && bits i.aux 2 3 == 6)

/-- Reason 1h: the header, the unused words, windows and literals (R145). -/
def imageReason1 (im : Image) : Bool :=
  let len := progLen im
  let is := progInsns im
  let lits := is.flatMap fun i => (i.selects.filter (0x30 ≤ ·)).map (· - 0x30)
  len == 0 || 64 < len || bits (word im 0) 22 10 != 0 || bits (word im 0) 48 16 != 0
  || ((im.drop (21 + min len 64)).take 75).any (· != 0)
  || (List.range 4).any (fun k => !bit (progWin im) k && word im (1 + k) != 0)
  || (List.range 16).any (fun k => !lits.contains k && word im (5 + k) != 0)

/-- Whether a list of numbers has a number twice. -/
def hasTwice : List Nat → Bool
  | [] => false
  | x :: t => t.contains x || hasTwice t

/-- Reason 6h: stream use against the header (R145, R154). -/
def imageReason6 (im : Image) : Bool :=
  let is := progInsns im
  let ws := progWindows im
  let reads := readStreams is
  let sts := (storesOf is).map fun i => bits i.aux 0 2
  let reds := (reductionsOf is).map fun i => bits i.aux 0 6
  let redOuts := reds.map (· % 4)
  let wIn := (ws.filter fun w => !w.writeBack).map (·.stream)
  let wOut := (ws.filter fun w => w.writeBack).map (·.stream)
  let usesIn := reads ++ wIn
  let usesOut := sts ++ redOuts ++ wOut
  usesIn.any (fun k => !bit (progIn im) k) || usesOut.any (fun k => !bit (progOut im) k)
  || (bitsOf 6 (progIn im)).any (fun k => !usesIn.contains k) || (bitsOf 4 (progOut im)).any (fun k => !usesOut.contains k)
  || hasTwice sts || sts.any redOuts.contains || hasTwice reds
  || wIn.any reads.contains || wOut.any sts.contains
  || (storesOf is).any fun i =>
      let keep := bits i.aux 2 3
      if keep == 7 then !i.zero && !(!i.maskEn && !i.countK && i.count == 0x1000) else keep < 6 && !reads.contains keep

/-- Whether two load windows of a list overlap in the Cistern. -/
def windowsOverlap : List Window → Bool
  | [] => false
  | w :: t => t.any (fun v => w.cbase < v.cbase + v.words && v.cbase < w.cbase + w.words) || windowsOverlap t

/-- Reason 7h: the windows in force (R145, R164); with them the reserved bits of their words, for which the rule names no
reason (log 129). -/
def imageReason7 (im : Image) : Bool :=
  let raw := ((List.range 4).filter fun k => bit (progWin im) k).map fun k => word im (1 + k)
  let ws := progWindows im
  raw.any (fun w => bit w 4 || bits w 44 20 != 0)
  || ws.any (fun w => w.words == 0 || 0x80000 < w.cbase + w.words || (if w.writeBack then 3 else 5) < w.stream)
  || windowsOverlap (ws.filter fun w => !w.writeBack)

/-- The lowest of the reasons 1h to 8h that an image meets, 0 for none (R145). -/
def imageReason (im : Image) : Nat :=
  let is := progInsns im
  if imageReason1 im then 1
  else if is.any Insn.illFields then 2
  else if is.any (fun i => 6 ≤ i.rnd || (i.rnd == 4 && Op.ofCode i.op != some .st)) then 3
  else if is.any (fun i => i.prec && !progF64 im) then 4
  else if is.any (fun i => if i.countK then 16 ≤ i.count else 0x1000 < i.count) then 5
  else if imageReason6 im then 6
  else if imageReason7 im then 7
  else if is.any (fun i => Op.ofCode i.op == some .cvtf && (bits i.aux 0 4 == 1 || 11 ≤ bits i.aux 0 4)) then 8
  else 0

/-- An instruction word with COUNT 1000h and RNE (R147, R183). -/
def insnWord (op dst a b c aux : Nat) : Nat :=
  op + dst * 2 ^ 8 + a * 2 ^ 12 + b * 2 ^ 18 + c * 2 ^ 24 + 0x1000 * 2 ^ 39 + aux * 2 ^ 53

/-- A store of a value register into an output stream, with its keep source (R150). -/
def stWord (out v keep : Nat) : Nat :=
  insnWord 0x3F 0 v 0 0 (out + 4 * keep)

/-- An image of a program without windows; L0 as given (R183). -/
def builtinImage (inUsed outUsed l0 : Nat) (ws : List Nat) : Image :=
  [ws.length + inUsed * 2 ^ 8 + outUsed * 2 ^ 14, 0, 0, 0, 0, l0] ++ List.replicate 15 0 ++ ws ++
    List.replicate (75 - ws.length) 0

/-- 1.0 as the literal L0 (R183). -/
def one32 : Nat := 0x3F800000

/-- AdamW, 0001h (R184). -/
def adamW : Image :=
  builtinImage 0xF 7 one32
    [insnWord 2 0 0x30 0x21 0 0, insnWord 3 1 0 0x11 0 0, insnWord 4 2 0x21 0x12 1 0, insnWord 2 3 0x30 0x22 0 0,
     insnWord 3 4 0x11 0x11 0 0, insnWord 3 5 3 4 0 0, insnWord 4 6 0x22 0x13 5 0, insnWord 6 7 6 0x2F 0 0,
     insnWord 7 8 7 0 0 0, insnWord 1 8 8 0x23 0 0, insnWord 6 9 2 0x2E 0 0, insnWord 6 9 9 8 0 0,
     insnWord 3 10 0x20 0x24 0 0, insnWord 5 11 10 0x10 0x10 0, insnWord 5 11 0x20 9 11 0,
     stWord 0 11 0, stWord 1 2 2, stWord 2 6 3]

/-- Lion, 0002h (R184). -/
def lion : Image :=
  builtinImage 7 3 one32
    [insnWord 2 0 0x30 0x21 0 0, insnWord 3 1 0 0x11 0 0, insnWord 4 2 0x21 0x12 1 0, insnWord 0xD 3 2 0 0 0,
     insnWord 3 4 0x20 0x24 0 0, insnWord 5 5 4 0x10 0x10 0, insnWord 5 5 0x20 3 5 0,
     insnWord 2 6 0x30 0x22 0 0, insnWord 3 7 6 0x11 0 0, insnWord 4 8 0x22 0x12 7 0, stWord 0 5 0, stWord 1 8 2]

/-- SGD with momentum, 0003h (R184). -/
def sgd : Image :=
  builtinImage 7 3 0
    [insnWord 4 0 0x21 0x12 0x11 0, insnWord 3 1 0x20 0x24 0 0, insnWord 5 2 1 0x10 0x10 0, insnWord 5 2 0x20 0 2 0,
     stWord 0 2 0, stWord 1 0 2]

/-- Sign momentum, 0004h (R184). -/
def signMomentum : Image :=
  builtinImage 7 3 one32
    [insnWord 2 0 0x30 0x21 0 0, insnWord 3 1 0 0x11 0 0, insnWord 4 2 0x21 0x12 1 0, insnWord 0xD 3 2 0 0 0,
     insnWord 3 4 0x20 0x24 0 0, insnWord 5 5 4 0x10 0x10 0, insnWord 5 5 0x20 3 5 0, stWord 0 5 0, stWord 1 2 2]

/-- Factored second moment, 0005h (R184). -/
def factored : Image :=
  builtinImage 0x23 1 0
    [insnWord 7 0 0x15 0 0 0, insnWord 1 0 0 0x23 0 0, insnWord 6 1 0x11 0 0 0, insnWord 3 2 0x20 0x24 0 0,
     insnWord 5 3 2 0x10 0x10 0, insnWord 5 3 0x20 1 3 0, stWord 0 3 0]

/-- The built-in program of a number; 0006h to 00FFh are not assigned (R183). -/
def builtin : Nat → Option Image
  | 1 => some adamW | 2 => some lion | 3 => some sgd | 4 => some signMomentum | 5 => some factored
  | _ => none

end Sys2Proof.Machine
end

