-- ==== Sys2Proof/Machine/Nozzle.lean ====
section
/-! DEFINITION. The Nozzle: elements in the lanes, the pipeline's cycles, the Cistern, and reductions (R136 to R173). -/

namespace Sys2Proof.Machine

/-- One element in a lane: its stream values after the load stage, its stored codes for keep sources, the registers
and predicates, its arithmetic flags, and what its stores and reductions have given (R148, R151, R158, R161). -/
structure Elem where
  ins : List Nat
  raws : List Nat
  v : List Nat := List.replicate 16 0
  p : List Bool := List.replicate 4 false
  a32 : Flags := {}
  a64 : Flags := {}
  outs : List (Option Nat) := List.replicate 4 none
  stored : List (Fmt × Option Event) := []
  reds : List (Nat × Nat) := []
  deriving DecidableEq, Repr

/-- A program fault: instruction number, position in the tile, class (R172, R173). -/
structure NzFault where
  insn : Nat
  pos : Nat
  cls : Nat
  deriving DecidableEq, Repr

/-- The earlier of two faults in R173's order: lowest instruction, then lowest element. -/
def firstFault (a : Option NzFault) (b : NzFault) : Option NzFault :=
  match a with
  | none => some b
  | some x => if x.insn < b.insn ∨ (x.insn = b.insn ∧ x.pos ≤ b.pos) then some x else some b

/-- What is the same for every element of a descriptor's part: the image, formats, constants, epoch and seed. -/
structure NzEnv where
  image : Image := []
  inFmts : List Fmt := []
  outFmts : List Fmt := []
  consts : List Nat := []
  epoch : Nat := 0
  seed : Nat := 0
  deriving DecidableEq, Repr

/-- A tile in the Nozzle: first element index (R72), the parameter index of its first element in IN0, stamp and
presence, the cycle its first group enters stage 1, the effective counts of its instructions, and its groups. -/
structure NzTile where
  i0 : Nat
  pidx : Nat
  stamp : Nat
  present : Bool
  start : Nat
  counts : List Nat
  groups : List (List Elem)
  fault : Option NzFault := none
  deriving DecidableEq, Repr

/-- Lanes that issue in one cycle: 128, or 32 in an F64 program (R138). -/
def groupSize (im : Image) : Nat :=
  if progF64 im then 32 else 128

/-- Cycles in which a pass of a full tile issues (R136, R138). -/
def passCycles (im : Image) : Nat :=
  if progF64 im then 128 else 32

/-- The number of passes (R137). -/
def passes (im : Image) : Nat :=
  if progLen im ≤ 24 then 1 else if progLen im ≤ 48 then 2 else 3

/-- The effective count of an instruction in a tile of `n` elements; none is a fault of class 01h (R153, R155). -/
def effectiveCount (env : NzEnv) (n : Nat) (i : Insn) : Option Nat :=
  if i.countK then
    match Fmt.f32.decode (nth env.consts (i.count % 16) 0) with
    | .fin d =>
      let c := d.roundAt .rtz 0 0
      if (d.neg && c != 0) || 4096 < c then none else some (min c n)
    | _ => none
  else some (min i.count n)

/-- The effective counts of all instructions, and the fault of the first that has none (R155). -/
def tileCounts (env : NzEnv) (n : Nat) : List Nat × Option NzFault :=
  let cs := (progInsns env.image).map (effectiveCount env n)
  let bad := (List.range cs.length).find? fun k => cs.getD k none == none
  (cs.map (·.getD 0), bad.map fun k => ⟨k + 1, 0, 1⟩)

/-- The precision format of an instruction. -/
def precFmt (prec : Bool) : Fmt :=
  if prec then .f64 else .f32

/-- An F32 value as a PREC 1 operation reads it. A signalling NaN stays signalling, for the operation that consumes it (R57,
R148); the sign of a NaN is lost, for COPYSIGN too (R149, log 131). -/
def widen64 (code : Nat) : Nat :=
  match Fmt.f32.decode code with
  | .nan true => 0x7FF0000000000001
  | x => (convertNum .f64 .rne 0 x).1

/-- How an operand is read: raw bits, as F32 or integer, or as F64 (R148). -/
inductive ReadAs where
  | raw | word | double
  deriving DecidableEq, Repr

/-- The value of an operand select (R148). `j` is the element's position in the tile. -/
def operand (env : NzEnv) (t : NzTile) (j : Nat) (e : Elem) (as' : ReadAs) (sel : Nat) : Nat :=
  let narrow (x : Nat) : Nat := if as' = .word then x % 2 ^ 32 else x
  let wide32 (x : Nat) : Nat := if as' = .double then widen64 x else x
  if sel < 16 then narrow (nth e.v sel 0)
  else if 0x30 ≤ sel then narrow (word env.image (5 + (sel - 0x30)))
  else if 0x20 ≤ sel then wide32 (nth env.consts (sel - 0x20) 0)
  else if sel ≤ 0x15 then
    let x := nth e.ins (sel - 0x10) 0
    if nth env.inFmts (sel - 0x10) .f32 = .f64 then narrow x else wide32 x
  else if sel = 0x18 then (t.i0 + j) % 2 ^ 32
  else if sel = 0x19 then env.epoch % 2 ^ 32
  else if sel = 0x1A then t.stamp % 2 ^ 32
  else if sel = 0x1B then b2n t.present
  else (t.i0 + j) % 4096

/-- Whether a PREC 1 operation reads an operand select widened: an F32 stream or a constant (R148). -/
def widens (env : NzEnv) (sel : Nat) : Bool :=
  (0x20 ≤ sel && sel < 0x30) || (0x10 ≤ sel && sel ≤ 0x15 && nth env.inFmts (sel - 0x10) .f32 != .f64)

/-- An operand that an instruction moves without arithmetic: MOV, SEL, CST, and an ST to F64. Where PREC 1 widens it, a
signalling NaN is consumed: the canonical NaN goes on, and is counted (R36, R57, R148; log 131). -/
def moved (env : NzEnv) (t : NzTile) (j : Nat) (e : Elem) (as' : ReadAs) (sel : Nat) : Nat × Option Event :=
  if as' = .double ∧ widens env sel then fCvt .f32 .f64 .rne (operand env t j e .raw sel)
  else (operand env t j e as' sel, none)

/-- Integer operations on 32 bits (R150). -/
def intOp (o : Op) (a b : Nat) : Nat :=
  let r := match o with
    | .iadd => a + b
    | .isub => a + (2 ^ 32 - b % 2 ^ 32)
    | .imul => a * b
    | .iminu => min a b
    | .imaxu => max a b
    | .and => Nat.land a b
    | .or => Nat.lor a b
    | .xor => Nat.xor a b
    | .shl => a * 2 ^ (b % 32)
    | .shr => a / 2 ^ (b % 32)
    | _ => 0
  r % 2 ^ 32

/-- The result of a value-producing floating-point operation or conversion (R149, R150). -/
def floatOp (o : Op) (f : Fmt) (rnd : Rnd) (aux a b c : Nat) : Nat × Option Event :=
  match o with
  | .add => fAdd f rnd a b
  | .sub => fSub f rnd a b
  | .mul => fMul f rnd a b
  | .fma => fFma f rnd false a b c
  | .fnma => fFma f rnd true a b c
  | .div => fDiv f rnd a b
  | .sqrt => fUnary f rnd exactSqrt a
  | .rsqrt => fUnary f rnd exactRsqrt a
  | .exp2 => fUnary f rnd exactExp2 a
  | .log2 => fUnary f rnd exactLog2 a
  | .max => fExt f true a b
  | .min => fExt f false a b
  | .abs => fWithSign f false a
  | .neg => fWithSign f (!signBit f a) a
  | .sign => fSign f a
  | .copysign => fWithSign f (signBit f b) a
  | .cvt => if f = .f32 then fCvt .f32 .f64 .rne a else fCvt .f64 .f32 rnd a
  | .cvtf => match Fmt.ofCode (aux % 16) with
    | some tgt => fCvtf f tgt rnd a
    | none => (a, none)
  | .itof => fOfInt f rnd a
  | .ftoi => fToInt f rnd a
  | _ => (0, none)

/-- Count an arithmetic event under the instruction's precision (R151). -/
def Elem.count (e : Elem) (prec : Bool) (ev : Option Event) : Elem :=
  if prec then { e with a64 := e.a64.note ev } else { e with a32 := e.a32.note ev }

/-- Write a value register. -/
def Elem.setV (e : Elem) (r x : Nat) : Elem :=
  { e with v := modAt (fun _ => x) e.v r }

/-- Write a predicate. -/
def Elem.setP (e : Elem) (r : Nat) (x : Bool) : Elem :=
  { e with p := modAt (fun _ => x) e.p (r % 4) }

/-- Whether an element takes part in an instruction (R153, R154). -/
def active (t : NzTile) (num j : Nat) (i : Insn) (e : Elem) : Bool :=
  j < nth t.counts (num - 1) 0 && (!i.maskEn || nth e.p i.psel false != i.inv)

/-- The Cistern: words by address, an unwritten word reading 0 (R163). -/
abbrev Cistern := Tab Nat

/-- Read 32 or 64 bits at a Cistern word (R166). -/
def Cistern.read (c : Cistern) (prec : Bool) (w : Nat) : Nat :=
  if prec then Tab.get 0 c w + 2 ^ 32 * Tab.get 0 c (w + 1) else Tab.get 0 c w

/-- Write 32 or 64 bits at a Cistern word (R166). -/
def Cistern.write (c : Cistern) (prec : Bool) (w x : Nat) : Cistern :=
  let c1 := Tab.set 0 c w (x % 2 ^ 32)
  if prec then Tab.set 0 c1 (w + 1) (x / 2 ^ 32) else c1

/-- The word address of a Cistern access; none when out of range or misaligned (R166). -/
def cisternAddr (i : Insn) (a : Nat) : Option Nat :=
  let w := i.c * 2 ^ 13 + i.aux * 4 + a
  if 0x7FFFF < w ∨ (i.prec ∧ (w % 2 = 1 ∨ w = 0x7FFFF)) then none else some w

/-- A Cistern instruction on an active element (R166). -/
def execCistern (o : Op) (i : Insn) (b : Nat) (e : Elem) (c : Cistern) (w : Nat) : Elem × Cistern :=
  match o with
  | .cld => (e.setV i.dst (c.read i.prec w), c)
  | .cst => (e, c.write i.prec w b)
  | _ =>
    let (x, ev) := fAdd (precFmt i.prec) ((Rnd.ofCode i.rnd).getD .rne) (c.read i.prec w) b
    (e.count i.prec ev, c.write i.prec w x)

/-- The store of an element into output stream AUX[1:0] (R154, R158). The copy of a keep source takes the code that is stored in
the source, not the value after its load stage (log 133). -/
def execStore (env : NzEnv) (t : NzTile) (num j : Nat) (i : Insn) (e : Elem) : Elem :=
  let k := i.aux % 4
  let keep := bits i.aux 2 3
  if active t num j i e then
    let of' := nth env.outFmts k .f32
    let rnd := (Rnd.ofCode i.rnd).getD .rne
    let d := if rnd = .rsr then draw env.seed (t.pidx + j) k .store env.epoch else 0
    let (code, ev) :=
      if i.prec ∧ of' = .f64 then moved env t j e .double i.a
      else convert (precFmt i.prec) of' rnd d (operand env t j e (if i.prec then .double else .word) i.a)
    { e with outs := modAt (fun _ => some code) e.outs k, stored := e.stored ++ [(of', ev)] }
  else if i.zero then { e with outs := modAt (fun _ => some 0) e.outs k }
  else { e with outs := modAt (fun _ => some (nth e.raws keep 0)) e.outs k }

/-- The new predicate of a comparison or predicate operation, with its event and whether it is an arithmetic site. -/
def predicateOf (env : NzEnv) (t : NzTile) (j : Nat) (o : Op) (i : Insn) (e : Elem) : Bool × Option (Option Event) :=
  let as' : ReadAs := if i.prec then .double else .word
  let a := operand env t j e as' i.a
  let b := operand env t j e as' i.b
  let f := precFmt i.prec
  let cmp (c : Cmp) : Bool × Option (Option Event) := ((fCmp f c a b).1, some (fCmp f c a b).2)
  match o with
  | .cmplt => cmp .lt
  | .cmple => cmp .le
  | .cmpeq => cmp .eq
  | .cmpun => cmp .un
  | .pand => (nth e.p (i.a % 4) false && nth e.p (i.b % 4) false, none)
  | .por => (nth e.p (i.a % 4) false || nth e.p (i.b % 4) false, none)
  | .pnot => (!nth e.p (i.a % 4) false, none)
  | .icmpltu => (decide (a < b), none)
  | _ => (a == b, none)

/-- The value of a value-producing instruction on an active element (R149, R150, R154). -/
def execValue (env : NzEnv) (t : NzTile) (j : Nat) (o : Op) (i : Insn) (e : Elem) : Elem :=
  let as' : ReadAs := if i.prec then .double else .word
  let rd (s : Nat) : Nat := operand env t j e as' s
  let take (x : Nat × Option Event) : Elem := (e.setV i.dst x.1).count i.prec x.2
  match o with
  | .mov => take (moved env t j e (if i.prec then .double else .raw) i.a)
  | .sel => take (moved env t j e as' (if nth e.p i.psel false != i.inv then i.a else i.b))
  | .iadd | .isub | .imul | .iminu | .imaxu | .and | .or | .xor | .shl | .shr =>
    e.setV i.dst (intOp o (rd i.a) (rd i.b))
  | _ =>
    let a := if o = .itof then operand env t j e .word i.a else rd i.a
    let (x, ev) := floatOp o (precFmt i.prec) ((Rnd.ofCode i.rnd).getD .rne) i.aux a (rd i.b) (rd i.c)
    take (x, ev)

/-- One instruction on one element, with the Cistern and the tile's fault (R150, R154, R166). -/
def execInsn (env : NzEnv) (t : NzTile) (num : Nat) (i : Insn) (j : Nat) (e : Elem) (c : Cistern) (fault : Option NzFault) :
    Elem × Cistern × Option NzFault :=
  match Op.ofCode i.op with
  | none => (e, c, fault)
  | some o =>
    let act := active t num j i e
    match o with
    | .st => (execStore env t num j i e, c, fault)
    | .cld | .cst | .cacc =>
      if act then
        let a := operand env t j e .word i.a
        match cisternAddr i a with
        | none => (e, c, firstFault fault ⟨num, j, 2⟩)
        | some w =>
          let (b, ev) :=
            if o = .cst then moved env t j e (if i.prec then .double else .word) i.b
            else (operand env t j e (if i.prec then .double else .word) i.b, none)
          let (e', c') := execCistern o i b (e.count i.prec ev) c w
          (e', c', fault)
      else (if o = .cld ∧ i.zero then e.setV i.dst 0 else e, c, fault)
    | .rsum | .rssq | .rmax | .rmin | .ramax | .ramin =>
      (if act then { e with reds := e.reds ++ [(num, operand env t j e (if i.prec then .double else .word) i.a)] } else e,
        c, fault)
    | _ =>
      match o.shape.target with
      | .predicate =>
        if act then
          let (x, ev) := predicateOf env t j o i e
          let e1 := e.setP i.dst x
          (match ev with | some v => e1.count i.prec v | none => e1, c, fault)
        else (if i.zero then e.setP i.dst false else e, c, fault)
      | _ =>
        (if act then execValue env t j o i e else if i.zero then e.setV i.dst 0 else e, c, fault)

/-- One instruction on a group's elements in ascending lane; `j` is the position of the first (R166). -/
def execGroup (env : NzEnv) (t : NzTile) (num : Nat) (i : Insn) :
    Nat → List Elem → Cistern → Option NzFault → List Elem × Cistern × Option NzFault
  | _, [], c, f => ([], c, f)
  | j, e :: es, c, f =>
    let (e', c', f') := execInsn env t num i j e c f
    let (es', c'', f'') := execGroup env t num i (j + 1) es c' f'
    (e' :: es', c'', f'')

/-- The group of a tile at instruction `num` in a cycle, if one is there (R136 to R138). -/
def groupAt (im : Image) (t : NzTile) (num cycle : Nat) : Option Nat :=
  let offset := t.start + passCycles im * ((num - 1) / 24) + (num - 1) % 24
  if offset ≤ cycle ∧ cycle - offset < t.groups.length then some (cycle - offset) else none

/-- One instruction in a cycle on a tile. -/
def tileCycle (env : NzEnv) (cycle num : Nat) (i : Insn) (t : NzTile) (c : Cistern) : NzTile × Cistern :=
  match groupAt env.image t num cycle with
  | none => (t, c)
  | some g =>
    let (es, c', f) := execGroup env t num i (g * groupSize env.image) (nth t.groups g []) c t.fault
    ({ t with groups := modAt (fun _ => es) t.groups g, fault := f }, c')

/-- One instruction in a cycle on every tile in the chain. -/
def insnCycle (env : NzEnv) (cycle num : Nat) (i : Insn) : List NzTile → Cistern → List NzTile × Cistern
  | [], c => ([], c)
  | t :: ts, c =>
    let (t', c') := tileCycle env cycle num i t c
    let (ts', c'') := insnCycle env cycle num i ts c'
    (t' :: ts', c'')

/-- All instructions of one cycle in ascending number (R166). -/
def chainCycle (env : NzEnv) (cycle : Nat) : Nat → List Insn → List NzTile → Cistern → List NzTile × Cistern
  | _, [], ts, c => (ts, c)
  | num, i :: is, ts, c =>
    let (ts', c') := insnCycle env cycle num i ts c
    chainCycle env cycle (num + 1) is ts' c'

/-- `n` cycles from `cycle` on. -/
def chainCycles (env : NzEnv) : Nat → Nat → List NzTile → Cistern → List NzTile × Cistern
  | 0, _, ts, c => (ts, c)
  | n + 1, cycle, ts, c =>
    let (ts', c') := chainCycle env cycle 1 (progInsns env.image) ts c
    chainCycles env n (cycle + 1) ts' c'

/-- The first cycle at which a tile has left the chain (R138). -/
def leaveCycle (im : Image) (t : NzTile) : Nat :=
  t.start + passCycles im * (passes im - 1) + t.groups.length + 24

/-- The start cycle of the `k`-th tile that runs (R138). -/
def startCycle (im : Image) (k : Nat) : Nat :=
  k * (passCycles im * passes im)

/-- The partial of a reduction: value, index, and how many elements took part. -/
structure Partial where
  value : Nat
  index : Nat
  count : Nat
  deriving DecidableEq, Repr

/-- Whether x ranks above y for RAMAX (`hi`) or RAMIN: greater, or the zero of the winning sign (R78). -/
def ranksAbove (f : Fmt) (hi : Bool) (x y : Nat) : Bool :=
  let a := f.decode x
  let b := f.decode y
  (if hi then numLt b a else numLt a b) || (a.isZero && b.isZero && signBit f x != hi && signBit f y == hi)

/-- Combine two partials (R72, R77, R78). -/
def combine (o : Op) (f : Fmt) (a b : Partial) : Partial :=
  match o with
  | .rmax => ⟨(fExt f true a.value b.value).1, 0, a.count + b.count⟩
  | .rmin => ⟨(fExt f false a.value b.value).1, 0, a.count + b.count⟩
  | .ramax | .ramin =>
    let hi := o == .ramax
    let na := (f.decode a.value).isNan
    let nb := (f.decode b.value).isNan
    let takeA :=
      if na && nb then decide (a.index ≤ b.index)
      else if na then true
      else if nb then false
      else if ranksAbove f hi a.value b.value then true
      else if ranksAbove f hi b.value a.value then false
      else decide (a.index ≤ b.index)
    let w := if takeA then a else b
    ⟨w.value, w.index, a.count + b.count⟩
  | _ => ⟨(fAdd f .rne a.value b.value).1, 0, a.count + b.count⟩

/-- Combine where either side may have no partial (R72). -/
def combineOpt (o : Op) (f : Fmt) : Option Partial → Option Partial → Option Partial
  | some a, some b => some (combine o f a b)
  | none, b => b
  | a, none => a

/-- A lane takes its next element: the first starts the partial, a square-and-add is fused (R72, R73, R161). -/
def laneStep (o : Op) (f : Fmt) (p : Option Partial) (x i : Nat) : Option Partial :=
  match p, o with
  | none, .rssq => some ⟨(fMul f .rne x x).1, 0, 1⟩
  | none, _ => some ⟨x, i, 1⟩
  | some a, .rssq => some ⟨(fFma f .rne false x x a.value).1, 0, a.count + 1⟩
  | some a, _ => some (combine o f a ⟨x, i, 1⟩)

/-- One level of the tree: neighbours combined (R72). -/
def treeLevel (o : Op) (f : Fmt) : List (Option Partial) → List (Option Partial)
  | a :: b :: t => combineOpt o f a b :: treeLevel o f t
  | l => l

/-- Seven levels over 128 lanes (R72). -/
def tree (o : Op) (f : Fmt) : Nat → List (Option Partial) → Option Partial
  | 0, l => l.getD 0 none
  | n + 1, l => tree o f n (treeLevel o f l)

/-- The partial of one reduction over one tile; `i0` is the index of the first of the values (R72). -/
def reduceTile (o : Op) (f : Fmt) (i0 : Nat) (vals : List (Option Nat)) : Option Partial :=
  let rows := pairsOfLanes vals
  tree o f 7 ((List.range 128).map fun l =>
    (rows.map fun (r : Nat × List (Option Nat)) => (r.1, r.2.getD l none)).foldl
      (fun acc (k, x) => match x with | some y => laneStep o f acc y (i0 + k * 128 + l) | none => acc) none)
where
  /-- Rows of 128 consecutive elements, numbered. -/
  pairsOfLanes (vals : List (Option Nat)) : List (Nat × List (Option Nat)) :=
    (List.range ((vals.length + 127) / 128)).map fun k => (k, (vals.drop (128 * k)).take 128)

/-- The values that a reduction instruction took from the elements of a tile. -/
def reducedValues (num : Nat) (es : List Elem) : List (Option Nat) :=
  es.map fun e => (e.reds.find? fun r => r.1 == num).map (·.2)

/-- The partials of a tile, one for each reduction instruction, in instruction order (R161). -/
def tilePartials (im : Image) (t : NzTile) : List (Option Partial) :=
  let is := progInsns im
  let es := t.groups.flatten
  ((List.range is.length).zip is).filterMap fun (k, i) =>
    match Op.ofCode i.op with
    | some o => if o.isReduction then some (reduceTile o (precFmt i.prec) t.i0 (reducedValues (k + 1) es)) else none
    | none => none

/-- The partials of two tiles, or of two jets, combined one by one (R72). -/
def addPartials (im : Image) (a b : List (Option Partial)) : List (Option Partial) :=
  let rs := reductionsOf (progInsns im)
  (List.range rs.length).map fun k =>
    match (rs[k]?).bind fun i => (Op.ofCode i.op).map fun o => (o, i.prec) with
    | some (o, prec) => combineOpt o (precFmt prec) (a.getD k none) (b.getD k none)
    | none => none

/-- The 32-byte record of a reduction (R80, R162). -/
def reductionRecord (o : Op) (prec : Bool) (p : Option Partial) : List Byte :=
  let f := precFmt prec
  let arg := o == .ramax || o == .ramin
  let (v, i, n) := match p with
    | some x => (if (f.decode x.value).isNan then f.nanCode else x.value, if arg then x.index else 0, x.count)
    | none =>
      (match o with
        | .rmax | .ramax => f.extreme true
        | .rmin | .ramin => f.extreme false
        | _ => 0, if arg then 0xFFFFFFFF else 0, 0)
  leBytes 8 v ++ leBytes 8 n ++ leBytes 4 i ++ leBytes 12 0

/-- The counts of a tile that has left the Nozzle: the arithmetic site in each precision, and the stores (R84, R151). An element
counts each kind at most once in each precision (log 132). -/
def tileNzCounts (t : NzTile) : Counts :=
  t.groups.flatten.foldl (fun c e =>
    e.stored.foldl (fun c (f, ev) => c.deliver f ev) ((c.flags .f32 e.a32).flags .f64 e.a64)) []

end Sys2Proof.Machine
end

