-- ==== Sys2Proof/Machine/State.lean ====
section
/-! DEFINITION. The state of the Molzen as plain data, its faults and refusals, and the state after reset. -/

namespace Sys2Proof.Machine

/-- Why a step stops: there is no reason, since the manual gives every command an effect. -/
inductive Fault where
  deriving DecidableEq, Repr

/-- Why a command has no meaning. -/
inductive Refusal where
  /-- A command that the model does not cover yet, by its mnemonic. Raised by Dispatch only. Safe. -/
  | notModelled (mnemonic : String)
  deriving DecidableEq, Repr

/-- A region-table entry (R92), with the broken marks of its two slots (R308). -/
structure RegionEntry where
  kind : Nat := 0
  format : Nat := 0
  sealKind : Nat := 0
  slotted : Bool := false
  loc : Nat := 0
  shard : Nat := 0
  group : Nat := 0
  jets : Nat := 0
  base : Nat := 0
  alt : Nat := 0
  length : Nat := 0
  pidx : Nat := 0
  broken0 : Bool := false
  broken1 : Bool := false
  deriving DecidableEq, Repr

/-- The status codes of a completion (R130). -/
inductive Status where
  | ok | refusedState | bound | length | format | seal | abortedReset | denied | skipped | staleEpoch | fault | empty
  deriving DecidableEq, Repr

/-- A fetched descriptor that is not accepted: its number and its 64 bytes (R120). -/
structure Held where
  seq : Word
  bytes : List Byte
  deriving DecidableEq, Repr

/-- A ring context (R110). HEAD is computed. -/
structure Ring where
  enable : Bool := false
  part : Nat := 0
  sizeExp : Nat := 0
  home : Nat := 0
  haltOnRefuse : Bool := false
  halted : Bool := false
  draining : Bool := false
  descRegion : Nat := 0
  cplRegion : Nat := 0
  tail : Word := 0
  haltSeq : Word := 0
  startSeq : Word := 0
  next : Word := 0
  held : List Held := []
  deriving DecidableEq, Repr

/-- What a block of a STILL is given (R185); `plain` is every tile that is no STILL's. -/
inductive Treatment where
  | run | skip | forced | plain
  deriving DecidableEq, Repr

/-- A tile in flight: its number in the part, its treatment, its pass through the Nozzle if it has one, the
codes or bytes that it took from its operands or that it is to write, and the counts it has made so far. -/
structure Tile where
  index : Nat
  treatment : Treatment := .plain
  nz : Option NzTile := none
  data : List (List Nat) := []
  counts : Counts := []
  deriving DecidableEq, Repr

/-- A part of an accepted descriptor on one jet, 255 for the part a basin controller runs (R87, R89, R132, R163). `met`: the
cycle up to which it has met the Nozzle's breakpoints (R410). -/
structure Part where
  jet : Nat
  first : Nat := 0
  count : Nat := 0
  tiles : Nat := 0
  ready : Nat := 0
  started : Nat := 0
  committed : Nat := 0
  inFlight : List Tile := []
  runs : Nat := 0
  cycle : Nat := 0
  cistern : Cistern := []
  loaded : Bool := false
  met : Nat := 0
  partials : List (Option Partial) := []
  ended : Option (Status × Nat) := none
  deriving DecidableEq, Repr

/-- What a basin controller, the pour logic or the Warden waits for before an accepted descriptor completes. -/
inductive Wait where
  /-- Its parts (R132). -/
  | parts
  /-- The FENCE of another ring (R126). -/
  | ring (ring : Nat) (seq : Word)
  /-- The taps' flush acknowledgements, then the figures (R210, R417). -/
  | meter
  /-- The collective port takes the vote (R231). -/
  | vote
  /-- The writes of a Pour (R238). -/
  | pour
  /-- Core banks swap (R385). -/
  | activation (aon : Nat)
  /-- Nothing more: the record can be written. -/
  | ready
  deriving DecidableEq, Repr

/-- One word of a rill in a jet's queue (R271, R280, R283). -/
inductive RillOp where
  /-- A word of a RILL, as it was read. -/
  | word (w : Nat)
  /-- A broadcast write of plane `plane` of replica set `phase` of vector `vec` into row `row` (R280). -/
  | replica (row vec phase plane : Nat)
  /-- An ANDT word of step `stepNo` of a GEMV: weight plane `b`, replica plane `c` (R283). -/
  | product (vec stepNo b c : Nat)
  deriving DecidableEq, Repr

/-- A rill, with the bank set in force and how many words have been issued (R272, R276). -/
structure Rill where
  ring : Nat
  seq : Word
  ops : List RillOp
  done : Nat := 0
  pcs : Nat := 0xFFFFFFFF
  positions : Nat := 0xFFFF
  deriving DecidableEq, Repr

/-- What a GEMV found at acceptance: the activation format, the scales of its vectors and the replica phases; and the
tallies drained for the vector in hand, by jet × 2^20 + row group (R279 to R284). -/
structure GemvSetup where
  xfmt : Nat := 0
  alphas : List Nat := []
  phases : Nat := 1
  drained : Tab (List Nat) := []
  deriving DecidableEq, Repr

/-- A parameter group (R174, R175): its owner, its table's 128-byte header, the table's place, the seed and OLDEST of
its four channels (R176, R192). -/
structure Group where
  owner : Option Nat := none
  header : List Byte := []
  table : Nat := 0
  tableOffset : Nat := 0
  points : Nat := 0
  seed : Nat := 0
  oldest : Option Word := none
  deriving DecidableEq, Repr

/-- An accepted descriptor that has not completed, or whose writes are not all acknowledged (R120, R123, R132). One that
has ended but whose record is not written yet stands on its basin's retained completion list (R363). `ents`: the region
entries that its operand bytes named, by byte offset; `pins` what it pinned (R99); `sets` the jets on which its counts
enter an ATTEMPT set (R317); `before` the group as it was before a SCHED. -/
structure Job where
  ring : Nat
  seq : Word
  desc : List Byte
  part : Nat
  ents : List (Nat × RegionEntry) := []
  slots : List (Nat × Nat) := []
  pins : List (Nat × Nat) := []
  sets : List Nat := []
  before : Option Group := none
  offset : Nat := 0
  length : Nat := 0
  parts : List Part := []
  wait : Wait := .parts
  env : NzEnv := {}
  clip : Option Nat := none
  cmax : Option Nat := none
  step : Nat := 0
  program : Nat := 0
  restill : Bool := false
  matrix : List (List (List Nat)) := []
  words : List Nat := []
  gemv : GemvSetup := {}
  payload : Tab (List Byte) := []
  flush : List Nat := []
  result : Nat := 0
  status : Option (Status × Nat × Nat) := none
  recorded : Bool := false
  deriving DecidableEq, Repr

/-- A write or read that a port has not acknowledged, with the bytes it replaced (R414, R420). `stack` tells the stack
port of jet `place` from the fabric port of basin `place`; `detail` tells requests of one purpose apart. -/
structure Request where
  stack : Bool
  place : Nat
  purpose : RequestFor
  detail : Nat := 0
  old : List Host.Cell := []
  deriving DecidableEq, Repr

/-- A landing block in the ledger of a jet (R204, R205). -/
structure Block where
  present : Bool := false
  landed : Nat := 0
  ragged : Bool := false
  value : Option Nat := none
  opened : Bool := false
  deferred : Bool := false
  sum : Dy := ⟨false, 0, 0⟩
  nonFinite : Nat := 0
  spec : Bool := false
  restilled : Bool := false
  deriving DecidableEq, Repr

/-- The figures METER formed (R210, R441). -/
structure Figures where
  epoch : Word := 0
  sumsq : Word := 0
  nonfin : Word := 0
  valid : Bool := false
  empty : Bool := false
  deriving DecidableEq, Repr

/-- What CATCHUP needs of an attempt for a group: the constants of its most recently accepted STILL (R189). -/
structure Kept where
  group : Nat
  consts : List Nat
  deriving DecidableEq, Repr

/-- A torn range: opcode, primary region entry, offset, length (R230). -/
structure Torn where
  opcode : Nat
  entry : Nat
  offset : Nat
  length : Nat
  deriving DecidableEq, Repr

/-- A shard context (R221) with the pins (R100), the owner (R104) and what the pour logic keeps with the attempt. -/
structure Shard where
  owner : Option Nat := none
  state : Nat := 0
  curSlot : Nat := 0
  pouredOnce : Bool := false
  rewindable : Bool := false
  verdictHeld : Bool := false
  verdict : Nat := 0
  restillDue : Bool := false
  firstPass : Bool := false
  stillDone : Bool := false
  torn : List Torn := []
  tornOverflow : Bool := false
  lastOutcome : Nat := 0
  lastG : Word := 0
  lastGValid : Bool := false
  priorG : Word := 0
  priorGValid : Bool := false
  curEpoch : Word := 0
  prevEpoch : Word := 0
  openEpoch : Word := 0
  stepNo : Word := 0
  attempt : Nat := 0
  heldG : Word := 0
  redelivered : Nat := 0
  discarded : Nat := 0
  prevStep : Word := 0
  pins0 : Nat := 0
  pins1 : Nat := 0
  otherLabel : Option Word := none
  ended : List (Nat × Nat) := []
  specMax : Option Word := none
  heldAs : Option (Nat × Nat × Nat) := none
  vote : List Byte := []
  voteLanding : Counts := []
  figures : Figures := {}
  landing : Counts := []
  straySeen : Bool := false
  restillBegun : Bool := false
  kept : List Kept := []
  deriving DecidableEq, Repr

/-- A loadable program slot (R143). -/
structure Slot where
  owner : Option Nat := none
  image : Image := []
  deriving DecidableEq, Repr

/-- A reset in progress (R359 to R363): its level, its mode, the always-on cycle it began at, whether the drain has
ended, and whether the reset itself has ended, so that only the self-tests remain. `jet`: of a jet reset, the jet that its
record 88h names; `joined`: the jet resets that end with this one, each as its jet and the cycle it began at (R371). -/
structure Reset where
  level : Nat
  absorb : Bool
  since : Nat
  drained : Bool := false
  ended : Bool := false
  jet : Nat := 0
  joined : List (Nat × Nat) := []
  deriving DecidableEq, Repr

/-- An operation on the in-bank command lane that has not been acknowledged (R418): its sequence number, the bank it
refreshes or none for a rill's word. -/
structure LaneOp where
  number : Nat
  bank : Option Nat := none
  deriving DecidableEq, Repr

/-- A tally set of a GEMV that waits for its drain (R270, R283): its descriptor, vector and step; the step's parity is
the set. -/
structure Drain where
  ring : Nat
  seq : Word
  vec : Nat
  stepNo : Nat
  deriving DecidableEq, Repr

/-- Which spare serves in whose place, of units of one kind (R312, R346, R347, R369): a logical unit and the physical unit
that serves it, for each that is not its own; and the physical units, spares among them, that are out of use. -/
structure Spares where
  map : List (Nat × Nat) := []
  dead : List Nat := []
  deriving DecidableEq, Repr

/-- What a wellspring stack's issuer and refresh owner hold (R269, R276, R291, R297, R299, R310, R313). `tallies` by
2 × bank + set; `firsts` the refreshes that a take-back still owes each bank; `taken`: the take-back is acknowledged;
`held`, `idle`, `pend` banks; `copying`: the banks whose sealed rows are being copied to a spare, oldest first; `awaits`: the
station's self-test has passed and READY follows the take-back (R363). -/
structure Well where
  tallies : Tab (List Nat) := []
  debts : Tab Nat := []
  firsts : Tab Nat := []
  taken : Bool := false
  held : List Nat := []
  idle : List Nat := []
  pend : List Nat := []
  rills : List Rill := []
  running : Option Rill := none
  suspended : Bool := false
  awaits : Bool := false
  drains : List Drain := []
  ops : List LaneOp := []
  opNext : Nat := 0
  patrol : Nat := 0
  copying : List Nat := []
  spares : List Nat := List.replicate 32 0
  banks : Spares := {}
  deriving DecidableEq, Repr

/-- A unit with corrections in the window of R366: class code, index, times. -/
structure Corrections where
  cls : Nat
  index : Nat
  times : List Nat
  deriving DecidableEq, Repr

/-- A unit that waits for its targeted self-test, or is in it (R368, R374): class, the jet or basin it lies in, index, and
the engine that the unit is of. -/
structure Test where
  cls : FaultClass
  place : Nat
  index : Nat
  engine : Nat := 0
  deriving DecidableEq, Repr

/-- A logical jet. `pinDue`: its reset pin was asserted while the block was frozen (R404). `asleep`: what its HEALTH,
FAULT_CNT and AGE_GAUGE read since its clock stopped, and `naps` the stray writes of each shard tapped since (R432). `steps`:
the arithmetic cycles that STEP has let a halted engine run, and it has started or committed no tile in (R410). -/
structure Jet where
  part : Nat := 0
  port : Nat := 0
  bad : Bool := false
  adopter : Option Nat := none
  adoptBy : Option Nat := none
  codes : List Nat := List.replicate 6 0
  awake : Bool := false
  waking : Bool := false
  halting : Bool := false
  halted : Bool := false
  pin : Bool := false
  pinDue : Bool := false
  asleep : Option (Nat × Nat × Nat) := none
  naps : Tab Nat := []
  steps : Nat := 0
  resetting : Option Reset := none
  cycle : Nat := 0
  laneSpares : Nat := 0
  rowSpare : Bool := false
  colSpare : Bool := false
  lanes : Spares := {}
  rows : Spares := {}
  cols : Spares := {}
  transient : Nat := 0
  corrected : Nat := 0
  margin : Nat := 0
  guard : Nat := 0
  exhausted : Bool := false
  clearDue : Bool := false
  corrections : List Corrections := []
  alloc : List (Nat × Nat × Nat) := []
  ledger : Tab Block := []
  well : Well := {}
  deriving DecidableEq, Repr

/-- A direction of a basin's aqueduct: active and spare lanes, the lane map, whether the link is withdrawn, and the failed
transmissions in a row of each lane (R366, R421). -/
structure Link where
  active : Nat := 8
  spare : Nat := 2
  lanes : Spares := {}
  out : Bool := false
  retries : Tab Nat := []
  deriving DecidableEq, Repr

/-- A record in a Sluice queue (R328): rank 0 alarm, 1 error, 2 census, 3 trace; its log's partition, its LOGSEQ, its
bytes, and the POUR that waits for it. -/
structure Queued where
  rank : Nat
  part : Nat
  seq : Nat
  bytes : List Byte
  waiter : Option (Nat × Word) := none
  deriving DecidableEq, Repr

/-- A basin (`pinDue` as of a jet): its controller, its Sluice queue, its Reservoir, its aqueduct links and MZ_RFH_OWN. -/
structure Basin where
  last : Option Nat := none
  awake : Bool := false
  waking : Bool := false
  halting : Bool := false
  halted : Bool := false
  pin : Bool := false
  pinDue : Bool := false
  resetting : Option Reset := none
  rfhOwn : Bool := false
  queue : List Queued := []
  episode : List Nat := List.replicate 4 0
  vreq : Nat := 0
  linkMargin : Nat := 0
  up : Link := {}
  dn : Link := {}
  cycle : Nat := 0
  banks : Nat := 16
  corrections : List Corrections := []
  deriving DecidableEq, Repr

/-- The boot phases (R336). -/
inductive Phase where
  | rom | waitGo | verify | map | load | test | soak | run | halted
  deriving DecidableEq, Repr

/-- What a temper record holds (R352), beside its bytes, whose layout is private but for KIND and VERSION. -/
structure Temper where
  seq : Word := 0
  capsule : List Byte := []
  flawmap : List Byte := []
  image : List Byte := []
  jets : Tab Jet := []
  links : List (Link × Link) := []
  vreqs : List Nat := []
  banks : List Nat := []
  soakDone : Bool := false
  soakFail : Bool := false
  soakStat : Nat := 0
  deriving DecidableEq, Repr

/-- The Warden's boot state: the boot registers, the records it verified, and the retention file (R335 to R358). `soakOver`:
the digests of a soak have been compared, and its end waits for the temper record (R358). -/
structure Boot where
  phase : Phase := .rom
  reason : Nat := 0
  warm : Bool := false
  dir : Nat := 0
  fullTest : Bool := false
  soakReq : Bool := false
  goHeld : Bool := false
  soakDone : Bool := false
  soakFail : Bool := false
  soakStat : Nat := 0
  sweep : Nat := 0
  soakJets : List Nat := []
  soakOver : Bool := false
  verified : Bool := false
  variant : Nat := 0
  wcfg : Nat := 0
  features : Nat := 0
  serial : Nat := 0
  directory : List Byte := []
  capsule : List Byte := []
  flawmap : List Byte := []
  image : List Byte := []
  retValid : Bool := false
  retSeq : Word := 0
  retSeal : List Byte := List.replicate 32 0#8
  temper : Temper := {}
  temperWriting : Bool := false
  newSeal : List Byte := []
  temperDue : Bool := false
  ageDue : Bool := false
  temperAt : Nat := 0
  deriving DecidableEq, Repr

/-- A session key (R387, R388). -/
structure Session where
  number : Nat
  chip : Nat
  key : List Byte
  deriving DecidableEq, Repr

/-- A partition's export key and its stream count (R389, R392). -/
structure ExportKey where
  valid : Bool := false
  keyId : Nat := 0
  key : List Byte := []
  salt : List Byte := []
  seq : Nat := 0
  deriving DecidableEq, Repr

/-- The Warden's security state (R377 to R395). -/
structure Warden where
  ready : Nat := 0
  root : List Byte := []
  idKey : Nat := 0
  idPub : List Byte := List.replicate 96 0#8
  idDigest : List Byte := List.replicate 16 0#8
  fwRun : Nat := 0
  runHeader : List Byte := []
  runTable : List Byte := []
  runImage : List Byte := []
  fwStage : Nat := 0
  manifest : Tab (List Byte) := []
  manifestOk : Bool := false
  staged : Tab (List Byte) := []
  lacks : Tab Nat := []
  activating : Bool := false
  peer : List Byte := List.replicate 96 0#8
  chip : Nat := 0
  number : Nat := 0
  target : Nat := 0
  keyPart : Nat := 0
  reason : Nat := 0
  busy : Bool := false
  asked : List Byte := []
  askedFor : Nat × Nat × Nat × Nat := (0, 0, 0, 0)
  keyOut : List Byte := List.replicate 96 0#8
  keySig : List Byte := List.replicate 96 0#8
  keySalt : List Byte := List.replicate 32 0#8
  sessions : List Session := []
  exports : Tab ExportKey := []
  measurements : Nat := 0
  draws : Nat := 0
  deriving DecidableEq, Repr

/-- Three voting copies of the pour logic or of the Warden (R25, R372): those out of service, those reloading, and
whether the unit has stopped. -/
structure Copies where
  lost : List Nat := []
  reloading : List Nat := []
  stopped : Bool := false
  deriving DecidableEq, Repr

/-- The registers that each accessing partition has for itself (R430, R431). -/
structure Own where
  rtEntry : Nat := 0
  rtPart : Nat := 0
  rtReason : Nat := 0
  rtLast : Nat := 0
  staging : List Nat := List.replicate 9 0
  ringSel : Nat := 0
  ringReason : Nat := 0
  ringLast : Nat := 0
  progSel : Nat := 0
  progOwner : Nat := 0
  progReason : Nat := 0
  image : Image := List.replicate 96 0
  counter : Tab (Option Nat) := []
  alarm : Option (List Byte) := none
  deriving DecidableEq, Repr

/-- An entry of the range table that the block keeps in the memory controller of a stack (R304, R415): the stack's jet, the
index (log 116), the kind, the base and the length. -/
structure Range where
  jet : Nat
  index : Nat
  kind : Nat
  base : Nat
  length : Nat
  deriving DecidableEq, Repr

/-- A message to the memory controller of a stack that waits for its RANGE_ACK: RANGE_SET with a kind, a base and a length,
or RANGE_CLR (R415). -/
structure RangeMsg where
  jet : Nat
  index : Nat
  body : Option (Nat × Nat × Nat)
  deriving DecidableEq, Repr

/-- A region commit or clear whose response is held (R304, R415): who waits for the response (a partition, or 8 for the
Garhal port), table entry, new contents, and the messages whose RANGE_ACKs are due. -/
structure RangeWait where
  part : Nat
  key : Nat
  entry : RegionEntry
  acks : List RangeMsg
  deriving DecidableEq, Repr

/-- A log: region entry, enable, size exponent, next LOGSEQ (R324, R332). -/
structure Log where
  region : Nat := 0
  enable : Bool := false
  sizeExp : Nat := 0
  trace : Bool := false
  next : Word := 0
  deriving DecidableEq, Repr

/-- The Sluice (R326 to R333). -/
structure Sluice where
  log : Log := {}
  drops : List Nat := List.replicate 4 0
  alarms : List (List Byte) := []
  ready : Nat := 0
  deriving DecidableEq, Repr

/-- The freeze sequence (R401). -/
inductive Freeze where
  | off | stopping | frozen
  deriving DecidableEq, Repr

/-- An access of the set-up registers: its partition, or 8 for one of the Garhal port, its address, and the data of a write
(R408, R424). -/
structure Access where
  part : Nat
  addr : Nat
  data : Option Word
  deriving DecidableEq, Repr

/-- A response that has come while the block was frozen, and is lost (R402): of the stack port of jet `place`, or of the
fabric port of basin `place`. -/
structure Late where
  stack : Bool
  place : Nat
  purpose : RequestFor
  deriving DecidableEq, Repr

/-- Control signals and clock registers (R399, R426): the levels of MZ_RST_N and MZ_WAKE, CLK_CTL, CLK_HOLD. `waiting`: the
accesses that the register port has not taken yet, oldest first (R415, R424); `late`: the responses lost in a freeze
(R402). -/
structure Clocks where
  rst : Bool := false
  freeze : Freeze := .off
  wake : Bool := false
  waiting : List Access := []
  late : List Late := []
  sleepIdle : Nat := 0x1388
  jetHold : Nat := 0
  basinHold : Nat := 0
  deriving DecidableEq, Repr

/-- RESET_CTL modes, PART_BUSY with the cycle each reset began and its mode (R362, R364), PART_STAT (R437). -/
structure ResetRegs where
  jetMode : Bool := false
  basinMode : Bool := false
  wholeMode : Bool := true
  parts : Tab (Option Reset) := []
  statReason : Nat := 0
  statJet : Nat := 0
  deriving DecidableEq, Repr

/-- A response of the Garhal port (R407). -/
structure Response where
  data : Nat := 0
  status : Nat := 0
  unsealed : Bool := false
  target : Nat := 0
  op : Nat := 0
  deriving DecidableEq, Repr

/-- A breakpoint (R410). -/
structure Break where
  target : Nat
  unit : Nat
  index : Nat
  addr : Nat
  deriving DecidableEq, Repr

/-- The states of the TAP controller (R405, IEEE 1149.1). -/
inductive Tap where
  | testLogicReset | runTestIdle
  | selectDr | captureDr | shiftDr | exit1Dr | pauseDr | exit2Dr | updateDr
  | selectIr | captureIr | shiftIr | exit1Ir | pauseIr | exit2Ir | updateIr
  deriving DecidableEq, Repr

/-- The Garhal port (R405 to R411): the state of the TAP controller, the instruction register and its shift stage, and the
bypass register. `waits`: an access to memory, a write if true, that waits for the indication of its bank (R299). -/
structure Garhal where
  tap : Tap := .testLogicReset
  shift : Nat := 1
  bypass : Bool := false
  ir : Nat := 15
  resp : Response := {}
  enabled : Bool := false
  memEnabled : Bool := false
  brkEnabled : Bool := false
  breaks : List Break := []
  waits : Option (Bool × GarhalCmd) := none
  deriving DecidableEq, Repr

/-- The collective port (R422): votes that wait to be taken, oldest first, as ring, sequence number and record. -/
structure Collective where
  votes : List (Nat × Word × List Byte) := []
  verdicts : List (List Byte × Bool) := []
  deriving DecidableEq, Repr

/-- The census counters (R315 to R317): TOTAL sets by jet × 4096 + group, ATTEMPT sets by (jet × 64 + shard) × 4096 +
group, and the pairs marked incomplete, by shard × 4096 + group. `firsts`, keyed as the ATTEMPT sets, holds the counts of a clipped
first pass under SPECULATE, which belong to those sets until a re-still discards them (R85, R219). -/
structure Census where
  totals : Tab Counts := []
  attempts : Tab (Option Counts) := []
  firsts : Tab Counts := []
  incomplete : List Nat := []
  deriving DecidableEq, Repr

/-- The machine. Every table is keyed by the manual's number: regions by partition × 256 + entry. `ranges` is the range table
of every stack (R415). `pending` is the queue of commands; `free` and `aon` are the model's own counters (log 3, log 4). -/
structure State where
  pending : List Instr := []
  mem : List Host.Cell := []
  regions : Tab RegionEntry := []
  rings : Tab Ring := []
  jobs : List Job := []
  reqs : List Request := []
  shards : Tab Shard := []
  groups : Tab Group := []
  slots : Tab Slot := []
  quotas : Tab Nat := []
  jets : Tab Jet := []
  basins : Tab Basin := []
  boot : Boot := {}
  warden : Warden := {}
  wardenCopies : Copies := {}
  pourCopies : Copies := {}
  pourReady : Nat := 0
  own : Tab Own := []
  range : Option RangeWait := none
  ranges : List Range := []
  tests : List Test := []
  sluice : Sluice := {}
  censusLogs : Tab Log := []
  census : Census := {}
  clocks : Clocks := {}
  resets : ResetRegs := {}
  garhal : Garhal := {}
  port : Collective := {}
  pinReply : Nat := 0
  portReply : Nat := 0
  free : Nat := 0
  aon : Nat := 0
  deriving DecidableEq, Repr

/-- The machine right after MZ_RST_N (R25, R337): every field at the value the manual gives, or the one that
INVENTORY.md names with its log entry; memory lists nothing (log 1). -/
def State.reset : State := {}

end Sys2Proof.Machine
end

