-- ==== Sys2Proof/Machine/Ops.lean ====
section
/-! DEFINITION. The operations over memory and the state's tables, the numbering of jets and basins, pins, and the
records of the Sluice. -/

namespace Sys2Proof.Machine

/-! ## Memory -/

/-- The canonical form of a memory: addresses strictly rising, no listed byte equal to 00h (log 1). -/
def Memory.wf (m : List Host.Cell) : Bool :=
  Tab.wf 0#8 m

/-- The byte at an address; 00h where nothing is listed (log 1). -/
def memGet (m : List Host.Cell) (a : Nat) : Byte :=
  Tab.get 0#8 m a

/-- The cells of consecutive bytes from `a` on, without zeros. -/
def cellsOf : Nat → List Byte → List Host.Cell
  | _, [] => []
  | a, b :: t => if b = 0#8 then cellsOf (a + 1) t else (a, b) :: cellsOf (a + 1) t

/-- Write consecutive bytes from address `a` on. -/
def memWrite (m : List Host.Cell) (a : Nat) (bs : List Byte) : List Host.Cell :=
  let e := a + bs.length
  m.filter (·.1 < a) ++ cellsOf a bs ++ m.filter (e ≤ ·.1)

/-- Read `n` consecutive bytes from address `a` on. -/
def memRead (m : List Host.Cell) (a n : Nat) : List Byte :=
  let m' := m.filter fun c => a ≤ c.1 && c.1 < a + n
  (List.range n).map fun i => memGet m' (a + i)

/-- Write one byte at each of the addresses of a list. -/
def memPatch (m : List Host.Cell) (l : List Host.Cell) : List Host.Cell :=
  l.foldl (fun acc c => memWrite acc c.1 [c.2]) m

/-! ## Jets, basins and stacks -/

/-- How many basins carry jets in the variant (R2, R338). -/
def State.basinsWithJets (s : State) : Nat :=
  match s.boot.variant with | 0 => 6 | 1 => 4 | _ => 3

/-- Whether logical jet `j` exists: its basin carries jets, once the capsule has been accepted (R2, R338). -/
def State.present (s : State) (j : Nat) : Bool :=
  s.boot.verified && decide (j < 4 * s.basinsWithJets)

/-- Whether jet position `p` serves wellspring stacks under WCFG (R4). -/
def wellPosition (wcfg p : Nat) : Bool :=
  match wcfg with | 0 => false | 1 => p == 3 | _ => p == 2 || p == 3

/-- Whether logical jet `j` serves a wellspring stack (R4). -/
def State.wellspring (s : State) (j : Nat) : Bool :=
  s.present j && wellPosition s.boot.wcfg (j % 4)

/-- The capacity of the stack of a present jet: 36 GiB for a wellspring stack, else 48 GiB (R26, R413). -/
def State.capacity (s : State) (j : Nat) : Nat :=
  if s.wellspring j then 36 * 2 ^ 30 else 48 * 2 ^ 30

/-- The fabric address of a stack byte offset (R413). -/
def stackAddr (j o : Nat) : Nat :=
  j * 2 ^ 36 + o

/-- The first address of the doorbell window (R413). -/
def doorbellBase : Nat := 0xFFFFFFF00000

/-- The present jets, in ascending order. -/
def State.jetsPresent (s : State) : List Nat :=
  (List.range 24).filter s.present

/-- The wellspring jets of basin `b`. -/
def State.wellJets (s : State) (b : Nat) : List Nat :=
  ([0, 1, 2, 3].map (4 * b + ·)).filter s.wellspring

/-- The fabric addresses that are no memory: beyond 48 bits, the doorbell window, and the window of a served stack at or
above its capacity (R413). As ranges, first and end. -/
def State.holes (s : State) : List (Nat × Nat) :=
  s.jetsPresent.map (fun j => (stackAddr j (s.capacity j), stackAddr (j + 1) 0)) ++ [(doorbellBase, 2 ^ 90)]

/-- Whether a range (address, length) reaches an address that is no memory. -/
def State.touches (s : State) (r : Nat × Nat) : Bool :=
  s.holes.any fun h => decide (r.2 ≠ 0 ∧ r.1 < h.2 ∧ h.1 < r.1 + r.2)

/-- Whether an address is no memory. -/
def State.isHole (s : State) (a : Nat) : Bool :=
  s.holes.any fun h => decide (h.1 ≤ a ∧ a < h.2)

/-- Read bytes at a fabric address. What is read where there is no memory is the memory controller's or the fabric's
matter: free values (R413, log 106). -/
def State.read (s : State) (a n : Nat) : List Byte :=
  if s.touches (a, n) then
    (List.range n).map fun i => if s.isHole (a + i) then Config.holeByte s.free (a + i) else memGet s.mem (a + i)
  else memRead s.mem a n

/-- Write bytes at a fabric address; where there is no memory, nothing is written (R413, log 106). -/
def State.write (s : State) (a : Nat) (bs : List Byte) : State :=
  { s with mem :=
      if s.touches (a, bs.length) then
        memPatch s.mem (((List.range bs.length).map (a + ·)).zip bs |>.filter fun c => !s.isHole c.1)
      else memWrite s.mem a bs }

/-- The little-endian number in `n` bytes at a fabric address. -/
def State.readLe (s : State) (a n : Nat) : Nat :=
  ofLe (s.read a n)

/-- Count `n` free values as drawn (log 3). -/
def State.draw (s : State) (n : Nat) : State := { s with free := s.free + n }

/-- The free values of a further access to ranges that reach beyond memory are fresh ones (log 106). -/
def State.overHoles (s : State) (ranges : List (Nat × Nat)) : State :=
  if ranges.any s.touches then s.draw 1 else s

/-! ## Tables of the state -/

/-- A ring context. -/
def State.ring (s : State) (r : Nat) : Ring := Tab.get {} s.rings r
/-- Change a ring context. -/
def State.updRing (s : State) (r : Nat) (f : Ring → Ring) : State := { s with rings := Tab.upd {} s.rings r f }
/-- A shard context. -/
def State.shard (s : State) (h : Nat) : Shard := Tab.get {} s.shards h
/-- Change a shard context. -/
def State.updShard (s : State) (h : Nat) (f : Shard → Shard) : State := { s with shards := Tab.upd {} s.shards h f }
/-- A parameter group. -/
def State.group (s : State) (g : Nat) : Group := Tab.get {} s.groups g
/-- Change a parameter group. -/
def State.updGroup (s : State) (g : Nat) (f : Group → Group) : State := { s with groups := Tab.upd {} s.groups g f }
/-- A logical jet. -/
def State.jet (s : State) (j : Nat) : Jet := Tab.get {} s.jets j
/-- Change a logical jet. -/
def State.updJet (s : State) (j : Nat) (f : Jet → Jet) : State := { s with jets := Tab.upd {} s.jets j f }
/-- Change several jets. -/
def State.updJets (s : State) (js : List Nat) (f : Nat → Jet → Jet) : State :=
  { s with jets := Tab.updAll {} s.jets js f }
/-- What a wellspring stack's issuer holds. -/
def State.well (s : State) (j : Nat) : Well := (s.jet j).well
/-- Change what a wellspring stack's issuer holds. -/
def State.updWell (s : State) (j : Nat) (f : Well → Well) : State :=
  s.updJet j fun x => { x with well := f x.well }
/-- A basin. -/
def State.basin (s : State) (b : Nat) : Basin := Tab.get {} s.basins b
/-- Change a basin. -/
def State.updBasin (s : State) (b : Nat) (f : Basin → Basin) : State := { s with basins := Tab.upd {} s.basins b f }
/-- The key of entry `e` of partition `p`'s region table. -/
def regionKey (p e : Nat) : Nat := 256 * p + e
/-- A region-table entry (R92). -/
def State.region (s : State) (p e : Nat) : RegionEntry := Tab.get {} s.regions (regionKey p e)
/-- Change a region-table entry by its key. -/
def State.updRegion (s : State) (k : Nat) (f : RegionEntry → RegionEntry) : State :=
  { s with regions := Tab.upd {} s.regions k f }
/-- The registers of an accessing partition (R430). -/
def State.ownOf (s : State) (p : Nat) : Own := Tab.get {} s.own p
/-- Change the registers of an accessing partition. -/
def State.updOwn (s : State) (p : Nat) (f : Own → Own) : State := { s with own := Tab.upd {} s.own p f }

/-- The accepted descriptor `seq` of a ring. -/
def State.job (s : State) (r : Nat) (q : Word) : Option Job :=
  s.jobs.find? fun x => x.ring == r && x.seq == q
/-- Change an accepted descriptor. -/
def State.updJob (s : State) (r : Nat) (q : Word) (f : Job → Job) : State :=
  { s with jobs := s.jobs.map fun x => if x.ring == r && x.seq == q then f x else x }
/-- Forget an accepted descriptor. -/
def State.dropJob (s : State) (r : Nat) (q : Word) : State :=
  { s with jobs := s.jobs.filter fun x => !(x.ring == r && x.seq == q) }

/-- `n` fresh free values (log 3), and the state that has drawn them. -/
def State.freeBytes (s : State) (n : Nat) : List Byte :=
  (List.range n).map fun i => (Config.freeWord (s.free + i)).setWidth 8

/-! ## Spares (R312, R346, R369) -/

/-- The physical unit that serves a logical unit, `own` where no spare does. -/
def Spares.serves (x : Spares) (unit own : Nat) : Nat :=
  ((x.map.find? (·.1 == unit)).map (·.2)).getD own

/-- A logical unit loses the physical unit that serves it: the next spare comes in, of those given in ascending order that
are neither out of use nor in use. -/
def Spares.lose (x : Spares) (spares : List Nat) (unit own : Nat) : Spares :=
  let dead := x.dead ++ [x.serves unit own]
  let map := x.map.filter (·.1 != unit)
  { map := match spares.find? fun k => !dead.contains k && !map.any (·.2 == k) with
      | some k => map ++ [(unit, k)]
      | none => map
    dead := dead }

/-- A spare fails its test: it is out of use, and the next spare takes its place where it has one (R349). -/
def Spares.failSpare (x : Spares) (spares : List Nat) (k : Nat) : Spares :=
  match x.map.find? (·.2 == k) with
  | some u => x.lose spares u.1 k
  | none => if x.dead.contains k then x else { x with dead := x.dead ++ [k] }

/-- How many spares are free. -/
def Spares.left (x : Spares) (spares : List Nat) : Nat :=
  (spares.filter fun k => !x.dead.contains k && !x.map.any (·.2 == k)).length

/-- Whether a unit out of use, of those that are no spares, has no spare in its place. `unit`: its logical number. -/
def Spares.short (x : Spares) (spares : List Nat) (unit : Nat → Nat) : Bool :=
  x.dead.any fun k => !spares.contains k && !x.map.any (·.1 == unit k)

/-- The spares in place of defective units, in ascending order of both (R346). `unit` and `own` turn the physical number of a
unit into its logical one, and back. -/
def Spares.ofDefects (bad : List Nat) (spares : Nat → List Nat) (unit : Nat → Nat) : Spares :=
  let l := (List.range 576).filter bad.contains
  let x : Spares := { dead := l.filter fun k => (spares k).contains k }
  (l.filter fun k => !(spares k).contains k).foldl (fun x k => x.lose (spares k) (unit k) k) x

/-- The spares of a Nozzle's lanes, of a Crucible's rows or columns, of an aqueduct direction's lanes, and of the banks of
a pseudo-channel, as physical numbers (R140, R312, R344). -/
def laneSpareList : List Nat := (List.range 8).map (128 + ·)
/-- The spare row, or the spare column. -/
def rowSpareList : List Nat := [128]
/-- The spare lanes of a direction. -/
def linkSpareList : List Nat := [8, 9]
/-- The spare banks of pseudo-channel `c`. -/
def bankSpareList (c : Nat) : List Nat := [18 * c + 16, 18 * c + 17]

/-- The logical bank that a physical bank is of its own, spares aside. -/
def bankUnit (k : Nat) : Nat := 16 * (k / 18) + k % 18

/-- The physical bank that a logical bank has of its own (R312, R344). -/
def ownBank (bank : Nat) : Nat := 18 * (bank / 16) + bank % 16

/-! ## Engines -/

/-- The logical jet whose engine serves logical jet `j` (R370). -/
def State.engine (s : State) (j : Nat) : Nat :=
  ((s.jet j).adopter).getD j

/-- The logical jets that the engine of logical jet `e` serves (R359). -/
def State.servedBy (s : State) (e : Nat) : List Nat :=
  (List.range 24).filter fun j => s.engine j == e

/-- The code of a station on a logical jet: an adopted jet reports its adopter's codes, and Wellspring exists only where
the jet serves a wellspring stack (R107, R109). During the soak every Nozzle, Still and Cast reports TESTING (R355). -/
def State.code (s : State) (j station : Nat) : Nat :=
  let c := (s.jet (s.engine j)).codes.getD station 0
  if s.present j && (station != 5 || s.wellspring j) then
    if s.boot.phase == .soak && (station == 1 || station == 3 || station == 4) then 1 else c
  else 0

/-- Whether a reset holds an engine: it has begun and not ended (R359, R363). -/
def Jet.inReset (x : Jet) : Bool :=
  match x.resetting with | some r => !r.ended | none => false

/-- Whether the engine of a jet runs: awake, out of reset and not halted. -/
def State.runs (s : State) (j : Nat) : Bool :=
  let e := s.jet (s.engine j)
  e.awake && e.resetting.isNone && !e.halted && !e.halting

/-- Whether a class names a unit of a basin rather than of a jet. -/
def basinClass (c : FaultClass) : Bool :=
  c == .reservoir || c == .aqueduct

/-- Whether a class names a copy of a unit of the always-on domain. -/
def copyClass (c : FaultClass) : Bool :=
  c == .pourCopy || c == .wardenCopy

/-- Whether a targeted self-test is of a unit of engine `e` (R368). A sequencer core at place 24 + b is of the controller
of basin b. -/
def Test.of (x : Test) (e : Nat) : Bool :=
  !basinClass x.cls && !copyClass x.cls && decide (x.place < 24) && x.engine == e

/-- Whether a test that is due or running holds the work of engine `e`: of one of its units, or of a Reservoir bank of its
basin (R109, R368). -/
def State.underTest (s : State) (e : Nat) : Bool :=
  s.tests.any fun x => x.of e || (x.cls == .reservoir && x.place == e / 4)

/-- Whether a test of the sequencer core of a basin controller is due or running (R109, R368). -/
def State.coreTest (s : State) (b : Nat) : Bool :=
  s.tests.any fun x => x.cls == .core && x.place == 24 + b

/-- Whether the basin controller runs; a test of its core holds its work (R109). -/
def State.basinRuns (s : State) (b : Nat) : Bool :=
  let x := s.basin b
  x.awake && x.resetting.isNone && !x.halted && !x.halting && !s.coreTest b

/-- Whether the pour logic or the Warden has stopped, two copies of it left that disagree: verdicts are held, and what
either unit would take up waits (R372, log 109). -/
def State.unitStopped (s : State) : Bool :=
  s.pourCopies.stopped || s.wardenCopies.stopped

/-- Whether the block takes requests at its ports: out of reset and not frozen (R401, R427). -/
def State.open? (s : State) : Bool :=
  !s.clocks.rst && s.clocks.freeze == .off

/-- Whether the jets work: the boot has reached TEST (R336, R348). -/
def State.live (s : State) : Bool :=
  s.open? && (s.boot.phase == .test || s.boot.phase == .soak || s.boot.phase == .run)

/-! ## The Sluice (R326 to R333) -/

/-- An event to be recorded (R327). -/
structure Event' where
  cls : Nat
  code : Nat
  part : Option Nat := none
  jet : Nat := 255
  shard : Option Nat := none
  basin : Nat := 0
  arg0 : Nat := 0
  arg1 : Nat := 0
  deriving DecidableEq, Repr

/-- Whether a shard's epoch is open: states 1h to 5h (R223). -/
def Shard.isOpen (h : Shard) : Bool :=
  1 ≤ h.state && h.state ≤ 5

/-- The 32 bytes of an event record, REPEAT 1 (R327). -/
def State.eventBytes (s : State) (e : Event') (logseq : Nat) : List Byte :=
  let b := if e.jet = 255 then e.basin else e.jet / 4
  let epoch := match e.shard with
    | some h => let x := s.shard h; if x.isOpen then x.openEpoch.toNat else x.curEpoch.toNat
    | none => 0xFFFFFFFF
  let cycle := if e.jet = 255 then (s.basin b).cycle else (s.jet e.jet).cycle
  leBytes 1 e.cls ++ leBytes 1 e.code ++ leBytes 1 (match e.part with | some p => p + 8 | none => 0) ++
    leBytes 1 e.jet ++ leBytes 4 epoch ++ leBytes 6 cycle ++ leBytes 2 1 ++ leBytes 4 e.arg0 ++ leBytes 4 e.arg1 ++
    leBytes 4 logseq ++ leBytes 1 (match e.shard with | some h => h + 64 | none => 0) ++ leBytes 1 b ++ leBytes 2 0

/-- One more occurrence in a record (R333). -/
def bumpRepeat (r : List Byte) : List Byte :=
  putField r 14 2 (min (fieldAt r 14 2 + 1) 0xFFFF)

/-- What decides whether an alarm matches an unread record: CODE, PARTITION, JET, SHARD and ARG0 (R333). -/
def alarmKey (r : List Byte) : List Byte :=
  sliceAt r 1 3 ++ sliceAt r 16 4 ++ sliceAt r 28 1

/-- An alarm arrives at the alarm buffer (R333). -/
def alarmArrives (buf : List (List Byte)) (r overflow : List Byte) : List (List Byte) :=
  if buf.any fun x => alarmKey x == alarmKey r then
    buf.map fun x => if alarmKey x == alarmKey r then bumpRepeat x else x
  else if 511 ≤ buf.length then
    if buf.any fun x => fieldAt x 1 1 == 0x25 then
      buf.map fun x => if fieldAt x 1 1 == 0x25 then bumpRepeat x else x
    else buf ++ [overflow]
  else buf ++ [r]

/-- One more drop of a rank (R332). -/
def State.countDrop (s : State) (rank : Nat) : State :=
  { s with sluice := { s.sluice with drops := modAt (satAdd 32 · 1) s.sluice.drops rank } }

/-- The lowest rank present in a queue. -/
def lowestRank (q : List Queued) : Nat :=
  q.foldl (fun m x => max m x.rank) 0

/-- A queue without the youngest of its records of a rank. -/
def dropYoungest (rank : Nat) (q : List Queued) : List Queued :=
  (q.reverse.eraseP fun x => x.rank == rank).reverse

/-- A drop at a full queue: of its class, and of the queue's episode (R328). -/
def State.queueDrop (s : State) (b rank : Nat) : State :=
  (s.countDrop rank).updBasin b fun x => { x with episode := modAt (· + 1) x.episode rank }

/-- Whether a record of a rank that arrives at basin `b`'s queue finds a place (R328). -/
def State.hasPlace (s : State) (b rank : Nat) : Bool :=
  let q := (s.basin b).queue
  q.length < 64 || rank < lowestRank q

/-- A record enters a queue, or is dropped (R328). -/
def State.enqueue (s : State) (b : Nat) (r : Queued) : State :=
  let q := (s.basin b).queue
  if q.length < 64 then s.updBasin b fun x => { x with queue := q ++ [r] }
  else if r.rank < lowestRank q then
    (s.queueDrop b (lowestRank q)).updBasin b fun x => { x with queue := dropYoungest (lowestRank q) q ++ [r] }
  else s.queueDrop b r.rank

/-- The rank of a class (R326). -/
def rankOf (cls : Nat) : Nat := cls

/-- The alarm part of an event: an alarm enters the alarm buffer whatever the event log does (R333). -/
def State.raise (s : State) (e : Event') : State :=
  if e.cls = 0 then
    let lost : Event' := { cls := 0, code := 0x25, basin := e.basin }
    let buf := alarmArrives s.sluice.alarms (s.eventBytes e 0) (s.eventBytes lost 0)
    { s with sluice := { s.sluice with alarms := buf } }
  else s

/-- A record for an event log that is disabled: an error record is dropped and counted, any other is not (R332; log 99). -/
def State.unlogged (s : State) (rank : Nat) : State :=
  if rank = 1 then s.countDrop 1 else s

/-- Offer an event to the Sluice: trace events only while TRACE_EN is 1; while the event log is disabled the record
is dropped; otherwise it takes LOGSEQ when it is placed in a queue (R326, R328, R331, R332). -/
def State.emit (s : State) (e : Event') : State :=
  if e.cls = 3 && !s.sluice.log.trace then s
  else
    let t := s.raise e
    let b := if e.jet = 255 then e.basin else e.jet / 4
    if !s.sluice.log.enable then t.unlogged (rankOf e.cls)
    else if t.hasPlace b (rankOf e.cls) then
      let q := t.sluice.log.next
      let u := t.enqueue b { rank := rankOf e.cls, part := 0, seq := q.toNat, bytes := t.eventBytes e q.toNat }
      { u with sluice := { u.sluice with log := { u.sluice.log with next := q + 1 } } }
    else t.queueDrop b (rankOf e.cls)

/-- Whether an event's condition holds, offer it. -/
def State.emitIf (s : State) (c : Bool) (e : Event') : State :=
  if c then s.emit e else s

/-- Offer several events, in order. -/
def State.emitAll (s : State) (es : List Event') : State :=
  es.foldl State.emit s

/-! ## Station codes -/

/-- Trace record 41h for each logical jet and station whose reported code differs between two states (R107, R436). -/
def State.traceCodes (s t : State) : State :=
  t.emitAll ((List.range 24).flatMap fun j => ((List.range 6).filter fun k => s.code j k != t.code j k).map fun k =>
    { cls := 3, code := 0x41, part := some (t.jet j).part, jet := j, arg0 := k, arg1 := t.code j k })

/-- Set the code of a station of the engine of jet `e`, with its trace records (R107, R436). -/
def State.setCode (s : State) (e station code : Nat) : State :=
  s.traceCodes (s.updJet e fun x => { x with codes := modAt (fun _ => code) x.codes station })

/-- Set the code of every station that the engine has. -/
def State.setCodes (s : State) (e : Nat) (stations : List Nat) (code : Nat) : State :=
  stations.foldl (fun t k => if (t.jet e).codes.getD k 0 = 0 then t else t.setCode e k code) s

/-! ## Bank indications (R299) -/

/-- The logical bank that a stack byte offset lies in (R268). -/
def bankAt (o : Nat) : Nat :=
  let x := o % 0x400000 / 0x2000
  16 * (x % 32) + x / 32

/-- Whether the indication of a bank is low: it is held for a rill or a refresh (R299). -/
def Well.low (w : Well) (bank : Nat) : Bool :=
  w.held.contains bank || w.ops.any (·.bank == some bank)

/-- Whether a normal access of the block to the stack of a jet waits: some bank's indication is low (R299). -/
def State.stackHeld (s : State) (j : Nat) : Bool :=
  s.wellspring j && (!(s.well j).held.isEmpty || (s.well j).ops.any (·.bank.isSome))

/-- Whether a fabric address lies in a bank whose indication is low (R299). -/
def State.cellHeld (s : State) (a : Nat) : Bool :=
  let j := a / 2 ^ 36
  s.wellspring j && decide (a % 2 ^ 36 < s.capacity j) && (s.well j).low (bankAt (a % 2 ^ 36))

/-- Whether a range of fabric addresses reaches such a bank. -/
def State.rangeHeld (s : State) (a n : Nat) : Bool :=
  n != 0 && (List.range ((a + n - 1) / 0x2000 + 1 - a / 0x2000)).any fun i => s.cellHeld ((a / 0x2000 + i) * 0x2000)

/-! ## Pins (R99, R100) -/

/-- The pin count of a slot. -/
def Shard.pins (h : Shard) (slot : Nat) : Nat :=
  if slot = 0 then h.pins0 else h.pins1

/-- Set the pin count of a slot. -/
def Shard.setPins (h : Shard) (slot n : Nat) : Shard :=
  if slot = 0 then { h with pins0 := n } else { h with pins1 := n }

/-- Take one pin of the current slot of each shard of a list. -/
def State.takePins (s : State) (hs : List Nat) : State :=
  hs.foldl (fun t h => t.updShard h fun x => x.setPins x.curSlot (x.pins x.curSlot + 1)) s

/-- Release pins, as (shard, slot). -/
def State.releasePins (s : State) (l : List (Nat × Nat)) : State :=
  l.foldl (fun t (h, slot) => t.updShard h fun x => x.setPins slot (x.pins slot - 1)) s

/-! ## Requests (R414, R420) -/

/-- Add a request that a port must acknowledge. -/
def State.request (s : State) (r : Request) : State :=
  { s with reqs := s.reqs ++ [r] }

/-- Whether an accepted descriptor has writes that are not acknowledged (R123). -/
def State.storesDue (s : State) (ring : Nat) (seq : Word) : Bool :=
  s.reqs.any fun r => r.purpose == .store ring seq

end Sys2Proof.Machine
end

