-- ==== Sys2Proof/Machine/Flags.lean ====
section
/-! DEFINITION. Status codes and causes (R130, R131), fault classes (R366), and the counting of the census (R315 to R318). -/

namespace Sys2Proof.Machine

/-- The code of a status (R130). -/
def Status.code : Status → Nat
  | .ok => 0 | .refusedState => 1 | .bound => 2 | .length => 3 | .format => 4 | .seal => 5 | .abortedReset => 6
  | .denied => 7 | .skipped => 8 | .staleEpoch => 9 | .fault => 10 | .empty => 11

/-- A status with its DETAIL. -/
abbrev Verdict' := Status × Nat

/-- FORMAT, DENIED, LENGTH or BOUND with the byte offset of the first field at fault (R131). -/
def at' (st : Status) (offset : Nat) : Verdict' := (st, offset)

/-- REFUSED_STATE with a cause (R131). -/
def cause (c : Nat) : Verdict' := (.refusedState, c)

/-- REFUSED_STATE, cause 1h, with the shard state (R131, R223). -/
def shardState (state : Nat) : Verdict' := (.refusedState, 1 + 2 ^ 8 * state)

/-- REFUSED_STATE, cause 2h, with the station in the order of R86 (R131). -/
def stationDown (station : Nat) : Verdict' := (.refusedState, 2 + 2 ^ 16 * station)

/-- The first check of a list that fails. -/
def firstOf (l : List (Bool × Verdict')) : Option Verdict' :=
  (l.find? (·.1)).map (·.2)

/-- The class code of a detected error (R366). -/
def classCode : FaultClass → Nat
  | .lane => 1 | .row => 2 | .column => 3 | .cistern => 4 | .reservoir => 5 | .castUnit => 6 | .weirUnit => 7
  | .core => 8 | .aqueduct => 9 | .stackData => 10 | .bank => 11 | .planeSeal => 12 | .pourCopy => 13
  | .wardenCopy => 14

/-! ## The census (R315 to R318) -/

/-- The key of a jet's TOTAL set of a group. -/
def totalKey (jet group : Nat) : Nat := jet * 4096 + group

/-- The key of a jet's ATTEMPT set of a (shard, group) pair. -/
def attemptKey (jet shard group : Nat) : Nat := (jet * 64 + shard) * 4096 + group

/-- Counts enter TOTAL (R316). -/
def State.countTotal (s : State) (jet group : Nat) (c : Counts) : State :=
  { s with census := { s.census with totals := Tab.upd [] s.census.totals (totalKey jet group) (Counts.sum · c) } }

/-- The ATTEMPT set of a pair on a jet, if there is one. -/
def State.attemptSet (s : State) (jet shard group : Nat) : Option Counts :=
  Tab.get none s.census.attempts (attemptKey jet shard group)

/-- How many ATTEMPT sets a jet holds (R317). -/
def State.attemptSets (s : State) (jet : Nat) : Nat :=
  (s.census.attempts.filter fun x => x.1 / 4096 / 64 == jet).length

/-- A still-class descriptor of the attempt is accepted over a group: the pair gets its set on each jet it runs on,
or is marked incomplete where the jet holds 4096 sets already (R316, R317). -/
def State.openSets (s : State) (jets : List Nat) (shard group : Nat) : State :=
  jets.foldl (fun t j =>
    match t.attemptSet j shard group with
    | some _ => t
    | none =>
      if t.attemptSets j < 4096 then
        { t with census := { t.census with
            attempts := Tab.set none t.census.attempts (attemptKey j shard group) (some []) } }
      else if shard * 4096 + group ∈ t.census.incomplete then t
      else { t with census := { t.census with incomplete := t.census.incomplete ++ [shard * 4096 + group] } }) s

/-- The jets of a list that hold an ATTEMPT set of a pair: those on which a descriptor over it counts into the set (R317). -/
def State.setJets (s : State) (jets : List Nat) (shard group : Nat) : List Nat :=
  jets.filter fun j => (s.attemptSet j shard group).isSome

/-- The counts of a tile of a still-class descriptor (R316, R317): into the pair's ATTEMPT set, or into TOTAL where the jet
had none for the pair when the descriptor was accepted. Those of a first pass under SPECULATE, `first`, stand apart until the
attempt ends, or a re-still discards them (R85, R219). -/
def State.countAttempt (s : State) (first inSet : Bool) (jet shard group : Nat) (c : Counts) : State :=
  let k := attemptKey jet shard group
  match if inSet then s.attemptSet jet shard group else none with
  | some x =>
    if first then { s with census := { s.census with firsts := Tab.upd [] s.census.firsts k (Counts.sum · c) } }
    else { s with census := { s.census with attempts := Tab.set none s.census.attempts k (some (Counts.sum x c)) } }
  | none => s.countTotal jet group c

/-- The groups that have an ATTEMPT set of a shard, or a pair marked incomplete, ascending (R319). -/
def State.attemptGroups (s : State) (shard : Nat) : List Nat :=
  (List.range 4096).filter fun g =>
    s.census.attempts.any (fun x => x.1 / 4096 % 64 == shard && x.1 % 4096 == g) ||
      s.census.incomplete.contains (shard * 4096 + g)

/-- The ATTEMPT sets of a pair, first passes included, summed over the jets, ascending (R319). -/
def State.attemptSum (s : State) (shard group : Nat) : Counts :=
  (List.range 25).foldl (fun c j => Counts.sum (Counts.sum c ((s.attemptSet j shard group).getD []))
    (Tab.get [] s.census.firsts (attemptKey j shard group))) []

/-- TOTAL of a group summed over the jets, ascending (R323). -/
def State.totalSum (s : State) (group : Nat) : Counts :=
  (List.range 25).foldl (fun c j => Counts.sum c (Tab.get [] s.census.totals (totalKey j group))) []

/-- The ATTEMPT sets of a shard, gone; with `keep`, added to TOTAL first (R85, R316, R319). -/
def State.endSets (s : State) (shard : Nat) (keep : Bool) : State :=
  let mine (k : Nat) : Bool := k / 4096 % 64 == shard
  let sets := (s.census.attempts.filter fun x => mine x.1).map (fun x => (x.1, x.2.getD [])) ++
    s.census.firsts.filter fun x => mine x.1
  let t := if keep then sets.foldl (fun t x => t.countTotal (x.1 / 4096 / 64) (x.1 % 4096) x.2) s else s
  { t with census := { t.census with
      attempts := t.census.attempts.filter (!mine ·.1)
      firsts := t.census.firsts.filter (!mine ·.1)
      incomplete := t.census.incomplete.filter fun x => x / 4096 != shard } }

/-- The counts of a shard's first pass over the groups of `gone`, discarded when a re-still begins; the pairs keep their sets
(R85, R219). -/
def State.clearFirsts (s : State) (shard : Nat) (gone : Nat → Bool) : State :=
  { s with census := { s.census with
      firsts := s.census.firsts.filter fun x => !(x.1 / 4096 % 64 == shard && gone (x.1 % 4096)) } }

/-- A share: the exact quotient of two counters rounded once to F32 under RNE, +0 where DELIVERED is 0 (R318). -/
def shareOf (n delivered : Nat) : Nat :=
  if delivered = 0 then 0
  else (finish .f32 .rne [] (exactDiv (.fin (Dy.ofInt n)) (.fin (Dy.ofInt delivered)))).1

/-- The 48-byte entry of a format (R322). -/
def formatEntry (c : Counts) (f : Nat) : List Byte :=
  let n (k : Nat) := Tab.get 0 c (4 * f + k)
  leBytes 8 f ++ leBytes 8 (n 0) ++ leBytes 8 (n 1) ++ leBytes 8 (n 2) ++ leBytes 8 (n 3) ++
    leBytes 4 (shareOf (n 1) (n 0)) ++ leBytes 4 (shareOf (n 2) (n 0))

end Sys2Proof.Machine
end

