-- ==== Sys2Proof/Machine/Regions.lean ====
section
/-! DEFINITION. Regions, shares and element ranges (R92 to R94, R127), the parts of an accepted descriptor, and the broken
marks of plane regions (R308, R309, R311). -/

namespace Sys2Proof.Machine

/-! ## Regions -/

/-- The jets of JETS, ascending (R94). -/
def RegionEntry.jetList (e : RegionEntry) : List Nat := bitsOf 24 e.jets

/-- Whether the kind uses FORMAT (R93). -/
def RegionEntry.usesFormat (e : RegionEntry) : Bool :=
  e.kind == 1 || e.kind == 2 || e.kind == 3 || e.kind == 4 || e.kind == 6

/-- The element format, none for a kind that has elements of one byte (R93). -/
def RegionEntry.fmt (e : RegionEntry) : Option Fmt :=
  if e.usesFormat then Fmt.ofCode e.format else none

/-- Bits of an element (R93). -/
def RegionEntry.width (e : RegionEntry) : Nat :=
  match e.fmt with | some f => f.width | none => 8

/-- N: the elements of a share (R94). -/
def RegionEntry.perShare (e : RegionEntry) : Nat := e.length * 8 / e.width

/-- The size of a region (R127). -/
def RegionEntry.size (e : RegionEntry) : Nat :=
  if e.loc = 1 then e.length else e.length * e.jetList.length

/-- The elements of a region. -/
def RegionEntry.elems (e : RegionEntry) : Nat := e.size * 8 / e.width

/-- Whether an entry names a shard (R93). -/
def RegionEntry.namesShard (e : RegionEntry) : Bool :=
  e.kind == 1 || e.kind == 2 || e.kind == 3 || (e.slotted && (e.kind == 4 || e.kind == 5 || e.kind == 6))

/-- Where a slot begins (R94). An unslotted entry has only slot 0 (R95). -/
def RegionEntry.slotBase (e : RegionEntry) (slot : Nat) : Nat :=
  if e.slotted && slot == 1 then e.alt else e.base

/-- The slots an entry has (R95). -/
def RegionEntry.slotList (e : RegionEntry) : List Nat := if e.slotted then [0, 1] else [0]

/-- The address of byte `o` of the share on jet `j` in a slot (R94, R413). -/
def RegionEntry.shareAddr (e : RegionEntry) (slot j o : Nat) : Nat :=
  if e.loc = 1 then e.base + o else stackAddr j (e.slotBase slot + o)

/-- The address ranges of bytes `[off, off + len)` of a region, share after share (R94, R279). -/
def RegionEntry.ranges (e : RegionEntry) (slot off len : Nat) : List (Nat × Nat) :=
  if e.loc = 1 then [(e.base + off, len)]
  else ((List.range e.jetList.length).zip e.jetList).filterMap fun (k, j) =>
    let lo := max off (k * e.length)
    let hi := min (off + len) ((k + 1) * e.length)
    if lo < hi then some (e.shareAddr slot j (lo - k * e.length), hi - lo) else none

/-- The parts of an element range on each share: jet, first element of the share, count (R93, R94). -/
def RegionEntry.shares (e : RegionEntry) (first count : Nat) : List (Nat × Nat × Nat) :=
  let n := e.perShare
  ((List.range e.jetList.length).zip e.jetList).filterMap fun (k, j) =>
    let lo := max first (k * n)
    let hi := min (first + count) ((k + 1) * n)
    if lo < hi then some (j, lo - k * n, hi - lo) else none

/-- The number of the share on jet `j`. -/
def RegionEntry.shareNo (e : RegionEntry) (j : Nat) : Nat :=
  (e.jetList.filter (· < j)).length

/-- Read bytes of a region. -/
def State.readRegion (s : State) (e : RegionEntry) (slot off len : Nat) : List Byte :=
  (e.ranges slot off len).flatMap fun r => s.read r.1 r.2

/-- The codes that bytes hold in elements of `w` bits, four-bit elements low half first (R33). -/
def codesOf (w : Nat) (bs : List Byte) : List Nat :=
  if w = 4 then nibblesOf bs else (chunksOf (w / 8) (bs.length / (w / 8)) bs).map ofLe

/-- The bytes of codes in elements of `w` bits (R33). -/
def bytesOf (w : Nat) (cs : List Nat) : List Byte :=
  if w = 4 then packNibbles cs else cs.flatMap (leBytes (w / 8))

/-- Read `n` elements of a share from its element `first` on. -/
def State.readShare (s : State) (e : RegionEntry) (slot j first n : Nat) : List Nat :=
  codesOf e.width (s.read (e.shareAddr slot j (first * e.width / 8)) (n * e.width / 8))

/-- The cells of a region's bytes, for a write whose old bytes are kept. -/
def State.oldCells (s : State) (rs : List (Nat × Nat)) : List Host.Cell :=
  rs.flatMap fun r => (List.range r.2).map fun i => (r.1 + i, memGet s.mem (r.1 + i))


/-- The opcode of a descriptor (R124). -/
def opOf (d : List Byte) : Nat := fieldAt d 0 1
/-- FENCE (R124). -/
def fenceOf (d : List Byte) : Bool := bit (fieldAt d 1 1) 0
/-- CPL_FENCE (R124). -/
def cplFenceOf (d : List Byte) : Bool := bit (fieldAt d 1 1) 1
/-- SHARD (R124). -/
def shardOf (d : List Byte) : Nat := fieldAt d 2 1 % 64
/-- TAG (R124). -/
def tagOf (d : List Byte) : Nat := fieldAt d 4 4
/-- Whether the opcode names a shard (R124). -/
def namesShard (op : Nat) : Bool := 1 ≤ op && op ≤ 7
/-- The byte of the primary operand, for an opcode with a range block (R124). -/
def primaryByte (op : Nat) : Option Nat :=
  if op = 3 ∨ op = 4 ∨ op = 0x0A ∨ op = 0x0B ∨ op = 0x0C ∨ op = 0x13 then some 24 else none


/-! ## Accepted descriptors and their parts -/

/-- The slot that a descriptor reads of a region (R98). -/
def Job.readSlot (j : Job) (e : RegionEntry) : Nat :=
  if e.slotted then ((j.slots.find? (·.1 == e.shard)).map (·.2)).getD 0 else 0

/-- The slot that STILL and CAST write of a region (R98). -/
def Job.writeSlot (j : Job) (e : RegionEntry) : Nat :=
  if e.slotted then 1 - j.readSlot e else 0

/-- The region entry of an operand byte, as it was at acceptance (R96). -/
def Job.ent (j : Job) (byte : Nat) : RegionEntry :=
  ((j.ents.find? (·.1 == byte)).map (·.2)).getD {}

/-- The region-table entry that an operand of a job names: a byte of the descriptor, or 1000 and the entry for a region
that the rows of a RILL name (R305). -/
def Job.entryNo (j : Job) (byte : Nat) : Nat :=
  if 1000 ≤ byte then byte - 1000 else fieldAt j.desc byte 1

/-- The part of a job on a jet. -/
def Job.partOn (j : Job) (jet : Nat) : Option Part :=
  j.parts.find? (·.jet == jet)

/-- Change the part of a job on a jet. -/
def Job.updPart (j : Job) (jet : Nat) (f : Part → Part) : Job :=
  { j with parts := j.parts.map fun p => if p.jet == jet then f p else p }

/-- Whether a part has ended before its last tile. One that a reset drains has not while its tiles in flight are all that
is left of it (R361). -/
def Part.stops (p : Part) : Bool :=
  match p.ended with
  | some (.abortedReset, _) => decide (p.committed + p.inFlight.length < p.tiles)
  | some _ => true
  | none => false

/-- Whether some part ended before its last tile, so that the others stop at their tile boundary (R172, R361, R367). -/
def Job.stopping (j : Job) : Bool :=
  j.parts.any (·.stops)

/-- Whether a part has nothing more to do. -/
def Job.partDone (j : Job) (p : Part) : Bool :=
  p.inFlight.isEmpty && (p.ended.isSome || j.stopping || p.committed == p.tiles)

/-- A part ends with a status. A fault in a tile that a reset drains is the part's; else the first status stands. -/
def Part.endWith (p : Part) (v : Verdict') : Part :=
  { p with ended := match p.ended with
    | some (.abortedReset, level) => if v.1 = .fault then some v else some (.abortedReset, level)
    | some x => some x
    | none => some v }


/-! ## The end of a part, and broken marks -/

/-- The rills and drains of a descriptor on a jet are dropped; the words already executed stand (R276). -/
def Well.dropJob (w : Well) (ring : Nat) (seq : Word) : Well :=
  let mine (r : Rill) : Bool := r.ring == ring && r.seq == seq
  let u := { w with rills := w.rills.filter (!mine ·), drains := w.drains.filter fun d => !(d.ring == ring && d.seq == seq) }
  match w.running with
  | some r => if mine r then { u with running := none, held := [], idle := [], suspended := false } else u
  | none => u

/-- One part of an accepted descriptor ends before its last tile: its tiles in flight commit nothing, and its rills stop (R89,
R172, R276). -/
def State.cutPart (s : State) (ring : Nat) (seq : Word) (jet : Nat) (v : Verdict') : State :=
  (s.updJob ring seq fun j => j.updPart jet fun p =>
    if j.partDone p then p else { p.endWith v with inFlight := [] }).updWell jet (·.dropJob ring seq)

/-- Where some part of a GEMV has ended before its end, the rills of its other parts are not run either (R276, R361, R367). -/
def State.stopRills (s : State) (ring : Nat) (seq : Word) : State :=
  match s.job ring seq with
  | some j =>
    if opOf j.desc = 9 ∧ j.stopping then
      (j.parts.filter (·.ended.isNone)).foldl (fun t p => t.updWell p.jet (·.dropJob ring seq)) s
    else s
  | none => s

/-- A part of an accepted descriptor ends before its last tile, and with it the rills of the others (R89, R172, R276, R361,
R367). -/
def State.endPart (s : State) (ring : Nat) (seq : Word) (jet : Nat) (v : Verdict') : State :=
  (s.cutPart ring seq jet v).stopRills ring seq

/-- Set the broken mark of a slot. -/
def RegionEntry.break (e : RegionEntry) (slot : Nat) : RegionEntry :=
  if slot = 0 then { e with broken0 := true } else { e with broken1 := true }

/-- Whether an accepted GEMV or RILL reads a slot of a region (R311). -/
def Job.readsPlane (j : Job) (key slot : Nat) : Bool :=
  !j.recorded && (opOf j.desc == 9 || opOf j.desc == 0x0A) && j.ents.any fun x =>
    x.2.kind == 6 && j.readSlot x.2 == slot &&
      regionKey j.part (j.entryNo x.1) == key

/-- A mark is set; a GEMV or RILL that reads the slot and is running completes FAULT (R308, R311). -/
def State.breakSlot (s : State) (key slot : Nat) : State :=
  let t := s.updRegion key (·.break slot)
  (t.jobs.filter fun j => j.readsPlane key slot).foldl (fun u j =>
    j.parts.foldl (fun u p => u.endPart j.ring j.seq p.jet (.fault, 0x0C)) u) t


end Sys2Proof.Machine
end

