-- ==== Sys2Proof/Machine/Tap.lean ====
section
/-! DEFINITION. The landing tap and the seal reports, and the block's own writes, which both see (R201 to R208, R212, R304,
R309, R416). -/

namespace Sys2Proof.Machine

/-! ## The landing tap (R202 to R208) -/

/-- The landing regions of a shard: key and entry. -/
def State.landingRegions (s : State) (h : Nat) : List (Nat × RegionEntry) :=
  s.regions.filter fun x => x.2.kind == 3 && x.2.shard == h

/-- The blocks of each share of a region. -/
def RegionEntry.blocks (e : RegionEntry) : Nat := e.perShare / 4096

/-- The ledger key of a block. -/
def blockKey (region block : Nat) : Nat := region * 2 ^ 26 + block

/-- A block of the ledger. -/
def State.block (s : State) (j region block : Nat) : Block :=
  Tab.get {} (s.jet j).ledger (blockKey region block)

/-- Change a block of the ledger. -/
def State.updBlock (s : State) (j region block : Nat) (f : Block → Block) : State :=
  s.updJet j fun x => { x with ledger := Tab.upd {} x.ledger (blockKey region block) f }

/-- The enables of each element of `w` bytes of a beat. -/
def elementEnables (w : Nat) (enables : BitVec 64) : List (List Bool) :=
  chunksOf w (64 / w) ((List.range 64).map enables.getLsbD)

/-- The elements of a beat with all their bytes enabled, as codes. -/
def beatCodes (w : Nat) (enables : BitVec 64) (data : List Byte) : List Nat :=
  (((elementEnables w enables).zip (chunksOf w (64 / w) (padTo 64 data))).filter fun x => x.1.all id).map
    fun x => ofLe x.2

/-- Whether a write is well formed: whole aligned elements, and the region's format as tag (R203). -/
def wellFormedWrite (e : RegionEntry) (enables : BitVec 64) (tag : Nat) : Bool :=
  tag == e.format && (elementEnables (e.width / 8) enables).all fun l => l.all id || l.all fun b => !b

/-- The square of a code, exactly; nothing for a non-finite one (R206). -/
def squareOf (f : Fmt) (code : Nat) : Option Dy :=
  match f.decode code with | .fin d => some (d.mul d) | _ => none

/-- The exact sum of the squares of finite codes, onto a sum (R205, R206). -/
def addSquares (f : Fmt) (acc : Dy) (codes : List Nat) : Dy :=
  codes.foldl (fun a c => match squareOf f c with | some d => a.add .rne d | none => a) acc

/-- The non-finite codes: infinities and NaNs, 80h of Q8E4 (R206). -/
def nonFiniteCodes (f : Fmt) (codes : List Nat) : Nat :=
  (codes.filter fun c => (f.decode c).nonFinite).length

/-- An exact sum rounded once to F32 under RNE (R206). -/
def roundF32 (d : Dy) : Nat :=
  (convertNum .f32 .rne 0 (.fin d)).1

/-- The bytes of a landing block. -/
def RegionEntry.blockBytes (e : RegionEntry) : Nat := 512 * e.width

/-- A landing write is taken into its block's reckoning; `room`: an accumulator is free (R205 to R208). -/
def Block.take (b : Block) (e : RegionEntry) (room ok : Bool) (bytes : Nat) (codes : List Nat) : Block :=
  let f := e.fmt.getD .f32
  let opened := if b.present then b.opened else room
  let landed := b.landed + bytes
  let counts := ok && opened
  let sum := if counts then addSquares f b.sum codes else b.sum
  let closes := b.present = false ∨ b.landed < e.blockBytes
  { b with
    present := true
    deferred := if b.present then b.deferred else !room
    landed := landed
    ragged := b.ragged || !ok || decide (e.blockBytes < landed)
    sum := sum
    nonFinite := if counts then b.nonFinite + nonFiniteCodes f codes else b.nonFinite
    value := if opened && decide (landed = e.blockBytes ∧ closes) then some (roundF32 sum) else b.value
    opened := opened && decide (landed < e.blockBytes) }

/-- Open accumulators of a jet (R205). -/
def Jet.openBlocks (x : Jet) : Nat :=
  (x.ledger.filter (·.2.opened)).length

/-- Add to a counter of a shard's landing census (R211). -/
def Shard.countLanding (h : Shard) (counter n : Nat) : Shard :=
  { h with landing := Tab.upd 0 h.landing counter (satAdd 48 · n) }

/-- The landing counter of a format (R211). -/
def landedCounter (format : Nat) : Nat :=
  match Fmt.ofCode format with
  | some .f32 => 0 | some .f16 => 1 | some .b16 => 2 | some .q8e4 => 3 | _ => 4

/-- Whether a shard's landing is open on a jet: LANDING, its LAND completed, and no METER of it past the jet's flush
acknowledgement (R202, R209, R417). -/
def State.landingOpen (s : State) (h j : Nat) : Bool :=
  (s.shard h).state == 1 &&
    !s.jobs.any fun x => !x.recorded && shardOf x.desc == h &&
      (opOf x.desc == 1 || (opOf x.desc == 2 && !x.flush.contains j))

/-- A stray write is counted; one at a jet whose clock stands still is not read before the jet wakes (R202, R211, R432). -/
def State.countStray (s : State) (h j : Nat) : State :=
  let t := s.updShard h (·.countLanding 11 1)
  if (s.jet (s.engine j)).awake then t else t.updJet j fun x => { x with naps := Tab.upd 0 x.naps h (· + 1) }

/-- A stray write: counted up to the release of the ledger, and recorded once for each shard and epoch (R202, R211). -/
def State.stray (s : State) (h j part offset : Nat) : State :=
  let x := s.shard h
  ((if x.isOpen then s.countStray h j else s).emitIf (!x.straySeen)
    { cls := 1, code := 4, part := some part, jet := j, shard := some h, arg0 := offset % 2 ^ 32, arg1 := offset / 2 ^ 32 })
    |>.updShard h fun y => { y with straySeen := true }

/-- The Weir reckons a tapped beat (R202, R203, R206). -/
def State.reckon (s : State) (j key : Nat) (e : RegionEntry) (offset : Nat) (enables : BitVec 64) (data : List Byte)
    (tag : Nat) : State :=
  if s.landingOpen e.shard j then
    let w := e.width / 8
    let ok := wellFormedWrite e enables tag
    let n := ((elementEnables w enables).filter fun l => l.any id).length
    let block := (offset - e.base) / e.blockBytes
    let room := decide ((s.jet j).openBlocks < 1024)
    (s.updBlock j key block fun b => b.take e room ok (popcount 64 enables.toNat) (beatCodes w enables data)).updShard
      e.shard (·.countLanding (if ok then landedCounter e.format else 5) n)
  else s.stray e.shard j (key / 256) offset

/-- The byte enables and the data of the beat at `beat` × 64 for bytes written from `off` on. -/
def beatOf (off : Nat) (bs : List Byte) (beat : Nat) : BitVec 64 × List Byte :=
  let at' (i : Nat) : Bool := off ≤ 64 * beat + i && 64 * beat + i < off + bs.length
  (BitVec.ofNat 64 ((List.range 64).foldl (fun m i => if at' i then m + 2 ^ i else m) 0),
    (List.range 64).map fun i => if at' i then bs.getD (64 * beat + i - off) 0#8 else 0#8)


/-- A beat of a landing write is lost: its block, if its landing is open, is short, and so ragged (R207, R212, R409; log
105). -/
def State.tapLost (s : State) (j key : Nat) (e : RegionEntry) (offset : Nat) : State :=
  if s.landingOpen e.shard j then
    s.updBlock j key ((offset - e.base) / e.blockBytes) fun b => { b with present := true, ragged := true }
  else s

/-- A beat of a landing write is presented to the Weir of a jet, which is lost while the Weir is held in reset or halted,
and while the block is frozen or in reset (R201, R212, R402, R416). -/
def State.tapBeat (s : State) (jet key : Nat) (e : RegionEntry) (offset : Nat) (enables : BitVec 64) (data : List Byte)
    (tag : Nat) : State :=
  let x := s.jet (s.engine jet)
  if enables = 0 then s
  else if !s.open? || x.inReset || x.halted then s.tapLost jet key e offset
  else s.reckon jet key e offset enables data tag

/-- The Weir of a jet sees the bytes written from stack offset `off` on, beat by beat (R201). -/
def State.tapBytes (s : State) (jet key : Nat) (e : RegionEntry) (off : Nat) (bs : List Byte) (tag : Nat) : State :=
  if bs.isEmpty then s
  else ((List.range ((off + bs.length - 1) / 64 + 1 - off / 64)).map (off / 64 + ·)).foldl (fun t b =>
    t.tapBeat jet key e (64 * b) (beatOf off bs b).1 (beatOf off bs b).2 tag) s

/-! ## The block's own writes (R201, R304, R416) -/

/-- The common part of two ranges (address, length). -/
def commonRange (a n b m : Nat) : Option (Nat × Nat) :=
  let lo := max a b
  let hi := min (a + n) (b + m)
  if lo < hi then some (lo, hi - lo) else none

/-- Where a range of fabric addresses meets landing shares: key, entry, jet, first address, length (R201). -/
def State.landingHits (s : State) (a n : Nat) : List (Nat × RegionEntry × Nat × Nat × Nat) :=
  (s.regions.filter (·.2.kind == 3)).flatMap fun x => x.2.jetList.filterMap fun j =>
    (commonRange a n (stackAddr j x.2.base) x.2.length).map fun r => (x.1, x.2, j, r.1, r.2)

/-- The Weirs see bytes written from a fabric address on, where they fall in landing shares (R201). -/
def State.showWeir (s : State) (a : Nat) (bs : List Byte) (tag : Nat) : State :=
  (s.landingHits a bs.length).foldl (fun t x =>
    t.tapBytes x.2.2.1 x.1 x.2.1 (x.2.2.2.1 - stackAddr x.2.2.1 0) ((bs.drop (x.2.2.2.1 - a)).take x.2.2.2.2) tag) s

/-- Where a range of fabric addresses meets slots of SEAL 1h regions: jet, key, entry, slot (R304). -/
def State.sealHits (s : State) (a n : Nat) : List (Nat × Nat × RegionEntry × Nat) :=
  (s.regions.filter fun x => x.2.sealKind == 1 && x.2.loc == 0).flatMap fun x => x.2.jetList.flatMap fun j =>
    (x.2.slotList.filter fun k => (commonRange a n (stackAddr j (x.2.slotBase k)) x.2.length).isSome).map fun k =>
      (j, x.1, x.2, k)

/-- A reported write into a slot of a SEAL 1h region: record 08h and the mark; lost while the jet is held in reset or
halted (R309, R416). -/
def State.sealReported (s : State) (x : Nat × Nat × RegionEntry × Nat) : State :=
  let g := s.jet (s.engine x.1)
  if !s.live || g.inReset || g.halted then s
  else (s.emit { cls := 1, code := 8, part := some (x.2.1 / 256), jet := x.1
                 shard := if x.2.2.1.slotted then some x.2.2.1.shard else none
                 arg0 := x.2.1 % 256, arg1 := x.2.2.2 }).breakSlot x.2.1 x.2.2.2

/-- A write of the block into fabric memory: the bytes, what the Weirs see of it, and, unless it goes out through the port
of the jet that serves the stack, what is reported of it (R201, R304). -/
def State.put (s : State) (fabric : Bool) (a : Nat) (bs : List Byte) (tag : Nat) : State :=
  let t := (s.write a bs).showWeir a bs tag
  if fabric then (t.sealHits a bs.length).foldl State.sealReported t else t

/-- A write through a port that waits for its acknowledgement, with the bytes it replaces; it names no format (R203). -/
def State.portWrite (s : State) (r : Request) (a : Nat) (bs : List Byte) : State :=
  (s.request { r with old := (List.range bs.length).map fun i => (a + i, memGet s.mem (a + i)) }).put (!r.stack) a bs 15

/-- Write bytes of a region from byte `off` on, with the format tag of the request: Fh where it names none (R203). -/
def State.writeRegion (s : State) (e : RegionEntry) (slot off : Nat) (bs : List Byte) (tag : Nat := 15) : State :=
  ((e.ranges slot off bs.length).foldl (fun (t, rest) r =>
    (t.put (e.loc == 1) r.1 (rest.take r.2) tag, rest.drop r.2)) (s, bs)).1

end Sys2Proof.Machine
end

