-- ==== Sys2Proof/Machine/Operands.lean ====
section
/-! DEFINITION. The operands of descriptors: regions, shares and element ranges (R92 to R94, R127), and the fields of a
descriptor with the check of its reserved bits (R124, R125). -/

namespace Sys2Proof.Machine

/-! ## Descriptor fields -/

/-- The bits of a descriptor that an opcode uses, as (first byte, last byte, mask) (R124, R125). -/
def usedBits (op : Nat) : List (Nat × Nat × Nat) :=
  [(0, 0, 255), (1, 1, 3), (2, 2, if namesShard op then 63 else 0), (4, 7, 255)] ++
  (if (primaryByte op).isSome then [(8, 12, 255), (16, 20, 255)] else []) ++
  match op with
  | 1 | 2 | 5 | 7 | 0x11 => [(8, 11, 255)]
  | 3 => [(24, 36, 255), (38, 38, 255), (39, 39, 31), (40, 41, 255), (42, 42, 127), (43, 43, 7), (44, 47, 255), (48, 48, 3)]
  | 4 => [(24, 27, 255), (28, 28, 15), (30, 30, 127), (31, 31, 7), (32, 35, 255)]
  | 6 => [(8, 11, 255), (12, 12, 1)]
  | 8 => [(24, 28, 255), (29, 29, 3), (32, 43, 255), (44, 44, 15), (45, 45, 7), (46, 46, 3)]
  | 9 => [(24, 36, 255), (37, 37, 15), (38, 38, 7)]
  | 0x0A => [(24, 25, 255)]
  | 0x0B => [(24, 25, 255), (26, 26, 7), (32, 36, 255)]
  | 0x0C => [(24, 24, 255), (32, 39, 255)]
  | 0x0D => [(8, 8, 255), (9, 9, 15), (10, 10, 255), (12, 13, 255), (16, 20, 255), (24, 31, 255)]
  | 0x0E => [(8, 8, 255), (9, 9, 0x8F), (12, 15, 255)]
  | 0x0F => [(8, 8, 255), (9, 9, 0x8F), (16, 20, 255), (24, 24, 255)]
  | 0x10 => [(8, 15, 255), (16, 20, 255), (24, 24, 255)]
  | 0x12 => [(16, 20, 255), (24, 24, 255), (32, 63, 255)]
  | 0x13 => [(24, 25, 255), (26, 26, 1), (32, 36, 255)]
  | _ => []

/-- The mask of the bits that an opcode uses in byte `i`. -/
def usedMask (op i : Nat) : Nat :=
  match (usedBits op).find? fun (a, b, _) => a ≤ i && i ≤ b with
  | some (_, _, m) => m
  | none => 0

/-- The bytes that hold a reserved bit that is not 0, ascending (R13, R133). -/
def reservedBytes (d : List Byte) : List Nat :=
  (List.range 64).filter fun i => (fieldAt d i 1).land (255 - usedMask (opOf d) i) ≠ 0

/-- Step 1 of R133: reserved bits, and the bytes with a reserved code or an absent operand byte that `more` adds; the
lowest byte is DETAIL. -/
def formatCheck (d : List Byte) (more : List Nat) : Option Verdict' :=
  match leastBelow 64 fun i => (reservedBytes d ++ more).contains i with
  | some i => some (at' .format i)
  | none => none

/-- The region that an operand byte names (R96). -/
def State.operand (s : State) (part : Nat) (d : List Byte) (byte : Nat) : RegionEntry :=
  s.region part (fieldAt d byte 1)

/-- The shard check of step 2: a shard in the SHARD field that the partition does not own (R130). -/
def State.shardDenied (s : State) (part : Nat) (d : List Byte) : Bool :=
  namesShard (opOf d) && (s.shard (shardOf d)).owner != some part

/-- The group check of step 2: a group owned by another partition (R174). -/
def State.groupDenied (s : State) (part g : Nat) : Bool :=
  match (s.group g).owner with | some o => o != part | none => false

/-- The first operand byte that names an unused entry (R96). -/
def State.unusedEntry (s : State) (part : Nat) (d : List Byte) (bytes : List Nat) : Option Verdict' :=
  (bytes.find? fun b => (s.operand part d b).kind == 0).map (at' .denied)

/-- The first operand byte whose region `bad` refuses. -/
def State.badOperand (s : State) (part : Nat) (d : List Byte) (st : Status) (bytes : List Nat)
    (bad : Nat → RegionEntry → Bool) : Option Verdict' :=
  (bytes.find? fun b => bad b (s.operand part d b)).map (at' st)

/-! ## The range block (R127) -/

/-- OFFSET of the range block. -/
def offsetOf (d : List Byte) : Nat := fieldAt d 8 5
/-- LENGTH of the range block, resolved against the size of the primary region (R127, step 1). -/
def lengthOf (d : List Byte) (size : Nat) : Nat :=
  if fieldAt d 16 5 = 0xFFFFFFFFFF then size - offsetOf d else fieldAt d 16 5

/-- R127, step 2: whole elements. -/
def rangeLength (d : List Byte) (e : RegionEntry) : Option Verdict' :=
  firstOf [(offsetOf d * 8 % e.width ≠ 0, at' .length 8), (lengthOf d e.size * 8 % e.width ≠ 0, at' .length 16)]

/-- R127, step 3: the end of the primary region. -/
def rangeBound (d : List Byte) (e : RegionEntry) : Option Verdict' :=
  firstOf [(offsetOf d > e.size, at' .bound 8), (offsetOf d + lengthOf d e.size > e.size, at' .bound 16)]

/-- The first region element of a range (R127, step 4). -/
def firstElem (d : List Byte) (e : RegionEntry) : Nat := offsetOf d * 8 / e.width
/-- How many region elements a range covers (R127, step 4). -/
def countElem (d : List Byte) (e : RegionEntry) : Nat := lengthOf d e.size * 8 / e.width

/-- R88: on every jet the range starts on a block boundary, and it ends on one or at the end of the region. -/
def blockRange (d : List Byte) (e : RegionEntry) : Bool :=
  ((e.shares (firstElem d e) (countElem d e)).all fun x => x.2.1 % 4096 == 0) &&
    (decide (e.elems ≤ firstElem d e + countElem d e) ||
      (e.shares (firstElem d e) (countElem d e)).all fun x => (x.2.1 + x.2.2) % 4096 == 0)

/-- Tiles of 4096 elements, the last of which may be short (R87). -/
def tilesOf (n : Nat) : Nat := (n + 4095) / 4096

/-- Elements of tile `k` of a part of `n` elements (R87). -/
def tileSize (n k : Nat) : Nat := min 4096 (n - 4096 * k)

/-- One part for each share of an element range (R132). -/
def partsOf (e : RegionEntry) (first count : Nat) : List Part :=
  (e.shares first count).map fun (j, lo, n) => { jet := j, first := lo, count := n, tiles := tilesOf n }

/-! ## Acceptance (R120, R121) -/

/-- Whether an accepted descriptor of a ring has not completed. -/
def State.outstanding (s : State) (r : Nat) : List Job :=
  s.jobs.filter fun x => x.ring == r && !x.recorded

/-- Whether a descriptor is shard-ordered: a CAST only when one of its outputs is slotted (R124). -/
def State.shardOrdered (s : State) (part : Nat) (d : List Byte) : Bool :=
  namesShard (opOf d) &&
    (opOf d != 4 || ([25, 26, 27].zip [1, 2, 3]).any fun (b, u) =>
      bit (fieldAt d 28 1) u && (s.operand part d b).slotted)

/-- Whether a descriptor must wait before acceptance (R121). -/
def State.mustWait (s : State) (r : Nat) (d : List Byte) : Bool :=
  (fenceOf d && !(s.outstanding r).isEmpty) ||
    (s.shardOrdered (s.ring r).part d &&
      (s.outstanding r).any fun x => namesShard (opOf x.desc) && shardOf x.desc == shardOf d)

/-- The address of the completion slot of a descriptor (R129). -/
def State.recordAddr (s : State) (c : Ring) (seq : Word) : Nat :=
  let e := s.region c.part c.cplRegion
  e.shareAddr 0 (e.jetList.headD 0) (16 * (seq.toNat % 2 ^ c.sizeExp))

/-- Whether the write of a completion record waits for the indication of a bank (R299). -/
def State.recordHeld (s : State) (r : Nat) (seq : Word) : Bool :=
  s.rangeHeld (s.recordAddr (s.ring r) seq) 16

/-- Whether a region of fabric memory lies in a stack whose banks are held, so that accesses of the block to it wait (R299). -/
def State.fabricHeld (s : State) (e : RegionEntry) : Bool :=
  e.loc == 1 && (List.range 24).any fun k => s.stackHeld k && (commonRange e.base e.size (stackAddr k 0) (2 ^ 36)).isSome

/-- Whether the accesses that a descriptor makes at its acceptance wait: those of GEMV, RILL, SCHED, CENSUS, FWCHUNK, ATTEST
and EXPORT (R299). -/
def State.entryHeld (s : State) (part : Nat) (d : List Byte) : Bool :=
  [9, 0x0A, 0x0D, 0x0F, 0x10, 0x12, 0x13].contains (opOf d) &&
    (if opOf d = 0x0D then [10] else [24, 25]).any fun b => s.fabricHeld (s.operand part d b)

/-- The descriptor of a ring that can be accepted now, if it has the given opcode: the oldest fetched one, whose fetch
has been answered, under a controller that runs and accepts, when the waits of R121 are over and no range message of the
partition is outstanding; FWCHUNK alone does not wait for an activation, and accesses wait for bank indications (R97, R119 to
R121, R299, R383, R385, R415). -/
def State.front (s : State) (r : Nat) (isOp : Nat → Bool) : Option Held :=
  let c := s.ring r
  if s.live && s.basinRuns c.home && c.enable && !c.halted && (Tab.get none s.resets.parts c.part).isNone &&
      s.range.all fun w => w.key / 256 != c.part then
    match c.held with
    | h :: _ =>
      if isOp (opOf h.bytes) && (!s.warden.activating || opOf h.bytes == 0x10) &&
          !(s.reqs.any fun x => x.purpose == .fetch r h.seq) && !s.mustWait r h.bytes && !s.recordHeld r h.seq &&
          !s.entryHeld c.part h.bytes then some h
      else none
    | [] => none
  else none

/-- The ring's oldest fetched descriptor leaves the fetched ones. -/
def State.unhold (s : State) (r : Nat) : State :=
  s.updRing r fun c => { c with held := c.held.tail }

/-! ## Completion (R129 to R135) -/

/-- The 16 bytes of a completion record (R129). -/
def recordBytes (c : Ring) (seq : Word) (st : Status) (op jet tag detail : Nat) (fenced halted : Bool) : List Byte :=
  leBytes 1 st.code ++ leBytes 1 op ++
    leBytes 1 (b2n (!seq.getLsbD c.sizeExp) + 2 * b2n fenced + 4 * b2n halted) ++ leBytes 1 jet ++
    leBytes 4 seq.toNat ++ leBytes 4 tag ++ leBytes 4 detail

/-- The ring halts on a descriptor: those fetched and not accepted are returned (R134). -/
def Ring.halt (c : Ring) (seq : Word) : Ring :=
  { c with halted := true, haltSeq := seq, next := (c.held.head?.map (·.seq)).getD c.next, held := [] }

/-- DRAINING ends with the ring's last accepted descriptor (R114). -/
def State.endDraining (s : State) (r : Nat) : State :=
  if (s.outstanding r).isEmpty then s.updRing r fun c => { c with draining := false } else s

/-- OPCODE of a completion record: 00h for a reserved opcode (R129). -/
def opField (op : Nat) : Nat := if op < 0x14 then op else 0

/-- The fetches of a ring's descriptors that have gone back, or are skipped, wait no longer for their answers (R114,
R134). -/
def State.dropFetches (s : State) (r : Nat) : State :=
  { s with reqs := s.reqs.filter fun x => match x.purpose with | .fetch n _ => n != r | _ => true }

/-- Write a completion record, where the ring's completion region still stands, and halt the ring where R134 says so. -/
def State.writeRecord (s : State) (r : Nat) (seq : Word) (v : Verdict') (op jet tag : Nat) (fenced : Bool) : State :=
  let c := s.ring r
  let halts := c.haltOnRefuse && (c.enable || c.draining) && v.1 == .refusedState
  let t := if (s.region c.part c.cplRegion).kind = 10 then
      s.portWrite { stack := false, place := c.home, purpose := .record r seq } (s.recordAddr c seq)
        (recordBytes c seq v.1 (opField op) jet tag v.2 fenced halts)
    else s
  if halts then (t.updRing r (·.halt seq)).dropFetches r else t

/-- A status reached at acceptance: the record is written, JET FFh (R129). -/
def State.refuse (s : State) (r : Nat) (h : Held) (v : Verdict') : State :=
  (s.unhold r).writeRecord r h.seq v (opOf h.bytes) 0xFF (tagOf h.bytes) (cplFenceOf h.bytes)

/-- Wake jets and basins: a sleeping one begins to wake (R398). -/
def State.wake (s : State) (js bs : List Nat) : State :=
  if s.live then
    { s with
      jets := Tab.updAll {} s.jets ((js.filter s.present).map s.engine) fun _ x => if x.awake then x else { x with waking := true }
      basins := Tab.updAll {} s.basins bs fun _ x => if x.awake then x else { x with waking := true } }
  else s

/-- The basins that traffic from basin `a` to basin `b` passes one way round the ring, both ends with it. -/
def wayRound (a b step : Nat) : List Nat :=
  (List.range (((if step = 1 then b + 6 - a else a + 6 - b) % 6) + 1)).map fun i => (a + i * step) % 6

/-- Whether every link of a way round the ring stands, and no basin between its ends is in reset. -/
def State.wayStands (s : State) (way : List Nat) (step : Nat) : Bool :=
  (way.dropLast.all fun b => !(if step = 1 then (s.basin b).up else (s.basin b).dn).out) &&
    way.dropLast.tail.all fun b => (s.basin b).resetting.isNone

/-- The basins that traffic from basin `a` to basin `b` passes: the shorter way round, the way of increasing numbers
between basins three apart, and the other way where a link is withdrawn or a basin on the way is in reset (R23, R363, R369). -/
def State.route (s : State) (a b : Nat) : List Nat :=
  let up := wayRound a b 1
  let dn := wayRound a b 5
  if up.length ≤ 4 then (if s.wayStands up 1 || !s.wayStands dn 5 then up else dn)
  else if s.wayStands dn 5 || !s.wayStands up 1 then dn else up

/-- The basins that the traffic of a descriptor homed on a basin passes on its way to jets (R23, R398). -/
def State.routes (s : State) (home : Nat) (js : List Nat) : List Nat :=
  (js.flatMap fun j => s.route home (j / 4)).eraseDups

/-- The jets of a shard's landing regions, ascending. -/
def State.landingJets (s : State) (h : Nat) : List Nat :=
  (List.range 24).filter fun j => (s.landingRegions h).any fun x => bit x.2.jets j

/-- The jets that a descriptor is forwarded to: those of its parts, or those whose Weirs a LAND or METER addresses (R21, R209,
R210). -/
def State.workJets (s : State) (j : Job) : List Nat :=
  if opOf j.desc = 1 ∨ opOf j.desc = 2 then s.landingJets (shardOf j.desc) else (j.parts.map (·.jet)).filter (· < 24)

/-- The descriptor is accepted as a job: its jets, and the basins on the way to them, are woken (R398), and its pins taken
(R99). -/
def State.takeUp (s : State) (r : Nat) (j : Job) : State :=
  let t := s.unhold r
  let js := s.workJets j
  let u := (t.takePins (j.pins.map (·.1))).wake js (s.routes (s.ring r).home js)
  { u with jobs := u.jobs ++ [j] }

/-- The basins that the statuses of a descriptor's jets pass on their way to its home basin (R23). -/
def State.wayBack (s : State) (j : Job) : List Nat :=
  (s.workJets j).flatMap fun k => s.route (k / 4) (s.ring j.ring).home

/-- Whether the basins on that way are awake (R398). -/
def State.backAwake (s : State) (j : Job) : Bool :=
  (s.wayBack j).all fun b => (s.basin b).awake

/-- A read of a descriptor at its acceptance, which the stack port of each jet that holds a part of it, or the home basin's
fabric port, must answer (R414, R420). -/
def State.readDue (s : State) (ring : Nat) (seq : Word) (e : RegionEntry) (off n : Nat) : State :=
  if e.loc = 1 then s.request { stack := false, place := (s.ring ring).home, purpose := .operand ring seq }
  else (((e.ranges 0 off n).map (·.1 / 2 ^ 36)).eraseDups).foldl (fun t k =>
    t.request { stack := true, place := k, purpose := .operand ring seq }) s

/-- Whether a read of a descriptor is not answered. -/
def State.readsDue (s : State) (ring : Nat) (seq : Word) : Bool :=
  s.reqs.any fun r => r.purpose == .operand ring seq

/-- The reads of a descriptor that has ended matter no more. -/
def State.dropReads (s : State) (ring : Nat) (seq : Word) : State :=
  { s with reqs := s.reqs.filter fun r => r.purpose != .operand ring seq }

/-- A job as it stands when it is accepted. -/
def newJob (s : State) (r : Nat) (h : Held) : Job :=
  { ring := r, seq := h.seq, desc := h.bytes, part := (s.ring r).part }

/-- The pins a descriptor takes: each shard of the slotted regions it reads, once, at its current slot (R99). -/
def State.pinsFor (s : State) (es : List RegionEntry) : List (Nat × Nat) :=
  ((es.filter (·.slotted)).map (·.shard)).eraseDups.map fun h => (h, (s.shard h).curSlot)

/-- Whether a pin cannot be taken, because the count is full (R100). -/
def State.pinsFull (s : State) (pins : List (Nat × Nat)) : Bool :=
  pins.any fun (h, slot) => (s.shard h).pins slot == 65535

/-- The current slot, at acceptance, of each shard that the slotted regions of a descriptor name (R98). -/
def State.slotsFor (s : State) (es : List RegionEntry) : List (Nat × Nat) :=
  ((es.filter (·.slotted)).map (·.shard)).eraseDups.map fun h => (h, (s.shard h).curSlot)

/-- Whether a station that a list names is not READY on one of the jets, the lowest station first (R108). -/
def State.notReady (s : State) (stations jets : List Nat) : Option Verdict' :=
  (stations.find? fun k => jets.any fun j => s.code j k != 2).map stationDown

/-- Tiles committed, summed over the jets (R131). -/
def Job.tilesDone (j : Job) : Nat :=
  (j.parts.map (·.committed)).sum

/-- The status of a part: the one it ended with; OK where it ran to its end, as a part does whose last tile a drain has
committed, or stopped for another part (R132, R361). -/
def Part.status (p : Part) : Status × Nat :=
  match p.ended with
  | some (.abortedReset, level) => if p.committed < p.tiles then (.abortedReset, level) else (.ok, 0)
  | some x => x
  | none => (.ok, 0)

/-- The order in which statuses of parts count (R132). -/
def statusOrder : List Status := [.fault, .abortedReset, .length, .ok, .empty]

/-- The status of a job whose parts have ended: status, JET, the part's detail (R132). -/
def Job.combined (j : Job) : Status × Nat × Nat :=
  let l := j.parts.map fun p => (p.jet, p.status)
  match statusOrder.find? fun st => l.any (·.2.1 == st) with
  | some st =>
    match (l.filter (·.2.1 == st)).foldl (fun m x => match m with | none => some x | some y => if x.1 < y.1 then some x else m)
        (none : Option (Nat × Status × Nat)) with
    | some (jet, _, detail) => (st, jet, detail)
    | none => (st, 0xFF, 0)
  | none => (.ok, 0xFF, 0)

/-- Forget the completed descriptors of which no write waits for its acknowledgement. -/
def State.sweepJobs (s : State) : State :=
  { s with jobs := s.jobs.filter fun j => !j.recorded || s.storesDue j.ring j.seq }

/-- The completion of an accepted descriptor: pins are released and the record is written; the descriptor is kept until
its writes are acknowledged (R99, R123, R129, R132). -/
def State.complete (s : State) (j : Job) (v : Verdict') (jet : Nat) : State :=
  let fenced := cplFenceOf j.desc
  let t := ((s.dropReads j.ring j.seq).releasePins j.pins).writeRecord j.ring j.seq v (opOf j.desc) jet (tagOf j.desc) fenced
  ((t.updJob j.ring j.seq fun x => { x with recorded := true, pins := [], parts := [], matrix := [], words := [] }).endDraining
    j.ring).sweepJobs

/-! ## The set-up register port -/

/-- Whether the set-up register port takes an access: out of reset and freeze, no range message outstanding, and the
boot phase serves the register (R336, R415, R424, R435). `early`: R435 lists it. -/
def State.portOpen (s : State) (part : Nat) (early : Bool) : Bool :=
  s.open? && decide (part < 8) && s.range.isNone &&
    (early || s.boot.phase == .test || s.boot.phase == .soak || s.boot.phase == .run)

/-- Whether accesses of the set-up registers wait: the block is frozen, or about to be, or the response to a region change is
held (R401, R415, R424). -/
def State.portHeld (s : State) : Bool :=
  s.clocks.freeze != .off || s.range.isSome

/-- An access waits at the register port. -/
def State.holdAccess (s : State) (a : Access) : State :=
  { s with clocks := { s.clocks with waiting := s.clocks.waiting ++ [a] } }

/-- The response of the register port (R424). -/
def State.reply (s : State) (v : Nat) : State := { s with portReply := v }

/-- A write at the register port: it waits where the port holds it; otherwise it acts, and its response is 0, at once or
with the last acknowledgement of its range messages (R415, R424). -/
def State.regWrite (s : State) (part addr : Nat) (value : Word) (act : State → State) : State :=
  if s.clocks.rst || 8 ≤ part then s
  else if s.portHeld then s.holdAccess { part := part, addr := addr, data := some value }
  else
    let t := act s
    if t.range.isSome then t else t.reply 0

/-- A read at the register port (R424). -/
def State.regReadAt (s : State) (part addr : Nat) (act : State → State) : State :=
  if s.clocks.rst || 8 ≤ part then s
  else if s.portHeld then s.holdAccess { part := part, addr := addr, data := none }
  else act s

/-- Whether a register access of a partition reaches an object of an owner: partition 0, or the owner; an object
without an owner is partition 0's (R429). -/
def ownAccess (part : Nat) (owner : Option Nat) : Bool :=
  part == 0 || owner == some part

end Sys2Proof.Machine
end

