-- ==== Sys2Proof/Machine/Landing.lean ====
section
/-! DEFINITION. The Weir: LAND, the landing tap, and METER (R201 to R212, R416, R417). -/

namespace Sys2Proof.Machine

/-! ## Shards -/

/-- A shard changes state, with trace record 40h (R223, R329). -/
def State.enter (s : State) (h new : Nat) : State :=
  let x := s.shard h
  (s.updShard h fun y => { y with state := new }).emit
    { cls := 3, code := 0x40, part := x.owner, shard := some h, arg0 := x.state, arg1 := new }

/-- The epoch that the state calls for, none where no check is made (R226). -/
def Shard.called (h : Shard) (op : Nat) : Option Word :=
  if op = 7 then (if h.state = 6 ∧ h.rewindable then some h.prevEpoch else none)
  else if h.state = 0 then none
  else if h.state = 6 then some (h.curEpoch + 1)
  else if op = 1 then some (h.openEpoch + 1) else some h.openEpoch

/-- Step 7 of R133. -/
def Shard.stale (h : Shard) (op : Nat) (epoch : Word) : Option Verdict' :=
  match h.called op with
  | some e => if e = epoch then none else some (.staleEpoch, e.toNat)
  | none => none

/-- Whether a descriptor is still-class: a STILL, or a CAST with a slotted output (R224). -/
def Job.stillClass (j : Job) : Bool :=
  opOf j.desc == 3 || (opOf j.desc == 4 && [25, 26, 27].any fun b => (j.ent b).slotted)

/-- STILL_BUSY (R230): a still-class descriptor of the shard is accepted and not complete, or has writes that are not
acknowledged. -/
def State.stillBusy (s : State) (h : Nat) : Bool :=
  s.jobs.any fun j => j.stillClass && shardOf j.desc == h && (!j.recorded || s.storesDue j.ring j.seq)

/-- Steps 1, 2 and 7 of R133 for a descriptor that names a shard and an epoch in bytes 8 to 11. -/
def State.shardChecks (s : State) (part : Nat) (d : List Byte) : Option Verdict' :=
  (formatCheck d []).orElse fun _ =>
    if s.shardDenied part d then some (at' .denied 2)
    else (s.shard (shardOf d)).stale (opOf d) (BitVec.ofNat 32 (fieldAt d 8 4))

/-- Whether the Pour station is READY (R86, R108). -/
def State.pourDown (s : State) : Option Verdict' :=
  if s.pourReady = 2 then none else some (stationDown 6)

/-! ## The ledger (R204) -/

/-- What LAND needs on a jet: one entry for every block of every landing region of the shard (R204). -/
def State.landNeeds (s : State) (h j : Nat) : List (Nat × Nat × Nat) :=
  ((s.landingRegions h).filter fun x => bit x.2.jets j).map fun x => (h, x.1, x.2.blocks)

/-- Whether a jet's ledger has room (R204). -/
def State.ledgerRoom (s : State) (h j : Nat) : Bool :=
  decide ((((s.jet j).alloc ++ s.landNeeds h j).map (·.2.2)).sum ≤ 262144)

/-- The ledger entries of a shard are released on every jet (R204). -/
def State.releaseLedger (s : State) (h : Nat) : State :=
  { s with jets := Tab.mapVals {} (fun _ x =>
      let keys := (x.alloc.filter (·.1 == h)).map (·.2.1)
      { x with
        alloc := x.alloc.filter (·.1 != h)
        ledger := x.ledger.filter fun b => !keys.contains (b.1 / 2 ^ 26) }) s.jets }

/-- LAND allocates one entry for every landing block of the shard (R204). -/
def State.allocate (s : State) (h : Nat) : State :=
  s.updJets (s.landingJets h) fun j x => { x with alloc := x.alloc ++ s.landNeeds h j }

/-- The stray writes of a shard that sleeping jets hold are counted no more (R209, R432). -/
def State.forgetNaps (s : State) (h : Nat) : State :=
  { s with jets := Tab.mapVals {} (fun _ x => { x with naps := Tab.set 0 x.naps h 0 }) s.jets }

/-- Whether no test holds the Weir of a landing jet of a shard (R109). -/
def State.weirsFree (s : State) (h : Nat) : Bool :=
  (s.landingJets h).all fun k => !s.underTest (s.engine k)

/-- Whether the engine of every landing jet of a shard can do its share of a LAND or METER: it is awake and not halted, and no
test holds it (R109, R209, R210, R409). -/
def State.weirsReady (s : State) (h : Nat) : Bool :=
  s.weirsFree h && (s.landingJets h).all fun k =>
    let x := s.jet (s.engine k)
    x.awake && !x.halted && !x.halting

/-! ## LAND (R209, R225, R228) -/

/-- The attempt number that a LAND would open (R225). -/
def Shard.nextAttempt (h : Shard) (epoch : Word) : Nat :=
  if epoch = h.openEpoch then h.attempt + 1 else 0

/-- The checks of LAND at step 8 of R133: the shard's context, its pins among it, before the stations (log 100). -/
def State.landState (s : State) (n : Nat) (epoch : Word) : Option Verdict' :=
  let h := s.shard n
  (firstOf [(h.state ≠ 0 && h.state ≠ 6, shardState h.state), (s.stillBusy n, shardState h.state),
    (h.state = 0 && (epoch = 0 || epoch = 0xFFFFFFFF), shardState 0),
    (h.state = 6 && epoch = 0xFFFFFFFF, shardState 6), (65535 < h.nextAttempt epoch, shardState h.state),
    (h.state = 6 && 0 < h.pins (1 - h.curSlot), cause 4)]).orElse fun _ =>
  (s.notReady [0] (s.landingJets n)).orElse fun _ => s.pourDown

/-- The checks of LAND, the ledger allocation last (R133, R204). -/
def State.landChecks (s : State) (part : Nat) (d : List Byte) : Option Verdict' :=
  let n := shardOf d
  (s.shardChecks part d).orElse fun _ =>
    (s.landState n (BitVec.ofNat 32 (fieldAt d 8 4))).orElse fun _ =>
      firstOf [(!(s.landingJets n).all (s.ledgerRoom n), at' .length 2)]

/-- The shard context at the acceptance of a LAND (R209, R218, R225, R228, R441). The record of a stray write is one for
each epoch, whatever its attempts (R202). -/
def Shard.land (h : Shard) (epoch : Word) : Shard :=
  { h with
    curEpoch := if h.state = 0 then epoch - 1 else h.curEpoch
    otherLabel := none, openEpoch := epoch, attempt := h.nextAttempt epoch
    ended := h.ended.filter (· != (epoch.toNat, h.nextAttempt epoch))
    verdictHeld := false, restillDue := false, firstPass := false, stillDone := false, torn := []
    tornOverflow := false, specMax := none, heldAs := none, vote := [], voteLanding := [], figures := {}, landing := []
    straySeen := h.straySeen && h.openEpoch == epoch, restillBegun := false, kept := [] }

/-- The effect of an accepted LAND of `epoch` on shard `n` (R209). -/
def State.landEffect (s : State) (n : Nat) (epoch : Word) : State :=
  (((s.releaseLedger n).forgetNaps n).allocate n |>.updShard n (·.land epoch)).enter n 1

/-- LAND (R209): it waits while a Weir that it would allocate in is under test (R109). -/
def execLand (ring : Nat) (s : State) : Host.Outcome State Fault Refusal :=
  .next <| match s.front ring (· == 1) with
    | none => s
    | some h =>
      if s.unitStopped || !s.weirsFree (shardOf h.bytes) then s
      else match s.landChecks (s.ring ring).part h.bytes with
        | some v => s.refuse ring h v
        | none => (s.landEffect (shardOf h.bytes) (BitVec.ofNat 32 (fieldAt h.bytes 8 4))).takeUp ring
            { newJob s ring h with wait := .ready }

/-! ## The landing tap (R202 to R208) -/

/-- The enabled bytes of a beat, as cells. -/
def beatCells (addr : Nat) (enables : BitVec 64) (data : List Byte) : List Host.Cell :=
  ((List.range 64).filter enables.getLsbD).map fun i => (addr + i, data.getD i 0#8)

/-- The landing region of a stack byte offset (R201). -/
def State.landingAt (s : State) (j offset : Nat) : Option (Nat × RegionEntry) :=
  s.regions.find? fun x => x.2.kind == 3 && bit x.2.jets j && x.2.base ≤ offset && offset < x.2.base + x.2.length

/-- LANDING_WRITE (R201 to R206, R212): a beat from another requester is committed to memory, and presented to the Weir. -/
def execLandingWrite (jet offset : Nat) (enables : BitVec 64) (data : List Byte) (tag : Nat) (s : State) :
    Host.Outcome State Fault Refusal :=
  .next <|
    let o := offset / 64 * 64
    match s.landingAt jet o with
    | none => s
    | some (key, e) =>
      ({ s with mem := memPatch s.mem (beatCells (stackAddr jet o) enables data) } : State).tapBeat jet key e o enables data tag

/-! ## METER (R210, R417) -/

/-- The checks of METER (R133, R210). -/
def State.meterChecks (s : State) (part : Nat) (d : List Byte) : Option Verdict' :=
  let n := shardOf d
  (s.shardChecks part d).orElse fun _ => (firstOf [((s.shard n).state ≠ 1, shardState (s.shard n).state)]).orElse fun _ =>
    (s.notReady [0] (s.landingJets n)).orElse fun _ => s.pourDown

/-- METER: taken up, each jet of the shard's landing regions sends TAP_FLUSH (R210, R417). -/
def execMeter (ring : Nat) (s : State) : Host.Outcome State Fault Refusal :=
  .next <| match s.front ring (· == 2) with
    | none => s
    | some h =>
      match s.meterChecks (s.ring ring).part h.bytes with
      | some v => s.refuse ring h v
      | none => s.takeUp ring { newJob s ring h with wait := .meter, flush := s.landingJets (shardOf h.bytes) }

/-- Whether METER reads a deferred block of a shard on a jet: one that is present and not ragged (R205). -/
def State.deferredOn (s : State) (h j : Nat) : Bool :=
  (s.landingRegions h).any fun x => bit x.2.jets j && (s.jet j).ledger.any fun b =>
    b.1 / 2 ^ 26 == x.1 && b.2.present && b.2.deferred && !b.2.ragged && b.2.landed == x.2.blockBytes

/-- FLUSH_ACK (R205, R416, R417): the flush of the oldest METER that waits on the jet is acknowledged, and its deferred blocks are
read; the beat is lost while the Weir is held in reset or halted. -/
def execFlushAck (jet : Nat) (s : State) : Host.Outcome State Fault Refusal :=
  .next <|
    if !s.open? || (s.jet (s.engine jet)).inReset || (s.jet (s.engine jet)).halted then s
    else match s.jobs.find? fun x => x.wait == .meter && x.flush.contains jet with
      | none => s
      | some j =>
        let t := s.updJob j.ring j.seq fun x => { x with flush := x.flush.erase jet }
        if s.deferredOn (shardOf j.desc) jet then
          t.request { stack := true, place := jet, purpose := .operand j.ring j.seq }
        else t

/-- A present block as METER finds it: ragged or not, its value and its non-finite elements (R205, R207). -/
structure Metered where
  pidx : Nat
  entry : Nat
  ragged : Bool
  deferred : Bool
  value : Nat
  nonFinite : Nat
  deriving DecidableEq, Repr

/-- A block at METER: one that has a landing write and is not full is ragged; a deferred one is read now (R205, R207). -/
def State.meterBlock (s : State) (j key : Nat) (e : RegionEntry) (block : Nat) (b : Block) : Metered :=
  let f := e.fmt.getD .f32
  let codes := s.readShare e 0 j (4096 * block) 4096
  let ragged := b.ragged || decide (b.landed ≠ e.blockBytes) || (!b.deferred && b.value.isNone)
  { pidx := e.pidx + e.shareNo j * e.perShare + 4096 * block, entry := key % 256, ragged := ragged, deferred := b.deferred
    value := if ragged then 0 else if b.deferred then roundF32 (addSquares f ⟨false, 0, 0⟩ codes) else b.value.getD 0
    nonFinite := if ragged then 0 else if b.deferred then nonFiniteCodes f codes else b.nonFinite }

/-- Insert in the block order of R74: parameter index, then region entry. -/
def insertMetered (x : Metered) : List Metered → List Metered
  | [] => [x]
  | y :: t => if x.pidx < y.pidx ∨ (x.pidx = y.pidx ∧ x.entry ≤ y.entry) then x :: y :: t else y :: insertMetered x t

/-- The present blocks of a shard on a jet, in the block order of R74. -/
def State.meterJet (s : State) (h j : Nat) : List Metered :=
  (s.landingRegions h).foldl (fun l x =>
    if bit x.2.jets j then
      ((s.jet j).ledger.filter fun b => b.1 / 2 ^ 26 == x.1 && b.2.present).foldl
        (fun l b => insertMetered (s.meterBlock j x.1 x.2 (b.1 % 2 ^ 26) b.2) l) l
    else l) []

/-- A sum in F32, one RNE rounding for each addition (R210). -/
def sumF32 (l : List Nat) : Nat :=
  l.foldl (fun a x => (fAdd .f32 .rne a x).1) 0

/-- The figures and the census of a shard at METER (R210, R211). -/
def State.meterShard (s : State) (n : Nat) (epoch : Word) : State :=
  let per := (s.landingJets n).map (s.meterJet n)
  let all := per.flatten
  let good := all.filter (!·.ragged)
  let sum := sumF32 (per.map fun l => sumF32 ((l.filter (!·.ragged)).map (·.value)))
  let ragged := all.length - good.length
  let nf := (good.map (·.nonFinite)).sum
  let blocks := (((List.range 24).flatMap fun j => (s.jet j).alloc.filter (·.1 == n)).map (·.2.2)).sum
  s.updShard n fun h =>
    (((((h.countLanding 6 nf).countLanding 7 all.length).countLanding 8 (blocks - all.length)).countLanding 9 ragged).countLanding
      10 (good.filter (·.deferred)).length) |> fun h => { h with figures :=
        { epoch := epoch, sumsq := BitVec.ofNat 32 sum, valid := true, empty := all.isEmpty
          nonfin := BitVec.ofNat 32 (min (nf + ragged + b2n (sum == 0x7F800000)) (2 ^ 32 - 1)) } }

/-- Whether a METER can complete: every flush is acknowledged, every deferred block has been read, its Weirs and its controller
run, and its record can be written (R109, R205, R210, R299, R409). -/
def State.meterGoes (s : State) (j : Job) : Bool :=
  j.wait == .meter && j.flush.isEmpty && !j.recorded && s.live && s.basinRuns (s.ring j.ring).home &&
    s.weirsReady (shardOf j.desc) && !s.readsDue j.ring j.seq && !s.recordHeld j.ring j.seq

/-- METER_COMPLETE (R210): the figures are formed and the shard becomes METERED. A sleeping basin on the way of the jets'
figures is woken first (R398). -/
def execMeterComplete (ring : Nat) (seq : Word) (s : State) : Host.Outcome State Fault Refusal :=
  .next <| match s.job ring seq with
    | none => s
    | some j =>
      let n := shardOf j.desc
      let epoch : Word := BitVec.ofNat 32 (fieldAt j.desc 8 4)
      if !s.meterGoes j then s
      else if !s.backAwake j then s.wake [] (s.wayBack j)
      else if (s.shard n).state ≠ 1 then s.complete j (.ok, epoch.toNat) 0xFF
      else
        let t := (s.meterShard n epoch).enter n 2
        t.complete j (if (t.shard n).figures.empty then .empty else .ok, epoch.toNat) 0xFF

end Sys2Proof.Machine
end

