-- ==== Sys2Proof/Machine/Lane.lean ====
section
/-! DEFINITION. Refresh ownership of the wellspring stacks: hand-back and take-back (R290 to R298, R419). -/

namespace Sys2Proof.Machine

/-- Whether a jet has failed with no engine to adopt it (R370). -/
def Jet.failed (x : Jet) : Bool :=
  x.bad && x.adopter.isNone && x.adoptBy.isNone

/-- Whether the engine of a wellspring jet is awake, out of reset and not halted (R295, R409). -/
def State.ownsWell (s : State) (j : Nat) : Bool :=
  let e := s.jet (s.engine j)
  e.awake && !e.inReset && !e.halted && !e.halting && !(s.jet j).failed

/-- Whether the Molzen may own refresh of the wellspring stacks of a basin (R295). -/
def State.canOwn (s : State) (b : Nat) : Bool :=
  s.live && !(s.wellJets b).isEmpty && (s.wellJets b).all s.ownsWell

/-- The debt of a bank (R291). -/
def Well.debt (w : Well) (bank : Nat) : Nat := Tab.get 0 w.debts bank

/-- A refresh of a bank has completed (R291, R297). -/
def Well.refreshed (w : Well) (bank : Nat) : Well :=
  { w with debts := Tab.upd 0 w.debts bank (· - 1), firsts := Tab.upd 0 w.firsts bank (· - 1) }

/-- A rill that has issued every word. -/
def Rill.isOver (r : Rill) : Bool := r.ops.length ≤ r.done

/-- The bank set in force (R272). -/
def bankSet (pcs positions : Nat) : List Nat :=
  (List.range 512).filter fun b => bit pcs (b / 16) && bit positions (b % 16)

/-- The banks that words address from a bank set in force on; for a GEMV, every bank of the stack (R272, R299). -/
def banksOf : Nat × Nat → List RillOp → List Nat
  | _, [] => []
  | set, .word w :: t =>
    if bits w 0 6 = 1 then banksOf (bits w 6 32, bits w 38 16) t else (bankSet set.1 set.2 ++ banksOf set t).eraseDups
  | _, _ :: _ => List.range 512

/-- The banks that the words of a rill address (R299). -/
def Rill.addressed (r : Rill) : List Nat := banksOf (0xFFFFFFFF, 0xFFFF) r.ops

/-- The banks that the words of a rill still to be issued address. -/
def Rill.left (r : Rill) : List Nat := banksOf (r.pcs, r.positions) (r.ops.drop r.done)

/-- A bank's indication rises when the last word of the running rill on it has completed; with the last word of all, the
rill is over (R299). -/
def Well.endRill (w : Well) : Well :=
  match w.running with
  | some r =>
    if w.ops.any (·.bank.isNone) then w
    else if r.isOver then { w with running := none, held := [], idle := [] }
    else { w with held := w.held.filter r.left.contains }
  | none => w

/-- Everything that has been started completes, and nothing more is issued (R296). -/
def Well.handBack (w : Well) : Well :=
  let u := (w.ops.filterMap (·.bank)).foldl Well.refreshed w
  let v := ({ u with ops := [] } : Well).endRill
  { v with taken := false, firsts := [], suspended := v.running.isSome }

/-! ## Tallies (R269, R273) -/

/-- A tally set of a bank: its 512 counters modulo 2^32. -/
def Well.tally (w : Well) (bank set : Nat) : List Nat :=
  match Tab.get [] w.tallies (2 * bank + set) with
  | [] => List.replicate 512 0
  | l => l

/-- Write a tally set of a bank. -/
def Well.putTally (w : Well) (bank set : Nat) (l : List Nat) : Well :=
  { w with tallies := Tab.set [] w.tallies (2 * bank + set) (if l.all (· == 0) then [] else l) }

/-- Both tally sets of a bank become free values. -/
def State.freeTally (s : State) (jet bank : Nat) : State :=
  let l (k : Nat) : List Nat := (List.range 512).map fun m => (Config.freeWord (s.free + 512 * k + m)).toNat % 2 ^ 32
  (s.updWell jet fun w => (w.putTally bank 0 (l 0)).putTally bank 1 (l 1)).draw 1024

/-- The tallies of a jet after its part of a GEMV are unspecified: free values (R269). -/
def State.freeTallies (s : State) (jet : Nat) : State :=
  (List.range 512).foldl (fun t b => t.freeTally jet b) s

/-- Whether a descriptor still has a rill or a drain on a jet. -/
def Well.has (w : Well) (ring : Nat) (seq : Word) : Bool :=
  (w.rills ++ w.running.toList).any (fun r => r.ring == ring && r.seq == seq) ||
    w.drains.any fun d => d.ring == ring && d.seq == seq

/-- Whether a rill is a GEMV's. -/
def Rill.ofGemv (r : Rill) : Bool :=
  r.ops.any fun o => match o with | .word _ => false | _ => true

/-- The part of a GEMV on a jet has ended, if the rill that `w` runs was what was left of it: the tallies are unspecified
(R269). A part that ends FAULT or ABORTED_RESET leaves them as its words did (R276). -/
def State.freeAfter (s : State) (jet : Nat) (w : Well) : State :=
  match w.running with
  | some r => if r.ofGemv && !(s.well jet).has r.ring r.seq then s.freeTallies jet else s
  | none => s

/-! ## The bit (R295 to R297) -/

/-- MZ_RFH_OWN of a basin falls (R296). -/
def State.handBack (s : State) (b : Nat) : State :=
  (s.wellJets b).foldl (fun t j => t.freeAfter j (s.well j))
    ((s.updJets (s.wellJets b) fun _ x => { x with well := x.well.handBack }).updBasin b fun x => { x with rfhOwn := false })

/-- MZ_RFH_OWN of a basin rises; the memory controller's acknowledgement is awaited (R297). -/
def State.takeBack (s : State) (b : Nat) : State :=
  (s.updJets (s.wellJets b) fun _ x => { x with well := { x.well with taken := false } }).updBasin b fun x =>
    { x with rfhOwn := true }

/-- Bring MZ_RFH_OWN of a basin to what R295 asks for. -/
def State.settleOwn (s : State) (b : Nat) : State :=
  if s.canOwn b && !(s.basin b).rfhOwn then s.takeBack b
  else if !s.canOwn b && (s.basin b).rfhOwn then s.handBack b
  else s

/-- Bring MZ_RFH_OWN of every basin to what R295 asks for. -/
def State.settleOwners (s : State) : State :=
  (List.range 6).foldl State.settleOwn s

/-- Whether the rills of a jet may run: refresh is owned, and the take-back is complete (R295, R297). -/
def State.wellReady (s : State) (j : Nat) : Bool :=
  let w := s.well j
  (s.basin (j / 4)).rfhOwn && w.taken && w.firsts.isEmpty

/-- Whether an engine has a station whose code is TESTING (R107). -/
def State.testing (s : State) (e : Nat) : Bool :=
  (s.jet e).codes.contains 1

/-- Microseconds since an always-on cycle (R371). -/
def State.since (s : State) (aon : Nat) : Nat := (s.aon - aon) / 50

/-- A basin whose reset has ended is out of it once no engine of it is in a basin reset, with record 89h (R362, R363,
R371). -/
def State.settleBasin (s : State) (b : Nat) : State :=
  match (s.basin b).resetting with
  | some r =>
    if r.ended && !((List.range 24).any fun j => j / 4 == b && (match (s.jet j).resetting with
        | some x => x.level == 1 | none => false)) then
      (s.updBasin b fun x => { x with resetting := none }).emit
        { cls := 3, code := 0x89, basin := b, arg0 := 1, arg1 := s.since r.since }
    else s
  | none => s

/-- Bring every basin's reset to its end, where it has ended. -/
def State.settleBasins (s : State) : State :=
  (List.range 6).foldl State.settleBasin s

/-- Record 89h of a jet reset that has ended (R371). -/
def State.jetResetOver (s : State) (jet since : Nat) : State :=
  s.emit { cls := 3, code := 0x89, part := some (s.jet jet).part, jet := jet, arg0 := 0, arg1 := s.since since }

/-- Record 89h of the reset of a level that an engine was in; of a basin or partition reset once its last engine is READY,
and with it the basin controller (R363, R371). -/
def State.levelOver (s : State) (e : Nat) (r : Reset) : State :=
  let p := (s.jet e).part
  if r.level = 0 then s.jetResetOver r.jet r.since
  else if r.level = 1 then s.settleBasin (e / 4)
  else if (List.range 24).any fun j => (s.jet j).part == p && (match (s.jet j).resetting with
      | some x => x.level == 2 | none => false) then s
  else s.emit { cls := 3, code := 0x89, part := some p, basin := e / 4, arg0 := 2, arg1 := s.since r.since }

/-- The records of a reset of an engine that has ended, and of the jet resets that end with it (R371). -/
def State.resetOver (s : State) (e : Nat) (r : Reset) : State :=
  (r.joined.foldl (fun t x => t.jetResetOver x.1 x.2) s).levelOver e r

/-- The tallies of jets are cleared (R269). -/
def State.clearTallies (s : State) (js : List Nat) : State :=
  s.updJets js fun _ x => { x with well := { x.well with tallies := [] } }

/-- The reset of an engine is over once its stations have been tested (R269, R362, R363). -/
def State.settleReset (s : State) (e : Nat) : State :=
  match (s.jet e).resetting with
  | some r =>
    if r.ended && !s.testing e then
      ((s.clearTallies (s.servedBy e)).updJet e fun x => { x with resetting := none }).resetOver e r
    else s
  | none => s

/-- The take-back of a jet is complete: a suspended rill continues, and a Wellspring that waited for it is READY once no
other stack of its engine waits (R298, R354, R363). -/
def State.wellTaken (s : State) (j : Nat) : State :=
  if s.wellReady j then
    let e := s.engine j
    let t := s.updWell j fun w => { w with suspended := false, awaits := false }
    if (s.well j).awaits && !((t.servedBy e).any fun k => (t.well k).awaits) then (t.setCode e 5 2).settleReset e else t
  else s

end Sys2Proof.Machine
end

