-- ==== Sys2Proof/Machine/Groups.lean ====
section
/-! DEFINITION. Parameter groups: the header and SCHED, the curve and its constants, and the stamps and prefix tables of
the sparse policies (R174 to R192, R448). -/

namespace Sys2Proof.Machine

/-! ## The header (R176) -/

/-- PROGRAM. -/
def Group.program (g : Group) : Nat := fieldAt g.header 0 2
/-- POLICY: 0 DENSE, 1 LAZY, 2 CATCHUP. -/
def Group.policy (g : Group) : Nat := bits (fieldAt g.header 2 1) 0 2
/-- GRAIN: layer grain. -/
def Group.layer (g : Group) : Bool := bit (fieldAt g.header 2 1) 2
/-- GRAD. -/
def Group.grad (g : Group) : Nat := bits (fieldAt g.header 2 1) 3 3
/-- MX_KIND: 0 none, 1 ORTHO, 2 FACTOR. -/
def Group.mxKind (g : Group) : Nat := bits (fieldAt g.header 3 1) 0 2
/-- MX_ITER. -/
def Group.mxIter (g : Group) : Nat := bits (fieldAt g.header 3 1) 4 4
/-- CLIP_K. -/
def Group.clipK (g : Group) : Nat := bits (fieldAt g.header 4 1) 0 4
/-- CLIP_EN. -/
def Group.clipEn (g : Group) : Bool := bit (fieldAt g.header 4 1) 4
/-- BIAS_EN. -/
def Group.biasEn (g : Group) : Bool := bit (fieldAt g.header 6 1) 0
/-- A nibble of a header byte: the low half 0, the high half 1. -/
def Group.nib (g : Group) (byte half : Nat) : Nat := bits (fieldAt g.header byte 1) (4 * half) 4
/-- MX_P and MX_Q. -/
def Group.mxStream (g : Group) (q : Nat) : Nat := bits (fieldAt g.header 7 1) (3 * q) 3
/-- ROWS. -/
def Group.rows (g : Group) : Nat := fieldAt g.header 16 4
/-- COLS. -/
def Group.cols (g : Group) : Nat := fieldAt g.header 20 4
/-- STAMP_R. -/
def Group.stampR (g : Group) : Nat := fieldAt g.header 24 1
/-- STAMP_OFF of the copy of a slot. -/
def Group.stampOff (g : Group) (slot : Nat) : Nat := fieldAt g.header (32 + 8 * slot) 5
/-- PIDX_BASE. -/
def Group.pidxBase (g : Group) : Nat := fieldAt g.header 48 5
/-- BLOCKS. -/
def Group.blocks (g : Group) : Nat := fieldAt g.header 56 4
/-- PREFIX_OFF. -/
def Group.prefixOff (g : Group) : Nat := fieldAt g.header 64 5

/-- A catch-up channel (R176). -/
structure Channel where
  mode : Nat
  stream : Nat
  a : Nat
  b : Nat
  deriving DecidableEq, Repr

/-- Channel `c` of the header. -/
def Group.channel (g : Group) (c : Nat) : Channel :=
  let v := fieldAt g.header (72 + 2 * c) 2
  ⟨bits v 0 2, bits v 2 3, bits v 5 4, bits v 9 4⟩

/-- The channels in use, by number. -/
def Group.channels (g : Group) : List (Nat × Channel) :=
  ([0, 1, 2, 3].map fun c => (c, g.channel c)).filter fun x => x.2.mode != 0

/-- The bits of a header byte that are not reserved (R176). -/
def headerMask (i : Nat) : Nat :=
  if i < 2 then 255 else if i = 2 then 63 else if i = 3 then 0xF3 else if i = 4 then 31 else if i = 5 then 255
  else if i = 6 then 1 else if i = 7 then 63 else if i < 12 then 255 else if i < 16 then 0 else if i < 25 then 255
  else if i < 32 then 0 else if i < 37 then 255 else if i < 40 then 0 else if i < 45 then 255 else if i < 48 then 0
  else if i < 53 then 255 else if i < 56 then 0 else if i < 60 then 255 else if i < 64 then 0 else if i < 69 then 255
  else if i < 72 then 0 else if i < 80 then (if i % 2 = 0 then 255 else 31) else 0

/-- Whether two channels in use name one stream, or one names GRAD. -/
def Group.channelClash (g : Group) : Bool :=
  let ss := g.channels.map (·.2.stream)
  ss.contains g.grad || hasTwice ss

/-- The header's own FORMAT checks (R177, R448 step 7); the kind of STAMP_R is given. ROWS and COLS of a block-grain header are not
looked at (DEDUCED, log 142). -/
def Group.headerFormat (g : Group) (stampKind : Nat) : Bool :=
  ((List.range 128).any fun i => (fieldAt g.header i 1).land (255 - headerMask i) ≠ 0) ||
  g.policy == 3 || g.mxKind == 3 || 6 ≤ g.grad || 6 ≤ g.mxStream 0 || 6 ≤ g.mxStream 1 ||
  ([0, 1, 2, 3].any fun c => (g.channel c).mode == 3 || 6 ≤ (g.channel c).stream) ||
  (g.mxKind != 0 && (!g.layer || g.policy != 0)) || (g.mxKind == 1 && g.mxIter == 0) ||
  (g.mxKind != 1 && g.mxIter != 0) || g.channelClash || (g.policy != 0 && stampKind != 8) ||
  (g.policy != 0 && g.stampOff 0 < g.stampOff 1 + 4 * g.blocks && g.stampOff 1 < g.stampOff 0 + 4 * g.blocks)

/-- The header's own LENGTH checks (R177, R448 step 8). -/
def Group.headerLength (g : Group) : Bool :=
  (g.layer && (g.rows < 1 || 65536 < g.rows || g.cols < 1 || 65536 < g.cols || g.rows * g.cols % 4096 != 0)) ||
  (g.policy != 0 && g.blocks == 0)

/-! ## Points and constants (R177 to R181) -/

/-- The bytes of curve point `i` in a table. -/
def pointOff (i : Nat) : Nat := 128 + 72 * i

/-- Whether a constant is not finite. -/
def notFinite32 (c : Nat) : Bool := (Fmt.f32.decode c).nonFinite

/-- A point's FORMAT fault (R448 step 10): reserved bytes, STEP not ascending, a constant not finite. -/
def pointsFault : Option Nat → List (List Byte) → Bool
  | _, [] => false
  | prev, p :: t =>
    fieldAt p 4 4 != 0 || (match prev with | some x => fieldAt p 0 4 ≤ x | none => false) ||
      ((List.range 16).any fun k => notFinite32 (fieldAt p (8 + 4 * k) 4)) || pointsFault (some (fieldAt p 0 4)) t

/-- Constant k of a point. -/
def pointK (p : List Byte) (k : Nat) : Nat := fieldAt p (8 + 4 * k) 4

/-- The exact value between two points at step `n`, rounded once to F32 (R179). -/
def interpolate (n s0 s1 v0 v1 : Nat) : Nat :=
  match Fmt.f32.decode v0, Fmt.f32.decode v1 with
  | .fin a, .fin b =>
    let diff := b.add .rne { a with neg := !a.neg }
    let num := (a.mul (Dy.ofInt (s1 - s0 : Nat))).add .rne (diff.mul (Dy.ofInt (n - s0 : Nat)))
    (finish .f32 .rne [] (exactDiv (.fin num) (.fin (Dy.ofInt (s1 - s0 : Nat))))).1
  | _, _ => Fmt.f32.nanCode

/-- The exact value of 1 − a^n, rounded once to F32 (R181). -/
def biasOf (a n : Nat) : Nat :=
  match Fmt.f32.decode a with
  | .fin d =>
    let p : Dy := ⟨d.neg && n % 2 == 1, d.m ^ n, d.e * n⟩
    (convertNum .f32 .rne 0 (.fin ((Dy.ofInt 1).add .rne { p with neg := !p.neg }))).1
  | _ => Fmt.f32.nanCode

/-- The points read to find the bracket of step `n`: in order, to the first whose STEP exceeds n, or the last (R180). -/
def pointsRead (n : Nat) : List (List Byte) → List (List Byte)
  | [] => []
  | p :: t => if n < fieldAt p 0 4 then [p] else p :: pointsRead n t

/-- The one or two points that R179 uses, among those read: at the step of point 0 that one alone. -/
def bracket (n : Nat) (l : List (List Byte)) : List (List Byte) :=
  match l.reverse with
  | p :: q :: t =>
    if fieldAt p 0 4 ≤ n then [p] else if t.isEmpty ∧ n ≤ fieldAt q 0 4 then [q] else [q, p]
  | [p] => [p]
  | [] => []

/-- Constant k from the bracketing points (R179). -/
def constAt (n k : Nat) (b : List (List Byte)) : Nat :=
  match b with
  | [p] => pointK p k
  | [q, p] => if n ≤ fieldAt q 0 4 then pointK q k
      else interpolate n (fieldAt q 0 4) (fieldAt p 0 4) (pointK q k) (pointK p k)
  | _ => 0

/-- Whether two consecutive points are not strictly ascending. -/
def stepsFall : List (List Byte) → Bool
  | p :: q :: t => fieldAt q 0 4 ≤ fieldAt p 0 4 || stepsFall (q :: t)
  | _ => false

/-- The partition whose region table a group's numbers name. -/
def Group.part (g : Group) : Nat := g.owner.getD 0

/-- The region that holds the recorded TABLE number now (R180, R189). -/
def State.tableOf (s : State) (g : Group) : RegionEntry := s.region g.part g.table

/-- The region that holds the recorded STAMP_R number now (R186). -/
def State.stampsOf (s : State) (g : Group) : RegionEntry := s.region g.part g.stampR

/-- The points of a group's table as they stand in memory. -/
def State.points (s : State) (g : Group) (e : RegionEntry) : List (List Byte) :=
  (List.range g.points).map fun i => s.readRegion e 0 (g.tableOffset + pointOff i) 72

/-- The points a STILL reads at step `n` (R180). -/
def State.curvePoints (s : State) (g : Group) (n : Nat) : List (List Byte) :=
  pointsRead n (s.points g (s.tableOf g))

/-- Where a STILL or CAST reads the curve of a group at step `n`: the points read of its table (R180). -/
def State.curveRanges (s : State) (g : Group) (n : Nat) : List (Nat × Nat) :=
  (s.tableOf g).ranges 0 g.tableOffset (pointOff (s.curvePoints g n).length)

/-- Whether the curve cannot be read at step `n`: FORMAT with DETAIL 24 (R180). A group with no points reads none. -/
def State.curveFault (s : State) (g : Group) (n : Nat) : Bool :=
  let e := s.tableOf g
  let ps := s.curvePoints g n
  g.points != 0 && (e.kind != 8 || decide (e.size < g.tableOffset + pointOff ps.length) || stepsFall ps ||
    (bracket n ps).any fun p => (List.range 16).any fun k => notFinite32 (pointK p k))

/-- The constants K0 to K15 at step `n` (R174, R179, R181). BC_A or BC_B that names 14 or 15 takes the curve's own constant (DESIGN
CHOICE, log 141). -/
def State.constants (s : State) (g : Group) (n : Nat) : List Nat :=
  let b := bracket n (s.curvePoints g n)
  let ks := (List.range 16).map fun k => constAt n k b
  if g.biasEn then
    ks.take 14 ++ [biasOf (nth ks (g.nib 5 0) 0) n, biasOf (nth ks (g.nib 5 1) 0) n]
  else ks

/-! ## SCHED (R175, R177, R448) -/

/-- The group that a SCHED would make of what it reads. -/
def State.schedGroup (s : State) (part : Nat) (d : List Byte) : Group :=
  { owner := some part, header := s.readRegion (s.operand part d 10) 0 (fieldAt d 16 5) 128, table := fieldAt d 10 1
    tableOffset := fieldAt d 16 5, points := fieldAt d 12 2, seed := fieldAt d 24 8, oldest := none }

/-- Whether a region of a group, whoever's, lies in a shard in LANDING, METERED, STILLED or VOTED (R131, cause 8h). -/
def State.groupBusy (s : State) (g : Nat) : Bool :=
  s.regions.any fun x => x.2.namesShard && x.2.group == g && (s.shard x.2.shard).isOpen

/-- The checks of SCHED in the order of R448. -/
def State.schedChecks (s : State) (part : Nat) (d : List Byte) : Option Verdict' :=
  let e := s.operand part d 10
  let no := fieldAt d 8 2
  let g := s.schedGroup part d
  let f := s.boot.features
  (formatCheck d []).orElse fun _ =>
  firstOf [(s.groupDenied part no, at' .denied 8), (e.kind == 0, at' .denied 10), (e.kind != 8, at' .format 10),
    (g.points < 1 || 256 < g.points, at' .length 12), (e.size < g.tableOffset + 128, at' .bound 10),
    ((g.policy == 2 && !bit f 0) || (g.mxKind != 0 && !bit f 1), at' .denied 10),
    (g.headerFormat (s.stampsOf g).kind, at' .format 10), (g.headerLength, at' .length 10),
    (e.size < g.tableOffset + pointOff g.points ||
      (g.policy != 0 && ((s.stampsOf g).size < g.stampOff 0 + 4 * g.blocks ||
        (s.stampsOf g).size < g.stampOff 1 + 4 * g.blocks)) ||
      (g.policy == 2 && e.size < g.prefixOff + 0x200000), at' .bound 10),
    (pointsFault none (s.points g e), at' .format 10), (s.groupBusy no, cause 8)]

/-- The group context after an accepted SCHED: OLDEST is emptied when CATCHUP is newly set or a channel changes (R189). -/
def Group.sched (old new : Group) : Group :=
  let fresh := (new.policy == 2 && old.policy != 2) || fieldAt old.header 72 8 != fieldAt new.header 72 8
  { new with oldest := if fresh then none else old.oldest }

/-- SCHED (R175). -/
def execSched (ring : Nat) (s : State) : Host.Outcome State Fault Refusal :=
  .next <| match s.front ring (· == 0x0D) with
    | none => s
    | some h =>
      let part := (s.ring ring).part
      let e := s.operand part h.bytes 10
      let g := s.schedGroup part h.bytes
      let n := fieldAt h.bytes 8 2
      match s.schedChecks part h.bytes with
      | some v => s.refuse ring h v
      | none => (((s.updGroup n fun old => old.sched g).takeUp ring { newJob s ring h with
          wait := .ready, ents := [(10, e)], before := some (s.group n) }).readDue ring h.seq e g.tableOffset
            (pointOff g.points)).overHoles (e.ranges 0 g.tableOffset (pointOff g.points))

/-! ## Stamps and prefix tables (R186 to R190) -/

/-- The stamp index of a block whose first element has parameter index `p` (R186). -/
def Group.stampIndex (g : Group) (p : Nat) : Nat := (p - g.pidxBase) / 4096

/-- The byte of STAMP_R that holds a block's stamp in the copy of a slot. -/
def Group.stampByte (g : Group) (slot p : Nat) : Nat := g.stampOff slot + 4 * g.stampIndex p

/-- Whether a stamp lies within STAMP_R as it is now (R186). -/
def State.stampFits (s : State) (g : Group) (slot p : Nat) : Bool :=
  decide (g.stampByte slot p + 4 ≤ (s.stampsOf g).size)

/-- A block's stamp in the copy of a slot (R186). STAMP_R may have been cleared or shortened since the STILL was accepted, of
which the spec says nothing: the stamp is then a free value (DESIGN CHOICE, log 143). -/
def State.stampAt (s : State) (g : Group) (slot p : Nat) : Nat :=
  ofLe (if s.stampFits g slot p then s.readRegion (s.stampsOf g) 0 (g.stampByte slot p) 4
    else (List.range 4).map fun i => Config.holeByte s.free (g.stampByte slot p + i))

/-- Write a block's stamp in the copy of a slot; outside STAMP_R as it is now, nothing is written (DESIGN CHOICE, log 143). -/
def State.putStamp (s : State) (g : Group) (slot p stamp : Nat) : State :=
  if s.stampFits g slot p then s.writeRegion (s.stampsOf g) 0 (g.stampByte slot p) (leBytes 4 stamp) else s

/-- The step that a stamp stands for at step `n`: a fresh block, or one stamped later than n − 1, counts as n − 1
(R186, R187). -/
def stampStep (n stamp : Nat) : Nat := min stamp (n - 1)

/-- The byte of TABLE that holds L_c(n) (R189). -/
def Group.prefixByte (g : Group) (c n : Nat) : Nat := g.prefixOff + c * 0x80000 + 8 * (n % 65536)

/-- L_c(n) as it stands in memory. -/
def State.prefixAt (s : State) (g : Group) (c n : Nat) : Nat :=
  ofLe (s.readRegion (s.tableOf g) 0 (g.prefixByte c n) 8)

/-- Whether the prefix tables lie in a region of kind 8h as TABLE stands now (R186, R189). -/
def State.prefixFits (s : State) (g : Group) : Bool :=
  (s.tableOf g).kind == 8 && decide (g.prefixOff + 0x200000 ≤ (s.tableOf g).size)

/-- The factor f of a channel: K[A], or 1 − K[A] × K[B] rounded once to F64 (R189). -/
def Channel.factor (c : Channel) (ks : List Nat) : Nat :=
  let a := Fmt.f32.decode (nth ks c.a 0)
  let b := Fmt.f32.decode (nth ks c.b 0)
  if c.mode = 1 then (convertNum .f64 .rne 0 a).1
  else (finish .f64 .rne [a, b] ((exactMul a b).bind fun p => exactAdd .rne (.fin (Dy.ofInt 1)) p.negate)).1

/-- L_c(n) from L_c(n − 1) and f (R189). -/
def nextPrefix (l f : Nat) : Nat :=
  (fAdd .f64 .rne l (fUnary .f64 .rne exactLog2 f).1).1

/-- The catch-up factor D_c of a channel for a block of stamp `t` at step `n`, F64; none where no multiplication is made
(R190). -/
def State.catchUp (s : State) (g : Group) (c n stamp : Nat) : Option Nat :=
  let t := stampStep n stamp
  match g.oldest with
  | none => none
  | some o =>
    if n - 1 ≤ t then none
    else
      let a := max (max t o.toNat) (n - 65536)
      some (fUnary .f64 .rne exactExp2 (fSub .f64 .rne (s.prefixAt g c (n - 1)) (s.prefixAt g c a)).1).1

end Sys2Proof.Machine
end

