-- ==== Sys2Proof/Machine/Streams.lean ====
section
/-! DEFINITION. Element streams over whole regions, and the records of Cast regions: where they lie, and how a tile
reads and writes them (R93, R94, R246, R247, R268, R277, R278). -/

namespace Sys2Proof.Machine

/-- The failing check with the lowest offset, as the one that DETAIL reports (R131; log 21). -/
def lowest (st : Status) (l : List (Bool × Nat)) : Option Verdict' :=
  match (l.filter (·.1)).map (·.2) with
  | [] => none
  | x :: t => some (st, t.foldl min x)

/-! ## Elements of a region -/

/-- Whether an element begins in the middle of a byte (R33). -/
def RegionEntry.midByte (e : RegionEntry) (a : Nat) : Bool :=
  e.width == 4 && a % 2 == 1

/-- The codes of `n` region elements from element `first` on (R33, R94). -/
def State.readElems (s : State) (e : RegionEntry) (slot first n : Nat) : List Nat :=
  let k := b2n (e.midByte first)
  let lo := first * e.width / 8
  ((codesOf e.width (s.readRegion e slot lo (((first + n) * e.width + 7) / 8 - lo))).drop k).take n

/-- Write codes of region elements from element `first` on; the other element of a byte that they fill by half stays (R33,
R94). -/
def State.writeElems (s : State) (e : RegionEntry) (slot first : Nat) (codes : List Nat) (tag : Nat := 15) : State :=
  let next := first + codes.length
  let before := if e.midByte first then s.readElems e slot (first - 1) 1 else []
  let after := if e.midByte next then s.readElems e slot next 1 else []
  if codes.isEmpty then s
  else s.writeRegion e slot (first * e.width / 8) (bytesOf e.width (before ++ codes ++ after)) tag

/-- The share, the jet and the element of the share of region element `a` (R94); `n` elements a share. -/
def RegionEntry.placeOf (e : RegionEntry) (n a : Nat) : Nat × Nat :=
  (e.jetList.getD (a / n) 0, a % n)

/-- A region's number of elements a share holds: of a cast, dross or plane region by its records (R246, R278). -/
def RegionEntry.castShare (e : RegionEntry) : Nat :=
  if e.kind = 4 then e.length / 4608 * 4096
  else if e.kind = 5 then e.length / 272 * 4096
  else if e.length % 0x8C00000 = 0 ∧ e.base % 0x400000 = 0 ∧ (e.slotted = false ∨ e.alt % 0x400000 = 0) then
    65536 * (e.length / 0x8C00000) * 4096
  else 0

/-! ## Placement in a wellspring stack (R268, R277) -/

/-- The stack byte offset of byte `o` of row `row` of bank `bank` (R268). -/
def bankOffset (row bank o : Nat) : Nat :=
  row * 0x400000 + (32 * (bank % 16) + bank / 16) * 0x2000 + o

/-- Where record `t` of a plane slot lies: bank, first row of the band, row slot, tile slot (R277). -/
def planePlace (base t : Nat) : Nat × Nat × Nat × Nat :=
  let rg := t % 65536 / 16
  (rg % 512, base / 0x400000 + 35 * (t / 65536), rg / 512, 16 * (rg / 512) + t % 16)

/-- The pieces of a plane tile, in its byte order: stack offset and length (R261, R277). -/
def planePieces (base t : Nat) : List (Nat × Nat) :=
  let (bank, row, g, u) := planePlace base t
  ([0, 1, 2, 3].map fun b => (bankOffset (row + 8 * b + g) bank (512 * (t % 16)), 512)) ++
    [(bankOffset (row + 32) bank (64 * u), 64), (bankOffset (row + 33 + u / 64) bank (128 * (u % 64)), 128)]

/-- The pieces of record `t` of a Cast region's share in a slot: stack offset and length (R246, R277). -/
def RegionEntry.recordPieces (e : RegionEntry) (slot t : Nat) : List (Nat × Nat) :=
  let b := e.slotBase slot
  if e.kind = 4 then [(b + 4608 * t, 4608)] else if e.kind = 5 then [(b + 272 * t, 272)] else planePieces b t

/-- The jet and the pieces of the record of range element `a`. -/
def RegionEntry.recordAt (e : RegionEntry) (slot a : Nat) : Nat × List (Nat × Nat) :=
  let (j, x) := e.placeOf e.castShare a
  (j, e.recordPieces slot (x / 4096))

/-- Read pieces of a stack. -/
def State.readPieces (s : State) (j : Nat) (l : List (Nat × Nat)) : List Byte :=
  l.flatMap fun p => s.read (stackAddr j p.1) p.2

/-- Write bytes over pieces of a stack; what is beyond the bytes stays. -/
def State.writePieces (s : State) (j : Nat) (l : List (Nat × Nat)) (bs : List Byte) : State :=
  (l.foldl (fun (t, rest) p => (t.write (stackAddr j p.1) (rest.take p.2), rest.drop p.2)) (s, bs)).1

/-- Write bytes at offsets of the record of range element `a`, which lies in one piece. -/
def State.writeRecordAt (s : State) (e : RegionEntry) (slot a : Nat) (l : List (Nat × List Byte)) : State :=
  let (j, ps) := e.recordAt slot a
  l.foldl (fun t x => t.write (stackAddr j ((ps.head?.map (·.1)).getD 0 + x.1)) x.2) s

/-- Copy the record of range element `a` from one slot to the other, byte for byte (R188). -/
def State.copyRecord (s : State) (e : RegionEntry) (src dst a : Nat) : State :=
  let (j, ps) := e.recordAt src a
  s.writePieces j (e.recordAt dst a).2 (s.readPieces j ps)

/-! ## The elements of moulds (R33, R246) -/

/-- Whether a region's elements lie as the codes of mould tiles (R33, R246, R256; log 144). -/
def RegionEntry.mould (e : RegionEntry) : Bool := e.kind == 4 && e.width == 4

/-- The address of the byte of a slot that holds the code of mould element `a`, and whether it is the high half (R33, R246,
R256). -/
def RegionEntry.mouldPlace (e : RegionEntry) (slot a : Nat) : Nat × Bool :=
  let (j, x) := e.placeOf e.castShare a
  (stackAddr j (e.slotBase slot + 4608 * (x / 4096) + x % 4096 / 2), x % 2 == 1)

/-- The code of mould element `a`. -/
def State.mouldCode (s : State) (e : RegionEntry) (slot a : Nat) : Nat :=
  let (x, hi) := e.mouldPlace slot a
  let b := s.readLe x 1
  if hi then b / 16 else b % 16

/-- Write the code of mould element `a`; the other half of its byte stays (R33). -/
def State.putMould (s : State) (e : RegionEntry) (slot a code : Nat) : State :=
  let (x, hi) := e.mouldPlace slot a
  let b := s.readLe x 1
  s.put false x [BitVec.ofNat 8 (if hi then b % 16 + 16 * code else b / 16 * 16 + code % 16)] e.format

/-- The codes of `n` elements of a stream operand from element `first` on (R33, R94, R246). -/
def State.readStream (s : State) (e : RegionEntry) (slot first n : Nat) : List Nat :=
  if e.mould then (List.range n).map fun i => s.mouldCode e slot (first + i) else s.readElems e slot first n

/-- Write codes of a stream operand from element `first` on (R33, R94, R246). -/
def State.writeStream (s : State) (e : RegionEntry) (slot first : Nat) (codes : List Nat) (tag : Nat := 15) : State :=
  if e.mould then ((List.range codes.length).zip codes).foldl (fun t x => t.putMould e slot (first + x.1) x.2) s
  else s.writeElems e slot first codes tag

/-- The elements of a stream operand: those of whole records, where it is a mould (R94, R246). -/
def RegionEntry.streamElems (e : RegionEntry) : Nat :=
  if e.mould then e.castShare * e.jetList.length else e.elems

/-- The jets on which a range of a stream operand lies (R94, R246). -/
def RegionEntry.streamJets (e : RegionEntry) (first count : Nat) : List Nat :=
  if e.mould then
    ((List.range e.jetList.length).zip e.jetList).filterMap fun (k, j) =>
      if max first (k * e.castShare) < min (first + count) ((k + 1) * e.castShare) then some j else none
  else (e.shares first count).map (·.1)

/-- Copy a block of an output from one slot to the other: of a Cast output its record, of any other its elements (R188). -/
def State.copyBlock (s : State) (records : Bool) (e : RegionEntry) (src dst a n : Nat) : State :=
  if records then s.copyRecord e src dst a
  else s.writeStream e dst a (s.readStream e src a n)

/-! ## Ranges over several regions -/

/-- Whether a Cast region holds a range, every element on the jet of its source element (R127, R247). -/
def RegionEntry.castHolds (e src : RegionEntry) (first count : Nat) : Bool :=
  let n := e.castShare
  let cuts := first :: ((List.range e.jetList.length).map fun k => k * n) ++
    (List.range src.jetList.length).map fun k => k * src.perShare
  n != 0 && decide (first + count ≤ n * e.jetList.length) &&
    (cuts.filter fun a => first ≤ a && a < first + count).all fun a =>
      (e.placeOf n a).1 == (src.placeOf src.perShare a).1

/-- The end of an element range against a stream operand (R127, step 5). -/
def RegionEntry.holds (e : RegionEntry) (first count : Nat) : Bool :=
  decide (first + count ≤ e.streamElems)

/-- R88, the start: on every jet the range starts on a block boundary. -/
def startsOnBlock (e : RegionEntry) (first count : Nat) : Bool :=
  (e.shares first count).all fun x => x.2.1 % 4096 == 0

/-- R88, the end: the range ends on a block boundary or at the end of the region. -/
def endsOnBlock (e : RegionEntry) (first count : Nat) : Bool :=
  count == 0 || decide (e.elems ≤ first + count) || (first + count) % e.perShare % 4096 == 0

/-- R88 and R127, step 2, at LENGTH. -/
def blockLength (d : List Byte) (e : RegionEntry) : List (Bool × Nat) :=
  let first := firstElem d e
  let count := countElem d e
  [(offsetOf d * 8 % e.width ≠ 0, 8), (lengthOf d e.size * 8 % e.width ≠ 0, 16),
    (!startsOnBlock e first count, 8), (!endsOnBlock e first count, 16)]

/-- The jets of a part list, ascending. -/
def partJets (ps : List Part) : List Nat := ps.map (·.jet)

/-- Whether an accepted descriptor of one of the opcodes names an unslotted plane region (R302). -/
def State.planeConflict (s : State) (part entry : Nat) (ops : List Nat) : Bool :=
  !(s.region part entry).slotted && s.jobs.any fun j =>
    !j.recorded && j.part == part && ops.contains (opOf j.desc) && j.ents.any fun x =>
      x.2.kind == 6 && j.entryNo x.1 == entry

end Sys2Proof.Machine
end

