-- ==== Sys2Proof/Machine/Faults.lean ====
section
/-! DEFINITION. Detected errors, corrections, targeted self-tests, spares, adoption, the voting copies, and ageing (R309,
R311, R366 to R376, R421). -/

namespace Sys2Proof.Machine

/-! ## Places -/

/-- The two basins that a direction of an aqueduct link joins, the lower first (R17). -/
def linkLower (basin direction : Nat) : Nat :=
  min basin ((basin + (if direction = 0 then 1 else 5)) % 6)

/-- The jet or the basin that a fault record names (R17). Of an aqueduct lane it is the lower basin of the link; the direction bit
of the index stays the sender's (DESIGN CHOICE, log 146). -/
def placed (c : FaultClass) (place index : Nat) (e : Event') : Event' :=
  match c with
  | .aqueduct => { e with basin := linkLower place (index / 256) }
  | .reservoir => { e with basin := place }
  | .pourCopy | .wardenCopy => e
  | _ => if place < 24 then { e with jet := place } else { e with basin := place - 24 }

/-- The partition concerned by a record that names a jet: the jet's (log 26). -/
def State.concerned (s : State) (c : FaultClass) (place : Nat) : Option Nat :=
  if basinClass c || copyClass c || 24 ≤ place then none else some (s.jet place).part

/-- A fault record (R371). -/
def State.faultRecord (s : State) (c : FaultClass) (place index code arg0 arg1 : Nat) (alarm : Bool) : State :=
  s.emit (placed c place index { cls := b2n (!alarm), code := code, part := s.concerned c place, arg0 := arg0, arg1 := arg1 })

/-- The logical jet whose FAULT_CNT counts what happens in a unit: the jet, or the first jet of the basin (log 27). -/
def counterJet (c : FaultClass) (place : Nat) : Nat :=
  if basinClass c then 4 * place else if place < 24 then place else 4 * (place - 24)

/-- The jets whose parts an error in a unit ends: the jet, those of the basin, or the part that the controller runs (R367;
log 28). -/
def errorScope (c : FaultClass) (place : Nat) : List Nat :=
  if basinClass c then [0, 1, 2, 3].map (4 * place + ·) ++ [255] else [if place < 24 then place else 255]

/-- The jets whose parts an error in the work of a descriptor ends: those in scope that have not ended; where a unit of a
basin only lies on the way of the work, the first part that has not (R367; log 28). -/
def Job.errorParts (j : Job) (c : FaultClass) (place : Nat) : List Nat :=
  let live := (j.parts.filter (!j.partDone ·)).map (·.jet)
  let l := live.filter (errorScope c place).contains
  if basinClass c && l.isEmpty then live.take 1 else l

/-! ## Work without a part (R366, R367, R420) -/

/-- What a FWCHUNK staged is not staged after all: its bytes were not read (R383, R420; log 111). An image chunk that was
there before, as `result` says, stays. -/
def Warden.unstage (w : Warden) (j : Job) : Warden :=
  let c := fieldAt j.desc 12 4
  let k := c - 0x80000000
  if c < 0x80000000 then
    if j.result = 1 then w
    else { w with
      staged := Tab.set [] w.staged c []
      lacks := (List.range 31).foldl (fun l x => Tab.upd 0 l x fun m => if bit m c then m else m + 2 ^ c) w.lacks }
  else if k = 0 then { w with fwStage := 0, manifest := [], manifestOk := false, staged := [], lacks := [] }
  else { w with manifest := Tab.set [] w.manifest k [], manifestOk := false }

/-- Whether a descriptor reads operands without a part for them: METER, SCHED and FWCHUNK (R205, R175, R383). -/
def Job.readsAlone (j : Job) : Bool :=
  opOf j.desc == 2 || opOf j.desc == 0x0D || opOf j.desc == 0x10

/-- Whether a descriptor moves data without a part for them: those of `readsAlone`, and the writes of CENSUS and ATTEST (R319,
R395). -/
def Job.movesAlone (j : Job) : Bool :=
  j.readsAlone || opOf j.desc == 0x0F || opOf j.desc == 0x12

/-- The work of a descriptor that has no part for it fails: it completes FAULT with the class, and leaves nothing of what SCHED
or FWCHUNK would have set (R366, R367, R420). -/
def State.workLost (s : State) (j : Job) (jet cls : Nat) : State :=
  let t := match opOf j.desc with
    | 0x0D => (match j.before with | some g => s.updGroup (fieldAt j.desc 8 2) fun _ => g | none => s)
    | 0x10 => { s with warden := s.warden.unstage j }
    | _ => s
  t.updJob j.ring j.seq fun x => { x with status := some (.fault, jet, cls), wait := .ready }

/-! ## Detected errors (R366 to R368, R374) -/

/-- Whether a targeted self-test follows an error of a class (R368, R311). -/
def testedClass (c : FaultClass) : Bool :=
  c != .stackData && !copyClass c

/-- A detected error: record 80h, the end of the part in whose work it was met, and the test of the unit (R367, R368,
R371, R374). -/
def State.detected (s : State) (c : FaultClass) (place index : Nat) (work : Option (Nat × Word)) : State :=
  let seq := match work with | some w => w.2.toNat | none => 0xFFFFFFFF
  let part := match work.bind fun w => s.job w.1 w.2 with | some j => some j.part | none => s.concerned c place
  let t := s.emit (placed c place index { cls := 1, code := 0x80, part := part, arg0 := classCode c, arg1 := seq })
  let u := match work.bind fun w => s.job w.1 w.2 with
    | some j =>
      if j.recorded then t
      else if j.movesAlone then t.workLost j (if basinClass c || 24 ≤ place then 0xFF else place) (classCode c)
      else (j.errorParts c place).foldl (fun t k => t.endPart j.ring j.seq k (.fault, classCode c)) t
    | none => t
  if testedClass c then { u with tests := u.tests ++ [{ cls := c, place := place, index := index, engine := s.engine place }] } else u

/-! ## Broken marks (R308, R309, R311) -/

/-! ## Codes of a jet that fails (R107, R370) -/

/-- Stations of an engine go FAILED, with alarm 24h for each that had not, on every logical jet it serves. -/
def State.failStations (s : State) (e : Nat) (stations : List Nat) : State :=
  let has := stations.filter fun k => let c := (s.jet e).codes.getD k 0; c != 0 && c != 3
  let t := s.setCodes e stations 3
  t.emitAll (((t.servedBy e).filter t.present).flatMap fun j => (has.filter fun k => k != 5 || t.wellspring j).map fun k =>
    ({ cls := 0, code := 0x24, part := some (t.jet j).part, jet := j, arg0 := k } : Event'))

/-- The parts of accepted descriptors on a failed jet end FAULT with the class (log 29). -/
def State.endParts (s : State) (j cls : Nat) : State :=
  s.jobs.foldl (fun t x => if x.recorded then t else t.endPart x.ring x.seq j (.fault, cls)) s

/-- The temper record is due (R352, R369). -/
def State.temperDue (s : State) : State := { s with boot := { s.boot with temperDue := true } }

/-- The jets whose adoption by an engine is under way. -/
def State.awaiting (s : State) (e : Nat) : List Nat :=
  (List.range 24).filter fun j => (s.jet j).adoptBy == some e

/-- A jet whose engine is condemned and cannot be adopted: every station FAILED, on every jet that the engine serves or was
to serve, and Wellspring with it on the basin's other wellspring jets (R370, R436). -/
def State.failJet (s : State) (e : Nat) (c : FaultClass) : State :=
  let js := s.servedBy e ++ s.awaiting e
  let t := (((s.updJet e fun x => { x with bad := true }).failStations e [0, 1, 2, 3, 4, 5]).emit
    { cls := 0, code := 0x85, part := some (s.jet e).part, jet := e, arg0 := classCode c }).temperDue
  let fails (u : State) (j : Nat) : State :=
    (if j = e then u else u.failStations j [0, 1, 2, 3, 4, 5]).updJet j fun x => { x with
      bad := true, adopter := none, adoptBy := none, codes := List.replicate 6 3 }
  let u := js.foldl (fun t j => (fails t j).endParts j (classCode c)) t
  if js.any s.wellspring then
    (((s.wellJets (e / 4)).filter (!js.contains ·)).foldl (fun t j => t.failStations (t.engine j) [5]) u).settleOwners
  else u

/-! ## Adoption (R346, R370) -/

/-- Whether an engine adopts another jet, or is about to. -/
def State.adopts (s : State) (e : Nat) : Bool :=
  s.jets.any fun x => x.2.adopter == some e || x.2.adoptBy == some e

/-- The engine that would adopt the jets of engine `e`: of the same basin, at the lowest port that is not defective and
not adopting (R346, R370). -/
def State.adopterFor (s : State) (e : Nat) : Option Nat :=
  let cs := ([0, 1, 2, 3].map (4 * (e / 4) + ·)).filter fun k =>
    s.present k && k != e && !(s.jet k).bad && !s.adopts k
  cs.foldl (fun m k => match m with
    | none => some k
    | some x => if (s.jet k).port < (s.jet x).port then some k else some x) none

/-- Engine `e` cannot be spared: its jet is adopted, by an engine that is woken for it, or fails (R370). -/
def State.condemn (s : State) (e : Nat) (c : FaultClass) : State :=
  if s.adopts e then s.failJet e c
  else match s.adopterFor e with
    | none => s.failJet e c
    | some k =>
      let t := (s.setCodes e [0, 1, 2, 3, 4, 5] 1).updJet e fun x => { x with bad := true, adoptBy := some k }
      t.wake [k] []

/-- Whether an engine has a tile in flight on any of the jets it serves. -/
def State.tileInFlight (s : State) (e : Nat) : Bool :=
  s.jobs.any fun j => !j.recorded && j.parts.any fun p => p.jet < 24 && s.engine p.jet == e && !p.inFlight.isEmpty

/-- An open accumulator is lost, and its block becomes ragged (R212). -/
def Block.lose (b : Block) : Block :=
  if b.opened then { b with opened := false, ragged := true } else b

/-- ADOPTION_DONE (R212, R295, R370): the adopter runs, and has drained its tile; the jet is joined to it. -/
def execAdoptionDone (jet : Nat) (s : State) : Host.Outcome State Fault Refusal :=
  .next <| match (s.jet jet).adoptBy with
    | none => s
    | some k =>
      if !s.open? || !s.runs k || s.tileInFlight k then s
      else
        let t := s.updJet jet fun x => { x with
          adopter := some k, adoptBy := none, ledger := Tab.mapVals {} (fun _ => Block.lose) x.ledger }
        let u := s.traceCodes t
        let v := u.emit { cls := 0, code := 0x84, part := some (u.jet jet).part, jet := jet, arg0 := k }
        v.temperDue.settleOwners

/-! ## Remedies (R313, R314, R369) -/

/-- A spare has come in: record 83h, and the temper record is due (R352, R369). -/
def State.spareIn (s : State) (c : FaultClass) (place index left : Nat) : State :=
  (s.faultRecord c place index 0x83 (classCode c) left false).temperDue

/-- A link of a direction, of the sender's basin. -/
def Basin.link (b : Basin) (direction : Nat) : Link := if direction = 0 then b.up else b.dn

/-- Change the link of a direction. -/
def Basin.setLink (b : Basin) (direction : Nat) (l : Link) : Basin :=
  if direction = 0 then { b with up := l } else { b with dn := l }

/-- The basin that the flits of a direction of a basin reach (R23). -/
def farBasin (basin direction : Nat) : Nat := (basin + (if direction = 0 then 1 else 5)) % 6

/-- The link between two basins is withdrawn, for both (R369). -/
def State.withdraw (s : State) (basin direction : Nat) : State :=
  let other := farBasin basin direction
  (s.updBasin basin fun b => b.setLink direction { b.link direction with out := true }).updBasin other fun b =>
    b.setLink (1 - direction) { b.link (1 - direction) with out := true }

/-- A lasting fault of an aqueduct lane (R369). -/
def State.laneLost (s : State) (basin index : Nat) : State :=
  let d := index / 256
  let l := (s.basin basin).link d
  let m := l.lanes.lose linkSpareList (index % 256) (index % 256)
  if 0 < l.spare then
    (s.updBasin basin fun b => b.setLink d { l with spare := l.spare - 1, lanes := m }).spareIn .aqueduct basin index
      (l.spare - 1)
  else
    let u := (s.updBasin basin fun b => b.setLink d { l with active := l.active - 1, lanes := m }).temperDue
    if l.active ≤ 4 ∧ !l.out then (u.withdraw basin d).faultRecord .aqueduct basin index 0x85 9 0 true else u

/-- A lasting fault of a Reservoir bank (R369). -/
def State.bankRetired (s : State) (basin index : Nat) : State :=
  let n := (s.basin basin).banks - 1
  let u := (s.updBasin basin fun b => { b with banks := n }).temperDue
  if n < 4 ∧ 4 ≤ (s.basin basin).banks then
    let es := (((List.range 24).filter fun j => s.present j && j / 4 == basin).map s.engine).eraseDups
    (es.foldl (fun t e => t.failStations e [3]) u).faultRecord .reservoir basin index 0x85 5 0 true
  else u

/-- The accepted GEMVs and RILLs with a part on a jet. -/
def State.rillJobs (s : State) (j : Nat) : List Job :=
  s.jobs.filter fun x => !x.recorded && (opOf x.desc == 9 || opOf x.desc == 0x0A) && x.parts.any (·.jet == j)

/-- The spare banks of a pseudo-channel that no copy under way is for (R313). -/
def Well.sparesLeft (w : Well) (channel : Nat) : Nat :=
  w.spares.getD channel 0 - (w.copying.filter (· / 16 == channel)).length

/-- A lasting fault of a wellspring bank (R313, R314). -/
def State.wellBankLost (s : State) (j bank : Nat) : State :=
  let t := (s.rillJobs j).foldl (fun t x => t.endPart x.ring x.seq j (.fault, 0x0B)) s
  if 0 < (s.well j).sparesLeft (bank / 16) then
    (if (s.jet (s.engine j)).codes.getD 5 0 = 3 then t else t.setCode (s.engine j) 5 1).updWell j fun w =>
      { w with copying := w.copying ++ [bank] }
  else (t.failStations (s.engine j) [5]).temperDue

/-- The remedy of a lasting fault of a unit of engine `e` (R369). An engine that serves no more needs none. A lasting fault
in the core of a basin controller has none that the manual gives (log 107). -/
def State.remedy (s : State) (c : FaultClass) (place index e : Nat) : State :=
  let x := s.jet e
  match c with
  | .lane =>
    if x.bad then s
    else if 0 < x.laneSpares then
      (s.updJet e fun y => { y with laneSpares := y.laneSpares - 1, lanes := y.lanes.lose laneSpareList index index }).spareIn
        c place index (x.laneSpares - 1)
    else s.condemn e c
  | .row =>
    if x.bad then s
    else if x.rowSpare then
      (s.updJet e fun y => { y with rowSpare := false, rows := y.rows.lose rowSpareList index index }).spareIn c place index 0
    else s.condemn e c
  | .column =>
    if x.bad then s
    else if x.colSpare then
      (s.updJet e fun y => { y with colSpare := false, cols := y.cols.lose rowSpareList index index }).spareIn c place index 0
    else s.condemn e c
  | .cistern | .castUnit | .weirUnit => if x.bad then s else s.condemn e c
  | .core => if x.bad || 24 ≤ place then s else s.condemn e c
  | .reservoir => s.bankRetired place index
  | .aqueduct => s.laneLost place index
  | .bank | .planeSeal => s.wellBankLost place index
  | .stackData | .pourCopy | .wardenCopy => s

/-- Whether an adoption is in progress (R374). -/
def State.adopting (s : State) : Bool :=
  s.jets.any (·.2.adoptBy.isSome)

/-- Whether the handling of a fault is not settled, so that the next one is held (R374). -/
def State.handling (s : State) : Bool :=
  s.adopting || !s.tests.isEmpty

/-- SELF_TEST_RESULT (R368, R369): the oldest test that is due ends; no other is settled while an adoption runs (R374). The test
of a copy of the pour logic or of the Warden ends with its reload. -/
def execSelfTestResult (cls : FaultClass) (place index : Nat) (pass : Bool) (s : State) : Host.Outcome State Fault Refusal :=
  .next <|
    match s.tests with
    | [] => s
    | x :: rest =>
      if !s.open? || s.adopting || copyClass cls || x.cls ≠ cls || x.place ≠ place || x.index ≠ index then s
      else
        let t := { s with tests := rest }
        if pass then
          let j := counterJet cls place
          let u := t.updJet j fun y => { y with transient := satAdd 16 y.transient 1 }
          u.faultRecord cls place index 0x81 (classCode cls) (u.jet j).transient false
        else (t.faultRecord cls place index 0x82 (classCode cls) index false).remedy cls place index x.engine

/-! ## Commands of errors and corrections -/

/-- A copy of a triplicated unit is in the minority (R222, R372). -/
def Copies.disagree (c : Copies) (copy : Nat) : Copies :=
  if c.lost.isEmpty then { c with reloading := c.reloading ++ [copy] } else { c with stopped := true }

/-- The class of a copy of the Warden, or of the pour logic. -/
def copyOf (ofWarden : Bool) : FaultClass := if ofWarden then .wardenCopy else .pourCopy

/-- The copies of the Warden, or of the pour logic. -/
def State.copies (s : State) (ofWarden : Bool) : Copies := if ofWarden then s.wardenCopies else s.pourCopies

/-- Put the copies of the Warden, or of the pour logic. -/
def State.putCopies (s : State) (ofWarden : Bool) (c : Copies) : State :=
  if ofWarden then { s with wardenCopies := c } else { s with pourCopies := c }

/-- A disagreement among the copies of the pour logic or of the Warden (R222, R329, R371, R372). The reload of the copy takes its
turn among the faults that are handled (R374). -/
def State.copyError (s : State) (ofWarden : Bool) (copy : Nat) : State :=
  let t := s.emit { cls := 1, code := 0x80, arg0 := classCode (copyOf ofWarden), arg1 := 0xFFFFFFFF }
  let c := (s.copies ofWarden).disagree copy
  let u := (t.emitIf (!ofWarden) { cls := 0, code := 0x23, arg0 := copy }).putCopies ofWarden c
  if c.stopped then u else { u with tests := u.tests ++ [{ cls := copyOf ofWarden, place := 0, index := copy }] }

/-- Whether a number names a unit of a class (R16). -/
def unitIndex (c : FaultClass) (index : Nat) : Bool :=
  match c with
  | .lane | .row | .column | .cistern => index < 128
  | .reservoir => index < 16
  | .aqueduct => index % 256 < 8 && index < 512
  | .bank | .planeSeal => index < 512
  | .pourCopy | .wardenCopy => index < 3
  | .castUnit | .weirUnit | .core | .stackData => index == 0

/-- Whether a unit of a class exists at a place (R3, R16, R21): a relay basin has no Reservoir. -/
def State.unitAt (s : State) (c : FaultClass) (place index : Nat) : Bool :=
  unitIndex c index &&
    (if copyClass c then true
     else if c = .reservoir then decide (place < s.basinsWithJets)
     else if c = .aqueduct then decide (place < 6)
     else if c = .core then s.present place || (24 ≤ place && place < 30)
     else if c = .bank ∨ c = .planeSeal then s.wellspring place
     else s.present place)

/-- DETECTED_ERROR (R366, R367, R368, R372). -/
def execDetectedError (cls : FaultClass) (place index : Nat) (work : Option (Nat × Word)) (s : State) :
    Host.Outcome State Fault Refusal :=
  .next <|
    if !s.open? || !s.unitAt cls place index then s
    else match cls with
      | .pourCopy => if s.pourCopies.lost.contains index ∨ s.pourCopies.stopped then s else s.copyError false index
      | .wardenCopy => if s.wardenCopies.lost.contains index ∨ s.wardenCopies.stopped then s else s.copyError true index
      | c => if s.live then s.detected c place index work else s

/-- The corrections of a unit that lie within 50 000 000 always-on cycles (R366). -/
def recent (aon : Nat) (ts : List Nat) : List Nat :=
  ts.filter fun t => aon < t + 50000000

/-- The corrections of a place with one more of a unit: the list, and how many lie in the window (R366). -/
def addCorrection (aon cls index : Nat) (l : List Corrections) : List Corrections × Nat :=
  let old := ((l.find? fun c => c.cls == cls && c.index == index).map (·.times)).getD []
  let ts := recent aon old ++ [aon]
  let rest := l.filter fun c => !(c.cls == cls && c.index == index)
  (if 16 ≤ ts.length then rest else rest ++ [⟨cls, index, ts⟩], ts.length)

/-- Whether a class has corrections: ECC by word, and flits retried (R366). -/
def correctable (c : FaultClass) : Bool :=
  c == .cistern || c == .reservoir || c == .aqueduct

/-- A correction: FAULT_CNT, and at the sixteenth in the window record 86h and an error that ends no descriptor (R366,
R371). -/
def State.corrected (s : State) (c : FaultClass) (place index : Nat) : State :=
  let t := s.updJet (counterJet c place) fun x => { x with corrected := satAdd 16 x.corrected 1 }
  let n := (addCorrection s.aon (classCode c) index (if basinClass c then (s.basin place).corrections else (s.jet place).corrections)).2
  let u :=
    if basinClass c then t.updBasin place fun b => { b with corrections := (addCorrection s.aon (classCode c) index b.corrections).1 }
    else t.updJet place fun x => { x with corrections := (addCorrection s.aon (classCode c) index x.corrections).1 }
  if 16 ≤ n then (u.faultRecord c place index 0x86 (classCode c) n false).detected c place index none else u

/-- CORRECTION (R366). -/
def execCorrection (cls : FaultClass) (place index : Nat) (s : State) : Host.Outcome State Fault Refusal :=
  .next <| if !s.live || !(correctable cls) || !s.unitAt cls place index then s else s.corrected cls place index

/-- COPY_RELOAD (R372, R374): the reload of a copy ends, with its self-test, where no other fault is handled first. The index
of record 82h is the copy (log 136). -/
def execCopyReload (ofWarden : Bool) (copy : Nat) (pass : Bool) (s : State) : Host.Outcome State Fault Refusal :=
  .next <|
    let c := s.copies ofWarden
    let cls := copyOf ofWarden
    if !s.open? || s.adopting || s.tests.head? ≠ some { cls := cls, place := 0, index := copy } then s
    else
      let d := { c with reloading := c.reloading.erase copy, lost := if pass then c.lost else c.lost ++ [copy] }
      let t := ({ s with tests := s.tests.tail } : State).putCopies ofWarden d
      if pass then t.faultRecord cls 0 copy 0x81 (classCode cls) 0 false
      else (t.faultRecord cls 0 copy 0x82 (classCode cls) copy false).emit { cls := 0, code := 0x92, arg0 := b2n ofWarden, arg1 := copy }

/-- FAULT_CNT_CLEAR (R376, R429, R432): any value written clears both counters, at the next wake where the jet sleeps. -/
def State.faultCntClear (s : State) (part jet : Nat) (_value : Word) : State :=
  if !s.portOpen part false || part ≠ 0 || !s.present jet then s
  else s.updJet jet fun x => if (s.jet (s.engine jet)).awake then { x with transient := 0, corrected := 0 }
    else { x with clearDue := true }

/-- FAULT_CNT_CLEAR at the register port (R424). -/
def execFaultCntClear (part jet : Nat) (value : Word) (s : State) : Host.Outcome State Fault Refusal :=
  .next <| s.regWrite part (0x120 + jet) value (·.faultCntClear part jet value)

/-! ## Ageing and the aqueduct (R375, R421) -/

/-- The re-plan of a basin (R375). -/
def State.replanBasin (s : State) (b : Nat) (gauges : List (List Nat)) (eye : Nat) : State :=
  let js := ([0, 1, 2, 3].map (4 * b + ·)).filter fun j => s.present j && (s.jet (s.engine j)).awake
  if js.isEmpty then s
  else
    let m (j : Nat) : Nat := let l := nth gauges j []; l.foldl min (l.headD 0)
    let t := s.updJets js fun j x => { x with
      margin := min (m j) 255, guard := if m j < 30 ∧ x.guard < 7 then x.guard + 1 else x.guard
      exhausted := x.exhausted && decide (m j < 30) }
    let low := js.filter fun j => decide (m j < 30) && (t.jet j).guard == 7
    let v := (s.basin b).vreq
    let v' := if !low.isEmpty then min (v + 1) 15 else if js.all (fun j => 60 < m j) && 0 < v then v - 1 else v
    let fresh := if v = 15 then low.filter fun j => !(t.jet j).exhausted else []
    let u := (t.updBasin b fun x => { x with vreq := v', linkMargin := min eye 255 }).updJets fresh fun _ x =>
      { x with exhausted := true }
    let w := (u.emit { cls := 3, code := 0x90, basin := b, arg0 := b, arg1 := v' }).emitAll (fresh.map fun j =>
      { cls := 0, code := 0x91, part := some (s.jet j).part, jet := j, arg0 := j, arg1 := m j })
    if v' ≠ v ∨ js.any fun j => (t.jet j).guard != (s.jet j).guard then { w with boot := { w.boot with ageDue := true } } else w

/-- REPLAN (R375). -/
def execReplan (gauges : List (List Nat)) (eyes : List Nat) (s : State) : Host.Outcome State Fault Refusal :=
  .next <|
    if !s.live then s else (List.range 6).foldl (fun t b => t.replanBasin b gauges (nth eyes b 0)) s

/-- Whether an aqueduct lane waits for a test or is in it, so that no flit goes over it (R109, R368). -/
def State.laneTest (s : State) (basin index : Nat) : Bool :=
  s.tests.any fun x => x.cls == .aqueduct && x.place == basin && x.index == index

/-- FLIT (R366, R367, R398, R421): a failure is retried; a flit recovered by retry is a correction, and one that fails four
retries an error, in the work that it is of. A flit wakes the basin that it reaches, and waits for it. -/
def execFlit (basin direction lane : Nat) (arrival : Arrival) (s : State) : Host.Outcome State Fault Refusal :=
  .next <|
    if !s.live || 6 ≤ basin || 2 ≤ direction || 8 ≤ lane then s
    else
      let l := (s.basin basin).link direction
      let n := Tab.get 0 l.retries lane
      let index := lane + 256 * direction
      let t := s.wake [] [farBasin basin direction]
      let set (v : Nat) : State := t.updBasin basin fun b => b.setLink direction { l with retries := Tab.set 0 l.retries lane v }
      if l.out || s.laneTest basin index then s
      else if !(s.basin (farBasin basin direction)).awake then t
      else if arrival.crcOk then (if n = 0 then t else (set 0).corrected .aqueduct basin index)
      else if 4 ≤ n then (set 0).detected .aqueduct basin index arrival.work
      else set (n + 1)

/-- LANE_RETRAIN (R374, R375): a lane that stays below 15 ps is a lasting fault, handled once no other one is. -/
def execLaneRetrain (basin direction lane margin : Nat) (s : State) : Host.Outcome State Fault Refusal :=
  .next <|
    if !s.live || 6 ≤ basin || 2 ≤ direction || 8 ≤ lane || 15 ≤ margin || s.handling then s
    else
      let index := lane + 256 * direction
      (s.faultRecord .aqueduct basin index 0x82 9 index false).laneLost basin index

/-- The level of MZ_ALARM_N, true while it is low (R333, R350, R372, R426). -/
def State.alarm (s : State) : Bool :=
  !s.clocks.rst && (!s.sluice.alarms.isEmpty || s.pourCopies.stopped || s.wardenCopies.stopped)

end Sys2Proof.Machine
end

