-- ==== Sys2Proof/Machine/Matrix.lean ====
section
/-! DEFINITION. The matrix steps of a layer-grain group: ORTHO and FACTOR over one matrix (R194 to R196). -/

namespace Sys2Proof.Machine

/-- Column `j` of rows. -/
def column (m : List (List Num)) (j : Nat) : List Num := m.map fun r => nth r j (.fin ⟨false, 0, 0⟩)

/-- The columns of `n`-wide rows. -/
def transposeOf (n : Nat) (m : List (List Num)) : List (List Num) := (List.range n).map (column m)

/-- The accumulators of the product of rows by the transpose of rows: entry (i, j) is row i of `a` by row j of `bt`
(R62 to R68). -/
def productAcc (a bt : List (List Num)) : List (List Acc) :=
  a.map fun r => bt.map fun c => dot none (r.zip c)

/-- Values rounded once to a format, with the events. -/
abbrev Rounded := List (List (Nat × Option Event))

/-- The codes of rounded values. -/
def Rounded.values (w : Fmt) (m : Rounded) : List (List Num) := m.map fun r => r.map fun x => w.decode x.1

/-- The counts of rounded values at a conversion site. -/
def Rounded.counts (w : Fmt) (m : Rounded) (c : Counts) : Counts := c.deliverAll w (m.flatten.map (·.2))

/-- Accumulators rounded once to a format (R69, R195). -/
def roundAcc (w : Fmt) (m : List (List Acc)) : Rounded := m.map fun r => r.map (accOut w .rne)

/-- α × P + β × Q, exact from the accumulator P and the stored Q, rounded once (R195). -/
def combineAcc (w : Fmt) (alpha beta : Num) (p : Acc) (q : Num) : Nat × Option Event :=
  let r := (exactMul alpha p.value).bind fun x => (exactMul beta q).bind fun y => exactAdd .rne x y
  let (code, ev) := finish w .rne [alpha, p.value, beta, q] r
  (code, if p.counted then some .nanProduced else ev)

/-- α × P + β × Q for every entry. -/
def combineAll (w : Fmt) (alpha beta : Num) (p : List (List Acc)) (q : List (List Num)) : Rounded :=
  List.zipWith (List.zipWith (combineAcc w alpha beta)) p q

/-- One iteration of ORTHO phase 2 on an operand of `cols` columns (R195). -/
def orthoIterate (w : Fmt) (cols : Nat) (wide : Bool) (ka kb kc : Num) (x : List (List Num)) (c : Counts) :
    List (List Num) × Counts :=
  let xt := transposeOf cols x
  let a := if wide then roundAcc w (productAcc x x) else roundAcc w (productAcc xt xt)
  let av := a.values w
  let b := combineAll w kc kb (productAcc av (transposeOf av.length av)) av
  let bv := b.values w
  let one : Num := .fin ⟨false, 1, 0⟩
  let y := if wide then combineAll w one ka (productAcc bv xt) x
    else combineAll w one ka (productAcc x (transposeOf bv.length bv)) x
  (y.values w, y.counts w (b.counts w (a.counts w c)))

/-- `n` iterations. -/
def orthoLoop (w : Fmt) (cols : Nat) (wide : Bool) (ka kb kc : Num) : Nat → List (List Num) → Counts → List (List Num) × Counts
  | 0, x, c => (x, c)
  | n + 1, x, c =>
    let (y, c') := orthoIterate w cols wide ka kb kc x c
    orthoLoop w cols wide ka kb kc n y c'

/-- The sum of squares over a matrix that lies on jets in pieces of the given sizes, by R72 and R73. -/
def sumSquaresOn (sizes : List Nat) (codes : List Nat) : Nat :=
  let jets := (sizes.foldl (fun (acc, rest) n => (acc ++ [rest.take n], rest.drop n)) (([] : List (List Nat)), codes)).1
  let parts := jets.map fun l =>
    (chunksOf 4096 ((l.length + 4095) / 4096) l).foldl
      (fun p t => combineOpt .rssq .f32 p (reduceTile .rssq .f32 0 (t.map some))) none
  ((parts.foldl (combineOpt .rssq .f32) none).map (·.value)).getD 0

/-- What a matrix step gives: S5 row by row, the new statistics of FACTOR, and the counts. -/
structure MatrixOut where
  s5 : List (List Nat)
  stats : List Nat := []
  counts : Counts := []
  deriving DecidableEq, Repr

/-- The constants of a matrix step: KP, KQ, KA, KB, KC, KE (R176). -/
structure MatrixK where
  kp : Nat
  kq : Nat
  ka : Nat
  kb : Nat
  kc : Nat
  ke : Nat
  deriving DecidableEq, Repr

/-- Rows of `n`. -/
def rowsOf (n : Nat) (l : List Nat) : List (List Nat) := chunksOf n (l.length / n) l

/-- ORTHO on one matrix: `sp` and `sq` are the streams MX_P and MX_Q after the load stage, as F32 (R195). -/
def ortho (w : Fmt) (k : MatrixK) (iter rows cols : Nat) (sizes sp sq : List Nat) : MatrixOut :=
  let f := Fmt.f32
  let steps := List.zipWith (fun p q =>
    let t := fMul f .rne k.kq q
    let x := fFma f .rne false k.kp p t.1
    let r := fCvtf32 w x.1
    (r, (Flags.note {} t.2).note x.2)) sp sq
  let widened := steps.map fun x => (convertNum f .rne 0 (w.decode x.1.1)).1
  let ss := sumSquaresOn sizes widened
  let root := fUnary f .rne exactSqrt ss
  let nu := fAdd f .rne root.1 k.ke
  let inv := fDiv f .rne one32 nu.1
  let xs := steps.map fun x => finish w .rne [f.decode inv.1, w.decode x.1.1] (exactMul (f.decode inv.1) (w.decode x.1.1))
  let c0 : Counts := steps.foldl (fun c x => c.flags f x.2) []
  let c1 := (steps.zip xs).foldl (fun c (x, y) => c.flags w ((Flags.note {} x.1.2).note y.2)) c0
  let c2 := c1.flags f (((Flags.note {} root.2).note nu.2).note inv.2)
  let (y, c3) := orthoLoop w cols (decide (rows ≤ cols)) (f.decode k.ka) (f.decode k.kb) (f.decode k.kc) iter
    ((rowsOf cols (xs.map (·.1))).map fun r => r.map w.decode) c2
  { s5 := y.map fun r => r.map fun v => (convertNum f .rne 0 v).1, counts := c3 }
where
  /-- An F32 value rounded once to the workspace format. -/
  fCvtf32 (w : Fmt) (x : Nat) : Nat × Option Event := fCvt .f32 w .rne x

/-- A new statistic: `s` from the dot product, `old` the stored one, `size` the other dimension (R196). -/
def factorStat (ka c2 d size old : Nat) (acc : Acc) (c : Counts) : Nat × Counts :=
  let f := Fmt.f32
  let s0 := accOut f .rne acc
  let s := fMul f .rne s0.1 c2
  let u := fDiv f .rne s.1 size
  let m := fMul f .rne d u.1
  let r := fFma f .rne false ka old m.1
  (r.1, (c.deliver f s0.2).flags f ((((Flags.note {} s.2).note u.2).note m.2).note r.2))

/-- New statistics over lines of values. -/
def factorStats (ka c2 d size : Nat) : List Nat → List (List Num) → Counts → List Nat × Counts
  | o :: os, l :: ls, c =>
    let (x, c1) := factorStat ka c2 d size o (dot none (l.zip l)) c
    let (xs, c2') := factorStats ka c2 d size os ls c1
    (x :: xs, c2')
  | _, _, c => ([], c)

/-- An integer as F32. -/
def f32OfNat (n : Nat) : Nat := (convertNum .f32 .rne 0 (.fin (.ofInt n))).1

/-- FACTOR on one matrix: `g` are the stored elements of the GRAD stream, `old` the current statistics, `clip` the clip
factor (R196). -/
def factor (ka clip rows cols : Nat) (g : List (List Num)) (old : List Nat) : MatrixOut :=
  let f := Fmt.f32
  let sq := fMul f .rne clip clip
  let d := fSub f .rne one32 ka
  let c0 : Counts := Counts.flags [] f ((Flags.note {} sq.2).note d.2)
  let (r1, c1) := factorStats ka sq.1 d.1 (f32OfNat cols) (old.take rows) g c0
  let (k1, c2) := factorStats ka sq.1 d.1 (f32OfNat rows) (old.drop rows) (transposeOf cols g) c1
  let tot := match r1 with
    | [] => (0, ({} : Flags))
    | x :: t => t.foldl (fun (a : Nat × Flags) y => let z := fAdd f .rne a.1 y; (z.1, a.2.note z.2)) (x, {})
  let cells := r1.map fun r => k1.map fun k =>
    let m := fMul f .rne r k
    let q := fDiv f .rne m.1 tot.1
    (q.1, (Flags.note {} m.2).note q.2)
  { s5 := cells.map fun r => r.map (·.1), stats := r1 ++ k1
    counts := cells.flatten.foldl (fun c x => c.flags f x.2) (c2.flags f tot.2) }

end Sys2Proof.Machine
end

