-- ==== Sys2Proof/Machine/Casting.lean ====
section
/-! DEFINITION. Cast as a station: the checks that STILL and CAST share, the CAST descriptor, and what a tile's cast
writes (R245 to R263, R302, R305, R445). -/

namespace Sys2Proof.Machine

/-! ## Outputs -/

/-- Where a descriptor's Cast fields stand: the bytes of CAST_CTL, USE, CAST_R, DROSS_R and PLANE_R (R125). -/
structure CastFields where
  ctl : Nat
  use : Nat
  mould : Nat
  dross : Nat
  plane : Nat
  deriving DecidableEq, Repr

/-- The fields of a STILL. -/
def stillCast : CastFields := ⟨42, 38, 34, 35, 36⟩
/-- The fields of a CAST. -/
def castCast : CastFields := ⟨30, 28, 25, 26, 27⟩

/-- The fields of an opcode. -/
def castFields (op : Nat) : CastFields := if op = 3 then stillCast else castCast

/-- The operand bytes that USE names, ascending (R125). -/
def usedBytes (d : List Byte) : List Nat :=
  if opOf d = 3 then (bitsOf 13 (fieldAt d 38 2)).map (24 + ·) else (bitsOf 4 (fieldAt d 28 1)).map (24 + ·)

/-- Whether an operand byte is in use. -/
def uses (d : List Byte) (byte : Nat) : Bool := (usedBytes d).contains byte

/-- The absent operand bytes that are not 00h (R125). -/
def strayOperands (d : List Byte) (bytes : List Nat) : List Nat :=
  bytes.filter fun b => !uses d b && fieldAt d b 1 != 0

/-- CAST_CTL of a descriptor. -/
def ctlOf (d : List Byte) : Nat := fieldAt d (castFields (opOf d)).ctl 1
/-- CAST_RND of a descriptor; the byte after CAST_CTL. -/
def castRndOf (d : List Byte) : Nat := fieldAt d ((castFields (opOf d)).ctl + 1) 1

/-- Whether Cast writes anything. -/
def casts (d : List Byte) : Bool :=
  let f := castFields (opOf d)
  uses d f.mould || uses d f.plane

/-! ## Checks (R249, R263) -/

/-- Reserved codes of CAST_CTL and CAST_RND (R125, R263). -/
def castCodes (d : List Byte) : List Nat :=
  let f := castFields (opOf d)
  (if 6 ≤ bits (ctlOf d) 0 3 then [f.ctl] else []) ++ (if (Rnd.ofCode (castRndOf d)).isNone then [f.ctl + 1] else [])

/-- The FORMAT checks of R263; `layer` says that the source's group has layer grain. -/
def State.castFormat (s : State) (part : Nat) (d : List Byte) (layer : Bool) : List (Bool × Nat) :=
  let f := castFields (opOf d)
  let ctl := ctlOf d
  let still := opOf d == 3
  let ent (b : Nat) := s.operand part d b
  [(uses d f.mould && (ent f.mould).kind != 4, f.mould), (uses d f.dross && (ent f.dross).kind != 5, f.dross),
    (uses d f.plane && (ent f.plane).kind != 6, f.plane), (ctl != 0 && !uses d f.mould, f.ctl),
    (ctlColumn ctl && still, f.ctl), (ctlColumn ctl && !still && (!layer || ctlBlock ctl < ctlRotation ctl), f.ctl),
    (ctlColumn ctl && !still && uses d f.plane, f.use),
    (uses d f.mould && (ent f.mould).format != (ctlFormat ctl).code, f.mould), (uses d f.dross && !uses d f.mould, f.use)]

/-- The LENGTH checks of a column cast (R249). -/
def columnLength (g : Group) (ctl : Nat) (src : RegionEntry) (first count : Nat) : Bool :=
  let b := ctlBlock ctl
  let band := b * g.cols
  ctlColumn ctl && (g.rows % b != 0 || g.cols % (4096 / b) != 0 || first % band != 0 || (first + count) % band != 0 ||
    (List.range src.jetList.length).any fun k =>
      first < k * src.perShare && k * src.perShare < first + count && k * src.perShare % band != 0)

/-- The BOUND checks of Cast outputs (R247). -/
def State.castBound (s : State) (part : Nat) (d : List Byte) (src : RegionEntry) (first count : Nat) : List (Bool × Nat) :=
  let f := castFields (opOf d)
  [f.mould, f.dross, f.plane].map fun b =>
    (uses d b && count != 0 && !(s.operand part d b).castHolds src first count, b)

/-- The stations of a descriptor that casts: Crucible where Cast rotates, Still and Cast (R86, R263). -/
def castStations (ctl : Nat) (others : List Nat) : List Nat :=
  (List.range 6).filter fun k => others.contains k || (k == 2 && ctlRotation ctl != 0)

/-- Step 2 of R133 for the regions of STILL and CAST: an unused entry, or a group of another partition (R96, R174). -/
def State.regionsDenied (s : State) (part : Nat) (d : List Byte) (bytes : List Nat) : List (Bool × Nat) :=
  (s.shardDenied part d, 2) :: bytes.map fun b =>
    let e := s.operand part d b
    (e.kind == 0 || (decide (e.kind ≤ 6) && s.groupDenied part e.group), b)

/-! ## What a tile's cast writes -/

/-- The source elements of the tile at range element `a`, in mould order (R248, R249). -/
def tileElems (cols ctl first a : Nat) : List Nat :=
  if ctlColumn ctl then
    let b := ctlBlock ctl
    let w := 4096 / b
    let t := (a - first) / 4096
    let top := first + t / (cols / w) * (b * cols) + t % (cols / w) * w
    (List.range 4096).map fun p => top + p % b * cols + p / b
  else (List.range 4096).map (a + ·)

/-- What Cast is given for a tile of an accepted descriptor. -/
def Job.castIn (j : Job) (f : Fmt) (codes pidx : List Nat) : CastIn :=
  let c := castFields (opOf j.desc)
  { fmt := f, codes := codes, pidx := pidx, ctl := ctlOf j.desc, rnd := (Rnd.ofCode (castRndOf j.desc)).getD .rne
    mould := uses j.desc c.mould, dross := uses j.desc c.dross, plane := uses j.desc c.plane
    skimK := nth j.words 0 0, errK := nth j.words 1 0, seed := j.env.seed, epoch := j.env.epoch }

/-- Cast the tile at range element `a`: the writes, and the counts (R245 to R261). -/
def State.castAt (s : State) (j : Job) (a : Nat) (ci : CastIn) : State × Counts :=
  let c := castFields (opOf j.desc)
  let o := castTile ci
  let m := j.ent c.mould
  let r := j.ent c.dross
  let p := j.ent c.plane
  let t := if ci.mould then s.writeRecordAt m (j.writeSlot m) a o.mould else s
  let u := if ci.dross then t.writeRecordAt r (j.writeSlot r) a [(0, o.dross)] else t
  let (jet, ps) := p.recordAt (j.writeSlot p) a
  (if ci.plane then u.writePieces jet ps o.plane else u, o.counts)

/-! ## CAST (R245, R263) -/

/-- Whether the shard's state admits a CAST with a slotted output (R228). -/
def Shard.castState (h : Shard) : Bool :=
  h.state == 2 || h.state == 3 || (h.state == 5 && h.verdict == 0)

/-- The checks of CAST, in the order of R133. -/
def State.castChecks (s : State) (part : Nat) (d : List Byte) : Option Verdict' :=
  let src := s.operand part d 24
  let g := s.group src.group
  let first := firstElem d src
  let count := countElem d src
  let ctl := ctlOf d
  let used := usedBytes d
  let slotted := s.shardOrdered part d
  let h := s.shard (shardOf d)
  let n := ((s.shard src.shard).stepNo + 1).toNat
  let jets := (partsOf src first count).map (·.jet)
  (formatCheck d ((if fieldAt d 28 1 % 2 = 0 ∨ fieldAt d 28 1 < 2 then [28] else []) ++ castCodes d ++
    strayOperands d [24, 25, 26, 27])).orElse fun _ =>
  (lowest .denied (s.regionsDenied part d used)).orElse fun _ =>
  (lowest .format ([(src.kind != 1 && src.kind != 2, 24), (s.curveFault g n, 24)] ++
    (used.map fun b => ((s.operand part d b).slotted && (s.operand part d b).shard != shardOf d, b)) ++
    s.castFormat part d g.layer)).orElse fun _ =>
  (lowest .length (blockLength d src ++ [(columnLength g ctl src first count, 8)])).orElse fun _ =>
  (rangeBound d src).orElse fun _ =>
  (lowest .bound (s.castBound part d src first count)).orElse fun _ =>
  (if slotted then h.stale 4 (BitVec.ofNat 32 (fieldAt d 32 4)) else none).orElse fun _ =>
  (if slotted && !h.castState then some (shardState h.state) else none).orElse fun _ =>
  (s.notReady (castStations ctl (if slotted then [3, 4] else [4])) jets).orElse fun _ =>
  firstOf [(uses d 27 && s.planeConflict part (fieldAt d 27 1) [9, 0x0A], cause 9),
    (s.pinsFull (s.pinsFor [src]), cause 3)]

/-- A slotted CAST of the open attempt is accepted: FIRST_PASS outside VOTED, and the sets of its group (R228, R316). -/
def State.castBegins (s : State) (n group : Nat) (jets : List Nat) : State :=
  (s.updShard n fun h => { h with firstPass := h.firstPass || h.state != 5 }).openSets jets n group

/-- The job of an accepted CAST. -/
def State.castJob (s : State) (ring : Nat) (h : Held) : Job :=
  let d := h.bytes
  let part := (s.ring ring).part
  let src := s.operand part d 24
  let g := s.group src.group
  let n := ((s.shard src.shard).stepNo + 1).toNat
  let ks := s.constants g n
  let ents := (usedBytes d).map fun b => (b, s.operand part d b)
  let parts := partsOf src (firstElem d src) (countElem d src)
  { newJob s ring h with
    ents := ents, slots := s.slotsFor (ents.map (·.2)), pins := s.pinsFor [src], offset := offsetOf d
    length := lengthOf d src.size, parts := parts, step := n
    words := [nth ks (g.nib 11 0) 0, nth ks (g.nib 11 1) 0, g.cols]
    env := { epoch := fieldAt d 32 4, seed := g.seed } }

/-- CAST (R245). -/
def execCast (ring : Nat) (s : State) : Host.Outcome State Fault Refusal :=
  .next <| match s.front ring (· == 4) with
    | none => s
    | some h =>
      let d := h.bytes
      let part := (s.ring ring).part
      let src := s.operand part d 24
      let n := ((s.shard src.shard).stepNo + 1).toNat
      match s.castChecks part d with
      | some v => s.refuse ring h v
      | none =>
        if countElem d src = 0 then s.refuse ring h (.empty, 0)
        else
          let j := s.castJob ring h
          let ordered := s.shardOrdered part d
          let t := if ordered then s.castBegins (shardOf d) src.group (partJets j.parts) else s
          let sets := if ordered then t.setJets (partJets j.parts) (shardOf d) src.group else []
          (t.takeUp ring { j with sets := sets }).overHoles (s.curveRanges (s.group src.group) n)

end Sys2Proof.Machine
end

