-- ==== Sys2Proof/Machine/Pour.lean ====
section
/-! DEFINITION. The pour logic: VOTE, verdicts, POUR, REWIND, RETIRE, the census records of an attempt, and the catch-up
prefix entries (R189, R214, R215, R219, R227 to R244, R319 to R325, R422). -/

namespace Sys2Proof.Machine

/-! ## Completion by a unit of the always-on domain -/

/-- An accepted descriptor has its status: the record is written if its home basin's controller runs and the bank of its slot
is free, otherwise it stands on the basin's retained list until the basin is READY and the bank free (R132, R299, R363). -/
def State.finish (s : State) (j : Job) (v : Verdict') (jet : Nat) : State :=
  if s.basinRuns (s.ring j.ring).home && !s.recordHeld j.ring j.seq then s.complete j v jet
  else s.updJob j.ring j.seq fun x => { x with wait := .ready, status := some (v.1, jet, v.2) }

/-! ## VOTE (R231, R232) -/

/-- The twelve landing counters as the 96 bytes that DIGEST covers (R232). -/
def landingBytes (c : Counts) : List Byte :=
  (List.range 12).flatMap fun i => leBytes 8 (Tab.get 0 c i)

/-- DIGEST (R232). -/
def digestOf (c : Counts) : List Byte := (sha384 (landingBytes c)).take 16

/-- The session in force (R388). -/
def State.session (s : State) : Option Session := s.warden.sessions.head?

/-- The vote record of a shard (R231, R234). -/
def voteRecord (n : Nat) (h : Shard) (k : Session) : List Byte :=
  let body := [1#8, 1#8] ++ leBytes 1 n ++ leBytes 1 (b2n h.figures.empty) ++ leBytes 4 h.openEpoch.toNat ++
    leBytes 4 (h.stepNo + 1).toNat ++ leBytes 2 h.attempt ++ leBytes 2 k.number ++ leBytes 4 h.figures.sumsq.toNat ++
    leBytes 4 h.figures.nonfin.toNat ++ leBytes 4 k.chip ++ leBytes 4 0 ++ digestOf h.landing
  body ++ (hmac k.key body).take 16

/-- The checks of VOTE (R228, R231, R388). -/
def State.voteChecks (s : State) (part : Nat) (d : List Byte) : Option Verdict' :=
  let h := s.shard (shardOf d)
  (s.shardChecks part d).orElse fun _ =>
    (firstOf [(h.state < 2 || 4 < h.state, shardState h.state), (h.state ≠ 4 && s.session.isNone, cause 0xB)]).orElse
      fun _ => s.pourDown

/-- A vote is built and passed to the collective port; in VOTED, waiting the identical record is sent again (R228 e,
R231). -/
def State.sendVote (s : State) (ring : Nat) (seq : Word) (n : Nat) : State :=
  let h := s.shard n
  if h.state = 4 then { s with port := { s.port with votes := s.port.votes ++ [(ring, seq, h.vote)] } }
  else match s.session with
    | none => s
    | some k =>
      let v := voteRecord n h k
      ({ s with port := { s.port with votes := s.port.votes ++ [(ring, seq, v)] } }.updShard n fun x =>
        { x with vote := v, voteLanding := x.landing }).enter n 4

/-- VOTE (R231). -/
def execVote (ring : Nat) (s : State) : Host.Outcome State Fault Refusal :=
  .next <| match s.front ring (· == 5) with
    | none => s
    | some h => match s.voteChecks (s.ring ring).part h.bytes with
      | some v => s.refuse ring h v
      | none => (s.sendVote ring h.seq (shardOf h.bytes)).takeUp ring { newJob s ring h with wait := .vote }

/-- VOTE_TAKEN (R231, R422): the oldest vote is taken, and its VOTE completes OK. -/
def execVoteTaken (s : State) : Host.Outcome State Fault Refusal :=
  .next <|
    if !s.open? then s
    else match s.port.votes with
      | [] => s
      | (ring, seq, _) :: rest =>
        let t := { s with port := { s.port with votes := rest } }
        match t.job ring seq with
        | some j => if j.recorded || j.status.isSome then t else t.finish j (.ok, fieldAt j.desc 8 4) 0xFF
        | none => t

/-! ## Session keys (R388) -/

/-- The older keys under which no shard holds a vote are retired (R388). -/
def State.retireKeys (s : State) : State :=
  let used := s.shards.filterMap fun x => if x.2.isOpen && !x.2.vote.isEmpty then some (fieldAt x.2.vote 14 2) else none
  match s.warden.sessions with
  | [] => s
  | k :: old => { s with warden := { s.warden with sessions := k :: old.filter fun x => used.contains x.number } }

/-! ## Verdicts (R233 to R236) -/

/-- EPOCH of a verdict. -/
def verdictEpoch (v : List Byte) : Nat := fieldAt v 4 4
/-- ATTEMPT of a verdict. -/
def verdictAttempt (v : List Byte) : Nat := fieldAt v 12 2
/-- GSUMSQ of a verdict; −0 is taken as +0 (R214). -/
def verdictG (v : List Byte) : Nat := if fieldAt v 16 4 = 0x80000000 then 0 else fieldAt v 16 4
/-- Whether a verdict is a COMMIT with ALL_FINITE 01h. -/
def verdictCommits (v : List Byte) : Bool := fieldAt v 20 1 == 0 && fieldAt v 21 1 == 1

/-- Step 1 of R235 fails. -/
def State.verdictMalformed (s : State) (v : List Byte) (whole : Bool) : Bool :=
  !whole || v.length != 64 || fieldAt v 0 1 != 2 || fieldAt v 1 1 != 1 || 64 ≤ fieldAt v 2 1 || fieldAt v 3 1 != 0 ||
    fieldAt v 22 2 != 0 || (List.range 20).any (fun i => fieldAt v (28 + i) 1 != 0) || 3 ≤ fieldAt v 20 1 ||
    2 ≤ fieldAt v 21 1 || fieldAt v 24 4 != ((s.session.map (·.chip)).getD 0)

/-- Step 2 of R235 passes: SESSION names a kept key, and the MAC matches under it (R234). -/
def State.macMatches (s : State) (v : List Byte) : Bool :=
  match s.warden.sessions.find? fun k => k.number == fieldAt v 14 2 with
  | some k => (hmac k.key (v.take 48)).take 16 == sliceAt v 48 16
  | none => false

/-- A GSUMSQ that is no clip basis: a NaN or a negative number (R214). -/
def badBasis (g : Nat) : Bool :=
  match Fmt.f32.decode g with
  | .nan _ => true
  | .inf neg => neg
  | .fin d => d.neg && d.m != 0

/-- An error record 07h, and DISCARDED + 1 where the shard counts (R235). -/
def State.discard (s : State) (n step : Nat) (v : List Byte) (count : Bool) : State :=
  (if count then s.updShard n fun h => { h with discarded := satAdd 16 h.discarded 1 } else s).emit
    { cls := 1, code := 7, part := (s.shard n).owner, shard := some n, arg0 := step, arg1 := verdictEpoch v }

/-- An alarm, and DISCARDED + 1 (R235, R236). -/
def State.discardAlarm (s : State) (n code arg0 arg1 : Nat) : State :=
  (s.updShard n fun h => { h with discarded := satAdd 16 h.discarded 1 }).emit
    { cls := 0, code := code, part := (s.shard n).owner, shard := some n, arg0 := arg0, arg1 := arg1 }

/-- Whether a ledger entry of a shard has SPEC set and RESTILLED clear (R219). -/
def State.restillLeft (s : State) (n : Nat) : Bool :=
  s.jets.any fun x =>
    let keys := (x.2.alloc.filter (·.1 == n)).map (·.2.1)
    x.2.ledger.any fun b => keys.contains (b.1 / 2 ^ 26) && b.2.spec && !b.2.restilled

/-- Whether sqrt(G) in F32 lies above SPEC_MAX, so that a COMMIT requires a re-still (R219). -/
def Shard.needsRestill (h : Shard) (g : Nat) : Bool :=
  match h.specMax with
  | some m => numLt (Fmt.f32.decode m.toNat) (Fmt.f32.decode (fUnary .f32 .rne exactSqrt g).1)
  | none => false

/-- The outcome that a verdict is held as: 0 COMMIT, 1 SKIP, 2 ABORT (R235). -/
def heldOutcome (v : List Byte) : Nat :=
  if fieldAt v 20 1 = 2 then 2 else if fieldAt v 21 1 = 0 then 1 else fieldAt v 20 1

/-- Whether a shard's re-still is not complete: a block is to be re-stilled, or a clipped first pass, other than one descriptor,
is still running and will mark its blocks (R218, R219, log 108). -/
def State.restillOwed (s : State) (n : Nat) (but : Nat × Word) : Bool :=
  s.restillLeft n || s.jobs.any fun j =>
    !j.recorded && opOf j.desc == 3 && shardOf j.desc == n && j.cmax.isSome && !((j.ring, j.seq) == but)

/-- RESTILL_DUE as the shard stands: a held COMMIT whose re-still is not complete (R219, R221). -/
def State.settleRestill (s : State) (n : Nat) (but : Nat × Word) : State :=
  let due := s.restillOwed n but
  s.updShard n fun h => { h with
    restillDue := h.state == 5 && h.verdict == 0 && h.needsRestill h.heldG.toNat && due }

/-- A verdict is held (R219, R236). -/
def State.holdVerdict (s : State) (n : Nat) (v : List Byte) : State :=
  let h := s.shard n
  let needs := heldOutcome v == 0 && h.needsRestill (verdictG v)
  let t := s.updShard n fun h => { h with
    verdictHeld := true, verdict := heldOutcome v, heldG := BitVec.ofNat 32 (verdictG v)
    heldAs := some (fieldAt v 20 1, fieldAt v 21 1, fieldAt v 16 4) }
  ((t.enter n 5).settleRestill n (4096, 0)).emitIf needs
    { cls := 3, code := 0x43, part := h.owner, shard := some n, arg0 := verdictG v, arg1 := (h.specMax.getD 0).toNat }

/-- Step 6 of R235: matching under R236. -/
def State.matchVerdict (s : State) (n : Nat) (v : List Byte) : State :=
  let h := s.shard n
  let open' := h.isOpen && h.openEpoch.toNat == verdictEpoch v && h.attempt == verdictAttempt v
  let again := s.updShard n fun h => { h with redelivered := satAdd 16 h.redelivered 1 }
  if open' && h.state == 4 then s.holdVerdict n v
  else if open' && h.state == 5 then
    if h.heldAs = some (fieldAt v 20 1, fieldAt v 21 1, fieldAt v 16 4) then again
    else s.discardAlarm n 0x22 (verdictAttempt v) (fieldAt v 16 4)
  else if !open' && h.ended.contains (verdictEpoch v, verdictAttempt v) then again
  else s.discard n 6 v true

/-- A verdict arrives at the pour logic (R235). -/
def State.takeVerdict (s : State) (v : List Byte) (whole : Bool) : State :=
  let n := fieldAt v 2 1 % 64
  let h := s.shard n
  if s.verdictMalformed v whole then s.emit { cls := 1, code := 7, arg0 := 1, arg1 := verdictEpoch v }
  else if !s.macMatches v then
    s.emit { cls := 0, code := 0x20, part := h.owner, shard := some n, arg0 := fieldAt v 14 2, arg1 := verdictEpoch v }
  else if h.owner.isNone then s.discard n 3 v false
  else if verdictCommits v && badBasis (fieldAt v 16 4) then s.discard n 4 v true
  else if verdictCommits v && h.isOpen && h.openEpoch.toNat == verdictEpoch v && h.attempt == verdictAttempt v &&
      h.figures.nonfin != 0 then
    s.discardAlarm n 0x21 h.attempt h.figures.nonfin.toNat
  else s.matchVerdict n v

/-- VERDICT (R235, R422): taken unless the block is frozen or in reset; while a unit is stopped the port holds
up to 16 (R372, R422). -/
def execVerdict (record : List Byte) (whole : Bool) (s : State) : Host.Outcome State Fault Refusal :=
  .next <|
    if !s.live then s
    else if s.unitStopped then
      if s.port.verdicts.length < 16 then
        { s with port := { s.port with verdicts := s.port.verdicts ++ [(record, whole)] } }
      else s
    else s.takeVerdict record whole

/-! ## The end of an attempt (R237, R319 to R325) -/

/-- The lowest jet on which a region of a shard lies, whose basin's queue takes its census records (R328). -/
def State.lowestJet (s : State) (n : Nat) : Nat :=
  ((List.range 24).find? fun j => s.regions.any fun x => x.2.namesShard && x.2.shard == n && bit x.2.jets j).getD 0

/-- A census record is formed: it takes its LOGSEQ, and enters the queue if the log is enabled (R324, R325). -/
def State.censusRecord (s : State) (part basin : Nat) (bytes : List Byte) (waiter : Option (Nat × Word)) : State :=
  let log := Tab.get {} s.censusLogs part
  let t := { s with censusLogs := Tab.set {} s.censusLogs part { log with next := log.next + 1 } }
  if log.enable then
    t.enqueue basin { rank := 2, part := part, seq := log.next.toNat, waiter := waiter
                      bytes := putField bytes 20 4 log.next.toNat }
  else t

/-- The fields that the records of an attempt share: bytes 4 to 17 (R320, R321). -/
def Shard.attemptFields (h : Shard) (n outcome : Nat) : List Byte :=
  leBytes 1 n ++ leBytes 1 outcome ++ leBytes 1 (h.owner.getD 0) ++ leBytes 1 0 ++ leBytes 4 h.openEpoch.toNat ++
    leBytes 4 (h.stepNo + 1).toNat ++ leBytes 2 h.attempt

/-- The shard record (R320). -/
def Shard.censusBytes (h : Shard) (n outcome groups gsumsq : Nat) : List Byte :=
  let voted := !h.vote.isEmpty
  padTo 1024 ([1#8, 1#8] ++ leBytes 2 0 ++ h.attemptFields n outcome ++ leBytes 2 groups ++ leBytes 4 0 ++
    leBytes 4 h.figures.sumsq.toNat ++ leBytes 4 h.figures.nonfin.toNat ++ leBytes 4 gsumsq ++ leBytes 28 0 ++
    landingBytes (if voted then h.voteLanding else h.landing) ++ (if voted then sliceAt h.vote 32 16 else leBytes 16 0))

/-- The counts of a group or total record: bytes 64 to 679 (R321, R322). -/
def countBytes (c : Counts) : List Byte :=
  (List.range 12).flatMap (formatEntry c) ++ (List.range 5).flatMap fun i => leBytes 8 (Tab.get 0 c (48 + i))

/-- A group record (R321). -/
def Shard.groupBytes (h : Shard) (n outcome group : Nat) (incomplete : Bool) (c : Counts) : List Byte :=
  padTo 1024 ([2#8, 1#8] ++ leBytes 2 (group + 2 ^ 14 + 2 ^ 15 * b2n incomplete) ++ h.attemptFields n outcome ++
    leBytes 46 0 ++ countBytes c)

/-- The census records of an attempt that ends, then its ATTEMPT sets enter TOTAL (R319). -/
def State.censusOut (s : State) (n : Nat) (h : Shard) (outcome gsumsq : Nat) (waiter : Nat × Word) : State :=
  let gs := s.attemptGroups n
  let b := s.lowestJet n / 4
  let part := h.owner.getD 0
  let t := s.censusRecord part b (h.censusBytes n outcome gs.length gsumsq) (some waiter)
  (gs.foldl (fun t g => t.censusRecord part b
    (h.groupBytes n outcome g (s.census.incomplete.contains (n * 4096 + g)) (s.attemptSum n g)) (some waiter)) t).endSets
    n true

/-- The resting state of an attempt that ends without a flip (R223). -/
def Shard.rest (h : Shard) : Nat := if h.pouredOnce then 6 else 0

/-- A shard that is IDLE and that no entry of its partition names leaves its owner (R104). -/
def State.releaseShard (s : State) (n : Nat) : State :=
  let h := s.shard n
  if h.state = 0 ∧ !(s.regions.any fun x => x.2.namesShard && x.2.shard == n && some (x.1 / 256) == h.owner) then
    s.updShard n fun x => { x with owner := none }
  else s

/-- An attempt ends without a flip: SKIPPED (7h, outcome 2) or ABORTED (8h, outcome 3) (R223, R237). -/
def State.endAttempt (s : State) (n outcome : Nat) : State :=
  let rest := (s.shard n).rest
  ((((s.releaseLedger n).updShard n fun h =>
    { h with lastOutcome := outcome, tornOverflow := false, ended := h.ended ++ [(h.openEpoch.toNat, h.attempt)], vote := [] }).enter n
      (outcome + 5)).enter n rest).retireKeys.releaseShard n

/-- The flip of a COMMIT (R215, R238). -/
def Shard.flip (h : Shard) : Shard :=
  { h with
    prevEpoch := h.curEpoch, curEpoch := h.openEpoch, curSlot := 1 - h.curSlot, prevStep := h.stepNo
    stepNo := h.stepNo + 1, priorG := h.lastG, priorGValid := h.lastGValid, lastG := h.heldG, lastGValid := true
    rewindable := true, pouredOnce := true, lastOutcome := 1, otherLabel := some h.curEpoch
    ended := h.ended ++ [(h.openEpoch.toNat, h.attempt)], vote := [] }

/-- The change of a REWIND (R215, R242). -/
def Shard.rewind (h : Shard) : Shard :=
  { h with
    curSlot := 1 - h.curSlot, curEpoch := h.prevEpoch, stepNo := h.prevStep, lastG := h.priorG
    lastGValid := h.priorGValid, priorG := 0, priorGValid := false, rewindable := false, otherLabel := some h.curEpoch }

/-- A catch-up write of the pour logic, share by share: through the stack port of the jet, or the fabric port of basin 0
(R189, R420). -/
def State.catchUpWrite (s : State) (n group c : Nat) (e : RegionEntry) (off v : Nat) : State :=
  ((e.ranges 0 off 8).foldl (fun (t, rest) r =>
    (t.portWrite { stack := e.loc == 0, place := if e.loc = 0 then r.1 / 2 ^ 36 else 0, purpose := .catchUp n group c } r.1
      (rest.take r.2), rest.drop r.2)) (s, leBytes 8 v)).1

/-- The prefix entries of one group at the Pour of step `step` (R189). -/
def State.pourPrefix (s : State) (n : Nat) (k : Kept) (step : Nat) : State :=
  let g := s.group k.group
  let e := s.tableOf g
  if s.prefixFits g then
    (g.channels.foldl (fun t (c, ch) =>
      let l := if g.oldest.isNone then 0 else s.prefixAt g c (step - 1)
      let t := if g.oldest.isNone then t.catchUpWrite n k.group c e (g.prefixByte c (step - 1)) 0 else t
      t.catchUpWrite n k.group c e (g.prefixByte c step) (nextPrefix l (ch.factor k.consts))) s).updGroup k.group
      fun g => { g with oldest := some (g.oldest.getD (BitVec.ofNat 32 (step - 1))) }
  else
    (s.emitAll (g.channels.map fun (c, _) => { cls := 1, code := 0x0B, part := g.owner, shard := some n
                                               arg0 := k.group + 2 ^ 16 * c, arg1 := step })).updGroup k.group
      fun g => { g with oldest := none }

/-- The prefix entries of every CATCHUP group that took part in the attempt (R189). -/
def State.pourPrefixes (s : State) (n : Nat) (ks : List Kept) (step : Nat) : State :=
  ks.foldl (fun t k => t.pourPrefix n k step) s

/-! ## POUR, REWIND, RETIRE (R227, R237 to R244) -/

/-- The checks of POUR at step 8 (R228, R237). -/
def State.pourState (s : State) (n : Nat) (abort : Bool) : Option Verdict' :=
  let h := s.shard n
  (firstOf ([(s.stillBusy n, shardState h.state)] ++
    if abort then [(!h.isOpen, shardState h.state)]
    else [(h.state ≠ 5, shardState h.state),
      (h.verdict = 0 && (!h.stillDone || !h.torn.isEmpty || h.tornOverflow || h.restillDue), shardState h.state)])).orElse
    fun _ => s.pourDown

/-- The checks of POUR. -/
def State.pourChecks (s : State) (part : Nat) (d : List Byte) : Option Verdict' :=
  (s.shardChecks part d).orElse fun _ => s.pourState (shardOf d) (bit (fieldAt d 12 1) 0)

/-- The status of an accepted POUR (R237). -/
def pourStatus (h : Shard) (abort : Bool) : Verdict' :=
  if abort || h.verdict = 2 then (.ok, h.curEpoch.toNat)
  else if h.verdict = 1 then (.skipped, h.openEpoch.toNat) else (.ok, h.openEpoch.toNat)

/-- The effect of an accepted POUR: the flip, or the end of the attempt; then the prefix entries and the census
records (R237, R238, R319). -/
def State.pourEffect (s : State) (n : Nat) (abort : Bool) (waiter : Nat × Word) : State :=
  let h := s.shard n
  if !abort && h.verdict = 0 then
    let t := (((s.releaseLedger n).updShard n Shard.flip).enter n 6).retireKeys
    (t.pourPrefixes n h.kept (h.stepNo + 1).toNat).censusOut n h 1 h.heldG.toNat waiter
  else
    let outcome := if !abort && h.verdict = 1 then 2 else 3
    (s.endAttempt n outcome).censusOut n h outcome (if abort then 0 else h.heldG.toNat) waiter

/-- The prefix tables of the groups that took part in an attempt (R189). -/
def State.prefixRanges (s : State) (h : Shard) : List (Nat × Nat) :=
  h.kept.flatMap fun k =>
    let g := s.group k.group
    if s.prefixFits g then (s.tableOf g).ranges 0 g.prefixOff 0x200000 else []

/-- POUR (R237, R238). -/
def execPour (ring : Nat) (s : State) : Host.Outcome State Fault Refusal :=
  .next <| match s.front ring (· == 6) with
    | none => s
    | some h =>
      let n := shardOf h.bytes
      let abort := bit (fieldAt h.bytes 12 1) 0
      if s.unitStopped then s
      else match s.pourChecks (s.ring ring).part h.bytes with
        | some v => s.refuse ring h v
        | none =>
          let st := pourStatus (s.shard n) abort
          let t := (s.pourEffect n abort (ring, h.seq)).takeUp ring
            { newJob s ring h with wait := .pour, status := some (st.1, 0xFF, st.2) }
          if !abort && (s.shard n).verdict == 0 then t.overHoles (s.prefixRanges (s.shard n)) else t

/-- The checks of REWIND (R226, R228 i, R242). -/
def State.rewindChecks (s : State) (part : Nat) (d : List Byte) : Option Verdict' :=
  let h := s.shard (shardOf d)
  (s.shardChecks part d).orElse fun _ =>
    (firstOf [(h.state ≠ 6 || !h.rewindable, shardState h.state)]).orElse fun _ => s.pourDown

/-- REWIND (R242). -/
def execRewind (ring : Nat) (s : State) : Host.Outcome State Fault Refusal :=
  .next <| match s.front ring (· == 7) with
    | none => s
    | some h =>
      let n := shardOf h.bytes
      if s.unitStopped then s
      else match s.rewindChecks (s.ring ring).part h.bytes with
        | some v => s.refuse ring h v
        | none => (s.updShard n Shard.rewind).takeUp ring
            { newJob s ring h with wait := .ready, status := some (.ok, 0xFF, (s.shard n).prevEpoch.toNat) }

/-- STEP_WRITE (R221): taken only while the shard is IDLE. -/
def State.stepWrite (s : State) (part shard : Nat) (value : Word) : State :=
  let h := s.shard shard
  if !s.portOpen part false || 64 ≤ shard || !ownAccess part h.owner then s
  else if h.state = 0 then s.updShard shard fun x => { x with stepNo := value }
  else s.emit { cls := 1, code := 5, part := h.owner, shard := some shard, arg0 := 4, arg1 := value.toNat }

/-- STEP_WRITE at the register port (R424). -/
def execStepWrite (part shard : Nat) (value : Word) (s : State) : Host.Outcome State Fault Refusal :=
  .next <| s.regWrite part (0x804 + 16 * shard) value (·.stepWrite part shard value)

/-- Whether an accepted, uncompleted descriptor names a slotted region of a shard (R227). -/
def State.namedSlotted (s : State) (n : Nat) : Bool :=
  s.jobs.any fun j => !j.recorded && j.ents.any fun x => x.2.slotted && x.2.shard == n

/-- RETIRE (R227). -/
def State.retire (s : State) (part shard : Nat) (value : Word) : State :=
  let h := s.shard shard
  if !s.portOpen part false || 64 ≤ shard || !ownAccess part h.owner || !value.getLsbD 0 || h.state = 0 then s
  else if h.state = 6 ∧ h.pins0 = 0 ∧ h.pins1 = 0 ∧ !s.stillBusy shard ∧ !s.namedSlotted shard then
    ((s.updShard shard fun x => { x with
      pouredOnce := false, rewindable := false, lastGValid := false, priorGValid := false, attempt := 0 }).enter
      shard 0).releaseShard shard
  else s.emit { cls := 1, code := 5, part := h.owner, shard := some shard, arg0 := 11, arg1 := value.toNat }

/-- RETIRE at the register port (R424). -/
def execRetire (part shard : Nat) (value : Word) (s : State) : Host.Outcome State Fault Refusal :=
  .next <| s.regWrite part (0x80B + 16 * shard) value (·.retire part shard value)

/-! ## Still-class descriptors (R230) -/

/-- The torn-list entry of a descriptor (R230). -/
def Job.torn (j : Job) : Torn :=
  { opcode := opOf j.desc, entry := fieldAt j.desc 24 1, offset := j.offset, length := j.length }

/-- A range enters the torn list (R230). -/
def Shard.tear (h : Shard) (x : Torn) : Shard :=
  if h.torn.contains x then h
  else if h.torn.length < 16 then { h with torn := h.torn ++ [x] }
  else { h with tornOverflow := true }

/-- What the completion of a still-class descriptor of the open attempt does to the context (R219, R230). -/
def State.stillEnds (s : State) (j : Job) (st : Status) : State :=
  let n := shardOf j.desc
  let h := s.shard n
  if !j.stillClass || !h.isOpen then s
  else
    let t :=
      if st = .ok ∨ st = .empty then
        let u := s.updShard n fun h => { h with stillDone := true, torn := h.torn.filter (· != j.torn) }
        if h.state = 2 then u.enter n 3 else u
      else s.updShard n (·.tear j.torn)
    t.settleRestill n (j.ring, j.seq)

end Sys2Proof.Machine
end

