-- ==== Sys2Proof/Machine/Still.lean ====
section
/-! DEFINITION. The STILL descriptor: its program, its checks, its clip basis, and its acceptance (R125, R133, R143, R154,
R157 to R164, R178, R180, R186, R193, R194, R213 to R219, R228, R263). -/

namespace Sys2Proof.Machine

/-! ## Program and operands -/

/-- The number of the program that a STILL selects: its field, or its group's (R143). -/
def programOf (d : List Byte) (g : Group) : Nat :=
  if fieldAt d 40 2 = 0 then g.program else fieldAt d 40 2

/-- A program number that a slot lookup denies: an empty slot, or one of another partition (R143). -/
def State.programDenied (s : State) (part n : Nat) : Bool :=
  0x100 ≤ n && n < 0x200 && (Tab.get {} s.slots n : Slot).owner != some part

/-- The image of a program number (R143, R183). -/
def State.imageOf (s : State) (n : Nat) : Option Image :=
  if n < 0x100 then builtin n else if n < 0x200 then some (Tab.get {} s.slots n : Slot).image else none

/-- What a STILL is checked against: its partition, descriptor, IN0, group, program image, step, range and shard. -/
structure StillView where
  part : Nat
  d : List Byte
  in0 : RegionEntry
  g : Group
  image : Image
  n : Nat
  first : Nat
  count : Nat
  deriving DecidableEq, Repr

/-- The view of a STILL. -/
def State.stillView (s : State) (part : Nat) (d : List Byte) : StillView :=
  let e := s.operand part d 24
  let g := s.group e.group
  { part := part, d := d, in0 := e, g := g, image := (s.imageOf (programOf d g)).getD []
    n := ((s.shard (shardOf d)).stepNo + 1).toNat, first := firstElem d e, count := countElem d e }

/-- CLIP of a STILL. -/
def clipOf (d : List Byte) : Nat := fieldAt d 48 1

/-- Whether stream k of a STILL is in use. -/
def usesIn (d : List Byte) (k : Nat) : Bool := uses d (24 + k)

/-! ## Step 1: codes (R125) -/

/-- The bytes of a STILL with a reserved code, or an absent operand that is not 00h. -/
def stillCodes (d : List Byte) : List Nat :=
  (if bit (fieldAt d 38 1) 0 then [] else [38]) ++ (if 0x200 ≤ fieldAt d 40 2 then [40] else []) ++ castCodes d ++
    (if clipOf d = 3 then [48] else []) ++ strayOperands d ((List.range 13).map (24 + ·))

/-! ## Step 3: kinds and formats -/

/-- The streams of a STILL that are read or written by elements: loads, stores and the streams of a matrix step, by operand
byte. A stream bound to windows alone moves raw bytes (R164). -/
def StillView.elementBytes (v : StillView) : List Nat :=
  let is := progInsns v.image
  (readStreams is).map (24 + ·) ++ (storesOf is).map (fun i => 30 + i.aux % 4) ++
    (if v.g.mxKind = 1 then [24 + v.g.mxStream 0, 24 + v.g.mxStream 1, 29] else if v.g.mxKind = 2 then [24 + v.g.grad, 29] else [])

/-- The streams that reductions write (R161). -/
def StillView.reductionBytes (v : StillView) : List Nat :=
  (reductionsOf (progInsns v.image)).map fun i => 30 + i.aux % 4

/-- Whether a stream operand of a kind serves as it is used (R57, R93, R161, R164, R305; log 110): by elements, a kind whose
elements have a FORMAT; a reduction's, kind 9h; in windows, any kind but planes and scratch. -/
def StillView.kindServes (v : StillView) (b kind : Nat) : Bool :=
  if v.reductionBytes.contains b then kind == 9
  else if v.elementBytes.contains b then 1 ≤ kind && kind ≤ 4
  else kind != 0 && kind != 6 && kind != 7

/-- The kinds of the operands of a STILL, and the shard of slotted ones (R96, R124, R125, R305). -/
def State.stillKinds (s : State) (v : StillView) : List (Bool × Nat) :=
  (v.in0.kind != 1, 24) :: (usedBytes v.d).map fun b =>
    let e := s.operand v.part v.d b
    ((b < 34 && !v.kindServes b e.kind) || (e.slotted && e.shard != shardOf v.d), b)

/-- The selected program against the descriptor: R160, R154, R158, R159, R191, R148, R164. -/
def State.stillProgram (s : State) (v : StillView) : List (Bool × Nat) :=
  let is := progInsns v.image
  let use := fieldAt v.d 38 2
  let ent (b : Nat) := s.operand v.part v.d b
  let outOf (i : Insn) : Nat := 30 + i.aux % 4
  let keep (i : Insn) : Nat := bits i.aux 2 3
  [(progIn v.image != bits use 0 6 || progOut v.image != bits use 6 4, 38),
    (casts v.d && !(storesOf is).any fun i => i.aux % 4 == 0, if uses v.d 34 then 34 else 36)] ++
  ((storesOf is).map fun i => ((ent (outOf i)).kind == 9 || (i.rnd == 4 && (ent (outOf i)).fmt == some .ue8) ||
    (keep i < 6 && (ent (24 + keep i)).fmt != (ent (outOf i)).fmt), outOf i)) ++
  ((storesOf is).map fun i => (keep i == 7 && v.g.policy == 2, 40)) ++
  ((reductionsOf is).map fun i => ((ent (outOf i)).kind != 9 || (ent (outOf i)).slotted, outOf i)) ++
  (is.flatMap fun i => ((i.selects.filter fun x => 0x10 ≤ x && x ≤ 0x15).map fun x =>
    (!i.prec && (ent (x + 8)).fmt == some .f64, x + 8))) ++
  ((progWindows v.image).map fun w => (!w.writeBack && (ent (24 + w.stream)).loc == 1, 24 + w.stream))

/-- The group's own FORMAT checks: grain, curve, stamps, prefix tables, clip and matrix step (R180, R186, R193, R194,
R196, R213). -/
def State.stillGroup (s : State) (v : StillView) : List (Bool × Nat) :=
  let ent (b : Nat) := s.operand v.part v.d b
  let basins := (((usedBytes v.d).map ent).filter (·.loc == 0)).flatMap fun e => e.jetList.map (· / 4)
  let ks := s.constants v.g v.n
  let ws := (ent 29).fmt
  let mx := v.g.mxKind
  let streams := if mx = 1 then [v.g.mxStream 0, v.g.mxStream 1] else if mx = 2 then [v.g.grad] else []
  [(v.g.layer && (match basins with | [] => false | b :: t => t.any (· != b)), 24), (s.curveFault v.g v.n, 24),
    (v.g.policy != 0 && (s.stampsOf v.g).kind != 8, 24), (v.g.policy == 2 && (s.tableOf v.g).kind != 8, 24),
    (v.g.clipEn && !numLt (.fin ⟨false, 0, 0⟩) (Fmt.f32.decode (nth ks v.g.clipK 0)), 48),
    (mx != 0 && (!usesIn v.d 5 || streams.any fun k => !usesIn v.d k), 38),
    (mx != 0 && !(readStreams (progInsns v.image)).contains 5, 40),
    (mx != 0 && ((ent 29).kind != 2 || !(if mx = 1 then ws == some .b16 || ws == some .f16 else ws == some .f32)), 29)] ++
  streams.map fun k => let f := (ent (24 + k)).fmt
    (if mx = 2 then f != some .f16 && f != some .b16 else f == some .f64, 24 + k)

/-! ## Steps 4 and 5 (R127, R161, R162, R164, R186, R193, R194, R247) -/

/-- The LENGTH checks of a STILL. -/
def State.stillLength (v : StillView) : List (Bool × Nat) :=
  let m := v.g.rows * v.g.cols
  blockLength v.d v.in0 ++
    [(v.g.layer && v.first % m != 0, 8), (v.g.layer && (v.first + v.count) % m != 0, 16),
      (v.g.layer && v.in0.elems % m != 0, 24),
      (!(reductionsOf (progInsns v.image)).isEmpty && decide (0xFFFFFFFF < v.count), 16)]

/-- Whether the workspace of a matrix step is too small (R194). -/
def StillView.workspaceShort (v : StillView) (e : RegionEntry) : Bool :=
  let r := v.g.rows
  let c := v.g.cols
  let q := (v.first + v.count) / (r * c)
  let needs := if v.g.mxKind = 1 then 2 * r * c + 2 * min r c ^ 2 else q * (r + c)
  v.g.mxKind != 0 && decide (e.elems < needs)

/-- Whether a stamp of the range lies outside the group's tables (R186). -/
def State.stampsShort (s : State) (v : StillView) : Bool :=
  let p := v.in0.pidx + v.first
  v.g.policy != 0 && v.count != 0 &&
    (p < v.g.pidxBase || (p - v.g.pidxBase) % 4096 != 0 || decide (v.g.blocks ≤ v.g.stampIndex (p + v.count - 1)) ||
      ([0, 1].any fun c => !s.stampFits v.g c (p + v.count - 1)) || (v.g.policy == 2 && !s.prefixFits v.g))

/-- The BOUND checks of a STILL after the range block. -/
def State.stillBound (s : State) (v : StillView) : List (Bool × Nat) :=
  let ent (b : Nat) := s.operand v.part v.d b
  let jets := (partsOf v.in0 v.first v.count).map (·.jet)
  let streams := (usedBytes v.d).filter fun b => v.elementBytes.contains b && !(b == 29 && v.g.mxKind != 0)
  (streams.map fun b => (!(ent b).holds v.first v.count, b)) ++
  ((progWindows v.image).map fun w =>
    let b := w.stream + if w.writeBack then 30 else 24
    let e := ent b
    (decide (e.length < 4 * w.words) || (e.loc == 0 && jets.any fun j => !e.jetList.contains j), b)) ++
  ((reductionsOf (progInsns v.image)).map fun i =>
    (decide ((ent (30 + i.aux % 4)).length < 32 * (bits i.aux 2 4 + 1)), 30 + i.aux % 4)) ++
  [(usesIn v.d 5 && v.workspaceShort (ent 29), 29), (s.stampsShort v, 24)] ++ s.castBound v.part v.d v.in0 v.first v.count

/-! ## Step 8 (R86, R216, R228, R263, R302) -/

/-- How a STILL is accepted in a state: the first pass of LAGGED or SPECULATE, an EXACT STILL, or a re-still (R216, R228). -/
inductive StillMode where
  | firstPass | exact | restill
  deriving DecidableEq, Repr

/-- The mode of a STILL of a CLIP field, if the state admits it (R178, R216, R228). -/
def Shard.stillMode (h : Shard) (clip : Nat) : Option StillMode :=
  if h.stepNo + 1 = 0xFFFFFFFF then none
  else if (h.state = 2 ∨ h.state = 3) ∧ (clip = 1 ∨ clip = 2) then some .firstPass
  else if h.state = 5 ∧ h.restillDue ∧ (clip = 0 ∨ clip = 2) then some .restill
  else if h.state = 5 ∧ h.verdict = 0 ∧ clip = 0 ∧ !h.firstPass then some .exact
  else none

/-- The stations of a STILL (R86). -/
def StillView.stations (v : StillView) : List Nat :=
  castStations (ctlOf v.d) ([1, 3, 4] ++ if v.g.mxKind = 0 then [] else [2])

/-- The regions that a STILL reads: its inputs, the workspace of ORTHO apart. -/
def State.stillReads (s : State) (v : StillView) : List RegionEntry :=
  ((usedBytes v.d).filter (· < 30)).map (s.operand v.part v.d)

/-- The elements of the workspace that the matrix step of a STILL uses: first and count (R194 to R196). -/
def StillView.workspace (v : StillView) : Nat × Nat :=
  let r := v.g.rows
  let c := v.g.cols
  if v.g.mxKind = 1 then (0, 2 * r * c + 2 * min r c ^ 2)
  else (v.first / (r * c) * (r + c), (v.count / (r * c)) * (r + c))

/-- The jets that the operands of a STILL touch: those that run it, those on which the range lies in one of its element
regions, the workspace in its own range, and those of its reduction results (R86, R108, R132). -/
def State.stillJets (s : State) (v : StillView) : List Nat :=
  let runs := (partsOf v.in0 v.first v.count).map (·.jet)
  let used := (usedBytes v.d).filter fun b => v.elementBytes.contains b || v.reductionBytes.contains b
  (List.range 24).filter fun j => runs.contains j || used.any fun b =>
    let e := s.operand v.part v.d b
    if e.kind = 9 then e.loc == 0 && e.jetList.head? == some j
    else if b = 29 ∧ v.g.mxKind ≠ 0 then (e.shares v.workspace.1 v.workspace.2).any (·.1 == j)
    else (e.streamJets v.first v.count).contains j

/-- The checks of STILL, in the order of R133. A program that does not exist fails alone, at its field (R143); a check of an
operand is made where USE names it. -/
def State.stillChecks (s : State) (v : StillView) : Option Verdict' :=
  let h := s.shard (shardOf v.d)
  let jets := s.stillJets v
  (formatCheck v.d (stillCodes v.d)).orElse fun _ =>
  (lowest .denied (s.regionsDenied v.part v.d (usedBytes v.d) ++
    [(s.programDenied v.part (programOf v.d v.g), 40)])).orElse fun _ =>
  (lowest .format (s.stillKinds v ++ ((if (s.imageOf (programOf v.d v.g)).isNone then [(true, 40)] else s.stillProgram v) ++
    s.stillGroup v).filter (fun x => 36 < x.2 || uses v.d x.2) ++ s.castFormat v.part v.d v.g.layer)).orElse fun _ =>
  (lowest .length (State.stillLength v)).orElse fun _ =>
  (rangeBound v.d v.in0).orElse fun _ =>
  (lowest .bound (s.stillBound v)).orElse fun _ =>
  (h.stale 3 (BitVec.ofNat 32 (fieldAt v.d 44 4))).orElse fun _ =>
  (if (h.stillMode (clipOf v.d)).isNone then some (shardState h.state) else none).orElse fun _ =>
  (s.notReady v.stations jets).orElse fun _ => s.pourDown.orElse fun _ =>
  firstOf [(uses v.d 36 && s.planeConflict v.part (fieldAt v.d 36 1) [9, 0x0A], cause 9),
    (s.pinsFull (s.pinsFor (s.stillReads v)), cause 3)]

/-! ## Clipping (R213 to R219) -/

/-- The clip factor (R213). -/
def clipFactor (cmax : Nat) (basis : Option Nat) : Nat :=
  match basis with
  | none => one32
  | some g =>
    let norm := (fUnary .f32 .rne exactSqrt g).1
    if numLt (Fmt.f32.decode cmax) (Fmt.f32.decode norm) then (fDiv .f32 .rne cmax norm).1 else one32

/-- The clip basis of a STILL (R216). -/
def Shard.basis (h : Shard) (clip : Nat) : StillMode → Option Nat
  | .firstPass => if clip = 1 ∧ h.lastGValid then some h.lastG.toNat else none
  | _ => some h.heldG.toNat

/-- SPEC_MAX after a speculative first pass with a maximum norm (R218). -/
def Shard.lowerSpec (h : Shard) (cmax : Nat) : Option Word :=
  match h.specMax with
  | some m => if numLt (Fmt.f32.decode cmax) (Fmt.f32.decode m.toNat) then some (BitVec.ofNat 32 cmax) else some m
  | none => some (BitVec.ofNat 32 cmax)

/-- The constants of a group, kept with the attempt for the Pour (R189). -/
def keep (l : List Kept) (group : Nat) (ks : List Nat) : List Kept :=
  l.filter (·.group != group) ++ [{ group := group, consts := ks }]

/-- What the acceptance of a STILL changes in the shard: FIRST_PASS, SPEC_MAX, the kept constants (R189, R218, R228). -/
def Shard.stillTaken (h : Shard) (v : StillView) (mode : StillMode) (ks : List Nat) : Shard :=
  { h with
    firstPass := h.firstPass || mode == .firstPass
    restillBegun := h.restillBegun || mode == .restill
    specMax := if mode = .firstPass ∧ clipOf v.d = 2 ∧ v.g.clipEn then h.lowerSpec (nth ks v.g.clipK 0) else h.specMax
    kept := if v.g.policy = 2 then keep h.kept v.in0.group ks else h.kept }

/-- The acceptance of a STILL on the shard and the census: the counts of the clipped first passes go when the re-still begins,
and those of an unclipped group when it is stilled again (R85, R189, R217 to R220, R316; log 112). -/
def State.stillBegins (s : State) (v : StillView) (mode : StillMode) (ks : List Nat) : State :=
  let n := shardOf v.d
  let h := s.shard n
  let t := if mode = .restill then s.clearFirsts n fun g => g == v.in0.group || (!h.restillBegun && (s.group g).clipEn)
    else s
  let u := ((t.updShard n fun x => x.stillTaken v mode ks).openSets ((partsOf v.in0 v.first v.count).map (·.jet)) n
    v.in0.group)
  u.emitIf (mode == .firstPass && clipOf v.d == 1 && !h.lastGValid)
    { cls := 3, code := 0x42, part := some v.part, shard := some n, arg0 := v.in0.group }

/-! ## Acceptance -/

/-- The job of an accepted STILL. -/
def State.stillJob (s : State) (ring : Nat) (h : Held) (v : StillView) (mode : StillMode) : Job :=
  let ks := s.constants v.g v.n
  let sh := s.shard (shardOf v.d)
  let ents := (usedBytes v.d).map fun b => (b, s.operand v.part v.d b)
  let fmtOf (b : Nat) : Fmt := ((s.operand v.part v.d b).fmt).getD .f32
  let cmax := nth ks v.g.clipK 0
  { newJob s ring h with
    ents := ents, slots := s.slotsFor (ents.map (·.2)), pins := s.pinsFor (s.stillReads v), offset := offsetOf v.d
    length := lengthOf v.d v.in0.size, parts := partsOf v.in0 v.first v.count, step := v.n, program := programOf v.d v.g
    clip := if v.g.clipEn then some (clipFactor cmax (sh.basis (clipOf v.d) mode)) else none
    cmax := if mode = .firstPass ∧ clipOf v.d = 2 ∧ v.g.clipEn then some cmax else none
    restill := mode == .restill
    words := [nth ks (v.g.nib 11 0) 0, nth ks (v.g.nib 11 1) 0, v.g.cols]
    env := { image := v.image, inFmts := (List.range 6).map fun k => fmtOf (24 + k)
             outFmts := (List.range 4).map fun k => fmtOf (30 + k), consts := ks, epoch := fieldAt v.d 44 4, seed := v.g.seed } }

/-- STILL (R133, R228). -/
def execStill (ring : Nat) (s : State) : Host.Outcome State Fault Refusal :=
  .next <| match s.front ring (· == 3) with
    | none => s
    | some h =>
      let v := s.stillView (s.ring ring).part h.bytes
      match s.stillChecks v, (s.shard (shardOf h.bytes)).stillMode (clipOf h.bytes) with
      | some r, _ => s.refuse ring h r
      | none, none => s
      | none, some mode =>
        if v.count = 0 then s.refuse ring h (.empty, 0)
        else
          let j := s.stillJob ring h v mode
          let t := s.stillBegins v mode (s.constants v.g v.n)
          (t.takeUp ring { j with sets := t.setJets (partJets j.parts) (shardOf h.bytes) v.in0.group }).overHoles
            (s.curveRanges v.g v.n)

end Sys2Proof.Machine
end

