-- ==== Sys2Proof/Machine/StillTile.lean ====
section
/-! DEFINITION. The tiles of STILL and CAST: what a tile takes when it starts, and what commits with it (R89, R157 to
R165, R172, R182, R185 to R196, R218, R219, R245, R446). -/

namespace Sys2Proof.Machine

/-! ## Tiles of a part -/

/-- The primary region of an accepted descriptor (R124). -/
def Job.primary (j : Job) : RegionEntry := j.ent 24

/-- The region element at which tile `k` of a part begins. -/
def Job.tileFirst (j : Job) (p : Part) (k : Nat) : Nat :=
  j.primary.shareNo p.jet * j.primary.perShare + p.first + 4096 * k

/-- The first region element of the range. -/
def Job.rangeFirst (j : Job) : Nat := j.offset * 8 / j.primary.width

/-- The group of the primary region, as it stands; it cannot change while the shard's attempt is open (R131). -/
def State.jobGroup (s : State) (j : Job) : Group := s.group j.primary.group

/-! ## Presence and treatment (R157, R185) -/

/-- Whether the block at range element `a` of operand `byte`, a landing region, has a landing write. -/
def State.presentAt (s : State) (j : Job) (byte a : Nat) : Bool :=
  let e := j.ent byte
  let (jet, x) := e.placeOf e.perShare a
  e.kind == 3 && (s.block jet (regionKey j.part (fieldAt j.desc byte 1)) (x / 4096)).present

/-- The treatment of a block (R185, R191). -/
def treatmentOf (policy : Nat) (present : Bool) (n stamp : Nat) : Treatment :=
  if policy = 0 ∨ present then .run
  else if policy = 2 ∧ 65535 ≤ n - 1 - stampStep n stamp then .forced else .skip

/-- The stamp of a tile's block in the current slot, n − 1 under DENSE (R186). -/
def State.tileStamp (s : State) (j : Job) (a : Nat) : Nat :=
  let g := s.jobGroup j
  if g.policy = 0 then j.step - 1 else s.stampAt g (j.readSlot j.primary) (j.primary.pidx + a)

/-! ## The load stage (R57, R157, R182) -/

/-- An element of an input stream: as stored, after the load stage, and what the load stage counts. -/
structure Loaded where
  raw : Nat
  code : Nat
  flags : Flags := {}
  deriving DecidableEq, Repr

/-- The stored codes of stream `k` over `n` elements from `a` on; +0 in a dry landing block (R157). -/
def State.streamCodes (s : State) (j : Job) (k a n : Nat) : List Nat :=
  let e := j.ent (24 + k)
  if e.kind = 3 ∧ !s.presentAt j (24 + k) a then List.replicate n 0 else s.readStream e (j.readSlot e) a n

/-- The factor that the load stage applies to stream `k` of a block (R182, R190): the clip factor in a block that runs,
the catch-up factor in a channel stream, with whether a factor of 1.0 leaves the bits alone. -/
def State.loadFactor (s : State) (j : Job) (t : Treatment) (k stamp : Nat) : Option (Bool × Num) :=
  let g := s.jobGroup j
  match if k = g.grad ∧ t = .run then j.clip else none with
  | some f => some (true, Fmt.f32.decode f)
  | none =>
    if g.policy = 2 then
      (g.channels.find? (·.2.stream == k)).bind fun c =>
        (s.catchUp g c.1 j.step stamp).map fun f => (false, Fmt.f64.decode f)
    else none

/-- An F64 element times the clip factor: rounded once to F32, and held as F64 (R182, R213). -/
def clipWide (factor : Num) (code : Nat) : Nat × Option Event :=
  let x := Fmt.f64.decode code
  let r := finish .f32 .rne [x, factor] (exactMul x factor)
  ((convert .f32 .f64 .rne 0 r.1).1,
    match x with | .fin d => if factor.isZero && d.m != 0 then some .flushed else r.2 | _ => r.2)

/-- One element through the load stage. -/
def loadOne (f : Fmt) (factor : Option (Bool × Num)) (raw : Nat) : Loaded :=
  let (x, ev) := loadElement f raw
  let fl : Flags := match ev with | some e => Flags.note {} (some e) | none => {}
  match factor with
  | none => ⟨raw, x, fl⟩
  | some (one, y) =>
    if one && y.isOne then ⟨raw, x, fl⟩
    else
      let r := if one && f == .f64 then clipWide y x else scaleElement (if f = .f64 then .f64 else .f32) one y x
      ⟨raw, r.1, fl.note r.2⟩

/-- Stream `k` of a block after the load stage. -/
def State.loadStream (s : State) (j : Job) (t : Treatment) (k a n stamp : Nat) : List Loaded :=
  let f := nth j.env.inFmts k .f32
  (s.streamCodes j k a n).map (loadOne f (s.loadFactor j t k stamp))

/-- Whether stream `k` is read per element: in use, and bound by no load window (R157). -/
def Job.readsStream (j : Job) (k : Nat) : Bool :=
  usesIn j.desc k && !(progWindows j.env.image).any fun w => !w.writeBack && w.stream == k

/-- Both of two records of what happened to one element. -/
def Flags.join (x y : Flags) : Flags :=
  ⟨x.used || y.used, x.saturated || y.saturated, x.flushed || y.flushed, x.nanProduced || y.nanProduced⟩

/-- The elements of a tile as they enter the Nozzle: six streams each (R148, R182). -/
def tileElements (fmts : List Fmt) (n : Nat) (streams : List (List Loaded)) : List Elem :=
  (List.range n).map fun i =>
    let ls := streams.map fun l => nth l i ⟨0, 0, {}⟩
    let part (wide : Bool) := ((ls.zip fmts).filter fun x => (x.2 == .f64) == wide).foldl (fun f x => f.join x.1.flags)
      ({} : Flags)
    { ins := ls.map (·.code), raws := ls.map (·.raw), a32 := part false, a64 := part true }

/-! ## Matrix steps (R194 to R196) -/

/-- The elements of a matrix on each jet, in ascending order. -/
def Job.matrixSizes (j : Job) (first size : Nat) : List Nat := (j.primary.shares first size).map (·.2.2)

/-- A stream over a whole matrix after the load stage, block by block. -/
def State.matrixStream (s : State) (j : Job) (k first size : Nat) : List Nat :=
  (List.range (size / 4096)).flatMap fun b =>
    (s.loadStream j .run k (first + 4096 * b) 4096 (j.step - 1)).map (·.code)

/-- The matrix step on the matrix that begins at region element `first` (R194 to R196). -/
def State.matrixStep (s : State) (j : Job) (first : Nat) : MatrixOut :=
  let g := s.jobGroup j
  let size := g.rows * g.cols
  let k (b h : Nat) := nth j.env.consts (g.nib b h) 0
  let w := nth j.env.inFmts 5 .f32
  if g.mxKind = 1 then
    ortho w ⟨k 8 0, k 8 1, k 9 0, k 9 1, k 10 0, k 10 1⟩ g.mxIter g.rows g.cols (j.matrixSizes first size)
      (s.matrixStream j (g.mxStream 0) first size) (s.matrixStream j (g.mxStream 1) first size)
  else
    let gs := (List.range (size / 4096)).flatMap fun b => s.streamCodes j g.grad (first + 4096 * b) 4096
    let f := nth j.env.inFmts g.grad .f16
    let e := j.ent 29
    factor (k 9 0) (j.clip.getD one32) g.rows g.cols ((rowsOf g.cols gs).map fun r => r.map f.decode)
      (s.readElems e (j.readSlot e) (first / size * (g.rows + g.cols)) (g.rows + g.cols))

/-- What a matrix step leaves in the workspace: the new statistics of FACTOR, or free values after ORTHO (R195, R196). -/
def State.leaveWorkspace (s : State) (j : Job) (first : Nat) (o : MatrixOut) : State :=
  let g := s.jobGroup j
  let e := j.ent 29
  if g.mxKind = 1 then
    let n := (2 * g.rows * g.cols + 2 * min g.rows g.cols ^ 2) * e.width / 8
    (s.writeRegion e (j.writeSlot e) 0 (s.freeBytes n)).draw n
  else s.writeElems e (j.writeSlot e) (first / (g.rows * g.cols) * (g.rows + g.cols)) o.stats

/-- The matrix results of a job with matrix number `q` of its range put in. -/
def putMatrix (l : List (List (List Nat))) (q : Nat) (m : List (List Nat)) : List (List (List Nat)) :=
  modAt (fun _ => m) (l ++ List.replicate (q + 1 - l.length) []) q

/-- The matrix step of the matrix that holds range element `a`, where it has not been made: the state with its
workspace, the job with its result, and its counts, which go with the tile (R194). -/
def State.withMatrix (s : State) (j : Job) (a : Nat) : State × Job × Counts :=
  let g := s.jobGroup j
  let size := g.rows * g.cols
  let q := (a - j.rangeFirst) / size
  if g.mxKind = 0 ∨ nth j.matrix q [] ≠ [] then (s, j, [])
  else
    let first := j.rangeFirst + q * size
    let o := s.matrixStep j first
    (s.leaveWorkspace j first o, { j with matrix := putMatrix j.matrix q o.s5 }, o.counts)

/-- S5 over a tile of a group with a matrix step (R182, R194). -/
def State.matrixTile (s : State) (j : Job) (a n : Nat) : List Loaded :=
  let g := s.jobGroup j
  let size := g.rows * g.cols
  let x := a - j.rangeFirst
  let rows := nth j.matrix (x / size) []
  (List.range n).map fun i =>
    let o := (x + i) % size
    let c := nth (nth rows (o / g.cols) []) (o % g.cols) 0
    ⟨(convert .f32 (nth j.env.inFmts 5 .f32) .rne 0 c).1, c, {}⟩

/-! ## Starting a tile of a STILL -/

/-- A Cistern with the load windows of a part (R163, R164). -/
def State.loadWindows (s : State) (j : Job) (jet : Nat) : Cistern :=
  ((progWindows j.env.image).filter fun w => !w.writeBack).foldl (fun c w =>
    let e := j.ent (24 + w.stream)
    let ws := (chunksOf 4 w.words (s.read (e.shareAddr (j.readSlot e) jet 0) (4 * w.words))).map ofLe
    ((List.range w.words).zip ws).foldl (fun c (i, x) => Tab.set 0 c (w.cbase + i) x) c) []

/-- When the next tile that runs enters stage 1: as soon as the tiles before it allow (R138). -/
def Part.nextStart (p : Part) (im : Image) : Nat :=
  (p.inFlight.filterMap (·.nz)).foldl (fun m t => max m (t.start + passCycles im * passes im)) p.cycle

/-- The input streams of a tile. -/
def State.tileStreams (s : State) (j : Job) (t : Treatment) (a n stamp : Nat) : List (List Loaded) :=
  (List.range 6).map fun k =>
    if k = 5 ∧ (s.jobGroup j).mxKind ≠ 0 then s.matrixTile j a n
    else if j.readsStream k then s.loadStream j t k a n stamp else []

/-- A tile that runs, as it enters the Nozzle (R136, R148, R153). -/
def State.runTile (s : State) (j : Job) (p : Part) (a n stamp : Nat) (c : Counts) : Tile :=
  let im := j.env.image
  let es := tileElements j.env.inFmts n (s.tileStreams j .run a n stamp)
  let (counts, fault) := tileCounts j.env n
  { index := p.started, treatment := .run, counts := c
    nz := some { i0 := a - j.rangeFirst, pidx := j.primary.pidx + a, stamp := stamp
                 present := s.presentAt j (24 + (s.jobGroup j).grad) a, start := p.nextStart im, counts := counts
                 groups := chunksOf (groupSize im) ((n + groupSize im - 1) / groupSize im) es, fault := fault } }

/-- One output element of a forced block: the caught-up keep source, converted under the store's RND (R158, R191). -/
def Job.forcedElem (j : Job) (i : Insn) (pidx : Nat) (x : Loaded) : Nat × Option Event :=
  let k := i.aux % 4
  let src := nth j.env.inFmts (bits i.aux 2 3) .f32
  let tgt := nth j.env.outFmts k .f32
  let rnd := (Rnd.ofCode i.rnd).getD .rne
  if src = tgt ∧ !x.flags.used then (x.raw, none)
  else convert (if src = .f64 then .f64 else .f32) tgt rnd (if rnd = .rsr then draw j.env.seed pidx k .store j.env.epoch else 0)
    x.code

/-- A forced block: its outputs and counts (R191). -/
def State.forcedTile (s : State) (j : Job) (p : Part) (a n stamp : Nat) : Tile :=
  let streams := s.tileStreams j .forced a n stamp
  let sts := storesOf (progInsns j.env.image)
  let outs := sts.map fun i =>
    let xs := nth streams (bits i.aux 2 3) []
    (i, xs, ((List.range n).zip xs).map fun (q, x) => j.forcedElem i (j.primary.pidx + a + q) x)
  let es := tileElements j.env.inFmts n ((List.range 6).map fun k =>
    if sts.any fun i => bits i.aux 2 3 == k then nth streams k [] else [])
  let c0 : Counts := es.foldl (fun c e => (c.flags .f32 e.a32).flags .f64 e.a64) []
  { index := p.started, treatment := .forced
    data := (List.range 4).map fun k =>
      match outs.find? fun o => o.1.aux % 4 == k with | some o => o.2.2.map (·.1) | none => []
    counts := outs.foldl (fun c o => c.deliverAll (nth j.env.outFmts (o.1.aux % 4) .f32) (o.2.2.map (·.2))) c0 }

/-- What becomes of tile `k` of a part: a constant that gives no count is a fault that the first tile meets, so it runs whatever
its block's stamp is (R155, R185; log 134). -/
def Job.treats (j : Job) (k n : Nat) (t : Treatment) : Treatment :=
  if k = 0 ∧ (tileCounts j.env n).2.isSome then .run else t

/-- The next tile of a part of a STILL starts: the state with the matrix workspace, and the job with the tile in flight. -/
def State.startStill (s : State) (j : Job) (p : Part) : State :=
  let a := j.tileFirst p p.started
  let n := tileSize p.count p.started
  let (t, j1, c) := s.withMatrix j a
  let stamp := t.tileStamp j1 a
  let g := t.jobGroup j1
  let tile := match j1.treats p.started n (treatmentOf g.policy (t.presentAt j1 (24 + g.grad) a) j.step stamp) with
    | .forced => t.forcedTile j1 p a n stamp
    | .run => t.runTile j1 p a n stamp c
    | x => { index := p.started, treatment := x }
  t.updJob j.ring j.seq fun _ => j1.updPart p.jet fun x =>
    { x with started := x.started + 1, inFlight := x.inFlight ++ [tile], loaded := true
             runs := x.runs + b2n (tile.treatment == .run)
             cistern := if x.loaded then x.cistern else t.loadWindows j1 p.jet }

/-! ## Committing a tile of a STILL -/

/-- Whether a program's Cistern accesses make tiles depend on the tiles that follow them in the pipeline (R166). -/
def usesCistern (im : Image) : Bool := !(insnsOf Op.isCistern (progInsns im)).isEmpty

/-- The matrix of its range, 0 for the first, that tile `k` of a part lies in (R193). -/
def State.matrixOf (s : State) (j : Job) (p : Part) (k : Nat) : Nat :=
  let g := s.jobGroup j
  (j.tileFirst p k - j.rangeFirst) / (g.rows * g.cols)

/-- Whether the next tile of a part may start as far as the matrices go, which run one at a time, in ascending order: every
part has committed its tiles of the matrices before it (R193, R194). -/
def State.matrixTurn (s : State) (j : Job) (p : Part) : Bool :=
  opOf j.desc != 3 || (s.jobGroup j).mxKind == 0 ||
    j.parts.all fun x => x.committed == x.tiles || decide (s.matrixOf j p p.started ≤ s.matrixOf j x x.committed)

/-- How many tiles of a part are in flight and pass stations: all but the skipped ones (R89, R185). -/
def Part.passing (p : Part) : Nat :=
  (p.inFlight.filter (·.treatment != .skip)).length

/-- Whether no further tile of a part starts before its oldest one leaves: none is left, the part or the descriptor stops, the
next one is of a later matrix, or its stations are taken, `room` being how many (R89, R172, R193). -/
def State.noFollower (s : State) (j : Job) (p : Part) (room : Nat) : Bool :=
  p.started == p.tiles || p.ended.isSome || j.stopping || j.status.isSome || !s.matrixTurn j p ||
    decide (room ≤ p.passing)

/-- Whether the oldest tile of a part can leave: where tiles use the Cistern, the next one must have entered the Nozzle
behind it, so that their accesses take their order by cycle (R89, R138, R166; log 23). A tile that has a fault from the start
runs nothing (R155). -/
def Part.canLeave (p : Part) (im : Image) (last : Bool) : Bool :=
  !usesCistern im || last ||
    (p.inFlight.head?.map fun t => t.treatment != .run || (t.nz.bind (·.fault)).isSome).getD false ||
    p.inFlight.tail.any fun t => t.treatment == .run

/-- The tiles in flight with new Nozzle states, in order. -/
def putNz : List Tile → List NzTile → List Tile
  | t :: ts, n :: ns => match t.nz with
    | some _ => { t with nz := some n } :: putNz ts ns
    | none => t :: putNz ts (n :: ns)
  | ts, [] => ts
  | [], _ => []

/-- The pipeline of a part advances until its oldest tile has left it (R138, R166). -/
def Part.advance (p : Part) (env : NzEnv) : Part :=
  match p.inFlight with
  | t :: _ => match t.nz with
    | some z =>
      let leave := leaveCycle env.image z
      let (zs, c) := chainCycles env (leave - p.cycle) p.cycle (p.inFlight.filterMap (·.nz)) p.cistern
      { p with inFlight := putNz p.inFlight zs, cistern := c, cycle := max p.cycle leave }
    | none => p
  | [] => p

/-- The outputs of a tile that has left the Nozzle: codes for each stream that the program stores (R154). -/
def tileOuts (im : Image) (t : NzTile) : List (List Nat) :=
  (List.range 4).map fun k =>
    if (storesOf (progInsns im)).any fun i => i.aux % 4 == k then
      t.groups.flatten.map fun e => (nth e.outs k none).getD 0
    else []

/-- Write the output streams of a tile (R98, R158). -/
def State.writeOuts (s : State) (j : Job) (a : Nat) (outs : List (List Nat)) : State :=
  ((List.range 4).zip outs).foldl (fun t (k, codes) =>
    let e := j.ent (30 + k)
    if codes = [] then t else t.writeStream e (j.writeSlot e) a codes e.format) s

/-- Cast the output of a tile, where Cast writes anything (R159). -/
def State.castOuts (s : State) (j : Job) (a : Nat) (codes : List Nat) : State × Counts :=
  if casts j.desc then
    s.castAt j a (j.castIn (nth j.env.outFmts 0 .f32) codes ((List.range codes.length).map (j.primary.pidx + a + ·)))
  else (s, [])

/-- A block of a STILL carries the marks of a speculative first pass or of a re-still (R218, R219). -/
def State.markBlock (s : State) (j : Job) (a : Nat) : State :=
  let byte := 24 + (s.jobGroup j).grad
  let e := j.ent byte
  let (jet, x) := e.placeOf e.perShare a
  if e.kind = 3 ∧ (j.cmax.isSome ∨ j.restill) then
    s.updBlock jet (regionKey j.part (fieldAt j.desc byte 1)) (x / 4096) fun b =>
      { b with spec := b.spec || j.cmax.isSome, restilled := b.restilled || j.restill }
  else s

/-- The stamp of a block that ran or was forced, in the alternate copy (R185, R188). -/
def State.stampBlock (s : State) (j : Job) (a : Nat) (t : Treatment) : State :=
  let g := s.jobGroup j
  if g.policy = 0 then s
  else s.putStamp g (j.writeSlot j.primary) (j.primary.pidx + a) (if t = .forced then j.step - 1 else j.step)

/-- The slotted outputs of a STILL, each with whether it is a Cast output (R188). -/
def Job.slottedOuts (j : Job) : List (Bool × RegionEntry) :=
  ((j.ents.filter fun x => 30 ≤ x.1).map fun x => (decide (34 ≤ x.1), x.2)).filter (·.2.slotted)

/-- The broken mark of a slot (R308). -/
def RegionEntry.broken (e : RegionEntry) (slot : Nat) : Bool := if slot = 0 then e.broken0 else e.broken1

/-- Whether every skipped block must copy its plane record, because the alternate mark was set at acceptance (R446). -/
def Job.forcesPlane (j : Job) : Bool :=
  let e := j.ent 36
  e.kind == 6 && e.slotted && e.broken (j.writeSlot e)

/-- Whether a skipped block's stamps differ (R188). -/
def State.stampsDiffer (s : State) (j : Job) (a : Nat) : Bool :=
  let g := s.jobGroup j
  let p := j.primary.pidx + a
  s.stampAt g (j.readSlot j.primary) p != s.stampAt g (j.writeSlot j.primary) p

/-- A skipped block: the copies and the stamp of R188 and R446. -/
def State.skipBlock (s : State) (j : Job) (a n : Nat) : State :=
  let g := s.jobGroup j
  let p := j.primary.pidx + a
  if s.stampsDiffer j a then
    (j.slottedOuts.foldl (fun t x => t.copyBlock x.1 x.2 (j.readSlot x.2) (j.writeSlot x.2) a n) s).putStamp g
      (j.writeSlot j.primary) p (s.stampAt g (j.readSlot j.primary) p)
  else if j.forcesPlane then s.copyBlock true (j.ent 36) (j.readSlot (j.ent 36)) (j.writeSlot (j.ent 36)) a n
  else s

/-- Whether a skipped block leaves its plane record as it was, so that the region is not covered (R446). -/
def State.skipsPlane (s : State) (j : Job) (a : Nat) : Bool :=
  let e := j.ent 36
  e.kind == 6 && !(e.slotted && (s.stampsDiffer j a || j.forcesPlane))

/-- The write-back windows of a part: raw bytes, which name no format (R164, R165, R203). -/
def State.writeWindows (s : State) (j : Job) (jet : Nat) (c : Cistern) : State :=
  ((progWindows j.env.image).filter (·.writeBack)).foldl (fun t w =>
    let e := j.ent (30 + w.stream)
    t.writeRegion e (j.writeSlot e) (if e.loc = 1 then 0 else e.shareNo jet * e.length)
      ((List.range w.words).flatMap fun i => leBytes 4 (Tab.get 0 c (w.cbase + i)))) s

/-- Whether a program fault has ended some part, so that no window and no reduction record is written any more (R172). -/
def Job.programFault (j : Job) : Bool :=
  j.parts.any fun p => (p.ended.map (·.1)) == some .length

/-- Whether a STILL is a first pass under SPECULATE (R216). -/
def Job.speculates (j : Job) : Bool :=
  opOf j.desc == 3 && clipOf j.desc == 2 && !j.restill

/-- The counts of a tile of a still-class descriptor on a jet: those of a clipped first pass are dropped once the re-still
has begun (R85, R316, R317). -/
def State.countTile (s : State) (j : Job) (jet : Nat) (c : Counts) : State :=
  let inSet := j.sets.contains jet
  if j.cmax.isSome && inSet && (s.shard (shardOf j.desc)).restillBegun then s
  else s.countAttempt j.speculates inSet jet (shardOf j.desc) j.primary.group c

/-- A part after its oldest tile has committed. -/
def Part.tileGone (p : Part) (partials : List (Option Partial)) : Part :=
  { p with inFlight := p.inFlight.tail, committed := p.committed + 1, partials := partials }

/-- The store of a tile, which waits for its acknowledgement (R414, R123). -/
def State.storeDue (s : State) (j : Job) (jet : Nat) (stack : Bool) : State :=
  s.request { stack := stack, place := if stack then jet else (s.ring j.ring).home
              purpose := .store j.ring j.seq }

/-- Whether a tile of a STILL writes its block: it runs or is forced, or is skipped with stamps that differ or a plane record to
copy (R185, R188, R446). -/
def State.tileWrites (s : State) (j : Job) (t : Tile) (a : Nat) : Bool :=
  t.treatment != .skip || s.stampsDiffer j a || j.forcesPlane

/-- Whether a write-back window goes to a region of a place: fabric memory, or a stack (R164). -/
def Job.windowsTo (j : Job) (fabric : Bool) : Bool :=
  (progWindows j.env.image).any fun w => w.writeBack && ((j.ent (30 + w.stream)).loc == 1) == fabric

/-- The stores of a tile of a STILL, which wait for their acknowledgements: over the jet's stack port, and over the fabric port
of its basin where an output or a window lies in fabric memory (R123, R230, R239, R414, R420). -/
def State.stillStores (s : State) (j : Job) (jet : Nat) (block windows : Bool) : State :=
  let t := if block || (windows && j.windowsTo false) then s.storeDue j jet true else s
  let out := block && (storesOf (progInsns j.env.image)).any fun i => (j.ent (30 + i.aux % 4)).loc == 1
  if out || (windows && j.windowsTo true) then
    t.request { stack := false, place := s.engine jet / 4, purpose := .store j.ring j.seq }
  else t

/-- A tile of a STILL commits (R89). -/
def State.stillTile (s : State) (j : Job) (p : Part) (t : Tile) : State :=
  let a := j.tileFirst p t.index
  let n := tileSize p.count t.index
  let im := j.env.image
  let outs := match t.nz with | some z => tileOuts im z | none => t.data
  let u := match t.treatment with
    | .skip => s.skipBlock j a n
    | _ =>
      let (v, cc) := (s.writeOuts j a outs).castOuts j a (nth outs 0 [])
      let nc := match t.nz with | some z => tileNzCounts z | none => []
      (v.countTile j p.jet (Counts.sum (Counts.sum t.counts nc) cc)).stampBlock j a t.treatment
  let parts := match t.nz with
    | some z => addPartials im p.partials (tilePartials im z)
    | none => p.partials
  let windows := decide (p.committed + 1 = p.tiles) && !j.programFault
  let w := if windows then u.writeWindows j p.jet p.cistern else u
  let skipped := t.treatment == .skip && s.skipsPlane j a
  let x := (w.markBlock j a).updJob j.ring j.seq fun x =>
    { x.updPart p.jet (·.tileGone parts) with result := x.result + b2n skipped }
  x.stillStores j p.jet (s.tileWrites j t a) windows

/-- DETAIL of a program fault (R172). -/
def NzFault.detail (f : NzFault) : Nat := 40 + 2 ^ 8 * f.insn + 2 ^ 16 * f.cls

/-- The oldest tile in flight of a part of a STILL commits, or ends the part with a program fault (R89, R172, R173); `last`: no
tile follows it before it leaves. -/
def State.commitStill (s : State) (j : Job) (p0 : Part) (last : Bool) : State :=
  let im := j.env.image
  if !p0.canLeave im last then s
  else
    let p := p0.advance j.env
    match p.inFlight with
    | [] => s
    | t :: _ =>
      match t.nz.bind (·.fault) with
      | some f => s.updJob j.ring j.seq fun x => x.updPart p.jet fun _ =>
          { p with inFlight := [], ended := some (.length, f.detail) }
      | none => (s.updJob j.ring j.seq fun x => x.updPart p.jet fun _ => p).stillTile (j.updPart p.jet fun _ => p) p t

/-! ## CAST -/

/-- The next tile of a part of a CAST starts: it reads its source (R245, R249). -/
def State.startCast (s : State) (j : Job) (p : Part) : State :=
  let src := j.primary
  let a := j.tileFirst p p.started
  let es := tileElems (nth j.words 2 0) (ctlOf j.desc) j.rangeFirst a
  let codes := es.map fun e => (s.readElems src (j.readSlot src) e 1).headD 0
  s.updJob j.ring j.seq fun x => x.updPart p.jet fun y =>
    { y with started := y.started + 1, inFlight := y.inFlight ++ [{ index := y.started, data := [codes] }] }

/-- The oldest tile in flight of a CAST commits: its records, and its counts, in TOTAL only without a slotted output
(R245, R316). -/
def State.commitCast (s : State) (j : Job) (p : Part) (t : Tile) : State :=
  let src := j.primary
  let a := j.tileFirst p t.index
  let es := tileElems (nth j.words 2 0) (ctlOf j.desc) j.rangeFirst a
  let (u, c) := s.castAt j a (j.castIn (src.fmt.getD .f32) (nth t.data 0 []) (es.map (src.pidx + ·)))
  let v := if j.stillClass then u.countTile j p.jet c else u.countTotal p.jet src.group c
  (v.updJob j.ring j.seq fun x => x.updPart p.jet (·.tileGone [])).storeDue j p.jet true

end Sys2Proof.Machine
end

