-- ==== Sys2Proof/Machine/Moves.lean ====
section
/-! DEFINITION. COPY, FILL, CRUCIBLE and EXPORT: acceptance, and their tiles (R37, R50, R86, R98, R125, R127, R128, R132,
R198 to R203, R259, R305, R392, R393). -/

namespace Sys2Proof.Machine

/-! ## The Molzen's own writes into landing regions (R200, R201, R203) -/

/-- The key of the region-table entry that an operand byte of a job names. -/
def Job.key (j : Job) (byte : Nat) : Nat := regionKey j.part (fieldAt j.desc byte 1)

/-- The store of a tile of a descriptor that may write fabric memory (R132, R414, R420). -/
def State.moveDue (s : State) (j : Job) (jet : Nat) (e : RegionEntry) : State :=
  if e.loc = 0 ∧ jet < 24 then s.storeDue j jet true
  else s.request { stack := false, place := if jet < 24 then s.engine jet / 4 else (s.ring j.ring).home
                   purpose := .store j.ring j.seq }

/-! ## Parts (R132) -/

/-- The parts of a range whose primary region has LOC 1: one on each jet of the other region that holds it, or the
controller's. Element `a` of the range lies at bit 8 × `start` + (a − first) × u of the other region. -/
def mappedParts (t : RegionEntry) (first count start u : Nat) : List Part :=
  if t.loc = 1 then [{ jet := 255, first := first, count := count, tiles := tilesOf count }]
  else ((List.range t.jetList.length).zip t.jetList).filterMap fun (k, j) =>
    let lo := max (8 * start) (8 * k * t.length)
    let hi := min (8 * start + count * u) (8 * (k + 1) * t.length)
    if lo < hi then
      let a := (lo - 8 * start) / u
      let b := (hi - 8 * start) / u
      some { jet := j, first := first + a, count := b - a, tiles := tilesOf (b - a) }
    else none

/-- The parts of a range (R132); `t` is the other region, if there is one. -/
def movePart (e : RegionEntry) (t : Option RegionEntry) (first count start u : Nat) : List Part :=
  if e.loc = 0 then partsOf e first count
  else match t with
    | some t => mappedParts t first count start u
    | none => [{ jet := 255, first := first, count := count, tiles := tilesOf count }]

/-- The slots that COPY and FILL write (R98). -/
def RegionEntry.bothSlots (e : RegionEntry) : List Nat := if e.slotted then [0, 1] else [0]

/-- COPY and FILL into a slotted region are accepted only while its shard is IDLE (R98). -/
def State.notIdle (s : State) (e : RegionEntry) : Bool := e.slotted && (s.shard e.shard).state != 0

/-- A tile of a part starts. -/
def State.tileIn (s : State) (j : Job) (p : Part) (data : List (List Nat)) (c : Counts) : State :=
  s.updJob j.ring j.seq fun x => x.updPart p.jet fun y =>
    { y with started := y.started + 1, inFlight := y.inFlight ++ [{ index := y.started, data := data, counts := c }] }

/-- The oldest tile in flight of a part has committed. -/
def State.tileOut (s : State) (j : Job) (p : Part) : State :=
  s.updJob j.ring j.seq fun x => x.updPart p.jet (·.tileGone [])

/-! ## COPY (R125) -/

/-- Whether a COPY is a raw copy of bytes (R125). -/
def rawCopy (src dst : RegionEntry) : Bool := !src.usesFormat || !dst.usesFormat

/-- Bits of a destination element for each source element. -/
def copyWidth (src dst : RegionEntry) : Nat := if rawCopy src dst then src.width else dst.width

/-- The checks of COPY, in the order of R133. RSR is turned away with the formats, at step 3 (R48, R198; DEDUCED, log 138), and an
empty range whose DST_OFFSET lies beyond DST is BOUND (DEDUCED, log 139). -/
def State.copyChecks (s : State) (part : Nat) (d : List Byte) : Option Verdict' :=
  let src := s.operand part d 24
  let dst := s.operand part d 25
  let rnd := fieldAt d 26 1
  let to' := fieldAt d 32 5
  let bits := countElem d src * copyWidth src dst
  (formatCheck d (if (Rnd.ofCode rnd).isNone then [26] else [])).orElse fun _ =>
  (s.unusedEntry part d [24, 25]).orElse fun _ =>
  (lowest .format [(src.kind == 6 || src.kind == 7, 24), (dst.kind == 6 || dst.kind == 7, 25),
    (rnd == 4, 26)]).orElse fun _ =>
  (lowest .length [(offsetOf d * 8 % src.width ≠ 0, 8), (lengthOf d src.size * 8 % src.width ≠ 0, 16),
    (to' * 8 % dst.width ≠ 0, 32)]).orElse fun _ =>
  (rangeBound d src).orElse fun _ =>
  firstOf [(decide (8 * dst.size < 8 * to' + bits), at' .bound 25), (s.notIdle dst, cause 5), (s.pinsFull (s.pinsFor [src]), cause 3)]

/-- The job of an accepted COPY. -/
def State.copyJob (s : State) (ring : Nat) (h : Held) : Job :=
  let d := h.bytes
  let part := (s.ring ring).part
  let src := s.operand part d 24
  let dst := s.operand part d 25
  { newJob s ring h with
    ents := [(24, src), (25, dst)], slots := s.slotsFor [src], pins := s.pinsFor [src], offset := offsetOf d
    length := lengthOf d src.size
    parts := movePart src (some dst) (firstElem d src) (countElem d src) (fieldAt d 32 5) (copyWidth src dst) }

/-- COPY (R98, R125, R132). -/
def execCopy (ring : Nat) (s : State) : Host.Outcome State Fault Refusal :=
  .next <| match s.front ring (· == 0x0B) with
    | none => s
    | some h =>
      let part := (s.ring ring).part
      match s.copyChecks part h.bytes with
      | some v => s.refuse ring h v
      | none =>
        if lengthOf h.bytes (s.operand part h.bytes 24).size = 0 then s.refuse ring h (.empty, 0)
        else s.takeUp ring (s.copyJob ring h)

/-- The next tile of a COPY starts: its elements are read and converted; a conversion counts at the COPY site (R50, R84). -/
def State.startCopy (s : State) (j : Job) (p : Part) : State :=
  let src := j.ent 24
  let dst := j.ent 25
  let a := j.tileFirst p p.started
  let n := tileSize p.count p.started
  if rawCopy src dst then
    s.tileIn j p [(s.readRegion src (j.readSlot src) (a * src.width / 8) (n * src.width / 8)).map (·.toNat)] []
  else
    let f := src.fmt.getD .f32
    let g := dst.fmt.getD .f32
    let out := (s.readElems src (j.readSlot src) a n).map
      (convert f g ((Rnd.ofCode (fieldAt j.desc 26 1)).getD .rne) 0)
    s.tileIn j p [out.map (·.1)] (if f = g then [] else Counts.deliverAll [] g (out.map (·.2)))

/-- Write a tile of a COPY at range element `a` into a slot: its bytes, or its elements (R33, R98, R125). -/
def State.writeCopy (s : State) (j : Job) (slot a : Nat) (data : List Nat) : State :=
  let src := j.ent 24
  let dst := j.ent 25
  if rawCopy src dst then
    s.writeRegion dst slot (fieldAt j.desc 32 5 + (a - j.rangeFirst) * src.width / 8) (bytesOf 8 data) dst.format
  else s.writeElems dst slot (fieldAt j.desc 32 5 * 8 / dst.width + (a - j.rangeFirst)) data dst.format

/-- The oldest tile of a COPY commits: into both slots of a slotted region (R98). -/
def State.commitCopy (s : State) (j : Job) (p : Part) (t : Tile) : State :=
  let dst := j.ent 25
  let w := dst.bothSlots.foldl (fun x slot => x.writeCopy j slot (j.tileFirst p t.index) (nth t.data 0 [])) s
  let x := if t.counts = [] then w else w.countTotal (if p.jet < 24 then p.jet else 24) dst.group t.counts
  (x.tileOut j p).moveDue j p.jet dst

/-! ## FILL (R125) -/

/-- VALUE of a FILL. -/
def fillValue (d : List Byte) : Nat := fieldAt d 32 8

/-- The checks of FILL, in the order of R133. Under a DST entry that is unused, VALUE has eight bits (DEDUCED, log 137). -/
def State.fillChecks (s : State) (part : Nat) (d : List Byte) : Option Verdict' :=
  let dst := s.operand part d 24
  (formatCheck d (if 2 ^ dst.width ≤ fillValue d then [32] else [])).orElse fun _ =>
  (s.unusedEntry part d [24]).orElse fun _ =>
  (lowest .format [(dst.kind == 6 || dst.kind == 7 || dst.fmt == some .f64, 24)]).orElse fun _ =>
  (rangeLength d dst).orElse fun _ => (rangeBound d dst).orElse fun _ => firstOf [(s.notIdle dst, cause 5)]

/-- FILL (R98, R125, R132). -/
def execFill (ring : Nat) (s : State) : Host.Outcome State Fault Refusal :=
  .next <| match s.front ring (· == 0x0C) with
    | none => s
    | some h =>
      let part := (s.ring ring).part
      match s.fillChecks part h.bytes with
      | some v => s.refuse ring h v
      | none =>
        let dst := s.operand part h.bytes 24
        let len := lengthOf h.bytes dst.size
        if len = 0 then s.refuse ring h (.empty, 0)
        else s.takeUp ring { newJob s ring h with
          ents := [(24, dst)], offset := offsetOf h.bytes, length := len
          parts := movePart dst none (firstElem h.bytes dst) (countElem h.bytes dst) 0 8 }

/-- The oldest tile of a FILL commits: into both slots of a slotted region (R98). -/
def State.commitFill (s : State) (j : Job) (p : Part) (t : Tile) : State :=
  let dst := j.ent 24
  let codes := List.replicate (tileSize p.count t.index) (fillValue j.desc)
  let w := dst.bothSlots.foldl (fun x slot => x.writeElems dst slot (j.tileFirst p t.index) codes dst.format) s
  (w.tileOut j p).moveDue j p.jet dst

/-! ## CRUCIBLE (R198 to R200) -/

/-- M, N and K. -/
def crucibleM (d : List Byte) : Nat := fieldAt d 32 4
/-- N. -/
def crucibleN (d : List Byte) : Nat := fieldAt d 36 4
/-- K. -/
def crucibleK (d : List Byte) : Nat := fieldAt d 40 4

/-- Whether a region can be an operand of the Crucible (R57, R305). -/
def crucibleOperand (e : RegionEntry) : Bool :=
  (e.kind == 1 || e.kind == 2 || e.kind == 3 || e.kind == 4) &&
    (match e.fmt with | some .f32 | some .f64 | some .ue8 | none => false | _ => true)

/-- The elements of an operand: of a cast region, in its records (R246, R259). -/
def operandElems (e : RegionEntry) : Nat := if e.kind = 4 then e.castShare * e.jetList.length else e.elems

/-- A scale operand that is not the cast region of its matrix, or is absent and not 00h (R125, R199). -/
def badScale (d : List Byte) (e : RegionEntry) (byte scale bit' : Nat) : Bool :=
  bit (fieldAt d 29 1) bit' && (e.kind != 4 || fieldAt d scale 1 != fieldAt d byte 1)

/-- The jets on which the first `n` elements of an operand lie. -/
def operandJets (e : RegionEntry) (n : Nat) : List Nat :=
  let per := if e.kind = 4 then e.castShare else e.perShare
  ((List.range e.jetList.length).zip e.jetList).filterMap fun (k, j) => if k * per < n then some j else none

/-- The checks of CRUCIBLE, in the order of R133. -/
def State.crucibleChecks (s : State) (part : Nat) (d : List Byte) : Option Verdict' :=
  let a := s.operand part d 24
  let b := s.operand part d 25
  let c := s.operand part d 26
  let m := crucibleM d
  let n := crucibleN d
  let k := crucibleK d
  let outFmt := fieldAt d 44 1
  let sa := bit (fieldAt d 29 1) 0
  let sb := bit (fieldAt d 29 1) 1
  (formatCheck d ((if !sa && fieldAt d 27 1 != 0 then [27] else []) ++ (if !sb && fieldAt d 28 1 != 0 then [28] else []) ++
    (if (Fmt.ofCode outFmt).isNone then [44] else []) ++ (if (Rnd.ofCode (fieldAt d 45 1)).isNone then [45] else []))).orElse
    fun _ =>
  (lowest .denied ([(!bit s.boot.features 1, 0)] ++ ([24, 25, 26] ++ (if sa then [27] else []) ++ (if sb then [28] else [])).map
    fun x => ((s.operand part d x).kind == 0, x))).orElse fun _ =>
  (lowest .format [(!crucibleOperand a, 24), (!crucibleOperand b, 25),
    ((c.kind != 1 && c.kind != 2 && c.kind != 3) || c.fmt == some .f64, 26), (badScale d a 24 27 0, 27),
    (badScale d b 25 28 1, 28), (outFmt != 0 && outFmt != 2 && outFmt != 3, 44), (fieldAt d 45 1 == 4, 45)]).orElse fun _ =>
  (lowest .length [(65536 < m, 32), (65536 < n, 36), (65536 < k, 40)]).orElse fun _ =>
  (lowest .bound [(operandElems a < m * k, 24), (operandElems b < k * n, 25), (c.elems < m * n, 26)]).orElse fun _ =>
  (if s.notIdle c then some (shardState (s.shard c.shard).state) else none).orElse fun _ =>
  (s.notReady [2] (operandJets a (m * k) ++ operandJets b (k * n) ++ operandJets c (m * n))).orElse fun _ =>
  firstOf [(s.pinsFull (s.pinsFor [a, b]), cause 3)]

/-- CRUCIBLE (R198 to R200, R128). -/
def execCrucible (ring : Nat) (s : State) : Host.Outcome State Fault Refusal :=
  .next <| match s.front ring (· == 8) with
    | none => s
    | some h =>
      let d := h.bytes
      let part := (s.ring ring).part
      match s.crucibleChecks part d with
      | some v => s.refuse ring h v
      | none =>
        let es := [24, 25, 26].map fun b => (b, s.operand part d b)
        let c := s.operand part d 26
        if crucibleM d * crucibleN d = 0 then s.refuse ring h (.empty, 0)
        else s.takeUp ring { newJob s ring h with
          ents := es, slots := s.slotsFor (es.map (·.2))
          pins := s.pinsFor [s.operand part d 24, s.operand part d 25]
          parts := partsOf c 0 (crucibleM d * crucibleN d) }

/-- Element `i` of an operand of the Crucible, decoded (R59, R60, R259). -/
def State.crucibleElem (s : State) (j : Job) (byte : Nat) (scaled : Bool) (i : Nat) : Num :=
  let e := j.ent byte
  let f := e.fmt.getD .f32
  if e.kind = 4 then
    let (jet, ps) := e.recordAt (j.readSlot e) i
    nth (mouldOperands f scaled (s.readPieces jet ps)) (i % 4096) (.nan false)
  else f.decode ((s.readElems e (j.readSlot e) i 1).headD 0)

/-- The products of output element `x` of a CRUCIBLE, in ascending k (R63, R198). -/
def State.crucibleProducts (s : State) (j : Job) (x : Nat) : List (Num × Num) :=
  let d := j.desc
  let m := crucibleM d
  let n := crucibleN d
  let k := crucibleK d
  let r := x / n
  let c := x % n
  let at' (q : Nat) : Num := s.crucibleElem j 24 (bit (fieldAt d 29 1) 0) (if bit (fieldAt d 46 1) 0 then q * m + r else r * k + q)
  let bt (q : Nat) : Num := s.crucibleElem j 25 (bit (fieldAt d 29 1) 1) (if bit (fieldAt d 46 1) 1 then c * k + q else q * n + c)
  (List.range k).map fun q => (at' q, bt q)

/-- Output element `x` of a CRUCIBLE (R62 to R69, R198). -/
def State.crucibleOut (s : State) (j : Job) (x : Nat) : Nat × Option Event :=
  accOut ((Fmt.ofCode (fieldAt j.desc 44 1)).getD .f32) ((Rnd.ofCode (fieldAt j.desc 45 1)).getD .rne)
    (dot none (s.crucibleProducts j x))

/-- The element of C's share at which a part of a CRUCIBLE begins. -/
def Job.outFirst (j : Job) (p : Part) (k : Nat) : Nat :=
  let c := j.ent 26
  c.shareNo p.jet * c.perShare + p.first + 4096 * k

/-- The next tile of a CRUCIBLE starts (R198). -/
def State.startCrucible (s : State) (j : Job) (p : Part) : State :=
  let a := j.outFirst p p.started
  let out := (List.range (tileSize p.count p.started)).map fun i => s.crucibleOut j (a + i)
  s.tileIn j p [out.map (·.1)] (Counts.deliverAll [] ((Fmt.ofCode (fieldAt j.desc 44 1)).getD .f32) (out.map (·.2)))

/-- The bytes of output elements in C: where OUT_FMT and C's FORMAT have different widths, the manual states no
contents, and the element is a free value (log 24). -/
def State.outBytes (s : State) (c : RegionEntry) (f : Fmt) (codes : List Nat) : State × List Byte :=
  if f.width = c.width then (s, bytesOf c.width codes)
  else
    let n := codes.length * c.width / 8
    (s.draw n, s.freeBytes n)

/-- The oldest tile of a CRUCIBLE commits: into the current slot (R98, R200). -/
def State.commitCrucible (s : State) (j : Job) (p : Part) (t : Tile) : State :=
  let c := j.ent 26
  let a := j.outFirst p t.index
  let (u, bs) := s.outBytes c ((Fmt.ofCode (fieldAt j.desc 44 1)).getD .f32) (nth t.data 0 [])
  let w := u.writeRegion c (j.readSlot c) (a * c.width / 8) bs (fieldAt j.desc 44 1)
  ((w.countTotal p.jet c.group t.counts).tileOut j p).storeDue j p.jet true

/-! ## EXPORT (R392, R393) -/

/-- Whether an EXPORT encrypts. -/
def exportEncrypts (d : List Byte) : Bool := bit (fieldAt d 26 1) 0
/-- DST_OFFSET of an EXPORT. -/
def exportTo (d : List Byte) : Nat := fieldAt d 32 5

/-- The checks of EXPORT, in the order of R133. An empty range writes nothing and is EMPTY, whatever room DST has (DEDUCED, log
139). -/
def State.exportChecks (s : State) (part : Nat) (d : List Byte) : Option Verdict' :=
  let src := s.operand part d 24
  let dst := s.operand part d 25
  let len := lengthOf d src.size
  let key : ExportKey := Tab.get {} s.warden.exports part
  (formatCheck d []).orElse fun _ =>
  (lowest .denied [(src.kind == 0, 24), (dst.kind == 0, 25), (exportEncrypts d && !bit s.boot.features 2, 26)]).orElse fun _ =>
  (lowest .format [(src.kind == 7 || src.kind == 8 || 10 ≤ src.kind, 24), (dst.kind != 11, 25)]).orElse fun _ =>
  (lowest .length [(offsetOf d * 8 % src.width ≠ 0, 8),
    (len * 8 % src.width ≠ 0 || (exportEncrypts d && decide (0xFFFFFFFE0 < len)), 16)]).orElse fun _ =>
  (rangeBound d src).orElse fun _ =>
  firstOf [(len != 0 && decide (dst.size < exportTo d + len + 288), at' .bound 25),
    (s.warden.ready != 2, stationDown 8), (exportEncrypts d && !key.valid, cause 0xB),
    (s.pinsFull (s.pinsFor [src]), cause 3)]

/-- The header of an export stream (R392). -/
def State.exportHeader (s : State) (part : Nat) (d : List Byte) : List Byte :=
  let src := s.operand part d 24
  let h := s.shard src.shard
  let key : ExportKey := Tab.get {} s.warden.exports part
  let enc := exportEncrypts d
  let pidx := if 1 ≤ src.kind ∧ src.kind ≤ 6 then src.pidx + firstElem d src else 0
  leBytes 1 0x60 ++ leBytes 1 1 ++ leBytes 1 (b2n enc) ++ leBytes 1 part ++ leBytes 1 src.kind ++ leBytes 1 src.format ++
    leBytes 1 (src.shard + 64 * b2n src.slotted + 128 * (if src.slotted then h.curSlot else 0)) ++ leBytes 1 0 ++
    leBytes 4 (if src.slotted then h.curEpoch.toNat else 0xFFFFFFFF) ++ leBytes 4 (if src.slotted then h.stepNo.toNat else 0) ++
    leBytes 2 src.group ++ leBytes 2 (if enc then key.keyId else 0) ++ leBytes 4 0 ++ leBytes 8 (pidx % 2 ^ 40) ++
    leBytes 8 (offsetOf d) ++ leBytes 8 (lengthOf d src.size) ++ leBytes 8 key.seq ++
    leBytes 4 0 ++ leBytes 8 key.seq ++ leBytes 12 0 ++ padTo 16 s.warden.idDigest ++
    (if enc then padTo 32 key.salt else leBytes 32 0)

/-- EXPORT (R392): the header is written and EXPORT_SEQ advances; the payload follows tile by tile. It waits while the Warden
is stopped (R372, log 109). Where SRC has LOC 1, the parts follow the payload, which lies 128 bytes after DST_OFFSET (R132, R392;
DEDUCED, log 140). -/
def execExportStream (ring : Nat) (s : State) : Host.Outcome State Fault Refusal :=
  .next <| match s.front ring (· == 0x13) with
    | none => s
    | some h =>
      let d := h.bytes
      let part := (s.ring ring).part
      if s.wardenCopies.stopped then s
      else match s.exportChecks part d with
      | some v => s.refuse ring h v
      | none =>
        let src := s.operand part d 24
        let dst := s.operand part d 25
        let len := lengthOf d src.size
        if len = 0 then s.refuse ring h (.empty, 0)
        else
          let header := s.exportHeader part d
          let t := s.writeRegion dst 0 (exportTo d) header
          let u := { t with warden := { t.warden with
            exports := Tab.upd {} t.warden.exports part fun k => { k with seq := k.seq + 1 } } }
          u.takeUp ring { newJob s ring h with
            ents := [(24, src), (25, dst)], slots := s.slotsFor [src], pins := s.pinsFor [src], offset := offsetOf d
            length := len, parts := movePart src (some dst) (firstElem d src) (countElem d src) (exportTo d + 128) src.width
            payload := [(0, header)], words := ((Tab.get {} s.warden.exports part : ExportKey).key).map (·.toNat) }

/-- The key stream of AES-256-GCM over bytes `[off, off + n)` of a payload (R393). -/
def keyStream (key iv : List Byte) (off n : Nat) : List Byte :=
  let sch := aesKey (key.map (·.toNat))
  let blocks := (List.range ((off + n + 15) / 16 - off / 16)).flatMap fun i =>
    (aesBlock sch ((iv ++ beBytes 4 (off / 16 + i + 2)).map (·.toNat))).map (BitVec.ofNat 8)
  (blocks.drop (off % 16)).take n

/-- The next tile of an EXPORT starts: its bytes are read. -/
def State.startExport (s : State) (j : Job) (p : Part) : State :=
  let src := j.ent 24
  let a := j.tileFirst p p.started
  let n := tileSize p.count p.started
  s.tileIn j p [(s.readRegion src (j.readSlot src) (a * src.width / 8) (n * src.width / 8)).map (·.toNat)] []

/-- The oldest tile of an EXPORT commits: its bytes, encrypted where the stream is, after the header (R392, R393). -/
def State.commitExport (s : State) (j : Job) (p : Part) (t : Tile) : State :=
  let src := j.ent 24
  let dst := j.ent 25
  let off := (j.tileFirst p t.index - j.rangeFirst) * src.width / 8
  let plain := (nth t.data 0 []).map (BitVec.ofNat 8)
  let header := Tab.get [] j.payload 0
  let key := j.words.map (BitVec.ofNat 8)
  let out := if exportEncrypts j.desc then
      List.zipWith (· ^^^ ·) plain (keyStream key (sliceAt header 56 12) off plain.length)
    else plain
  ((s.writeRegion dst 0 (exportTo j.desc + 128 + off) out).updJob j.ring j.seq fun x =>
    { x.updPart p.jet (·.tileGone []) with payload := Tab.set [] x.payload (1 + off) out }).moveDue j p.jet dst

/-- The trailer of an export stream whose payload is complete (R393). -/
def State.exportTrailer (s : State) (j : Job) : List Byte :=
  let header := Tab.get [] j.payload 0
  let body := (j.payload.filter (·.1 != 0)).flatMap (·.2)
  let key := j.words.map (BitVec.ofNat 8)
  let tag := if exportEncrypts j.desc then gcmTag key (sliceAt header 56 12) header body else List.replicate 16 0#8
  let frames := chunksOf 0x100000 ((body.length + 0xFFFFF) / 0x100000) body
  let front := tag ++ sha384 (frames.flatMap sha384)
  front ++ ecdsaSign s.warden.idKey (scalarOf (Config.random s.warden.draws).toNat) (sha384 (header ++ front))
where
  /-- The tag of AES-256-GCM over a cipher text (SP 800-38D). -/
  gcmTag (key iv aad cipher : List Byte) : List Byte :=
    let sch := aesKey (key.map (·.toNat))
    let enc (l : List Byte) : List Byte := (aesBlock sch (l.map (·.toNat))).map (BitVec.ofNat 8)
    let h := ofBe (enc (List.replicate 16 0#8))
    let g := ghash h (blocks16 aad ++ blocks16 cipher ++ [beBytes 8 (8 * aad.length) ++ beBytes 8 (8 * cipher.length)])
    List.zipWith (· ^^^ ·) (beBytes 16 g) (enc (iv ++ beBytes 4 1))

/-- The trailer is written, and a random draw is used up (R393, R377). -/
def State.endExport (s : State) (j : Job) : State :=
  let t := s.writeRegion (j.ent 25) 0 (exportTo j.desc + 128 + j.length) (s.exportTrailer j)
  { t with warden := { t.warden with draws := t.warden.draws + 1 } }

end Sys2Proof.Machine
end

