-- ==== Sys2Proof/Machine/Rings.lean ====
section
/-! DEFINITION. Descriptor rings and doorbell pages: doorbells, pins, fetch, enabling and disabling, FENCE, and reserved
opcodes (R100, R101, R110 to R121, R126, R133 to R135, R440). -/

namespace Sys2Proof.Machine

/-- HEAD: the oldest descriptor not yet completed, NEXT where none is outstanding (R110). -/
def State.head (s : State) (r : Nat) : Word :=
  let c := s.ring r
  let seqs := c.held.map (·.seq) ++ (s.outstanding r).map (·.seq)
  seqs.foldl (fun h q => if (c.next - q).toNat > (c.next - h).toNat then q else h) c.next

/-- Whether the doorbell window is served: out of reset and freeze, and the boot not HALTED (R117, R350). -/
def State.pageOpen (s : State) (part : Nat) : Bool :=
  s.open? && s.boot.phase != .halted && decide (part < 8)

/-- Error record 01h of a refused access to a doorbell page: ARG0 the offset, ARG1 bit 0 a write (R116, R329). -/
def State.badAccess (s : State) (part offset : Nat) (write : Bool) : State :=
  s.emit { cls := 1, code := 1, part := some part, arg0 := offset, arg1 := b2n write }

/-- The jets of a partition (R103). -/
def State.jetsOf (s : State) (part : Nat) : List Nat :=
  s.jetsPresent.filter fun j => (s.jet j).part == part

/-- Whether a doorbell value is valid (R118). -/
def State.validTail (s : State) (r : Nat) (value : Word64) : Bool :=
  let c := s.ring r
  let h := s.head r
  let v : Word := value.setWidth 32
  value.toNat < 2 ^ 32 && decide ((c.next - h).toNat ≤ (v - h).toNat) && decide ((v - h).toNat ≤ 2 ^ c.sizeExp)

/-- DOORBELL_WRITE (R116 to R118, R398). -/
def execDoorbellWrite (part ring : Nat) (value : Word64) (s : State) : Host.Outcome State Fault Refusal :=
  .next <|
    if !s.pageOpen part || 4096 ≤ ring then s
    else if (s.ring ring).part ≠ part then s.badAccess part (8 * ring) true
    else if s.validTail ring value then
      (s.updRing ring fun c => { c with tail := value.setWidth 32 }).wake (s.jetsOf part) [(s.ring ring).home]
    else s.emit { cls := 1, code := 2, part := some part, arg0 := ring, arg1 := value.toNat % 2 ^ 32 }

/-- RING_RESUME (R135). -/
def execRingResume (part ring : Nat) (value : Word64) (s : State) : Host.Outcome State Fault Refusal :=
  .next <|
    if !s.pageOpen part || 4096 ≤ ring then s
    else if (s.ring ring).part ≠ part ∨ 2 ≤ value.toNat then s.badAccess part (0x8000 + 8 * ring) true
    else if value = 0 then s
    else if (s.ring ring).halted then s.updRing ring fun c => { c with halted := false }
    else s.emit { cls := 1, code := 6, part := some part, arg0 := ring }

/-- Whether a pin-word read fails (R100). -/
def Shard.pinFails (h : Shard) : Bool :=
  h.pins h.curSlot == 65535 || !h.pouredOnce

/-- What a pin-word read returns (R100). -/
def Shard.pinWord (h : Shard) : Nat :=
  h.curEpoch.toNat + 2 ^ 32 * h.curSlot + 2 ^ 33 * b2n h.pinFails

/-- PIN (R100, R116). -/
def execPin (part shard : Nat) (s : State) : Host.Outcome State Fault Refusal :=
  .next <|
    if !s.pageOpen part || 64 ≤ shard then s
    else
      let h := s.shard shard
      if h.owner ≠ some part then { s.badAccess part (0x10000 + 16 * shard) false with pinReply := 0 }
      else
        let t := if h.pinFails then s else s.takePins [shard]
        { t with pinReply := h.pinWord }

/-- The slot of a shard that holds an epoch, for the unpin word (R101). -/
def Shard.slotOf (h : Shard) (epoch : Word) : Option Nat :=
  if epoch = h.curEpoch then some h.curSlot
  else if h.otherLabel = some epoch then some (1 - h.curSlot) else none

/-- The slot that an unpin-word write releases a pin of, none where it changes nothing (R101). -/
def Shard.unpins (h : Shard) (value : Word64) : Option Nat :=
  if 2 ^ 32 ≤ value.toNat then none
  else match h.slotOf (value.setWidth 32) with
    | some slot => if h.pins slot = 0 then none else some slot
    | none => none

/-- UNPIN (R101, R116). -/
def execUnpin (part shard : Nat) (value : Word64) (s : State) : Host.Outcome State Fault Refusal :=
  .next <|
    if !s.pageOpen part || 64 ≤ shard then s
    else if (s.shard shard).owner ≠ some part then s.badAccess part (0x10008 + 16 * shard) true
    else match (s.shard shard).unpins value with
      | some slot => s.releasePins [(shard, slot)]
      | none => s.emit { cls := 1, code := 3, part := some part, shard := some shard, arg0 := value.toNat % 2 ^ 32 }

/-- Whether an access of a doorbell page is one that R116 refuses. -/
def State.pageRefuses (s : State) (part offset size : Nat) (write : Bool) : Bool :=
  if size ≠ 8 ∨ offset % 8 ≠ 0 then true
  else if offset < 0x10000 then (s.ring (offset % 0x8000 / 8)).part != part
  else if offset < 0x10400 then
    (s.shard ((offset - 0x10000) / 16)).owner != some part || write == (offset % 16 == 0)
  else false

/-- What a read of a doorbell or control word returns; 0 elsewhere (R115, R118, R135). -/
def State.pageRead (s : State) (offset : Nat) : Nat :=
  let r := offset % 0x8000 / 8
  let c := s.ring r
  if offset < 0x8000 then c.tail.toNat + 2 ^ 32 * (s.head r).toNat
  else if offset < 0x10000 then
    b2n c.enable + 2 * b2n c.halted + 4 * b2n c.draining + 2 ^ 32 * c.haltSeq.toNat
  else 0

/-- DOORBELL_PAGE_BAD_ACCESS (R116): the record, and a read that returns 0. An access that R116 allows is served: a
read of a doorbell or control word returns it (R118, R135); a write of one has its own row. -/
def execDoorbellPageBadAccess (part offset size : Nat) (write : Bool) (s : State) : Host.Outcome State Fault Refusal :=
  .next <|
    if !s.pageOpen part || 0x20000 ≤ offset then s
    else if s.pageRefuses part offset size write then
      let t := s.badAccess part offset write
      if write then t else { t with pinReply := 0 }
    else if write || (0x10000 ≤ offset && offset < 0x10400) then s
    else { s with pinReply := s.pageRead offset }

/-! ## Fetch (R119, R120) -/

/-- The accepted, uncompleted descriptors that a basin holds (R119). -/
def State.basinLoad (s : State) (b : Nat) : Nat :=
  (s.jobs.filter fun x => !x.recorded && (s.ring x.ring).home == b).length

/-- Whether a ring is eligible for fetch (R119). -/
def State.eligible (s : State) (b r : Nat) : Bool :=
  let c := s.ring r
  c.enable && !c.halted && c.home == b && c.next != c.tail && decide ((s.outstanding r).length < 16) &&
    decide (s.basinLoad b < 256) && (Tab.get none s.resets.parts c.part).isNone

/-- The ring a basin controller visits next: ascending, after the one it visited last, wrapping (R119). -/
def State.nextRing (s : State) (b : Nat) : Option Nat :=
  let rs := (s.rings.map (·.1)).filter (s.eligible b)
  match (s.basin b).last with
  | some l => (rs.find? (l < ·)).orElse fun _ => rs.head?
  | none => rs.head?

/-- The address of the descriptor slot of a sequence number. -/
def State.slotAddr (s : State) (c : Ring) (q : Word) : Nat :=
  let e := s.region c.part c.descRegion
  e.shareAddr 0 (e.jetList.headD 0) (64 * (q.toNat % 2 ^ c.sizeExp))

/-- DESCRIPTOR_FETCH (R119, R120): one descriptor of the ring whose turn it is. -/
def execDescriptorFetch (basin : Nat) (s : State) : Host.Outcome State Fault Refusal :=
  .next <|
    if !s.live || !s.basinRuns basin || 6 ≤ basin then s
    else match s.nextRing basin with
      | none => s
      | some r =>
        let c := s.ring r
        let a := s.slotAddr c c.next
        (((s.updRing r fun x => { x with next := x.next + 1, held := x.held ++ [{ seq := x.next, bytes := s.read a 64 }] })
          |>.updBasin basin fun x => { x with last := some r })
          |>.request { stack := false, place := basin, purpose := .fetch r c.next }).overHoles [(a, 64)]

/-- RESERVED_OPCODE (R124, R129, R133): FORMAT, DETAIL 0, OPCODE 00h. -/
def execReservedOpcode (ring : Nat) (s : State) : Host.Outcome State Fault Refusal :=
  .next <| match s.front ring fun op => op == 0 || 0x14 ≤ op with
    | none => s
    | some h => (s.unhold ring).writeRecord ring h.seq (at' .format 0) 0 0xFF (tagOf h.bytes) (cplFenceOf h.bytes)

/-! ## FENCE (R126) -/

/-- The ring that a FENCE also waits for. -/
def fenceRing (d : List Byte) : Option Nat :=
  if bit (fieldAt d 8 2) 15 then some (fieldAt d 8 2 % 4096) else none

/-- The acceptance checks of a FENCE. -/
def State.fenceChecks (s : State) (part : Nat) (d : List Byte) : Option Verdict' :=
  (formatCheck d []).orElse fun _ => match fenceRing d with
    | some r => firstOf [((s.ring r).part ≠ part, at' .denied 8), (!(s.ring r).enable, cause 7)]
    | none => none

/-- FENCE (R126): accepted, it waits for what it names. -/
def execFence (ring : Nat) (s : State) : Host.Outcome State Fault Refusal :=
  .next <| match s.front ring (· == 0x0E) with
    | none => s
    | some h => match s.fenceChecks (s.ring ring).part h.bytes with
      | some v => s.refuse ring h v
      | none => s.takeUp ring { newJob s ring h with
          wait := match fenceRing h.bytes with
            | some r => .ring r (BitVec.ofNat 32 (fieldAt h.bytes 12 4))
            | none => .ready }

/-- Whether HEAD of a ring has passed a sequence number (R126). -/
def State.headPassed (s : State) (r : Nat) (q : Word) : Bool :=
  (s.head r - q - 1).toNat < 2 ^ 31

/-! ## Enabling and disabling (R111, R114, R440) -/

/-- The ring context with the fields of a word 0. -/
def Ring.withWord (c : Ring) (w : Nat) : Ring :=
  { c with part := bits w 1 3, sizeExp := bits w 4 5, home := bits w 9 3, haltOnRefuse := bit w 12 }

/-- Why a write of word 0 that sets ENABLE is refused, 0 if it is not: 7h, then the lowest (R111; log 118: the rule gives the
reasons no order). -/
def State.enableReason (s : State) (c : Ring) (w : Nat) : Nat :=
  let n := c.withWord w
  let d := s.region n.part c.descRegion
  let k := s.region n.part c.cplRegion
  if c.enable || c.draining then 7
  else if 16 < n.sizeExp then 1
  else if 6 ≤ n.home then 2
  else if d.kind ≠ 10 ∨ k.kind ≠ 10 then 3
  else if d.length < 2 ^ n.sizeExp * 64 ∨ k.length < 2 ^ n.sizeExp * 16 then 4
  else if (d.loc = 0 ∧ 1 < d.jetList.length) ∨ (k.loc = 0 ∧ 1 < k.jetList.length) then 5
  else if c.descRegion = c.cplRegion then 6
  else 0

/-- Report the outcome of a write of word 0 (R440). -/
def State.ringStat (s : State) (part ring reason : Nat) : State :=
  s.updOwn part fun o => { o with ringReason := reason, ringLast := ring }

/-- RING_ENABLE (R111, R440). -/
def State.ringEnable (s : State) (part : Nat) (value : Word) : State :=
  if !s.portOpen part false || !value.getLsbD 0 then s
  else
    let r := (s.ownOf part).ringSel
    let c := s.ring r
    let w := value.toNat
    if part ≠ 0 ∧ c.part ≠ part then s
    else if part ≠ 0 ∧ bits w 1 3 ≠ part then s.ringStat part r 8
    else match s.enableReason c w with
      | 0 => (s.updRing r fun c => { c.withWord w with
          enable := true, halted := false, tail := c.startSeq, next := c.startSeq }).ringStat part r 0
      | k => s.ringStat part r k

/-- RING_ENABLE at the register port (R424). -/
def execRingEnable (part : Nat) (value : Word) (s : State) : Host.Outcome State Fault Refusal :=
  .next <| s.regWrite part 0x428 value (·.ringEnable part value)

/-- The fetched, unaccepted descriptors of a ring complete SKIPPED (R114, R131). -/
def State.skipHeld (s : State) (r : Nat) : State :=
  ((s.ring r).held.foldl (fun t h =>
    (t.unhold r).writeRecord r h.seq (.skipped, 0) (opOf h.bytes) 0xFF (tagOf h.bytes) (cplFenceOf h.bytes)) s).dropFetches r

/-- A FENCE that waits for a ring has what it waits for if HEAD has passed by now; otherwise it completes REFUSED_STATE,
for the ring is being disabled (R126, R131). -/
def Job.settleWait (s : State) (r : Nat) (j : Job) : Job :=
  match j.wait with
  | .ring n q =>
    if n = r then
      if s.headPassed r q then { j with wait := .ready } else { j with wait := .ready, status := some (.refusedState, 0xFF, 7) }
    else j
  | _ => j

/-- Disable a ring (R114, R126). -/
def State.disableRing (s : State) (r : Nat) : State :=
  let t := { s with jobs := s.jobs.map (Job.settleWait s r) }
  ((t.skipHeld r).updRing r fun c =>
    { c with enable := false, halted := false, draining := true }).endDraining r

/-- RING_DISABLE: a write of word 0 with ENABLE 0 (R111, R114, R440). -/
def State.ringDisable (s : State) (part : Nat) (value : Word) : State :=
  if !s.portOpen part false || value.getLsbD 0 then s
  else
    let r := (s.ownOf part).ringSel
    let c := s.ring r
    let n := c.withWord value.toNat
    if part ≠ 0 ∧ c.part ≠ part then s
    else if part ≠ 0 ∧ n.part ≠ part then s.ringStat part r 8
    else if c.enable || c.draining then
      if n ≠ c then s.ringStat part r 7
      else (if c.enable then s.disableRing r else s).ringStat part r 0
    else (s.updRing r fun c => c.withWord value.toNat).ringStat part r 0

/-- RING_DISABLE at the register port (R424). -/
def execRingDisable (part : Nat) (value : Word) (s : State) : Host.Outcome State Fault Refusal :=
  .next <| s.regWrite part 0x428 value (·.ringDisable part value)

end Sys2Proof.Machine
end

