-- ==== Sys2Proof/Machine/Reports.lean ====
section
/-! DEFINITION. CENSUS, the writes of the Sluice queues, and the registers of the logs and of the alarm buffer (R323 to
R333, R431). -/

namespace Sys2Proof.Machine

/-! ## CENSUS (R323) -/

/-- The groups that a CENSUS names: one, or every group that the partition owns (R323). -/
def State.censusGroups (s : State) (part : Nat) (d : List Byte) : List Nat :=
  let g := fieldAt d 8 2
  if bit g 15 then (List.range 4096).filter fun k => (s.group k).owner == some part else [g % 4096]

/-- DST_OFFSET of a CENSUS. -/
def censusTo (d : List Byte) : Nat := fieldAt d 16 5

/-- A total record (R321 to R323). -/
def State.totalRecord (s : State) (group : Nat) : List Byte :=
  let owner := (s.group group).owner
  padTo 1024 ([3#8, 1#8] ++ leBytes 2 (group + 2 ^ 14 * b2n owner.isSome) ++ leBytes 2 0 ++ leBytes 1 (owner.getD 0) ++
    leBytes 1 0 ++ leBytes 4 0xFFFFFFFF ++ leBytes 52 0 ++ countBytes (if owner.isSome then s.totalSum group else []))

/-- The checks of CENSUS, in the order of R133. -/
def State.censusChecks (s : State) (part : Nat) (d : List Byte) : Option Verdict' :=
  let dst := s.operand part d 24
  let g := fieldAt d 8 2
  let n := 1024 * (s.censusGroups part d).length
  (formatCheck d []).orElse fun _ =>
  (lowest .denied [(!bit g 15 && s.groupDenied part (g % 4096), 8), (dst.kind == 0, 24)]).orElse fun _ =>
  firstOf [(dst.kind ≠ 9, at' .format 24), (n ≠ 0 && decide (dst.size < censusTo d + n), at' .bound 24),
    (s.sluice.ready ≠ 2, stationDown 7)]

/-- CENSUS (R323): the total records are written. -/
def execCensus (ring : Nat) (s : State) : Host.Outcome State Fault Refusal :=
  .next <| match s.front ring (· == 0x0F) with
  | none => s
  | some h =>
    let d := h.bytes
    let part := (s.ring ring).part
    match s.censusChecks part d with
    | some v => s.refuse ring h v
    | none =>
      let dst := s.operand part d 24
      let bs := (s.censusGroups part d).flatMap s.totalRecord
      let j := { newJob s ring h with ents := [(24, dst)], wait := .ready, status := some (.ok, 0xFF, 0) }
      if bs.isEmpty then s.refuse ring h (.empty, 0)
      else ((s.writeRegion dst 0 (censusTo d) bs).takeUp ring j).moveDue j 255 dst

/-! ## SLUICE_WRITE (R325, R328, R332) -/

/-- The log of a record: the event log, or the census log of its partition. -/
def State.logOf (s : State) (r : Queued) : Log :=
  if r.rank = 2 then Tab.get {} s.censusLogs r.part else s.sluice.log

/-- The first byte of a record in its log's region (R325, R332). -/
def State.logOffset (s : State) (r : Queued) : Nat :=
  (if r.rank = 2 then 1024 else 32) * (r.seq % 2 ^ (s.logOf r).sizeExp)

/-- The log's region: of the partition of the census log, or of partition 0 (R324, R332). -/
def State.logRegion (s : State) (r : Queued) : RegionEntry :=
  s.region (if r.rank = 2 then r.part else 0) (s.logOf r).region

/-- What a report request carries of its record: the rank, and the POUR that waits for it. -/
def Queued.detail (r : Queued) : Nat :=
  r.rank + 4 * (match r.waiter with | some w => 1 + w.1 * 2 ^ 32 + w.2.toNat | none => 0)

/-- DROP_SUMMARY of an episode (R328). -/
def dropSummary (basin : Nat) (l : List Nat) : Event' :=
  let n (k : Nat) : Nat := min (l.getD k 0) 0xFFFF
  { cls := 1, code := 0x0A, basin := basin, arg0 := n 0 + 2 ^ 16 * n 1, arg1 := n 2 + 2 ^ 16 * n 3 }

/-- A queue that has dropped records falls below 32 entries: the episode ends with its summary (R328). -/
def State.endEpisode (s : State) (b : Nat) : State :=
  let x := s.basin b
  if x.queue.length < 32 ∧ x.episode.any (· != 0) then
    (s.updBasin b fun y => { y with episode := List.replicate 4 0 }).emit (dropSummary b x.episode)
  else s

/-- A record is written to its log through the basin's fabric port; where the log is disabled by now it is not written,
and an error record counts as dropped (R324, R325, R328, R332). -/
def State.writeLog (s : State) (b : Nat) (r : Queued) : State :=
  let e := s.logRegion r
  let off := s.logOffset r
  if (s.logOf r).enable then
    (s.request { stack := false, place := b, purpose := .report, detail := r.detail
                 old := s.oldCells (e.ranges 0 off r.bytes.length) }).writeRegion e 0 off r.bytes
  else s.unlogged r.rank

/-- Whether the write of a record to its log waits for the indication of a bank (R299). -/
def State.logHeld (s : State) (r : Queued) : Bool :=
  (s.logOf r).enable && ((s.logRegion r).ranges 0 (s.logOffset r) r.bytes.length).any fun x => s.rangeHeld x.1 x.2

/-- SLUICE_WRITE (R299, R328): the oldest record of a basin's queue is written; a sleeping basin is woken first (log 33). -/
def execSluiceWrite (basin : Nat) (s : State) : Host.Outcome State Fault Refusal :=
  .next <| match (s.basin basin).queue with
  | [] => s
  | r :: rest =>
    if !s.live || 6 ≤ basin then s
    else if !s.basinRuns basin then (if (s.basin basin).resetting.isSome then s else s.wake [] [basin])
    else if s.logHeld r then s
    else ((s.updBasin basin fun b => { b with queue := rest }).writeLog basin r).endEpisode basin

/-! ## Registers of the logs (R324, R332, R333, R431) -/

/-- Whether a log's word 0 is refused: ENABLE 1 without a census region that holds the log (R324, R332). -/
def State.logRefused (s : State) (part record : Nat) (w : Nat) : Bool :=
  let e := s.region part (bits w 0 8)
  let k := bits w 9 5
  bit w 8 && (e.kind != 9 || decide (20 < k) || decide (e.size < 2 ^ k * record))

/-- A log with the fields of a word 0. -/
def Log.withWord (l : Log) (w : Nat) : Log :=
  { l with region := bits w 0 8, enable := bit w 8, sizeExp := bits w 9 5 }

/-- CENSUS_LOG_WRITE (R324, R429): word 0 of the log of partition `log`. -/
def State.censusLogWrite (s : State) (part log : Nat) (value : Word) : State :=
  if !s.portOpen part false || 8 ≤ log || !ownAccess part (some log) || s.logRefused log 1024 value.toNat then s
  else { s with censusLogs := Tab.upd {} s.censusLogs log (·.withWord value.toNat) }

/-- CENSUS_LOG_WRITE at the register port (R424). -/
def execCensusLogWrite (part log : Nat) (value : Word) (s : State) : Host.Outcome State Fault Refusal :=
  .next <| s.regWrite part (0xC0 + 2 * log) value (·.censusLogWrite part log value)

/-- SLUICE_LOG_WRITE (R332, R429): partition 0 alone writes it. -/
def State.sluiceLogWrite (s : State) (part : Nat) (value : Word) : State :=
  if !s.portOpen part false || part ≠ 0 || s.logRefused 0 32 value.toNat then s
  else { s with sluice := { s.sluice with log := { s.sluice.log.withWord value.toNat with trace := value.getLsbD 14 } } }

/-- SLUICE_LOG_WRITE at the register port (R424). -/
def execSluiceLogWrite (part : Nat) (value : Word) (s : State) : Host.Outcome State Fault Refusal :=
  .next <| s.regWrite part 0xA0 value (·.sluiceLogWrite part value)

/-- CLR_DROPS (R332): SLUICE_DROP is cleared. -/
def State.clrDrops (s : State) (part : Nat) (value : Word) : State :=
  if !s.portOpen part false || part ≠ 0 || !value.getLsbD 0 then s
  else { s with sluice := { s.sluice with drops := List.replicate 4 0 } }

/-- CLR_DROPS at the register port (R424). -/
def execClrDrops (part : Nat) (value : Word) (s : State) : Host.Outcome State Fault Refusal :=
  .next <| s.regWrite part 0xA8 value (·.clrDrops part value)

/-- ALARM_POP (R333, R431): the oldest unread record is removed, and the snapshot of it is dropped. -/
def State.alarmPop (s : State) (part : Nat) (value : Word) : State :=
  if !s.portOpen part true || part ≠ 0 || !value.getLsbD 0 then s
  else { s with sluice := { s.sluice with alarms := s.sluice.alarms.tail } }.updOwn part fun o => { o with alarm := none }

/-- ALARM_POP at the register port (R424). -/
def execAlarmPop (part : Nat) (value : Word) (s : State) : Host.Outcome State Fault Refusal :=
  .next <| s.regWrite part 0xB1 value (·.alarmPop part value)

end Sys2Proof.Machine
end

