-- ==== Sys2Proof/Machine/Registers.lean ====
section
/-! DEFINITION. The set-up registers: what each reads, and the registers of regions, programs, jets, clocks and debug (R92 to
R97, R105, R143 to R146, R221, R336, R362, R376, R386, R390, R399, R406, R415, R424, R429 to R441). -/

namespace Sys2Proof.Machine

/-! ## Region entries (R92 to R97) -/

/-- Whether a ring that is enabled or draining names an entry (R112). -/
def State.ringNames (s : State) (part entry : Nat) : Bool :=
  s.rings.any fun x => (x.2.enable || x.2.draining) && x.2.part == part &&
    (x.2.descRegion == entry || x.2.cplRegion == entry)

/-- Whether an enabled log lies in an entry (R324, R332). -/
def State.logNames (s : State) (part entry : Nat) : Bool :=
  let l : Log := Tab.get {} s.censusLogs part
  (l.enable && l.region == entry) || (part == 0 && s.sluice.log.enable && s.sluice.log.region == entry)

/-- Whether the shard that an entry names keeps the entry in use: its state, or a pin on either slot (R97). -/
def State.shardHolds (s : State) (e : RegionEntry) : Bool :=
  let h := s.shard e.shard
  e.namesShard && ((h.state != 0 && h.state != 6) || (e.slotted && (h.pins0 != 0 || h.pins1 != 0)))

/-- Whether an entry is in use (R97, R112, R324). -/
def State.entryInUse (s : State) (part entry : Nat) : Bool :=
  (s.jobs.any fun j => !j.recorded && j.part == part && j.ents.any fun x => j.entryNo x.1 == entry) ||
    s.shardHolds (s.region part entry) || s.ringNames part entry || s.logNames part entry

/-- STALE: the broken mark of the slot in force (R308). -/
def State.stale (s : State) (e : RegionEntry) : Bool :=
  if e.slotted && (s.shard e.shard).curSlot == 1 then e.broken1 else e.broken0

/-- Words 0 to 9 of an entry (R92). -/
def RegionEntry.words (e : RegionEntry) : List Nat :=
  [e.kind + 2 ^ 4 * e.format + 2 ^ 8 * e.sealKind + 2 ^ 10 * b2n e.slotted + 2 ^ 11 * e.loc + 2 ^ 12 * e.shard +
      2 ^ 18 * e.group,
    e.jets, e.base % 2 ^ 32, e.base / 2 ^ 32, e.alt % 2 ^ 32, e.alt / 2 ^ 32, e.length % 2 ^ 32, e.length / 2 ^ 32,
    e.pidx % 2 ^ 32, e.pidx / 2 ^ 32]

/-- The 16 words that a read of an entry returns (R92). -/
def State.entryWords (s : State) (part entry : Nat) : List Nat :=
  let e := s.region part entry
  e.words ++ [b2n (s.stale e) + 2 * b2n (s.entryInUse part entry), 0, 0, 0, 0, 0]

/-- The entry that a word 0 and the staged words 1 to 9 describe (R92). -/
def entryOf (w0 : Nat) (st : List Nat) : RegionEntry :=
  let w (k : Nat) : Nat := nth st (k - 1) 0
  { kind := bits w0 0 4, format := bits w0 4 4, sealKind := bits w0 8 2, slotted := bit w0 10, loc := bits w0 11 1
    shard := bits w0 12 6, group := bits w0 18 12, jets := bits (w 1) 0 24, base := w 2 + 2 ^ 32 * bits (w 3) 0 16
    alt := w 4 + 2 ^ 32 * bits (w 5) 0 16, length := w 6 + 2 ^ 32 * bits (w 7) 0 8, pidx := w 8 + 2 ^ 32 * bits (w 9) 0 8
    broken0 := bits w0 0 4 == 6, broken1 := bits w0 0 4 == 6 }

/-- Whether a reserved field of words 0 to 9 is nonzero (R92). -/
def reservedSet (w0 : Nat) (st : List Nat) : Bool :=
  let w (k : Nat) : Nat := nth st (k - 1) 0
  bits w0 30 2 != 0 || bits (w 1) 24 8 != 0 || bits (w 3) 16 16 != 0 || bits (w 5) 16 16 != 0 || bits (w 7) 8 24 != 0 ||
    bits (w 9) 8 24 != 0

/-- Whether KIND, SEAL, SLOTTED or LOC breaks R93. -/
def RegionEntry.badShape (e : RegionEntry) : Bool :=
  match e.kind with
  | 1 | 2 => e.loc != 0 || e.sealKind != 0 || !e.slotted
  | 3 => e.loc != 0 || e.sealKind != 0 || e.slotted
  | 4 | 5 => e.loc != 0 || e.sealKind != 0
  | 6 => e.loc != 0 || e.sealKind != 1
  | 7 => e.loc != 0 || e.sealKind != 2 || e.slotted
  | 8 | 9 | 10 | 11 => e.sealKind != 0 || e.slotted
  | _ => true

/-- The formats that a kind admits (R93). -/
def kindFormats (kind : Nat) : List Fmt :=
  match kind with
  | 1 => [.f32, .f64, .f16, .b16]
  | 2 => [.f32, .f64, .f16, .b16, .q8e4, .q8e5]
  | 3 => [.f32, .f16, .b16, .q8e4, .q8e5]
  | 4 => [.q4e2, .i4]
  | 6 => [.i4]
  | _ => []

/-- Whether FORMAT breaks R93. -/
def RegionEntry.badFormat (e : RegionEntry) : Bool :=
  if e.usesFormat then
    match Fmt.ofCode e.format with
    | some f => !(kindFormats e.kind).contains f
    | none => true
  else e.format != 0

/-- Whether JETS is refused (R95, reason 3h). -/
def State.badJets (s : State) (part : Nat) (e : RegionEntry) : Bool :=
  if e.loc = 1 then e.jets != 0
  else e.jetList.isEmpty || e.jetList.any fun j =>
    !s.present j || (s.jet j).part != part || ((e.kind == 6 || e.kind == 7) && !s.wellspring j)

/-- Whether the placement on the stacks is refused (R95, reason 4h). -/
def State.badPlace (s : State) (e : RegionEntry) : Bool :=
  e.loc == 0 && (e.base % 4096 != 0 || e.length % 4096 != 0 || e.length == 0 || (e.slotted && e.alt % 4096 != 0) ||
    (1 ≤ e.kind && e.kind ≤ 3 && e.perShare % 4096 != 0) ||
    e.jetList.any fun j => e.slotList.any fun k => decide (s.capacity j < e.slotBase k + e.length))

/-- Whether two ranges overlap. -/
def overlap (a n b m : Nat) : Bool :=
  a < b + m && b < a + n

/-- Whether a slot of one entry overlaps a slot of another on a common jet (R95). -/
def RegionEntry.meets (e o : RegionEntry) : Bool :=
  o.kind != 0 && o.loc == 0 && e.jetList.any o.jetList.contains &&
    e.slotList.any fun k => o.slotList.any fun l => overlap (e.slotBase k) e.length (o.slotBase l) o.length

/-- SOAK_BASE and SOAK_LEN of the directory (R339). -/
def State.soakBase (s : State) : Nat := fieldAt s.boot.directory 64 8
/-- SOAK_LEN. -/
def State.soakLen (s : State) : Nat := fieldAt s.boot.directory 72 8

/-- Whether slots overlap (R95, reason 5h); during the soak, also with the soak area (R355). -/
def State.overlaps (s : State) (key : Nat) (e : RegionEntry) : Bool :=
  e.loc == 0 && ((e.slotted && overlap e.base e.length e.alt e.length) ||
    (s.regions.any fun x => x.1 != key && e.meets x.2) ||
    (s.boot.phase == .soak && e.slotList.any fun k => overlap (e.slotBase k) e.length s.soakBase s.soakLen))

/-- Whether PIDX, GROUP or SHARD is refused (R95, reason 6h). -/
def RegionEntry.badIndex (e : RegionEntry) : Bool :=
  decide (2 ^ 40 < e.pidx + e.perShare * e.jetList.length) ||
  ((e.kind < 1 || 6 < e.kind) && (e.pidx != 0 || e.group != 0)) ||
  (!e.namesShard && e.shard != 0)

/-- The lowest reason that a commit of an entry meets, 0 for none (R95; log 117: the rule gives the reasons no order). -/
def State.entryReason (s : State) (part entry : Nat) (e : RegionEntry) (reserved : Bool) : Nat :=
  if e.badShape || reserved then 1
  else if e.badFormat then 2
  else if s.badJets part e then 3
  else if s.badPlace e then 4
  else if s.overlaps (regionKey part entry) e then 5
  else if e.badIndex then 6
  else if s.entryInUse part entry || s.shardHolds e then 7
  else if e.namesShard && (match (s.shard e.shard).owner with | some o => o != part | none => false) then 8
  else 0

/-- The kind of the ranges of a region, 0 for one that has none: landing, unsealed with plane check, unsealed without check
(R415). -/
def RegionEntry.rangeKind (e : RegionEntry) : Nat :=
  if e.kind = 3 then 1 else if e.kind = 6 then 2 else if e.kind = 7 then 3 else 0

/-- The range messages of the entry at `key`, one for each slot on each jet: RANGE_SET, or RANGE_CLR (R304, R415; log
116). -/
def RegionEntry.messages (e : RegionEntry) (key : Nat) (set : Bool) : List RangeMsg :=
  if e.rangeKind = 0 then []
  else e.jetList.flatMap fun j => e.slotList.map fun k =>
    { jet := j, index := 2 * key + k, body := if set then some (e.rangeKind, e.slotBase k, e.length) else none }

/-- A range message is acknowledged: the memory controller's table has the range, or has it no more (R415). -/
def State.ranged (s : State) (m : RangeMsg) : State :=
  let l := s.ranges.filter fun x => !(x.jet == m.jet && x.index == m.index)
  { s with ranges := match m.body with
    | some (kind, base, length) => l ++ [{ jet := m.jet, index := m.index, kind := kind, base := base, length := length }]
    | none => l }

/-- An entry takes its place in the table: a shard without an owner becomes the partition's, and one that the replaced
entry alone named is released (R92, R104). -/
def State.install (s : State) (key : Nat) (e : RegionEntry) : State :=
  let old : RegionEntry := Tab.get {} s.regions key
  let t := s.updRegion key fun _ => e
  let u := if e.namesShard then t.updShard e.shard fun h => { h with owner := some (h.owner.getD (key / 256)) } else t
  if old.namesShard then u.releaseShard old.shard else u

/-- The table that an access addresses: RT_SEL's, or the accessing partition's own (R438). -/
def State.tableOf' (s : State) (part : Nat) : Nat :=
  if part = 0 then (s.ownOf 0).rtPart else part

/-- The outcome of a write of word 0 in RT_STAT (R438). -/
def State.regionStat (s : State) (part entry reason : Nat) : State :=
  s.updOwn part fun o => { o with rtReason := reason, rtLast := entry }

/-- A commit or a clear that passed its checks: at once, or after the acknowledgements of its range messages (R304,
R415). -/
def State.placeEntry (s : State) (part table entry : Nat) (e : RegionEntry) : State :=
  let key := regionKey table entry
  let acks := (s.region table entry).messages key false ++ e.messages key true
  let t := s.regionStat part entry 0
  if acks.isEmpty then t.install key e else { t with range := some ⟨part, key, e, acks⟩ }

/-- REGION_COMMIT (R92, R95, R438). -/
def State.regionCommit (s : State) (part : Nat) (value : Word) : State :=
  let o := s.ownOf part
  let table := s.tableOf' part
  let e := entryOf value.toNat o.staging
  if !s.portOpen part false || e.kind = 0 then s
  else match s.entryReason table o.rtEntry e (reservedSet value.toNat o.staging) with
    | 0 => s.placeEntry part table o.rtEntry e
    | k => s.regionStat part o.rtEntry k

/-- REGION_COMMIT at the register port (R424). -/
def execRegionCommit (part : Nat) (value : Word) (s : State) : Host.Outcome State Fault Refusal :=
  .next <| s.regWrite part 0x410 value (·.regionCommit part value)

/-- REGION_CLEAR (R92, R95): checked for reason 7h alone. -/
def State.regionClear (s : State) (part : Nat) (value : Word) : State :=
  let entry := (s.ownOf part).rtEntry
  let table := s.tableOf' part
  if !s.portOpen part false || bits value.toNat 0 4 ≠ 0 then s
  else if s.entryInUse table entry then s.regionStat part entry 7
  else s.placeEntry part table entry {}

/-- REGION_CLEAR at the register port (R424). -/
def execRegionClear (part : Nat) (value : Word) (s : State) : Host.Outcome State Fault Refusal :=
  .next <| s.regWrite part 0x410 value (·.regionClear part value)

/-! ## The program store (R143 to R146) -/

/-- A slot of the program store. -/
def State.slot (s : State) (n : Nat) : Slot := Tab.get {} s.slots n

/-- How many loadable slots a partition holds (R146). -/
def State.slotsHeld (s : State) (part : Nat) : Nat :=
  (s.slots.filter fun x => x.2.owner == some part).length

/-- LIMIT of a partition's quota, 100h after reset (R146). -/
def State.quota (s : State) (part : Nat) : Nat := Tab.get 0x100 s.quotas part

/-- Whether an accepted descriptor that runs a slot has not completed (R144). -/
def State.slotInUse (s : State) (n : Nat) : Bool :=
  s.jobs.any fun j => !j.recorded && opOf j.desc == 3 && j.program == n

/-- Reason 9h of R145. -/
def State.slotRefused (s : State) (part n owner : Nat) : Bool :=
  n < 0x100 || 0x200 ≤ n || s.slotInUse n || (s.slot n).owner.getD owner != owner || (part != 0 && owner != part)

/-- The lowest reason that a COMMIT meets (R145). -/
def State.commitReason (s : State) (part n owner : Nat) (im : Image) (both : Bool) : Nat :=
  if imageReason im ≠ 0 then imageReason im
  else if s.slotRefused part n owner then 9
  else if (s.slot n).owner.isNone && decide (min (s.quota owner) 256 < s.slotsHeld owner + 1) then 10
  else if both then 11 else 0

/-- A write of NZ_PROG_CTL: OWNER is stored, and COMMIT or CLEAR acts (R144, R145). -/
def State.progCtl (s : State) (part v : Nat) : State :=
  let o := s.ownOf part
  let owner := bits v 4 3
  let commit := bit v 0
  let clear := bit v 1
  let reason := if commit then s.commitReason part o.progSel owner o.image clear
    else if s.slotRefused part o.progSel owner then 9 else 0
  let t := s.updOwn part fun x => { x with progOwner := owner, progReason := if commit || clear then reason else x.progReason }
  if !(commit || clear) || reason ≠ 0 then t
  else if commit then { t with slots := Tab.set {} t.slots o.progSel { owner := some owner, image := o.image } }
  else { t with slots := Tab.set {} t.slots o.progSel {} }

/-- PROGRAM_COMMIT (R144, R145). -/
def State.programCommit (s : State) (part : Nat) (value : Word) : State :=
  if !s.portOpen part false || !value.getLsbD 0 then s else s.progCtl part value.toNat

/-- PROGRAM_COMMIT at the register port (R424). -/
def execProgramCommit (part : Nat) (value : Word) (s : State) : Host.Outcome State Fault Refusal :=
  .next <| s.regWrite part 0x441 value (·.programCommit part value)

/-- PROGRAM_CLEAR (R144, R145). -/
def State.programClear (s : State) (part : Nat) (value : Word) : State :=
  if !s.portOpen part false || !value.getLsbD 1 then s else s.progCtl part value.toNat

/-- PROGRAM_CLEAR at the register port (R424). -/
def execProgramClear (part : Nat) (value : Word) (s : State) : Host.Outcome State Fault Refusal :=
  .next <| s.regWrite part 0x441 value (·.programClear part value)

/-! ## Jets and partitions (R103, R105, R437) -/

/-- Why a jet may not move, 0 if it may (R437). -/
def State.moveReason (s : State) (jet : Nat) : Nat :=
  let old := (s.jet jet).part
  if !s.present jet then 4
  else if s.regions.any fun x => x.1 / 256 == old && bit x.2.jets jet then 1
  else if s.jobs.any fun j => !j.recorded && j.part == old && j.parts.any fun p => p.jet == jet && !j.partDone p then 2
  else if (s.well jet).running.isSome || !(s.well jet).rills.isEmpty then 3
  else 0

/-- JET_MOVE (R105, R269, R437): a move that is taken clears the jet's tallies. -/
def State.jetMove (s : State) (part jet : Nat) (value : Word) : State :=
  let new := bits value.toNat 0 3
  let stat (k : Nat) : State := { s with resets := { s.resets with statReason := k, statJet := jet } }
  if !s.portOpen part false || part ≠ 0 || 24 ≤ jet then s
  else if s.present jet && (s.jet jet).part == new then stat 0
  else match s.moveReason jet with
    | 0 => (stat 0).updJet jet fun x => { x with part := new, well := { x.well with tallies := [] } }
    | k => stat k

/-- JET_MOVE at the register port (R424). -/
def execJetMove (part jet : Nat) (value : Word) (s : State) : Host.Outcome State Fault Refusal :=
  .next <| s.regWrite part (0x80 + jet) value (·.jetMove part jet value)

/-! ## Clock hold and debug (R398, R399, R406) -/

/-- CLK_HOLD_WRITE (R398, R399): the jets and basins whose bits it sets are woken. -/
def State.clkHoldWrite (s : State) (part : Nat) (value : Word) : State :=
  if !s.portOpen part false || part ≠ 0 then s
  else
    let jh := bits value.toNat 0 24
    let bh := bits value.toNat 24 6
    let js := (((bitsOf 24 jh).filter s.present).map s.engine).eraseDups
    ({ s with clocks := { s.clocks with jetHold := jh, basinHold := bh } }).wake js (bitsOf 6 bh)

/-- CLK_HOLD_WRITE at the register port (R424). -/
def execClkHoldWrite (part : Nat) (value : Word) (s : State) : Host.Outcome State Fault Refusal :=
  .next <| s.regWrite part 0x41 value (·.clkHoldWrite part value)

/-- DBG_CTL of the state (R406). -/
def State.dbgCtl (s : State) : Nat :=
  b2n s.garhal.enabled + 2 * b2n s.garhal.memEnabled + 4 * b2n s.garhal.brkEnabled

/-- DBG_CTL_WRITE (R406): record C8h for each write that sets GH_EN. -/
def State.dbgCtlWrite (s : State) (part : Nat) (value : Word) : State :=
  if !s.portOpen part false || part ≠ 0 then s
  else
    let t := { s with garhal := { s.garhal with
      enabled := value.getLsbD 0, memEnabled := value.getLsbD 1 && bit s.boot.features 3, brkEnabled := value.getLsbD 2 } }
    t.emitIf (value.getLsbD 0) { cls := 1, code := 0xC8, arg0 := t.dbgCtl }

/-- DBG_CTL_WRITE at the register port (R424). -/
def execDbgCtlWrite (part : Nat) (value : Word) (s : State) : Host.Outcome State Fault Refusal :=
  .next <| s.regWrite part 0x43 value (·.dbgCtlWrite part value)

/-! ## Firmware cores (R381, R384, R386) -/

/-- The cores that are present: the engines that serve jets, the basin controllers of basins with jets, and the Warden
(R381). -/
def State.cores (s : State) : List Nat :=
  (s.jetsPresent.filter fun j => (s.jet j).adopter.isNone && !(s.jet j).bad) ++
    (List.range s.basinsWithJets).map (24 + ·) ++ [30]

/-- CHUNKS of the staged manifest, once its header is verified (R381, R386). -/
def Warden.chunks (w : Warden) : Nat := fieldAt (Tab.get [] w.manifest 0) 12 2

/-- The chunks of the staged image that some core present lacks, ascending (R386). -/
def State.missing (s : State) : List Nat :=
  (List.range s.warden.chunks).filter fun k => s.cores.any fun c => bit (Tab.get 0 s.warden.lacks c) k

/-! ## What registers read (R433) -/

/-- BOOT_STAT's code of a phase (R336). -/
def Phase.code : Phase → Nat
  | .rom => 0 | .waitGo => 1 | .verify => 2 | .map => 3 | .load => 4 | .test => 5 | .soak => 6 | .run => 7 | .halted => 15

/-- BOOT_STAT (R336). -/
def State.bootStat (s : State) : Nat :=
  s.boot.phase.code + 2 ^ 4 * s.boot.reason + 2 ^ 12 * b2n s.boot.warm + 2 ^ 13 * b2n s.boot.retValid +
    2 ^ 14 * b2n s.boot.soakDone + 2 ^ 15 * b2n s.boot.soakFail

/-- CAPSULE_STAT (R338). -/
def State.capsuleStat (s : State) : Nat :=
  if s.boot.verified && s.boot.phase != .halted then
    s.boot.variant + 2 ^ 2 * s.boot.wcfg + 2 ^ 4 * s.boot.features + 2 ^ 8 * 0x10
  else 0

/-- CAPSULE_SERIAL (R338). -/
def State.capsuleSerial (s : State) : Nat :=
  if s.boot.verified && s.boot.phase != .halted then s.boot.serial else 0

/-- A mask with a bit for each number that `p` holds of. -/
def maskOf (n : Nat) (p : Nat → Bool) : Nat :=
  ((List.range n).filter p).foldl (fun m i => m + 2 ^ i) 0

/-- CLK_STAT (R399): a clock does not run while its engine or controller is halted, nor while the block is frozen (R401,
R409). -/
def State.clkStat (s : State) : Nat :=
  let on := s.clocks.freeze != .frozen
  maskOf 24 (fun j => on && s.present j && (s.jet (s.engine j)).awake && !(s.jet (s.engine j)).halted) +
    2 ^ 24 * maskOf 6 (fun b => on && (s.basin b).awake && !(s.basin b).halted) +
    2 ^ 30 * b2n (s.jets.any (·.2.halted) || s.basins.any (·.2.halted))

/-- READY of a jet (R436). -/
def State.readyWord (s : State) (j : Nat) : Nat :=
  (List.range 6).foldl (fun v k => v + 4 ^ k * s.code j k) 0

/-- Whether TEST has ended, from when HEALTH, AGE_GAUGE and AGE_PLAN hold values (R376). -/
def State.tested (s : State) : Bool :=
  s.boot.phase == .soak || s.boot.phase == .run

/-- The other logical jet of an adoption (R376). -/
def State.partner (s : State) (j : Nat) : Option Nat :=
  ((s.jet j).adopter).orElse fun _ => (s.jets.find? fun x => x.2.adopter == some j).map (·.1)

/-- HEALTH of a jet (R376). -/
def State.health (s : State) (j : Nat) : Nat :=
  let e := s.jet (s.engine j)
  if !s.present j then 0
  else if !s.tested then 2 ^ 8 * 0x1F
  else e.laneSpares + 2 ^ 4 * b2n e.rowSpare + 2 ^ 5 * b2n e.colSpare + 2 ^ 6 * b2n (s.jet j).adopter.isSome +
    2 ^ 7 * b2n (s.jets.any fun x => x.2.adopter == some j) + 2 ^ 8 * (s.partner j).getD 0x1F +
    2 ^ 13 * (if s.wellspring j then (s.well j).spares.sum else 0)

/-- FAULT_CNT of a jet (R376). -/
def State.faultCnt (s : State) (j : Nat) : Nat :=
  let x := s.jet j
  if s.present j then x.transient + 2 ^ 16 * x.corrected else 0

/-- AGE_GAUGE of a jet (R376). -/
def State.ageGauge (s : State) (j : Nat) : Nat :=
  let x := s.jet j
  if s.present j && s.tested then x.margin + 2 ^ 8 * x.guard else 0

/-- HEALTH, FAULT_CNT and AGE_GAUGE of a jet as they are read: while it sleeps, as they were when its clock stopped (R432). -/
def State.heldRegs (s : State) (j : Nat) : Nat × Nat × Nat :=
  ((s.jet j).asleep).getD (s.health j, s.faultCnt j, s.ageGauge j)

/-- AGE_PLAN of a basin (R376). -/
def State.agePlan (s : State) (b : Nat) : Nat :=
  let x := s.basin b
  if !s.tested || !s.boot.verified || s.basinsWithJets ≤ b then 0
  else x.vreq + 2 ^ 4 * x.linkMargin + 2 ^ 12 * x.up.spare + 2 ^ 14 * x.dn.spare + 2 ^ 16 * b2n x.up.out +
    2 ^ 17 * b2n x.dn.out

/-- Words of a ring context (R110). -/
def State.ringWord (s : State) (r w : Nat) : Nat :=
  let c := s.ring r
  match w with
  | 0 => b2n c.enable + 2 * c.part + 2 ^ 4 * c.sizeExp + 2 ^ 9 * c.home + 2 ^ 12 * b2n c.haltOnRefuse +
      2 ^ 13 * b2n c.halted + 2 ^ 14 * b2n c.draining
  | 1 => c.descRegion + 2 ^ 8 * c.cplRegion
  | 2 => (s.head r).toNat
  | 3 => c.tail.toNat
  | 4 => c.haltSeq.toNat
  | 5 => c.startSeq.toNat
  | _ => 0

/-- Words of a shard context (R221). -/
def State.shardWord (s : State) (n w : Nat) : Nat :=
  let h := s.shard n
  match w with
  | 0 => h.state + 2 ^ 4 * h.curSlot + 2 ^ 5 * b2n h.pouredOnce + 2 ^ 6 * b2n h.rewindable + 2 ^ 7 * b2n h.verdictHeld +
      2 ^ 8 * h.verdict + 2 ^ 10 * b2n h.restillDue + 2 ^ 11 * b2n h.firstPass + 2 ^ 12 * b2n h.stillDone +
      2 ^ 13 * b2n (s.stillBusy n) + 2 ^ 14 * h.torn.length + 2 ^ 19 * b2n h.tornOverflow + 2 ^ 20 * h.lastOutcome +
      2 ^ 22 * b2n h.lastGValid + 2 ^ 23 * b2n h.priorGValid
  | 1 => h.curEpoch.toNat
  | 2 => h.prevEpoch.toNat
  | 3 => h.openEpoch.toNat
  | 4 => h.stepNo.toNat
  | 5 => h.attempt
  | 6 => h.lastG.toNat
  | 7 => h.priorG.toNat
  | 8 => h.heldG.toNat
  | 9 => h.redelivered + 2 ^ 16 * h.discarded
  | 10 => h.prevStep.toNat
  | _ => 0

/-- The stray writes of a shard that sleeping jets hold (R432). -/
def State.napped (s : State) (n : Nat) : Nat :=
  (s.jets.map fun x => Tab.get 0 x.2.naps n).sum

/-- Words of WEIR_STAT (R441); of what sleeping jets count, as it stood when their clocks stopped (R432; log 119). -/
def State.weirWord (s : State) (n w : Nat) : Nat :=
  let h := s.shard n
  match w with
  | 0 => h.figures.epoch.toNat
  | 1 => h.figures.sumsq.toNat
  | 2 => h.figures.nonfin.toNat
  | 3 => b2n h.figures.valid + 2 * b2n h.figures.empty
  | w =>
    let k := (w - 4) / 2
    let c := Tab.get 0 h.landing k - (if k = 11 then s.napped n else 0)
    if w % 2 = 0 then c % 2 ^ 32 else c / 2 ^ 32

/-- NZ_PROG_STAT (R144). -/
def State.progStat (s : State) (o : Own) : Nat :=
  let x := s.slot o.progSel
  o.progReason + 2 ^ 4 * b2n (x.owner.isSome || (builtin o.progSel).isSome) + 2 ^ 5 * x.owner.getD 0 +
    2 ^ 8 * b2n (s.slotInUse o.progSel)

/-- The image that a read of NZ_PROG_WIN shows (R144, R433). -/
def State.shownImage (s : State) (part n : Nat) : Image :=
  let x := s.slot n
  if n < 0x100 then (builtin n).getD [] else if part = 0 ∨ x.owner = some part then x.image else []

/-- The registers that every boot phase serves (R435). -/
def earlyAddr (a : Nat) : Bool :=
  a ≤ 6 || (0x10 ≤ a && a < 0x2C) || a == 0xB0 || a == 0xB1 || (0xB8 ≤ a && a < 0xC0)

/-- The registers held in the jets (R432, R433). -/
def inJet (a : Nat) : Bool :=
  (0x100 ≤ a && a < 0x158) || (0x1000 ≤ a && a < 0x1800)

/-- Registers of the boot, the identity, the clocks, the resets and the ready codes: 0000h to 009Fh. -/
def State.lowReg (s : State) (a : Nat) : Nat :=
  if a = 0 then 0x2410
  else if a = 1 then s.boot.dir % 2 ^ 32
  else if a = 2 then s.boot.dir / 2 ^ 32
  else if a = 3 then 2 * b2n s.boot.fullTest + 4 * b2n s.boot.soakReq
  else if a = 4 then s.bootStat
  else if a = 5 then s.capsuleStat
  else if a = 6 then s.capsuleSerial
  else if a = 7 then s.boot.soakStat
  else if 0x10 ≤ a ∧ a < 0x28 then fieldAt s.warden.idPub (4 * (a - 0x10)) 4
  else if 0x28 ≤ a ∧ a < 0x2C then fieldAt s.warden.idDigest (4 * (a - 0x28)) 4
  else if a = 0x40 then s.clocks.sleepIdle
  else if a = 0x41 then s.clocks.jetHold + 2 ^ 24 * s.clocks.basinHold
  else if a = 0x42 then s.clkStat
  else if a = 0x43 then s.dbgCtl
  else if a = 0x44 then b2n s.resets.jetMode + 2 * b2n s.resets.basinMode + 4 * b2n s.resets.wholeMode
  else if a = 0x45 then
    maskOf 8 (fun p => (Tab.get none s.resets.parts p).isSome) + 2 ^ 8 * maskOf 6 (fun b => (s.basin b).resetting.isSome)
  else if a = 0x46 then maskOf 24 fun j => s.present j && (s.jet (s.engine j)).resetting.isSome
  else if a = 0x48 then s.pourReady + 4 * s.sluice.ready + 16 * s.warden.ready
  else if 0x60 ≤ a ∧ a < 0x78 then s.readyWord (a - 0x60)
  else if 0x80 ≤ a ∧ a < 0x98 then (if s.present (a - 0x80) then (s.jet (a - 0x80)).part else 0)
  else if a = 0x98 then s.resets.statReason + 2 ^ 4 * s.resets.statJet
  else 0

/-- Word 0 of a log (R324, R332). -/
def Log.word (l : Log) : Nat :=
  l.region + 2 ^ 8 * b2n l.enable + 2 ^ 9 * l.sizeExp + 2 ^ 14 * b2n l.trace

/-- A word of ALARM_HEAD (R333, R431). -/
def State.alarmWord (s : State) (part k : Nat) : Nat :=
  let oldest := s.sluice.alarms.headD []
  fieldAt (if k = 0 then oldest else (s.ownOf part).alarm.getD oldest) (4 * k) 4

/-- Registers of the Sluice, the logs and the jets' health: 00A0h to 01FFh. -/
def State.midReg (s : State) (part a : Nat) : Nat :=
  if a = 0xA0 then s.sluice.log.word
  else if a = 0xA1 then s.sluice.log.next.toNat
  else if 0xA4 ≤ a ∧ a < 0xA8 then s.sluice.drops.getD (a - 0xA4) 0
  else if a = 0xB0 then s.sluice.alarms.length
  else if 0xB8 ≤ a ∧ a < 0xC0 then (if part = 0 then s.alarmWord part (a - 0xB8) else 0)
  else if 0xC0 ≤ a ∧ a < 0xD0 then
    let p := (a - 0xC0) / 2
    let l : Log := Tab.get {} s.censusLogs p
    if !ownAccess part (some p) then 0 else if a % 2 = 0 then l.word else l.next.toNat
  else if 0x100 ≤ a ∧ a < 0x118 then (s.heldRegs (a - 0x100)).1
  else if 0x120 ≤ a ∧ a < 0x138 then (s.heldRegs (a - 0x120)).2.1
  else if 0x140 ≤ a ∧ a < 0x158 then (s.heldRegs (a - 0x140)).2.2
  else if 0x160 ≤ a ∧ a < 0x166 then s.agePlan (a - 0x160)
  else 0

/-- Registers of the firmware and of the keys: 0200h to 03FFh. -/
def State.keyReg (s : State) (part a : Nat) : Nat :=
  let w := s.warden
  if a = 0x200 then w.fwRun
  else if a = 0x201 then w.fwStage
  else if a = 0x202 then
    b2n w.manifestOk + 2 * w.chunks + 2 ^ 10 * s.missing.length + 2 ^ 19 * b2n w.activating
  else if 0x208 ≤ a ∧ a < 0x210 then maskOf 32 fun k => s.missing.contains (32 * (a - 0x208) + k)
  else if 0x240 ≤ a ∧ a < 0x258 then fieldAt w.peer (4 * (a - 0x240)) 4
  else if a = 0x258 then w.chip
  else if a = 0x259 then w.number + 2 ^ 16 * w.keyPart + 2 ^ 19 * w.target
  else if a = 0x25A then w.reason + 2 ^ 4 * b2n w.busy
  else if 0x260 ≤ a ∧ a < 0x278 then fieldAt w.keyOut (4 * (a - 0x260)) 4
  else if 0x280 ≤ a ∧ a < 0x298 then fieldAt w.keySig (4 * (a - 0x280)) 4
  else if 0x2A0 ≤ a ∧ a < 0x2A8 then fieldAt w.keySalt (4 * (a - 0x2A0)) 4
  else if a = 0x2A8 then ((w.sessions.head?).map (·.number)).getD 0 + 2 ^ 16 * w.sessions.length
  else if 0x2B0 ≤ a ∧ a < 0x2B8 then
    let p := a - 0x2B0
    let k : ExportKey := Tab.get {} w.exports p
    if ownAccess part (some p) then k.keyId + 2 ^ 16 * b2n k.valid else 0
  else 0

/-- Registers of the region table, the rings and the programs: 0400h to 07FFh (R430, R438, R440). -/
def State.selfReg (s : State) (part a : Nat) : Nat :=
  let o := s.ownOf part
  if a = 0x400 then o.rtEntry + 2 ^ 8 * s.tableOf' part
  else if a = 0x401 then o.rtReason + 2 ^ 4 * o.rtLast
  else if 0x410 ≤ a ∧ a < 0x420 then nth (s.entryWords (s.tableOf' part) o.rtEntry) (a - 0x410) 0
  else if a = 0x420 then o.ringSel
  else if a = 0x421 then o.ringReason + 2 ^ 4 * o.ringLast
  else if 0x428 ≤ a ∧ a < 0x430 then
    if part = 0 ∨ (s.ring o.ringSel).part = part then s.ringWord o.ringSel (a - 0x428) else 0
  else if a = 0x440 then o.progSel
  else if a = 0x441 then 2 ^ 4 * o.progOwner
  else if a = 0x442 then s.progStat o
  else if 0x448 ≤ a ∧ a < 0x450 then
    let p := a - 0x448
    if ownAccess part (some p) then s.quota p + 2 ^ 16 * s.slotsHeld p else 0
  else if 0x500 ≤ a ∧ a < 0x5C0 then
    bits (nth (s.shownImage part o.progSel) ((a - 0x500) / 2) 0) (32 * (a % 2)) 32
  else 0

/-- The shard whose context or WEIR_STAT lies at an address. -/
def shardAt (a : Nat) : Nat :=
  if a < 0x1000 then (a - 0x800) / 16 else (a - 0x1000) / 32

/-- Shard contexts and WEIR_STAT: 0800h to 17FFh. -/
def State.shardReg (s : State) (part a : Nat) : Nat :=
  let n := shardAt a
  if !ownAccess part (s.shard n).owner then 0
  else if a < 0x1000 then (if a % 16 < 12 then s.shardWord n (a % 16) else 0)
  else if a % 32 < 28 then s.weirWord n (a % 32) else 0

/-- What a read of a register returns to a partition, latches aside (R429, R433). -/
def State.regValue (s : State) (part a : Nat) : Nat :=
  if a < 0xA0 then s.lowReg a
  else if a < 0x200 then s.midReg part a
  else if a < 0x400 then s.keyReg part a
  else if a < 0x800 then s.selfReg part a
  else if a < 0x1800 then s.shardReg part a
  else 0

/-- Whether an address is a word of a 48-bit counter of WEIR_STAT. -/
def counterWord (a : Nat) : Bool :=
  0x1000 ≤ a && a < 0x1800 && 4 ≤ a % 32 && a % 32 < 28

/-- A read of a register at an open port: the value, and the latches it sets or uses (R431). -/
def State.regRead (s : State) (part a : Nat) : State × Nat :=
  if counterWord a && a % 2 == 0 then
    (s.updOwn part fun o => { o with counter := Tab.set none o.counter (a + 1) (some (s.regValue part (a + 1))) },
      s.regValue part a)
  else if counterWord a then
    match Tab.get none (s.ownOf part).counter a with
    | some v => (s.updOwn part fun o => { o with counter := Tab.set none o.counter a none }, v)
    | none => (s, s.regValue part a)
  else if a = 0xB8 ∧ part = 0 then
    (s.updOwn part fun o => { o with alarm := some (s.sluice.alarms.headD []) }, s.regValue part a)
  else (s, s.regValue part a)

/-- A register read through the port of a partition: a phase that does not serve the register reads 0 (R435). -/
def State.portRead (s : State) (part a : Nat) : State :=
  if s.portOpen part false || earlyAddr a then
    let r := s.regRead part a
    { r.1 with portReply := r.2 }
  else { s with portReply := 0 }

/-- COUNTER_LOW_READ (R431): the low word, its high word latched. A read of another address is served as R433 has it. -/
def execCounterLowRead (part addr : Nat) (s : State) : Host.Outcome State Fault Refusal :=
  .next <| s.regReadAt part addr (·.portRead part addr)

/-- ALARM_HEAD_READ (R333, R431): word 0 of the oldest unread record, which words 1 to 7 then return. -/
def execAlarmHeadRead (part : Nat) (s : State) : Host.Outcome State Fault Refusal :=
  .next <| s.regReadAt part 0xB8 (·.portRead part 0xB8)

/-! ## Writes of registers that have no row of their own -/

/-- Word `k` of a key register replaced. -/
def putWord (l : List Byte) (k v : Nat) : List Byte := putBytes l (4 * k) (leBytes 4 v)

/-- One half of a word of the staged image replaced (R144). -/
def putHalf (im : Image) (k v : Nat) : Image :=
  modAt (fun x => if k % 2 = 0 then v + 2 ^ 32 * (x / 2 ^ 32) else x % 2 ^ 32 + 2 ^ 32 * v) im (k / 2)

/-- A write of word 1 or 5 of a ring context (R111, R440). -/
def State.ringSetup (s : State) (part : Nat) (f : Ring → Ring) : State :=
  let r := (s.ownOf part).ringSel
  let c := s.ring r
  if part ≠ 0 ∧ c.part ≠ part then s
  else if c.enable || c.draining then s.ringStat part r 7
  else s.updRing r f

/-- KEYX_PEER, KEYX_CHIP and KEYX_CTL without GO (R388 to R390, R433). -/
def State.keyWrite (s : State) (part a v : Nat) : State :=
  let w := s.warden
  if a < 0x258 then { s with warden := { w with peer := putWord w.peer (a - 0x240) v } }
  else if a = 0x258 then { s with warden := { w with chip := v } }
  else if part = 0 ∨ (bit v 19 ∧ bits v 16 3 = part) then
    { s with warden := { w with number := bits v 0 16, keyPart := bits v 16 3, target := bits v 19 1 } }
  else s

/-- The modes that a write of RESET_CTL sets (R362, R439). -/
def State.resetModes (s : State) (v : Nat) : State :=
  { s with resets := { s.resets with jetMode := bit v 0, basinMode := bit v 1, wholeMode := bit v 2 } }

/-- A write of a register that has no row of its own (R429, R433): the registers' own fields, and nothing elsewhere. -/
def State.plainWrite (s : State) (part a v : Nat) : State :=
  let p0 := part = 0
  if a = 1 ∧ p0 then { s with boot := { s.boot with dir := v + 2 ^ 32 * (s.boot.dir / 2 ^ 32) } }
  else if a = 2 ∧ p0 then { s with boot := { s.boot with dir := s.boot.dir % 2 ^ 32 + 2 ^ 32 * bits v 0 16 } }
  else if a = 3 ∧ p0 then { s with boot := { s.boot with fullTest := bit v 1, soakReq := bit v 2 } }
  else if a = 0x40 ∧ p0 then { s with clocks := { s.clocks with sleepIdle := bits v 0 16 } }
  else if a = 0x44 ∧ p0 then s.resetModes v
  else if 0x240 ≤ a ∧ a < 0x25A then s.keyWrite part a v
  else if a = 0x400 then
    s.updOwn part fun o => { o with rtEntry := bits v 0 8, rtPart := if p0 then bits v 8 3 else o.rtPart }
  else if 0x411 ≤ a ∧ a < 0x41A then s.updOwn part fun o => { o with staging := modAt (fun _ => v) o.staging (a - 0x411) }
  else if a = 0x420 then s.updOwn part fun o => { o with ringSel := bits v 0 12 }
  else if a = 0x429 then s.ringSetup part fun c => { c with descRegion := bits v 0 8, cplRegion := bits v 8 8 }
  else if a = 0x42D then s.ringSetup part fun c => { c with startSeq := BitVec.ofNat 32 v }
  else if a = 0x440 then s.updOwn part fun o => { o with progSel := bits v 0 16 }
  else if a = 0x441 then s.progCtl part v
  else if 0x448 ≤ a ∧ a < 0x450 ∧ p0 then { s with quotas := Tab.set 0x100 s.quotas (a - 0x448) (bits v 0 9) }
  else if 0x500 ≤ a ∧ a < 0x5C0 then s.updOwn part fun o => { o with image := putHalf o.image (a - 0x500) v }
  else s

end Sys2Proof.Machine
end

