-- ==== Sys2Proof/Machine/Soak.lean ====
section
/-! DEFINITION. The dense soak: its data, its area, its sweeps and its digests (R356, R357). -/

namespace Sys2Proof.Machine

/-- Output word 0 of the generator for parameter `i`, stream `stream` (0 w, 1 m, 2 v, 3 g) and a sweep (R47, R356). -/
def soakWord (seed i stream sweep : Nat) : Nat :=
  (philoxRounds 10 (bits seed 0 32) (bits seed 32 32)
    (i % 2 ^ 32, bits i 32 8 + stream * 2 ^ 8 + 0xF * 2 ^ 16, sweep % 2 ^ 32, 0)).1

/-- The F32 value of a generator word: (−1)^bit31 × (1 + bits[22:0] × 2^-23) × 2^(−1 − bits[30:28]) (R356). -/
def soakF32 (w : Nat) : Nat :=
  2 ^ 31 * bits w 31 1 + 2 ^ 23 * (126 - bits w 28 3) + bits w 0 23

/-- The value of a stream: v takes the magnitude, and g is rounded to B16 under RNE (R356). -/
def soakValue (seed i stream sweep : Nat) : Nat :=
  let x := soakF32 (soakWord seed i stream sweep)
  if stream = 2 then x % 2 ^ 31 else if stream = 3 then (convert .f32 .b16 .rne 0 x).1 else x

/-- P: the parameters of a soak area (R356). -/
def soakParams (len : Nat) : Nat := 4096 * (len / 111104)

/-- The byte of stream `stream` (0 w, 1 m, 2 v) in a slot, from the base of the area (R356). -/
def soakSlot (p stream slot : Nat) : Nat := 8 * p * stream + 4 * p * slot
/-- The byte of the gradient. -/
def soakGrad (p : Nat) : Nat := 24 * p
/-- The byte of mould tile `t`. -/
def soakMould (p t : Nat) : Nat := 26 * p + 0x1200 * t

/-- The environment of the soak's AdamW (R184, R356): lr, β1, β2, ε, λ, and K14 = K15 = 1.0. -/
def soakEnv (seed : Nat) : NzEnv :=
  { image := adamW, inFmts := [.f32, .b16, .f32, .f32, .f32, .f32], outFmts := [.f32, .f32, .f32, .f32], seed := seed
    consts := [0x3A800000, 0x3F600000, 0x3F700000, 0x35800000, 0x3C000000] ++ List.replicate 9 0 ++ [one32, one32] }

/-- The elements of a tile as they enter the Nozzle (R148). -/
def soakElems (ws gs ms vs : List Nat) : List Elem :=
  (List.range 4096).map fun i =>
    let g := nth gs i 0
    { ins := [nth ws i 0, (loadElement .b16 g).1, nth ms i 0, nth vs i 0, 0, 0]
      raws := [nth ws i 0, g, nth ms i 0, nth vs i 0, 0, 0] }

/-- The new w, m and v of a tile (R184, R356). -/
def soakTile (seed : Nat) (es : List Elem) : List (List Nat) :=
  let env := soakEnv seed
  let is := progInsns env.image
  let t : NzTile := { i0 := 0, pidx := 0, stamp := 0, present := true, start := 0, counts := (tileCounts env 4096).1
                      groups := [] }
  let out := ((List.range is.length).zip is).foldl (fun (acc : List Elem) x => (execGroup env t (x.1 + 1) x.2 0 acc [] none).1) es
  (List.range 3).map fun k => out.map fun e => (e.outs.getD k none).getD 0

/-- What Cast makes of a tile of the soak: Q4E2, row direction, block 32, RNE, no dross, θ = 2.0 (R356). -/
def soakCast (seed epoch t : Nat) (ws : List Nat) : List (Nat × List Byte) :=
  (castTile { fmt := .f32, codes := ws, pidx := (List.range 4096).map (4096 * t + ·), ctl := 8, rnd := .rne, mould := true
              dross := false, plane := false, skimK := 0, errK := 0x40000000, seed := seed, epoch := epoch }).mould

/-- Four-byte codes from an address on. -/
def State.readWords (s : State) (a n : Nat) : List Nat :=
  (chunksOf 4 n (s.read a (4 * n))).map ofLe

/-- Sweep 0 on a stack: w, m and v into slot 0 (R356). `base`: the fabric address of the area. -/
def State.soakInit (s : State) (base p seed : Nat) : State :=
  (List.range 3).foldl (fun u k =>
    u.write (base + soakSlot p k 0) ((List.range p).flatMap fun i => leBytes 4 (soakValue seed i k 0))) s

/-- Tile `t` of sweep `k` on a stack (R356). -/
def State.soakTileAt (s : State) (base p seed epoch k t : Nat) : State :=
  let from' := (k - 1) % 2
  let to' := k % 2
  let o := 4 * 4096 * t
  let gs := (List.range 4096).map fun i => soakValue seed (4096 * t + i) 3 k
  let rd (n : Nat) : List Nat := s.readWords (base + soakSlot p n from' + o) 4096
  let outs := soakTile seed (soakElems (rd 0) gs (rd 1) (rd 2))
  let u := s.write (base + soakGrad p + 2 * 4096 * t) (gs.flatMap (leBytes 2))
  let v := (List.range 3).foldl (fun u n => u.write (base + soakSlot p n to' + o) ((nth outs n []).flatMap (leBytes 4))) u
  (soakCast seed epoch t (nth outs 0 [])).foldl (fun u w => u.write (base + soakMould p t + w.1) w.2) v

/-- Sweep `k` on a stack (R356). -/
def State.soakSweep (s : State) (base p seed epoch k : Nat) : State :=
  if k = 0 then s.soakInit base p seed
  else (List.range (p / 4096)).foldl (fun u t => u.soakTileAt base p seed epoch k t) s

/-- The digest of a stack after sweep `k`: the master slot written last, then the mould tiles (R357). -/
def State.soakDigest (s : State) (base p k : Nat) : List Byte :=
  (sha384 (s.read (base + soakSlot p 0 (k % 2)) (4 * p) ++ s.read (base + soakMould p 0) (0x1200 * (p / 4096)))).take 16

end Sys2Proof.Machine
end

