-- ==== Sys2Proof/Machine/Boot.lean ====
section
/-! DEFINITION. The boot: identity, directory, capsule, flaw map, manifest, the logical-to-physical map, the stations' self-tests,
the temper record, and the phases of the soak (R334 to R358, R377, R380, R381). -/

namespace Sys2Proof.Machine

/-- A boot that cannot continue: PHASE HALTED, REASON, an alarm record, every fast clock stopped (R350). The manual gives
the alarm's CODE and arguments no value: they are free (log 34). -/
def State.haltBoot (s : State) (reason : Nat) : State :=
  let f (k : Nat) : Nat := (Config.freeWord (s.free + k)).toNat
  let t := (s.draw 3).emit { cls := 0, code := f 0 % 2 ^ 8, arg0 := f 1 % 2 ^ 32, arg1 := f 2 % 2 ^ 32 }
  ({ t with
    boot := { t.boot with phase := .halted, reason := reason }
    jets := Tab.mapVals {} (fun _ x => { x with awake := false, waking := false }) t.jets
    basins := Tab.mapVals {} (fun _ x => { x with awake := false, waking := false }) t.basins } : State).settleOwners

/-- Whether bytes of a record are all zero. -/
def zeros (l : List Byte) (at' n : Nat) : Bool :=
  (sliceAt l at' n).all (· == 0#8)

/-! ## ROM and GO (R336, R337, R377, R380) -/

/-- The 48 bytes of the root secret (R377). -/
def rootBytes : List Byte := beBytes 48 Config.pufRoot.toNat

/-- The retention file is cleared (R348, R353). -/
def Boot.forget (b : Boot) : Boot :=
  { b with retValid := false, retSeq := 0, retSeal := List.replicate 32 0#8 }

/-- GO takes effect: PHASE VERIFY, and the controller of basin 0 wakes. A full path that is known at once clears the
retention file (R337, R348). -/
def State.startBoot (s : State) : State :=
  let b := s.boot
  { s with
    boot := { (if b.fullTest || !b.retValid then b.forget else b) with phase := .verify, goHeld := false }
    basins := Tab.upd {} s.basins 0 fun x => { x with awake := true } }

/-- BOOT_GO (R336, R337): held during ROM, taken in WAIT_GO, ignored from VERIFY on. -/
def State.bootGo (s : State) (part : Nat) (value : Word) : State :=
  if !s.portOpen part true || part ≠ 0 || !value.getLsbD 0 then s
  else
    let t := s.plainWrite part 3 value.toNat
    match t.boot.phase with
    | .rom => { t with boot := { t.boot with goHeld := true } }
    | .waitGo => t.startBoot
    | _ => t

/-- BOOT_GO at the register port (R424). -/
def execBootGo (part : Nat) (value : Word) (s : State) : Host.Outcome State Fault Refusal :=
  .next <| s.regWrite part 3 value (·.bootGo part value)

/-- The identity of the device: private key, public key, and the 16 bytes of DEVICE (R377, R380). -/
def State.identify (s : State) : State :=
  let d := identityKey rootBytes
  let pub := pointBytes (pointMul d p384G)
  { s with warden := { s.warden with root := rootBytes, idKey := d, idPub := pub, idDigest := (sha384 pub).take 16 } }

/-- ROM_DONE (R337, R377): the identity is derived and WAIT_GO entered; a GO that was held takes effect. -/
def execRomDone (pufOk : Bool) (s : State) : Host.Outcome State Fault Refusal :=
  .next <|
    if !s.open? || s.boot.phase ≠ .rom then s
    else if !pufOk then s.haltBoot 0x0C
    else
      let t := { s.identify with boot := { s.boot with phase := .waitGo } }
      if s.boot.goHeld then t.startBoot else t

/-! ## Directory, capsule, flaw map, manifest (R339 to R344, R381) -/

/-- Whether the boot directory is malformed (R339, R350); the soak's fields are read only when SOAK is 1. -/
def directoryBad (dir : Nat) (soak : Bool) (d : List Byte) : Bool :=
  dir % 128 != 0 || fieldAt d 0 1 != 0x20 || fieldAt d 1 1 != 1 || !zeros d 2 6 || !zeros d 14 2 || !zeros d 22 2 ||
    !zeros d 28 4 || !zeros d 38 2 || !zeros d 46 2 || !zeros d 52 4 || !zeros d 62 2 || !zeros d 84 4 || !zeros d 112 16 ||
    fieldAt d 16 6 % 4096 != 0 || fieldAt d 56 6 % 4096 != 0 || fieldAt d 24 4 % 4096 != 0 ||
    decide (0x100000 < fieldAt d 24 4) || (soak && fieldAt d 64 8 % 4096 != 0)

/-- Whether a record signed by Haresk verifies: the signature over the digest of the first `n` bytes (R340, R379). -/
def haresk (l : List Byte) (n : Nat) : Bool :=
  ecdsaVerify (beBytes 96 Config.romKey.toNat) (sha384 (l.take n)) (sliceAt l n 96)

/-- The REASON that a capsule halts the boot with, 0 for none (R340, R341, R350). -/
def capsuleReason (c device : List Byte) : Nat :=
  if fieldAt c 0 1 ≠ 0x10 ∨ fieldAt c 1 1 ≠ 1 ∨ !zeros c 2 2 ∨ !zeros c 7 1 ∨ !zeros c 32 128 ∨ 3 ≤ fieldAt c 5 1 ∨
      3 ≤ fieldAt c 6 1 ∨ 16 ≤ fieldAt c 8 4 ∨ !haresk c 160 then 2
  else if fieldAt c 4 1 ≠ 0x10 then 3
  else if sliceAt c 16 16 ≠ device then 4
  else 0

/-- COUNT of a flaw map (R343). -/
def flawCount (m : List Byte) : Nat := fieldAt m 2 2

/-- An entry of a flaw map (R344). -/
structure Flaw where
  kind : Nat
  basin : Nat
  port : Nat
  index : Nat
  deriving DecidableEq, Repr

/-- The entries of a flaw map (R343, R344). -/
def flaws (m : List Byte) : List Flaw :=
  (List.range (flawCount m)).map fun e =>
    let f (k n : Nat) : Nat := fieldAt m (64 + 8 * e + k) n
    ⟨f 0 1, f 1 1, f 2 1, f 4 2⟩

/-- The highest INDEX of a kind of defect (R344). -/
def flawLimit (kind : Nat) : Nat :=
  match kind with | 1 => 0 | 2 => 135 | 3 | 4 => 128 | 5 => 9 | _ => 575

/-- Whether an entry has a field out of range (R344). -/
def Flaw.bad (f : Flaw) : Bool :=
  f.kind == 0 || 7 ≤ f.kind || 6 ≤ f.basin || (if f.kind = 5 then 2 else 4) ≤ f.port || decide (flawLimit f.kind < f.index)

/-- Whether a flaw map is malformed: its length, then its fields (R343, R344). -/
def flawLength (m : List Byte) : Bool :=
  m.length != 64 + 8 * flawCount m + 96 || decide (4096 < flawCount m)

/-- Whether a field of a flaw map of the right length is out of range (R343, R344). -/
def flawFields (m : List Byte) : Bool :=
  fieldAt m 0 1 != 0x30 || fieldAt m 1 1 != 1 || !zeros m 4 12 || !zeros m 38 26 ||
    (List.range 6).any (fun b => 16 ≤ fieldAt m (32 + b) 1) || (flaws m).any Flaw.bad ||
    (List.range (flawCount m)).any fun e => !zeros m (64 + 8 * e + 3) 1 || !zeros m (64 + 8 * e + 6) 2

/-- The REASON that a flaw map halts the boot with, 0 for none (R343, R344, R350). -/
def flawReason (m device : List Byte) : Nat :=
  if flawLength m then 6
  else if !haresk m (64 + 8 * flawCount m) ∨ sliceAt m 16 16 ≠ device then 5
  else if flawFields m then 6
  else 0

/-- Whether a manifest header is well formed and verifies (R381). -/
def headerOk (h : List Byte) : Bool :=
  let v := fieldAt h 4 4
  let n := fieldAt h 8 4
  fieldAt h 0 1 == 0x21 && fieldAt h 1 1 == 1 && zeros h 2 2 && 1 ≤ v && v ≤ 0xFFFFFFFE && n % 4096 == 0 && n ≤ 0x100000 &&
    fieldAt h 12 2 == n / 4096 && zeros h 14 18 && zeros h 128 32 && haresk h 160

/-- Whether a table of digests matches its manifest's header (R381). -/
def tableOk (h table : List Byte) : Bool :=
  sha384 (padTo (48 * fieldAt h 12 2) table) == sliceAt h 32 48

/-- Whether a chunk of an image matches its entry in a table (R381, R383). -/
def chunkOk (table chunk : List Byte) (k : Nat) : Bool :=
  sha384 chunk == sliceAt table (48 * k) 48

/-- Whether an image matches a verified manifest (R381). -/
def imageOk (h table image : List Byte) : Bool :=
  image.length == fieldAt h 8 4 &&
    (List.range (fieldAt h 12 2)).all fun k => chunkOk table (sliceAt image (4096 * k) 4096) k

/-! ## BOOT_VERIFY (R341, R348, R351, R354) -/

/-- What the Warden reads at boot. -/
structure BootReads where
  directory : List Byte
  capsule : List Byte
  flawmap : List Byte
  header : List Byte
  table : List Byte
  image : List Byte
  temper : List Byte
  deriving DecidableEq, Repr

/-- The ranges of the capsule and the flaw map, and those of the manifest and the image (R339). -/
def bootRanges (d : List Byte) (chunks : Nat) : List (Nat × Nat) × List (Nat × Nat) :=
  ([(fieldAt d 32 6, 256), (fieldAt d 40 6, fieldAt d 48 4)],
    [(fieldAt d 8 6, 256 + 48 * chunks), (fieldAt d 16 6, fieldAt d 24 4)])

/-- The reads of a boot (R339). -/
def State.bootReads (s : State) : BootReads :=
  let d := s.read s.boot.dir 128
  let m := fieldAt d 8 6
  let h := s.read m 256
  { directory := d, capsule := s.read (fieldAt d 32 6) 256, flawmap := s.read (fieldAt d 40 6) (fieldAt d 48 4), header := h
    table := s.read (m + 256) (48 * fieldAt h 12 2), image := s.read (fieldAt d 16 6) (fieldAt d 24 4)
    temper := s.read (fieldAt d 56 6) 0x10000 }

/-- The temper seal of 64 KiB: the leftmost 32 bytes (R353, R377). -/
def State.temperSeal (s : State) (bs : List Byte) : List Byte :=
  (hmac (hkdf 48 [] s.warden.root (ascii "MZ temper")) bs).take 32

/-- Whether GO takes the warm path (R351): the record in memory is the one that the retention file names, by its seal and its
sequence number, and holds the digests of what was read. -/
def State.warmPath (s : State) (r : BootReads) : Bool :=
  let b := s.boot
  !b.fullTest && b.retValid && !s.touches (fieldAt r.directory 56 6, 0x10000) && s.temperSeal r.temper == b.retSeal &&
    b.temper.seq == b.retSeq && sha384 r.capsule == b.temper.capsule && sha384 r.flawmap == b.temper.flawmap &&
    sha384 r.image == b.temper.image

/-- The REASON that what was read halts the boot with, 0 for none (R350). A read where there is no memory is one that failed
(log 121). -/
def State.bootReason (s : State) (r : BootReads) (readOk : Bool) : Nat :=
  let (early, late) := bootRanges r.directory (fieldAt r.header 12 2)
  let device := s.warden.idDigest
  if !readOk || s.touches (s.boot.dir, 128) then 0x0B
  else if directoryBad s.boot.dir s.boot.soakReq r.directory then 1
  else if early.any s.touches then 0x0B
  else if capsuleReason r.capsule device ≠ 0 then capsuleReason r.capsule device
  else if flawReason r.flawmap device ≠ 0 then flawReason r.flawmap device
  else if late.any s.touches then 0x0B
  else if headerOk r.header && tableOk r.header r.table && imageOk r.header r.table r.image then 0 else 7

/-- The records are accepted: the capsule is in force, the Warden is READY, and PHASE is MAP (R338, R348, R354, R386). -/
def State.acceptBoot (s : State) (r : BootReads) (warm : Bool) : State :=
  { s with
    boot := { s.boot with
      phase := .map, warm := warm, verified := true
      variant := fieldAt r.capsule 5 1, wcfg := fieldAt r.capsule 6 1, features := fieldAt r.capsule 8 4
      serial := fieldAt r.capsule 12 4, directory := r.directory, capsule := r.capsule, flawmap := r.flawmap
      image := r.image }
    warden := { s.warden with ready := 2, fwRun := fieldAt r.header 4 4, runHeader := r.header, runTable := r.table,
                              runImage := r.image } }

/-- BOOT_VERIFY (R341, R348, R350, R351, R354): a boot that does not take the warm path clears the retention file, even where
it halts. -/
def execBootVerify (readOk : Bool) (s : State) : Host.Outcome State Fault Refusal :=
  .next <|
    if !s.open? || s.boot.phase ≠ .verify then s
    else
      let r := s.bootReads
      let t := if readOk && s.warmPath r then s else { s with boot := s.boot.forget }
      match s.bootReason r readOk with
      | 0 => t.acceptBoot r (readOk && s.warmPath r)
      | k => t.haltBoot k

/-! ## BOOT_MAP (R345 to R347) -/

/-- The stack port of each logical position of a basin (R345). -/
def portsOf (wcfg placement : Nat) : List Nat :=
  let set' := bitsOf 4 placement
  let rest := [0, 1, 2, 3].filter fun p => !set'.contains p
  let wells := [0, 1, 2, 3].filter (wellPosition wcfg)
  let others := [0, 1, 2, 3].filter fun p => !wellPosition wcfg p
  [0, 1, 2, 3].map fun p =>
    if wellPosition wcfg p then nth set' (wells.filter (· < p)).length 0 else nth rest (others.filter (· < p)).length 0

/-- PLACEMENT of a basin (R343). -/
def placementOf (m : List Byte) (b : Nat) : Nat := fieldAt m (32 + b) 1 % 16

/-- Entries of a kind at a port. -/
def flawsAt (fs : List Flaw) (kind basin port : Nat) : List Flaw :=
  fs.filter fun f => f.kind == kind && f.basin == basin && f.port == port

/-- The units of a kind that are defective at a port, each once. -/
def flawUnits (fs : List Flaw) (kind basin port : Nat) : List Nat :=
  ((flawsAt fs kind basin port).map (·.index)).eraseDups

/-- Whether the engine at a port is defective (R346). -/
def portDefective (fs : List Flaw) (basin port : Nat) : Bool :=
  let n (k : Nat) : Nat := (flawUnits fs k basin port).length
  n 1 != 0 || decide (8 < n 2) || decide (1 < n 3) || decide (1 < n 4)

/-- The lanes of a direction that cannot be used: of the flaw map, and those that failed their test (R346, R348). -/
def lanesLost (fs : List Flaw) (bad : List (Nat × Nat × Nat)) (basin direction : Nat) : List Nat :=
  (flawUnits fs 5 basin direction ++
    (bad.filter fun x => x.1 == basin && x.2.1 == direction).map (·.2.2)).eraseDups

/-- The REASON that the map halts the boot with, 0 for none (R345, R346). -/
def State.mapReason (s : State) (fs : List Flaw) (bad : List (Nat × Nat × Nat)) : Nat :=
  let bs := List.range s.basinsWithJets
  let wells := ([0, 1, 2, 3].filter (wellPosition s.boot.wcfg)).length
  if bs.any fun b => popcount 4 (placementOf s.boot.flawmap b) != wells then 8
  else if bs.any fun b => decide (2 < ([0, 1, 2, 3].filter (portDefective fs b)).length) then 9
  else if (List.range 6).any fun b => [0, 1].any fun d => decide (2 < (lanesLost fs bad b d).length) then 0x0A
  else 0

/-- The spares that stand in for the units of a kind of defect at a port (R346, R347). -/
def flawSpares (fs : List Flaw) (kind b p : Nat) (spares : List Nat) : Spares :=
  Spares.ofDefects (flawUnits fs kind b p) (fun _ => spares) id

/-- A jet as the flaw map gives it: its port, and which spares stand in for its defective lanes, rows, columns and banks, in
ascending order (R345 to R347, R312). -/
def mappedJet (fs : List Flaw) (wcfg placement j : Nat) (x : Jet) : Jet :=
  let b := j / 4
  let p := nth (portsOf wcfg placement) (j % 4) 0
  let lanes := flawSpares fs 2 b p laneSpareList
  let rows := flawSpares fs 3 b p rowSpareList
  let cols := flawSpares fs 4 b p rowSpareList
  let well := wellPosition wcfg (j % 4)
  let banks := if well then
      Spares.ofDefects (flawUnits fs 6 b p) (fun k => bankSpareList (k / 18)) bankUnit
    else {}
  { x with
    port := p, bad := portDefective fs b p, adopter := none, adoptBy := none, lanes := lanes, rows := rows, cols := cols
    laneSpares := lanes.left laneSpareList, rowSpare := rows.left rowSpareList == 1, colSpare := cols.left rowSpareList == 1
    well := { x.well with
      banks := banks
      spares := (List.range 32).map fun c => if well then banks.left (bankSpareList c) else 0 } }

/-- Whether a pseudo-channel of a wellspring stack has more than two defective banks (R346). -/
def State.banksShort (s : State) (j : Nat) : Bool :=
  s.wellspring j && (List.range 32).any fun c =>
    decide (2 < ((flawUnits (flaws s.boot.flawmap) 6 (j / 4) (s.jet j).port).filter fun k => k / 18 == c).length)

/-- The jets of the full path, with the adoptions of defective engines in ascending logical jet (R345, R346). -/
def State.mapJets (s : State) (fs : List Flaw) : State :=
  let t := s.updJets s.jetsPresent fun j x => mappedJet fs s.boot.wcfg (placementOf s.boot.flawmap (j / 4)) j x
  t.jetsPresent.foldl (fun u j => if (u.jet j).bad then u.updJet j fun x => { x with adopter := u.adopterFor j } else u) t

/-- A jet as the temper record gives it (R352, R354). -/
def Jet.restore (x r : Jet) : Jet :=
  { x with
    port := r.port, bad := r.bad, adopter := r.adopter, adoptBy := none, lanes := r.lanes, rows := r.rows, cols := r.cols
    laneSpares := r.laneSpares, rowSpare := r.rowSpare, colSpare := r.colSpare, guard := r.guard
    well := { x.well with spares := r.well.spares, banks := r.well.banks } }

/-- The lanes, spares and Reservoir banks of the basins. Eye margins after training are free values (log 35). -/
def State.mapBasins (s : State) (f : Nat → Basin → Basin) : State :=
  ({ s with basins := Tab.updAll {} s.basins (List.range 6) fun b x =>
      { f b x with awake := true, linkMargin := (Config.freeWord (s.free + b)).toNat % 256 } } : State).draw 6

/-- A link with spares in the place of its defective lanes (R346, R347). -/
def Link.mapped (l : Link) (bad : List Nat) : Link :=
  let x := Spares.ofDefects bad (fun _ => linkSpareList) id
  { l with lanes := x, spare := x.left linkSpareList }

/-- The map of the full path (R345 to R348). -/
def State.mapFull (s : State) (fs : List Flaw) (bad : List (Nat × Nat × Nat)) : State :=
  (s.mapJets fs).mapBasins fun b x =>
    { x with up := x.up.mapped (lanesLost fs bad b 0), dn := x.dn.mapped (lanesLost fs bad b 1) }

/-- The map of the warm path, from the record (R334, R354). -/
def State.mapWarm (s : State) : State :=
  let r := s.boot.temper
  (s.updJets s.jetsPresent fun j x => x.restore (Tab.get {} r.jets j)).mapBasins fun b x =>
    { x with up := (nth r.links b (x.up, x.dn)).1, dn := (nth r.links b (x.up, x.dn)).2, vreq := nth r.vreqs b 0
             banks := nth r.banks b x.banks }

/-- BOOT_MAP (R345 to R348, R354). -/
def execBootMap (badLanes : List (Nat × Nat × Nat)) (s : State) : Host.Outcome State Fault Refusal :=
  .next <|
    if !s.open? || s.boot.phase ≠ .map then s
    else
      let fs := flaws s.boot.flawmap
      let t := { s with boot := { s.boot with phase := .load } }
      if s.boot.warm then t.mapWarm
      else match s.mapReason fs badLanes with
        | 0 => t.mapFull fs badLanes
        | k => s.haltBoot k

/-! ## BOOT_LOAD and the self-tests (R348, R349, R354) -/

/-- The station codes of an engine that the temper record holds (R354). -/
def State.recordedCodes (s : State) (e : Nat) : List Nat :=
  (Tab.get {} s.boot.temper.jets e : Jet).codes

/-- The station codes of an engine when TEST begins: TESTING on the full path; the recorded ones on the warm path, where a
READY Wellspring waits for the take-back (R348, R354). A sound engine without a wellspring stack has its own ready. -/
def State.firstCodes (s : State) (e : Nat) : List Nat :=
  let well := (s.servedBy e).any s.wellspring
  let rec' := s.recordedCodes e
  if s.boot.warm then modAt (fun c => if well && c == 2 then 1 else c) rec' 5
  else if (s.jet e).bad then List.replicate 6 0
  else [1, 1, 1, 1, 1, if !well then 2 else if (s.servedBy e).any s.banksShort then 3 else 1]

/-- Change every basin. -/
def State.updAllBasins (s : State) (f : Basin → Basin) : State :=
  { s with basins := Tab.updAll {} s.basins (List.range 6) fun _ => f }

/-- The reset that a pin holds a jet in when the jets begin to run (R359). -/
def State.pinned (s : State) (j : Nat) : Option Reset :=
  if (s.jet j).bad then none
  else
    let held := (s.servedBy j).filter fun k => (s.jet k).pin
    if (s.basin (j / 4)).pin then
      some { level := 1, absorb := true, since := s.aon, drained := true, joined := held.map (·, s.aon) }
    else match held with
      | k :: t => some { level := 0, absorb := true, since := s.aon, drained := true, jet := k, joined := t.map (·, s.aon) }
      | [] => none

/-- The station codes of an engine when TEST begins: one that a pin holds in reset reports TESTING (R348, R361). -/
def State.loadCodes (s : State) (e : Nat) : List Nat :=
  let l := s.firstCodes e
  if (s.pinned e).isSome then ((List.range 5).map fun k => if l.getD k 0 = 2 then 1 else l.getD k 0) ++ [l.getD 5 0] else l

/-- BOOT_LOAD (R348, R354, R375): the jets run, Pour and Sluice are READY, and the take-back begins. -/
def execBootLoad (gauges : List (List Nat)) (s : State) : Host.Outcome State Fault Refusal :=
  .next <|
    if !s.open? || s.boot.phase ≠ .load then s
    else
      let m (j : Nat) : Nat := let l := nth gauges j []; min (l.foldl min (l.headD 0)) 255
      let t := { s with boot := { s.boot with phase := .test }, pourReady := 2, sluice := { s.sluice with ready := 2 } }
      let b := t.updAllBasins fun x => { x with
        resetting := if x.pin then some { level := 1, absorb := true, since := s.aon, drained := true } else none }
      let u := b.updJets t.jetsPresent fun j x => { x with
        awake := true, margin := m j, codes := s.loadCodes j, resetting := s.pinned j
        well := { x.well with awaits := s.boot.warm && s.wellspring j && (s.recordedCodes (s.engine j)).getD 5 0 == 2 } }
      let short := if s.boot.warm then [] else u.jetsPresent.filter fun j => u.code j 5 == 3
      (u.emitAll (short.map fun j => { cls := 0, code := 0x24, part := some (u.jet j).part, jet := j, arg0 := 5 })).settleOwners

/-- The number of a station in the order of R86. -/
def stationNo : Station → Nat
  | .weir => 0 | .nozzle => 1 | .crucible => 2 | .still => 3 | .cast => 4 | .wellspring => 5

/-- Spares of a mask fail their test, bit i the i-th of a list (R349). -/
def Spares.failMask (x : Spares) (spares : List Nat) (mask : Nat) (list : Nat → List Nat) : Spares :=
  ((bitsOf spares.length mask).map (nth spares · 0)).foldl (fun x k => x.failSpare (list k) k) x

/-- The spares of an engine after its test: a spare that fails is out of use, and the next takes its place (R349). For a Nozzle
bit i of `mask` is spare lane i; for a Crucible bit 0 the spare row and bit 1 the spare column. -/
def Jet.loseSpares (x : Jet) (st : Station) (mask : Nat) : Jet :=
  match st with
  | .nozzle =>
    let l := x.lanes.failMask laneSpareList mask fun _ => laneSpareList
    { x with lanes := l, laneSpares := l.left laneSpareList }
  | .crucible =>
    let r := x.rows.failMask rowSpareList mask fun _ => rowSpareList
    let c := x.cols.failMask rowSpareList (mask / 2) fun _ => rowSpareList
    { x with rows := r, cols := c, rowSpare := r.left rowSpareList == 1, colSpare := c.left rowSpareList == 1 }
  | _ => x

/-- The spare banks of a wellspring stack, two for each pseudo-channel (R312). -/
def allBankSpares : List Nat := (List.range 32).flatMap bankSpareList

/-- The spare banks of a stack after its Wellspring's test: bit 2c + i of `mask` is spare i of pseudo-channel c (R312, R349). -/
def Well.loseSpares (w : Well) (mask : Nat) : Well :=
  let b := w.banks.failMask allBankSpares mask fun k => bankSpareList (k / 18)
  { w with banks := b, spares := (List.range 32).map fun c => b.left (bankSpareList c) }

/-- The spares that a station's test found bad are out of use (R349). -/
def State.loseSpares (s : State) (jet : Nat) (st : Station) (mask : Nat) : State :=
  if st = .wellspring then s.updWell jet (·.loseSpares mask) else s.updJet (s.engine jet) (·.loseSpares st mask)

/-- Whether an engine has a unit out of use with no spare in its place (R346). -/
def Jet.unspared (x : Jet) : Bool :=
  x.lanes.short laneSpareList id || x.rows.short rowSpareList id || x.cols.short rowSpareList id

/-- Whether a stack has a bank out of use with no spare in its place (R314, R346). -/
def Well.unspared (w : Well) : Bool :=
  w.banks.short allBankSpares bankUnit

/-- A station has passed: READY, but a Wellspring that waits for its take-back (R349, R363). -/
def State.passes (s : State) (e : Nat) (st : Station) : State :=
  if st = .wellspring then
    let js := (s.servedBy e).filter s.wellspring
    if js.all s.wellReady then (s.setCode e 5 2).settleReset e
    else js.foldl (fun t j => t.updWell j fun w => { w with awaits := true }) s
  else (s.setCode e (stationNo st) 2).settleReset e

/-- An engine fails its self-test: in TEST a basin with more defective than sound engines halts the boot; otherwise the
engine is condemned (R346, R349, R370). -/
def State.engineFails (s : State) (e : Nat) (c : FaultClass) : State :=
  let t := (s.clearTallies (if (s.jet e).resetting.isSome then s.servedBy e else [])).updJet e fun x => { x with resetting := none }
  let bad := ([0, 1, 2, 3].map (4 * (e / 4) + ·)).filter fun k => (t.jet k).bad || k == e
  if s.boot.phase = .test ∧ 2 < bad.length then t.haltBoot 9
  else
    let u := t.condemn e c
    match (s.jet e).resetting with | some r => u.resetOver e r | none => u

/-- The class of a station's own failure (R366). -/
def stationFault : Station → FaultClass
  | .weir => .weirUnit | .nozzle => .lane | .crucible => .row | .still => .reservoir | .cast => .castUnit
  | .wellspring => .bank

/-- Whether the work that an engine drains under a reset is not over: a tile in flight, or a rill (R360). -/
def State.drains (s : State) (e : Nat) : Bool :=
  s.tileInFlight e || (s.servedBy e).any fun j => (s.well j).running.isSome || !(s.well j).drains.isEmpty

/-- Whether a station's self-test runs: in TEST of the full path, or after a reset, where the engine's firmware has been checked
against the manifest's digests (R349, R363; log 145). -/
def State.selfTests (s : State) (e k : Nat) : Bool :=
  let x := s.jet e
  s.live && x.codes.getD k 0 == 1 && x.adoptBy.isNone &&
    (match x.resetting with
     | some r => r.ended && !s.drains e && imageOk s.warden.runHeader s.warden.runTable s.warden.runImage
     | none => s.boot.phase == .test && !s.boot.warm) &&
    (k != 5 || !((s.servedBy e).any fun j => (s.well j).awaits || !(s.well j).copying.isEmpty))

/-- STATION_SELF_TEST_DONE (R346, R349, R363, R374): a failure is handled once no other fault is. -/
def execStationSelfTestDone (jet : Nat) (station : Station) (pass inBanks : Bool) (spares : Nat) (s : State) :
    Host.Outcome State Fault Refusal :=
  .next <|
    let e := s.engine jet
    if !s.present jet || !s.selfTests e (stationNo station) then s
    else
      let t := s.loseSpares jet station spares
      let banks := station == .wellspring && (inBanks || (t.well jet).unspared)
      if pass && !(t.jet e).unspared && !banks then t.passes e station
      else if s.handling then s
      else if banks then (t.failStations e [5]).settleReset e
      else t.engineFails e (stationFault station)

/-! ## The end of TEST, and the temper record (R352 to R355) -/

/-- Whether TEST is over: on the full path every station is settled; on the warm path, which tests nothing, every station is at
its recorded code, a READY Wellspring once the take-back is done (R348, R354). -/
def State.settled (s : State) : Bool :=
  s.jetsPresent.all fun j =>
    if s.boot.warm then !(s.well j).awaits else (List.range 6).all fun k => s.code j k != 1

/-- Whether the soak area is empty or runs past a stack (R355). -/
def State.soakBad (s : State) : Bool :=
  soakParams s.soakLen == 0 || s.jetsPresent.any fun j => decide (s.capacity j < s.soakBase + s.soakLen)

/-- The soak begins, on the jets whose Nozzle, Still and Cast are READY; they report TESTING from now on (R355). -/
def State.beginSoak (s : State) : State :=
  let js := s.jetsPresent.filter fun j => [1, 3, 4].all fun k => s.code j k == 2
  s.traceCodes { s with boot := { s.boot with phase := .soak, sweep := 0, soakJets := js } }

/-- TEST_END (R348, R352, R354, R355). -/
def execTestEnd (s : State) : Host.Outcome State Fault Refusal :=
  .next <|
    if !s.open? || s.boot.phase ≠ .test || !s.settled then s
    else
      let t := { s with boot := { s.boot with temperDue := s.boot.temperDue || !s.boot.warm } }
      if !s.boot.soakReq then { t with boot := { t.boot with phase := .run } }
      else if s.soakBad then
        { t with boot := { t.boot with phase := .run, soakFail := true, soakStat := 2 ^ 26 } }
      else t.beginSoak

/-- What the temper record keeps of a jet (R352). -/
def Jet.kept (x : Jet) : Jet :=
  { port := x.port, bad := x.bad, adopter := x.adopter, codes := x.codes, laneSpares := x.laneSpares, rowSpare := x.rowSpare
    colSpare := x.colSpare, lanes := x.lanes, rows := x.rows, cols := x.cols, guard := x.guard
    well := { spares := x.well.spares, banks := x.well.banks } }

/-- The contents of the temper record (R352). -/
def State.temperNow (s : State) : Temper :=
  let bs := (List.range 6).map s.basin
  { seq := s.boot.retSeq + 1, capsule := sha384 s.boot.capsule, flawmap := sha384 s.boot.flawmap, image := sha384 s.boot.image
    jets := s.jetsPresent.foldl (fun t j => Tab.set {} t j (s.jet j).kept) []
    links := bs.map fun b => (b.up, b.dn), vreqs := bs.map (·.vreq), banks := bs.map (·.banks)
    soakDone := s.boot.soakDone || s.boot.soakOver, soakFail := decide (s.boot.soakStat ≠ 0), soakStat := s.boot.soakStat }

/-- Whether a write of the temper record is due (R352). -/
def Boot.writeDue (b : Boot) (aon : Nat) : Bool :=
  !b.temperWriting && (b.temperDue || (b.ageDue && decide (b.temperAt + 500000000 ≤ aon)))

/-- The 64 KiB of a temper record: KIND 40h, VERSION 01h, and the rest, whose layout is private, free values (R352, log 14). -/
def State.temperBytes (s : State) : List Byte :=
  [0x40#8, 1#8] ++ (s.freeBytes 0x10000).drop 2

/-- The soak has ended, and its record is written: SOAK_DONE, and PHASE RUN (R358). -/
def State.endSoak (s : State) : State :=
  if s.boot.soakOver && !s.boot.temperDue then
    s.traceCodes { s with boot := { s.boot with
      phase := .run, soakOver := false, soakDone := true, soakFail := decide (s.boot.soakStat ≠ 0) } }
  else s

/-- TEMPER_WRITE (R352, R353, R372): VALID is cleared, and the 64 KiB are written, not before TEST has ended; a Warden that has
stopped writes nothing. -/
def execTemperWrite (s : State) : Host.Outcome State Fault Refusal :=
  .next <|
    if !s.live || s.boot.phase = .test || !s.boot.writeDue s.aon || s.wardenCopies.stopped then s
    else
      let bs := s.temperBytes
      ({ s with boot := { s.boot with
        retValid := false, temperWriting := true, temperDue := false, ageDue := false, newSeal := s.temperSeal bs
        temper := s.temperNow } }.put true (fieldAt s.boot.directory 56 6) bs 15).draw 0x10000

/-- TEMPER_WRITE_DONE (R353, R358): the sequence number and the seal are stored, and VALID is set. -/
def execTemperWriteDone (s : State) : Host.Outcome State Fault Refusal :=
  .next <|
    if !s.open? || !s.boot.temperWriting || s.wardenCopies.stopped then s
    else ({ s with boot := { s.boot with
      retValid := true, retSeq := s.boot.retSeq + 1, retSeal := s.boot.newSeal, temperWriting := false
      temperAt := s.aon } } : State).endSoak

/-! ## The soak (R356 to R358) -/

/-- SOAK_SWEEPS of the directory (R339). -/
def State.soakSweeps (s : State) : Nat := fieldAt s.boot.directory 80 4
/-- SOAK_SEED. -/
def State.soakSeed (s : State) : Nat := fieldAt s.boot.directory 88 8

/-- SOAK_SWEEP_DONE (R356): a sweep on every jet that soaks. The epoch in the mould headers is a free value (log 36). -/
def execSoakSweepDone (s : State) : Host.Outcome State Fault Refusal :=
  .next <|
    if !s.open? || s.boot.phase ≠ .soak || s.boot.soakOver || s.soakSweeps < s.boot.sweep then s
    else
      let p := soakParams s.soakLen
      let epoch := (Config.freeWord s.free).toNat % 2 ^ 32
      let t := s.boot.soakJets.foldl (fun u j =>
        u.soakSweep (stackAddr j s.soakBase) p s.soakSeed epoch s.boot.sweep) (s.draw 1)
      { t with boot := { t.boot with sweep := s.boot.sweep + 1 } }

/-- A digest that more than half of the soaking jets hold (R357). -/
def majority (ds : List (List Byte)) : Option (List Byte) :=
  ds.find? fun d => decide (ds.length < 2 * (ds.filter (· == d)).length)

/-- The engines of jets that are not out of use, once each. -/
def State.soundEngines (s : State) (js : List Nat) : List Nat :=
  ((js.map s.engine).filter fun e => !(s.jet e).bad).eraseDups

/-- An engine whose jet disagrees: Nozzle and Cast FAILED, one alarm 24h for the jet, and the jet is adopted (R357, R358; log
120). -/
def State.soakFail (s : State) (jet e : Nat) : State :=
  if s.adopts e || (s.adopterFor e).isNone then s.failJet e .lane
  else ((s.setCodes e [1, 4] 3).emit { cls := 0, code := 0x24, part := some (s.jet jet).part, jet := jet, arg0 := 1 }).condemn
    e .lane

/-- Jets that disagree: their engines are all out of use before one is sought to adopt for any of them (R346, R357). -/
def State.soakFails (s : State) (js : List Nat) : State :=
  let es := s.soundEngines js
  es.foldl (fun t e => t.soakFail ((js.find? (s.engine · == e)).getD e) e)
    (s.updJets es fun _ x => { x with bad := true })

/-- SOAK_END (R357, R358): the digests are compared; the soak ends once the temper record that is now due is written. -/
def execSoakEnd (s : State) : Host.Outcome State Fault Refusal :=
  .next <|
    if !s.open? || s.boot.phase ≠ .soak || s.boot.soakOver || s.boot.sweep ≤ s.soakSweeps then s
    else
      let p := soakParams s.soakLen
      let ds := s.boot.soakJets.map fun j => (j, s.soakDigest (stackAddr j s.soakBase) p s.soakSweeps)
      let m := majority (ds.map (·.2))
      let expect := sliceAt s.boot.directory 96 16
      let wrong := match m with | some d => (ds.filter (·.2 != d)).map (·.1) | none => []
      let mismatch := match m with | some d => !zeros expect 0 16 && d != expect | none => false
      let stat := maskOf 24 wrong.contains + 2 ^ 24 * b2n mismatch + 2 ^ 25 * b2n m.isNone
      ({ s with boot := { s.boot with
        soakOver := true, soakStat := stat, temperDue := true, soakJets := [] } } : State).soakFails wrong

end Sys2Proof.Machine
end

