-- ==== Sys2Proof/Machine/Tiles.lean ====
section
/-! DEFINITION. Tiles, and the responses of the stack ports and the fabric ports (R89, R109, R123, R163, R185, R189, R328,
R402, R414, R420). -/

namespace Sys2Proof.Machine

/-! ## Breakpoints of a Nozzle (R410) -/

/-- The cycle at which group 0 of a tile that runs reaches the stage of instruction `n` (R137, R138). -/
def NzTile.stageCycle (z : NzTile) (im : Image) (n : Nat) : Nat :=
  z.start + passCycles im * ((n - 1) / 24) + (n - 1) % 24

/-- The first cycle, from the one that a part stands at on, at which a tile in flight reaches instruction `n` and has not
halted there. -/
def Part.nextAt (p : Part) (im : Image) (n : Nat) : Option Nat :=
  (((p.inFlight.filterMap (·.nz)).map (·.stageCycle im n)).filter fun c => max p.cycle p.met ≤ c).foldl
    (fun m c => match m with | none => some c | some x => some (min x c)) none

/-- The cycle at which a breakpoint halts the jet in a part of a STILL, if it does (R410). -/
def Job.breakCycle (j : Job) (p : Part) (addr : Nat) : Option Nat :=
  let n := bits addr 16 7
  if opOf j.desc ≠ 3 ∨ j.program ≠ addr % 2 ^ 16 ∨ n = 0 ∨ progLen j.env.image < n then none
  else p.nextAt j.env.image n

/-- Whether a breakpoint halts the jet of a part before a cycle (R406, R410). -/
def State.breaksFirst (s : State) (j : Job) (p : Part) (cycle : Nat) : Bool :=
  s.garhal.brkEnabled && decide (p.jet < 24) && s.garhal.breaks.any fun b =>
    b.unit == 1 && b.target == s.engine p.jet && (match j.breakCycle p b.addr with
      | some c => decide (c < cycle)
      | none => false)

/-- The cycle at which a tile leaves the Nozzle; 0 if it does not pass it. -/
def Tile.leaves (t : Tile) (im : Image) : Nat :=
  match t.nz with | some z => leaveCycle im z | none => 0

/-! ## TILE_START and TILE_COMMIT (R89, R185) -/

/-- Whether a part has a tile to start; at most four are in flight, and a FILL reads nothing (R89). -/
def Job.tileReady (j : Job) (p : Part) : Bool :=
  !j.recorded && j.status.isNone && !j.stopping && p.ended.isNone && decide (p.started < p.tiles) &&
    decide (p.passing < 4) && (opOf j.desc == 0x0C || decide (p.started < p.ready))

/-- Whether an earlier STILL has an unfinished part on an engine, whose Cistern it uses (R163). -/
def State.stillBefore (s : State) (j : Job) (e : Nat) : Bool :=
  (s.jobs.takeWhile fun x => !(x.ring == j.ring && x.seq == j.seq)).any fun x =>
    !x.recorded && opOf x.desc == 3 && x.parts.any fun p => s.engine p.jet == e && !x.partDone p

/-- The stations that a tile of a descriptor passes, in the numbers of R86: a STILL's Nozzle, Crucible where its rule or Cast
needs it, Cast and Still; COPY, FILL and EXPORT pass none (R86, R89). -/
def State.tilePath (s : State) (j : Job) : List Nat :=
  match opOf j.desc with
  | 3 => [1] ++ (if (s.jobGroup j).mxKind ≠ 0 ∨ ctlRotation (ctlOf j.desc) ≠ 0 then [2] else []) ++ [4, 3]
  | 4 => (if ctlRotation (ctlOf j.desc) ≠ 0 then [2] else []) ++ (if j.stillClass then [3] else []) ++ [4]
  | 8 => [2]
  | _ => []

/-- Whether tiles can stand each at a different station of its path, apart from the stations taken (R89). -/
def standApart : List (List Nat) → List Nat → Bool
  | [], _ => true
  | p :: t, taken => p.any fun k => !taken.contains k && standApart t (k :: taken)

/-- The paths of the tiles in flight on an engine (R89). A skipped block passes no station, and is not among them. -/
def State.tilesOn (s : State) (e : Nat) : List (List Nat) :=
  (s.jobs.filter (!·.recorded)).flatMap fun j =>
    (j.parts.filter fun p => p.jet < 24 && s.engine p.jet == e).flatMap fun p =>
      (p.inFlight.filter (·.treatment != .skip)).map fun _ => s.tilePath j

/-- Whether an engine takes one more tile of a descriptor: at most four are in flight, each at a different station (R89;
log 113). -/
def State.tileRoom (s : State) (j : Job) (e : Nat) : Bool :=
  let l := s.tilesOn e
  decide (l.length < 4) && standApart ((s.tilePath j :: l).filter (!·.isEmpty)) []

/-- The jets whose stacks the tiles of a part read or write (R299): its own, and those on which its range lies in another
region. -/
def Job.tileJets (j : Job) (p : Part) : List Nat :=
  if opOf j.desc = 3 ∨ opOf j.desc = 4 then
    p.jet :: (j.ents.filter fun x => x.2.kind ≤ 4).flatMap fun x =>
      x.2.streamJets (j.tileFirst p 0) p.count
  else p.jet :: j.ents.flatMap (·.2.jetList)

/-- Whether a part's accesses wait for bank indications that are low (R299). -/
def State.accessHeld (s : State) (j : Job) (p : Part) : Bool :=
  ((j.tileJets p).any fun k => decide (k < 24) && s.stackHeld k) || j.ents.any fun x => s.fabricHeld x.2

/-- Whether an engine is in an adoption that is not complete, so that it starts nothing (R370). -/
def State.inAdoption (s : State) (jet : Nat) : Bool :=
  (s.jet jet).adoptBy.isSome || s.jets.any fun x => x.2.adoptBy == some (s.engine jet)

/-- Whether a halted engine may start or commit one tile more, since STEP has let it run (R410). -/
def State.stepped (s : State) (e : Nat) : Bool :=
  let x := s.jet e
  x.awake && x.resetting.isNone && x.halted && decide (0 < x.steps)

/-- A tile that a halted engine starts or commits uses up a cycle that STEP has let it run (R410; log 7). -/
def State.useStep (s : State) (jet : Nat) : State :=
  if jet < 24 ∧ (s.jet (s.engine jet)).halted then s.updJet (s.engine jet) fun x => { x with steps := x.steps - 1 } else s

/-- Whether the engine or the controller that runs a part starts tiles: it runs, no test holds it, it is in no adoption, and
an earlier STILL does not use its Cistern (R109, R163, R370). -/
def State.startsTiles (s : State) (j : Job) (jet : Nat) : Bool :=
  if jet < 24 then
    (s.runs jet || s.stepped (s.engine jet)) && !s.underTest (s.engine jet) && !s.inAdoption jet && (opOf j.desc != 3 || !s.stillBefore j (s.engine jet))
  else s.basinRuns (s.ring j.ring).home

/-- Whether the next tile of a part may start beside the work on its jet: a station is free for it, the matrices before its
own are done, no bank is held, and no breakpoint comes first (R89, R193, R299, R410). -/
def State.tileFits (s : State) (j : Job) (p : Part) : Bool :=
  decide (24 ≤ p.jet) ||
    (s.tileRoom j (s.engine p.jet) && s.matrixTurn j p && !s.accessHeld j p &&
      !s.breaksFirst j p (p.nextStart j.env.image))

/-- The addresses of a descriptor's regions. -/
def Job.ranges (j : Job) : List (Nat × Nat) :=
  j.ents.flatMap fun x => x.2.ranges (j.readSlot x.2) 0 x.2.size

/-- The next tile of a part starts, by opcode (R87, R89, R245, R198, R125, R392). -/
def State.tileBegins (s : State) (j : Job) (p : Part) : State :=
  match opOf j.desc with
  | 3 => s.startStill j p
  | 4 => s.startCast j p
  | 8 => s.startCrucible j p
  | 0x0B => s.startCopy j p
  | 0x0C => s.tileIn j p [] []
  | 0x13 => s.startExport j p
  | _ => s

/-- TILE_START (R89, R185): the next tile of a part starts. -/
def execTileStart (ring : Nat) (seq : Word) (jet : Nat) (s : State) : Host.Outcome State Fault Refusal :=
  .next <| match s.job ring seq with
    | none => s
    | some j => match j.partOn jet with
      | none => s
      | some p =>
        if s.live && j.tileReady p && s.startsTiles j jet && s.tileFits j p then
          ((s.tileBegins j p).useStep jet).overHoles j.ranges
        else s

/-- Whether the clocks of the engine or controller that runs a part go, or STEP lets them, and nothing holds its work (R109, R401,
R409, R410). -/
def State.clocked (s : State) (j : Job) (jet : Nat) : Bool :=
  if jet < 24 then
    let e := s.jet (s.engine jet)
    e.awake && (!(e.halted || e.halting) || s.stepped (s.engine jet)) && !s.underTest (s.engine jet)
  else let b := s.basin (s.ring j.ring).home; b.awake && !b.halted && !b.halting && !s.coreTest (s.ring j.ring).home

/-- Whether the oldest tile of a part has left the Nozzle, where its engine is halted and runs only the cycles of STEP (R410). -/
def State.hasLeft (s : State) (j : Job) (p : Part) (t : Tile) : Bool :=
  decide (24 ≤ p.jet) || !(s.jet (s.engine p.jet)).halted || decide (t.leaves j.env.image ≤ p.cycle)

/-- Whether no tile follows the oldest tile of a part before it leaves: the part starts none, or its stations are taken. -/
def State.lastTile (s : State) (j : Job) (p : Part) : Bool :=
  s.noFollower j p (s.tilePath j).length || (decide (p.jet < 24) && s.inAdoption p.jet)

/-- The oldest tile in flight of a part commits, by opcode. -/
def State.tileEnds (s : State) (j : Job) (p : Part) (t : Tile) : State :=
  match opOf j.desc with
  | 3 => s.commitStill j p (s.lastTile j p)
  | 4 => s.commitCast j p t
  | 8 => s.commitCrucible j p t
  | 0x0B => s.commitCopy j p t
  | 0x0C => s.commitFill j p t
  | 0x13 => s.commitExport j p t
  | _ => s

/-- TILE_COMMIT (R89): the oldest tile in flight of a part commits; under MZ_RST_N only in a drain, which alone has tiles
left (R365). -/
def execTileCommit (ring : Nat) (seq : Word) (jet : Nat) (s : State) : Host.Outcome State Fault Refusal :=
  .next <| match s.job ring seq with
    | none => s
    | some j => match j.partOn jet with
      | none => s
      | some p => match p.inFlight with
        | [] => s
        | t :: _ =>
          if !(s.live || s.clocks.rst) || !s.clocked j jet || s.accessHeld j p || s.breaksFirst j p (t.leaves j.env.image) ||
              !s.hasLeft j p t then s
          else (s.tileEnds j p t).useStep jet

/-! ## Responses -/

/-- The operands of one more tile of a part have been read; they are read at most eight tiles ahead (R169, R171). -/
def Part.oneReady (p : Part) : Part :=
  { p with ready := if p.ready < p.tiles ∧ p.ready < p.started + 8 then p.ready + 1 else p.ready }

/-- Remove the first request that matches; the request, and the others. -/
def takeRequest (f : Request → Bool) : List Request → Option (Request × List Request)
  | [] => none
  | r :: t => if f r then some (r, t) else (takeRequest f t).map fun x => (x.1, r :: x.2)

/-- The state without the first request that matches. -/
def State.answered (s : State) (f : Request → Bool) : Option (Request × State) :=
  (takeRequest f s.reqs).map fun x => (x.1, { s with reqs := x.2 })

/-- A write has not taken place: the bytes that it replaced stand again (R420). -/
def State.undo (s : State) (r : Request) : State :=
  { s with mem := memPatch s.mem r.old }

/-- A read of a descriptor that has no part for it fails: METER's blocks, SCHED's table, FWCHUNK's bytes. The descriptor
completes FAULT, class 0Ah, and leaves nothing of what it would have set (R366, R367, R420). -/
def State.operandLost (s : State) (j : Job) (jet : Option Nat) (place : Nat) : State :=
  (s.emit { cls := 1, code := 0x80, part := some j.part, jet := jet.getD 0xFF, basin := place, arg0 := 0x0A
            arg1 := j.seq.toNat }).workLost j (jet.getD 0xFF) 0x0A

/-- The part of a descriptor that a fabric port reads for: the first in the basin that has operands to read, or the
controller's. -/
def State.fabricPart (s : State) (j : Job) (basin : Nat) : Option Nat :=
  (j.parts.find? fun p => p.ended.isNone && decide (p.ready < p.tiles) &&
    (if p.jet < 24 then p.jet / 4 == basin else (s.ring j.ring).home == basin)).map (·.jet)

/-- A bad read over the fabric for a part: the part ends FAULT, class 0Ah (R367, R420). -/
def State.fabricFault (s : State) (ring : Nat) (seq : Word) (basin jet : Nat) : State :=
  let t := s.emit { cls := 1, code := 0x80, part := (s.job ring seq).map (·.part), jet := if jet < 24 then jet else 255
                    basin := basin, arg0 := 0x0A, arg1 := seq.toNat }
  t.endPart ring seq jet (.fault, 0x0A)

/-- A read that a descriptor made at its acceptance, or at METER, fails: of one that has no part for it, of its part on the jet
of the port, or of its first part that has not ended (R367, R414, R420). -/
def State.readLost (s : State) (j : Job) (stack : Bool) (place : Nat) : State :=
  if j.readsAlone then s.operandLost j (if stack then some place else none) (if stack then place / 4 else place)
  else if stack && (j.partOn place).isSome then s.detected .stackData place 0 (some (j.ring, j.seq))
  else match j.parts.find? (!j.partDone ·) with
    | some p => s.fabricFault j.ring j.seq (if stack then place / 4 else place) p.jet
    | none => s

/-- The part that a port reads operands for: a jet's own, or that of `fabricPart`. -/
def State.portPart (s : State) (j : Job) (stack : Bool) (place : Nat) : Option Nat :=
  if stack then (j.partOn place).map (·.jet) else s.fabricPart j place

/-- A read for a descriptor is answered, one that is listed first: its part goes on, or ends FAULT, class 0Ah (R366, R367, R414,
R420). -/
def State.operandAnswer (s : State) (stack : Bool) (place ring : Nat) (seq : Word) (bad : Bool) : State :=
  match s.job ring seq with
  | none => s
  | some j =>
    if j.recorded then s
    else match s.answered fun r => r.stack == stack && r.place == place && r.purpose == .operand ring seq with
      | some (_, t) => if bad then t.readLost j stack place else t
      | none => match s.portPart j stack place with
        | some k =>
          if !bad then s.updJob ring seq fun x => x.updPart k Part.oneReady
          else if stack then s.detected .stackData k 0 (some (ring, seq))
          else s.fabricFault ring seq place k
        | none =>
          if bad && j.readsAlone then s.operandLost j (if stack then some place else none) (if stack then place / 4 else place)
          else s

/-- The write of a catch-up prefix entry failed (R189, R420). -/
def State.catchUpLost (s : State) (r : Request) (shard group channel : Nat) : State :=
  let t := (s.undo r).updGroup group fun g => { g with oldest := none }
  t.emit { cls := 1, code := 0x0B, part := (t.group group).owner, shard := some shard, arg0 := group + 2 ^ 16 * channel
           arg1 := (t.shard shard).stepNo.toNat }

/-- A store of a descriptor has failed: its part ends FAULT, class 0Ah, also after its last tile; a status that waits for the
store gives way, as does that of a descriptor without parts, CENSUS or ATTEST (R123, R393, R420). -/
def State.storeLost (s : State) (ring : Nat) (seq : Word) (jet : Nat) : State :=
  s.updJob ring seq fun j =>
    let k := j.updPart jet (·.endWith (.fault, 0x0A))
    let good : Bool := match j.status with | some x => x.1 == .ok || x.1 == .empty | none => j.parts.isEmpty
    if good then { k with status := some (.fault, if jet < 24 then jet else 0xFF, 0x0A) } else k

/-- The part that a store of a basin's fabric port is of: the first of its jets, or the controller's (R420). -/
def Job.storePart (j : Job) (basin : Nat) : Nat :=
  ((j.parts.find? fun p => if p.jet < 24 then p.jet / 4 == basin else true).map (·.jet)).getD 255

/-- A store of a descriptor is acknowledged. One that failed on a fabric port, or whose acknowledgement was lost in a freeze,
ends its part FAULT, class 0Ah (R123, R402, R420). -/
def State.storeAnswer (s : State) (stack : Bool) (place ring : Nat) (seq : Word) (bad : Bool) : State :=
  match s.answered fun r => r.stack == stack && r.place == place && r.purpose == .store ring seq with
  | none => s
  | some (_, t) =>
    let u := match t.job ring seq with
      | some j =>
        if !bad || j.recorded then t
        else if stack then (t.detected .stackData place 0 (some (ring, seq))).storeLost ring seq place
        else (t.fabricFault ring seq place (j.storePart place)).storeLost ring seq (j.storePart place)
      | none => t
    u.sweepJobs

/-- What a response of a stack port does (R414). -/
def State.stackAnswer (s : State) (jet : Nat) (request : RequestFor) (bad : Bool) : State :=
  match request with
  | .operand r q => s.operandAnswer true jet r q bad
  | .store r q => s.storeAnswer true jet r q bad
  | .catchUp shard group c =>
    match s.answered fun r => r.stack && r.place == jet && r.purpose == .catchUp shard group c with
    | none => s
    | some (r, t) => if bad then t.catchUpLost r shard group c else t
  | .upkeep => if bad then s.detected .stackData jet 0 none else s
  | .fetch _ _ | .record _ _ | .report => s

/-- The rank of a Sluice or census write, from its request (R328). -/
def Request.rank (r : Request) : Nat := r.detail % 4

/-- What a response of a fabric port does (R420). -/
def State.fabricAnswer (s : State) (basin : Nat) (request : RequestFor) (bad : Bool) : State :=
  let mine (r : Request) : Bool := !r.stack && r.place == basin && r.purpose == request
  match request with
  | .operand r q => s.operandAnswer false basin r q bad
  | .store r q => s.storeAnswer false basin r q bad
  | .fetch r q =>
    match s.answered mine with
    | none => s
    | some (_, t) =>
      if bad then
        (t.updRing r fun c => { c with held := c.held.filter (·.seq != q) }).writeRecord r q (.fault, 0x0A) 0 0xFF 0 false
      else t
  | .record r q =>
    match s.answered mine with
    | none => s
    | some (x, t) =>
      if bad then
        (t.undo x).emit { cls := 1, code := 0x80, part := some (t.ring r).part, basin := basin, arg0 := 0x0A, arg1 := q.toNat }
      else t
  | .report =>
    match s.answered mine with
    | none => s
    | some (x, t) => if bad then (t.undo x).countDrop x.rank else t
  | .catchUp shard group c =>
    match s.answered mine with
    | none => s
    | some (x, t) => if bad then t.catchUpLost x shard group c else t
  | .upkeep => s

/-- Whether the state itself holds a request open until it is answered; the reads that tiles wait for are not listed. -/
def State.requestListed (s : State) (stack : Bool) (place : Nat) : RequestFor → Bool
  | .operand r q => s.reqs.any fun x => x.stack == stack && x.place == place && x.purpose == .operand r q
  | .upkeep => false
  | _ => true

/-- A response that comes while the block is frozen is lost: the request stands as unanswered until the thaw (R402). -/
def State.lateAnswer (s : State) (stack : Bool) (place : Nat) (request : RequestFor) : State :=
  if s.requestListed stack place request then s
  else { s with clocks := { s.clocks with late := s.clocks.late ++ [{ stack := stack, place := place, purpose := request }] } }

/-- The parts whose next tile waits for its operands: their reads have been issued, and none is answered (R169; log 25). -/
def State.starving (s : State) : List (Job × Part) :=
  s.jobs.flatMap fun j => (j.parts.filter fun p =>
    [3, 4, 8, 0x0B, 0x13].contains (opOf j.desc) && !j.recorded && j.status.isNone && !j.stopping && p.ended.isNone &&
      decide (p.started < p.tiles) && p.ready == p.started && s.startsTiles j p.jet).map (j, ·)

/-- The read of the next tile of a part was not answered before the freeze: a later answer is lost (R402). -/
def State.starve (s : State) (j : Job) (p : Part) : State :=
  if p.jet < 24 then s.detected .stackData p.jet 0 (some (j.ring, j.seq))
  else s.fabricFault j.ring j.seq (s.ring j.ring).home p.jet

/-- After the thaw, the tile or record of every request that was issued before the freeze and is not answered meets a class
0Ah error, since a later response is lost (R402; log 25). -/
def State.loseAnswers (s : State) : State :=
  let t : State := { s with clocks := { s.clocks with late := [] } }
  let u := s.clocks.late.foldl (fun t x =>
    if x.stack then t.stackAnswer x.place x.purpose true else t.fabricAnswer x.place x.purpose true) t
  let v := s.reqs.foldl (fun t r =>
    if r.stack then t.stackAnswer r.place r.purpose true else t.fabricAnswer r.place r.purpose true) u
  v.starving.foldl (fun t x => t.starve x.1 x.2) v

/-- Whether a response matters under MZ_RST_N: an acknowledgement of a store, for which a record waits (R123, R365). -/
def underReset : RequestFor → Bool
  | .store _ _ => true
  | _ => false

/-- STACK_RESPONSE (R414, R402). -/
def execStackResponse (jet : Nat) (request : RequestFor) (status : PortStatus) (s : State) :
    Host.Outcome State Fault Refusal :=
  .next <|
    if (s.clocks.rst && !underReset request) || !s.present jet then s
    else if s.clocks.freeze == .frozen then s.lateAnswer true jet request
    else s.stackAnswer jet request (status == .bad)

/-- FABRIC_RESPONSE (R420, R402). -/
def execFabricResponse (basin : Nat) (request : RequestFor) (status : PortStatus) (s : State) :
    Host.Outcome State Fault Refusal :=
  .next <|
    if s.clocks.rst && !underReset request then s
    else if s.clocks.freeze == .frozen then s.lateAnswer false basin request
    else s.fabricAnswer basin request (status == .bad)

end Sys2Proof.Machine
end

