-- ==== Sys2Proof/Machine/Wellspring.lean ====
section
/-! DEFINITION. Wellspring: rills, matrix-vector products, refresh, the in-bank command lane, the patrol and seal reports
(R267 to R314, R418, R419). -/

namespace Sys2Proof.Machine

/-! ## Command words (R271 to R273) -/

/-- Whether two lists of bits of a word say that a field that the opcode does not use is not 0 (R271). -/
def strayBits (w : Nat) (fields : List (Nat × Nat)) : Bool :=
  fields.any fun f => bits w f.1 f.2 != 0

/-- A row address that the hardware does not have (R267, R274). -/
def badRow (w lo : Nat) : Bool := 9215 < bits w lo 14

/-- Whether a command word is at fault at FORMAT (R271, R273, R274). -/
def badWord (w : Nat) : Bool :=
  let ts := (6, 1)
  let neg := (7, 1)
  let sh := (8, 4)
  let a := (12, 14)
  let b := (26, 14)
  let d := (40, 14)
  let rsv := (54, 10)
  match bits w 0 6 with
  | 0x01 => bits w 6 32 == 0 || bits w 38 16 == 0 || strayBits w [rsv]
  | 0x08 | 0x0C => strayBits w [ts, neg, sh, b, rsv] || badRow w 12 || badRow w 40
  | 0x09 | 0x0A | 0x0B => strayBits w [ts, neg, sh, rsv] || badRow w 12 || badRow w 26 || badRow w 40
  | 0x10 => strayBits w [d, rsv] || bits w 8 4 == 15 || badRow w 12 || badRow w 26
  | 0x11 => strayBits w [b, d, rsv] || bits w 8 4 == 15 || badRow w 12
  | 0x18 | 0x19 => strayBits w [neg, sh, a, b, d, rsv]
  | 0x1A => strayBits w [neg, (10, 2), a, b, rsv] || badRow w 40
  | _ => true

/-- Whether a word is timed (R273). -/
def timedWord (w : Nat) : Bool := bits w 0 6 != 1

/-- The source rows that a word reads (R273). -/
def sourceRows (w : Nat) : List Nat :=
  match bits w 0 6 with
  | 0x08 | 0x0C | 0x11 => [bits w 12 14]
  | 0x09 | 0x0A | 0x0B | 0x10 => [bits w 12 14, bits w 26 14]
  | _ => []

/-- The row that a word writes (R273). -/
def destRows (w : Nat) : List Nat :=
  match bits w 0 6 with
  | 0x08 | 0x09 | 0x0A | 0x0B | 0x0C | 0x1A => [bits w 40 14]
  | _ => []

/-! ## Rows of regions (R268, R275) -/

/-- The row-aligned slot of an entry that holds a row of a jet's stack (R268). -/
def RegionEntry.slotOfRow (e : RegionEntry) (jet row : Nat) : Option Nat :=
  if e.loc = 0 ∧ bit e.jets jet ∧ e.length % 0x400000 = 0 then
    e.slotList.find? fun k => e.slotBase k % 0x400000 == 0 && decide (e.slotBase k / 0x400000 ≤ row) &&
      decide (row < (e.slotBase k + e.length) / 0x400000)
  else none

/-- The region of a kind among those given, with its entry number and slot, that holds a row (R275). -/
def State.regionOfRow (s : State) (part jet row : Nat) (kinds : List Nat) : Option (Nat × RegionEntry × Nat) :=
  (s.regions.filter fun x => x.1 / 256 == part && kinds.contains x.2.kind).findSome? fun x =>
    (x.2.slotOfRow jet row).map fun k => (x.1 % 256, x.2, k)

/-- The regions that the rows of words name, once each. -/
def State.rowRegions (s : State) (part jet : Nat) (ws : List Nat) : List (Nat × RegionEntry × Nat) :=
  (ws.flatMap fun w => (sourceRows w).filterMap (s.regionOfRow part jet · [6, 7]) ++
    (destRows w).filterMap (s.regionOfRow part jet · [7])).eraseDups

/-- Whether a word names a row that is not permitted (R275). -/
def State.wordDenied (s : State) (part jet w : Nat) : Bool :=
  (sourceRows w).any (fun r => (s.regionOfRow part jet r [6, 7]).isNone) ||
    (destRows w).any fun r => (s.regionOfRow part jet r [7]).isNone

/-! ## RILL: acceptance (R274, R275, R302) -/

/-- JET of a RILL. -/
def rillJet (d : List Byte) : Nat := fieldAt d 25 1

/-- Whether the range of a RILL can be read: it lies in CMD, and holds whole words. -/
def State.rillReads (s : State) (part : Nat) (d : List Byte) : Bool :=
  let e := s.operand part d 24
  e.kind == 8 && offsetOf d % 8 == 0 && lengthOf d e.size % 8 == 0 && decide (offsetOf d + lengthOf d e.size ≤ e.size)

/-- The command words of a RILL (R274). -/
def State.rillWords (s : State) (part : Nat) (d : List Byte) : List Nat :=
  let e := s.operand part d 24
  let n := lengthOf d e.size
  if s.rillReads part d then (chunksOf 8 (n / 8) (s.readRegion e 0 (offsetOf d) n)).map ofLe else []

/-- The first word of a rill that a check refuses, as DETAIL. -/
def wordFault (ws : List Nat) (bad : Nat → Bool) : Option Nat :=
  ((List.range ws.length).find? fun i => bad (nth ws i 0)).map fun i => 24 + 256 * i

/-- The slotted plane regions whose non-current slot a rill's rows lie in: their shards. -/
def State.staleRows (s : State) (l : List (Nat × RegionEntry × Nat)) : List Nat :=
  (l.filter fun x => x.2.1.kind == 6 && x.2.1.slotted && x.2.2 != (s.shard x.2.1.shard).curSlot).map (·.2.1.shard)

/-- The checks of RILL, in the order of R133. -/
def State.rillChecks (s : State) (part : Nat) (d : List Byte) : Option Verdict' :=
  let cmd := s.operand part d 24
  let jet := rillJet d
  let ws := s.rillWords part d
  let rows := s.rowRegions part jet ws
  let planes := rows.filter (·.2.1.kind == 6)
  let slotNow (e : RegionEntry) : Nat := if e.slotted then (s.shard e.shard).curSlot else 0
  let n := lengthOf d cmd.size
  (formatCheck d (if 24 ≤ jet then [25] else [])).orElse fun _ =>
  firstOf [(cmd.kind == 0, at' .denied 24), (!s.present jet || (s.jet jet).part != part, at' .denied 25)] |>.orElse fun _ =>
  ((wordFault ws fun w => !badWord w && s.wordDenied part jet w).map (at' .denied)).orElse fun _ =>
  (if cmd.kind = 8 then none else some (at' .format 24)).orElse fun _ =>
  ((wordFault ws badWord).map (at' .format)).orElse fun _ =>
  firstOf [(offsetOf d % 8 ≠ 0, at' .length 8), (n % 8 ≠ 0, at' .length 16),
    (128 < n / 8 || 96 < (ws.filter timedWord).length, at' .length 16)] |>.orElse fun _ =>
  (rangeBound d cmd).orElse fun _ =>
  ((planes.find? fun x => x.2.2 == slotNow x.2.1 && x.2.1.broken x.2.2).map fun x => at' .seal x.1).orElse fun _ =>
  ((s.staleRows rows).head?.map fun h => shardState (s.shard h).state).orElse fun _ =>
  (if s.wellspring jet then none else some (cause 6)).orElse fun _ =>
  (s.notReady [5] [jet]).orElse fun _ =>
  firstOf [(planes.any fun x => s.planeConflict part x.1 [3, 4], cause 9),
    (s.pinsFull (s.pinsFor (planes.map (·.2.1))), cause 3)]

/-- The job of an accepted RILL. -/
def State.rillJob (s : State) (ring : Nat) (h : Held) : Job :=
  let d := h.bytes
  let part := (s.ring ring).part
  let ws := s.rillWords part d
  let rows := s.rowRegions part (rillJet d) ws
  let planes := (rows.filter (·.2.1.kind == 6)).map (·.2.1)
  { newJob s ring h with
    ents := (24, s.operand part d 24) :: rows.map fun x => (1000 + x.1, x.2.1)
    slots := s.slotsFor (rows.map (·.2.1)), pins := s.pinsFor planes, offset := offsetOf d
    parts := [{ jet := rillJet d, tiles := (ws.filter timedWord).length }] }

/-- RILL (R274 to R276): its words join the queue of the jet. -/
def execRill (ring : Nat) (s : State) : Host.Outcome State Fault Refusal :=
  .next <| match s.front ring (· == 0x0A) with
    | none => s
    | some h =>
      let d := h.bytes
      let part := (s.ring ring).part
      let cmd := s.operand part d 24
      let n := lengthOf d cmd.size
      match s.rillChecks part d with
      | some v => s.refuse ring h v
      | none =>
        if n = 0 then s.refuse ring h (.empty, 0)
        else (((s.takeUp ring (s.rillJob ring h)).updWell (rillJet d) fun w => { w with
          rills := w.rills ++ [({ ring := ring, seq := h.seq, ops := (s.rillWords part d).map .word } : Rill)] }).readDue ring
            h.seq cmd (offsetOf d) n).overHoles (cmd.ranges 0 (offsetOf d) n)

/-! ## GEMV: acceptance (R279 to R282) -/

/-- ROWS, COLS, BATCH. -/
def gemvRows (d : List Byte) : Nat := fieldAt d 28 4
/-- COLS. -/
def gemvCols (d : List Byte) : Nat := fieldAt d 32 4
/-- BATCH. -/
def gemvBatch (d : List Byte) : Nat := fieldAt d 36 1
/-- OUT_FMT; F32 where the code is no other format. -/
def gemvFmt (d : List Byte) : Fmt := (Fmt.ofCode (fieldAt d 37 1)).getD .f32
/-- RND. -/
def gemvRnd (d : List Byte) : Rnd := (Rnd.ofCode (fieldAt d 38 1)).getD .rne

/-- Bits of an activation code (R279). -/
def xWidth (xfmt : Nat) : Nat := if xfmt = 7 ∨ xfmt = 8 then 8 else 4

/-- Whether activations are signed (R283). -/
def xSigned (xfmt : Nat) : Bool := xfmt == 7 || xfmt == 9

/-- Z: the bytes of an activation record (R279). -/
def recordSize (cols xfmt : Nat) : Nat := 64 + cols * xWidth xfmt / 8

/-- F: the phases of the replica rows (R280). -/
def phasesOf (cols : Nat) : Nat := cols / Nat.gcd cols 65536

/-- The headers of the activation records that lie within X (R279, R281). -/
def State.gemvHeaders (s : State) (part : Nat) (d : List Byte) : List (List Byte) :=
  let x := s.operand part d 25
  let first := s.readRegion x 0 0 64
  let z := recordSize (gemvCols d) (bits (fieldAt first 0 1) 0 4)
  if x.kind = 8 then
    ((List.range (gemvBatch d)).takeWhile fun v => decide (v * z + 64 ≤ x.size)).map fun v => s.readRegion x 0 (v * z) 64
  else []

/-- Whether a header is at fault at FORMAT (R282); `x0` is the format of record 0. -/
def badHeader (x0 : Nat) (h : List Byte) : Bool :=
  let f := bits (fieldAt h 0 1) 0 4
  bits (fieldAt h 0 1) 4 4 != 0 || fieldAt h 1 3 != 0 || (List.range 52).any (fun i => fieldAt h (12 + i) 1 != 0) ||
    f < 7 || 10 < f || f != x0 || notFinite32 (fieldAt h 4 4)

/-- The first record at fault, as DETAIL (R282). -/
def recordFault (hs : List (List Byte)) (bad : List Byte → Bool) : Option Nat :=
  ((List.range hs.length).find? fun v => bad (nth hs v [])).map fun v => 25 + 256 * v

/-- The parts of a GEMV: share number and jet of each share that holds an element of the matrix (R281). -/
def gemvShares (p : RegionEntry) (total : Nat) : List (Nat × Nat) :=
  ((List.range p.jetList.length).zip p.jetList).filter fun x => decide (x.1 * p.castShare < total)

/-- Whether the scratch share on a jet is row-aligned and holds the replica rows (R280, R282). -/
def scratchFits (e : RegionEntry) (jet rows : Nat) : Bool :=
  e.loc == 0 && bit e.jets jet && e.base % 0x400000 == 0 && e.length % 0x400000 == 0 && decide (rows ≤ e.length / 0x400000)

/-- The checks of GEMV, in the order of R133. -/
def State.gemvChecks (s : State) (part : Nat) (d : List Byte) : Option Verdict' :=
  let ent (b : Nat) := s.operand part d b
  let p := ent 24
  let rows := gemvRows d
  let cols := gemvCols d
  let total := rows * cols
  let hs := s.gemvHeaders part d
  let x0 := bits (fieldAt (nth hs 0 []) 0 1) 0 4
  let n := p.castShare
  let jets := (gemvShares p total).map (·.2)
  let slot := if p.slotted then (s.shard p.shard).curSlot else 0
  (formatCheck d ((if (Fmt.ofCode (fieldAt d 37 1)).isNone then [37] else []) ++
    (if (Rnd.ofCode (fieldAt d 38 1)).isNone then [38] else []))).orElse fun _ =>
  (s.unusedEntry part d [24, 25, 26, 27]).orElse fun _ =>
  (lowest .format [(p.kind != 6, 24), ((ent 25).kind != 8, 25), ((ent 26).kind != 8, 26), ((ent 27).kind != 7, 27),
    (gemvFmt d != .f32 && gemvFmt d != .b16, 37), (gemvRnd d == .rsr, 38)]).orElse fun _ =>
  ((recordFault hs (badHeader x0)).map (at' .format)).orElse fun _ =>
  firstOf [(rows < 1 || 65536 < rows, at' .length 28), (cols < 1 || 65536 < cols || cols % 128 != 0, at' .length 32),
    (gemvBatch d < 1 || 64 < gemvBatch d, at' .length 36), (8 < phasesOf cols, at' .length 32),
    (total % 4096 ≠ 0, at' .length 28)] |>.orElse fun _ =>
  ((recordFault hs fun h => fieldAt h 8 4 != cols).map (at' .length)).orElse fun _ =>
  firstOf [(n != 0 && (gemvShares p total).any fun x => x.1 * n % cols != 0, at' .length 24),
    (n * p.jetList.length < total, at' .bound 24),
    ((ent 25).size < gemvBatch d * recordSize cols x0, at' .bound 25),
    ((ent 26).size < gemvBatch d * rows * (gemvFmt d).width / 8, at' .bound 26),
    (!jets.all fun j => scratchFits (ent 27) j (phasesOf cols * xWidth x0), at' .bound 27),
    ((if slot = 0 then p.broken0 else p.broken1), at' .seal (fieldAt d 24 1)),
    (!jets.all s.wellspring, cause 6)] |>.orElse fun _ =>
  (s.notReady [5] jets).orElse fun _ =>
  firstOf [(s.planeConflict part (fieldAt d 24 1) [3, 4], cause 9), (s.pinsFull (s.pinsFor [p]), cause 3)]

/-- Row groups of a part of `count` elements (R286). -/
def rowGroups (count : Nat) : Nat := (count + 65535) / 65536

/-- Cut the words of a product into rills (R292). -/
def rillsOf (ring : Nat) (seq : Word) (k : Nat) (ops : List RillOp) : List Rill :=
  (pieces k ops).map fun o => { ring := ring, seq := seq, ops := o }

/-- The rills of a part of a GEMV of `groups` row groups: for each vector its replica rows, then its ANDT words (R280,
R283, R292). -/
def gemvRills (ring : Nat) (seq : Word) (batch phases a sr groups : Nat) : List Rill :=
  (List.range batch).flatMap fun v =>
    rillsOf ring seq 45 ((List.range phases).flatMap fun f => (List.range a).map fun c => .replica (sr + a * f + c) v f c) ++
    rillsOf ring seq 96 ((List.range ((groups + 511) / 512)).flatMap fun k => (List.range 4).flatMap fun b =>
      (List.range a).map fun c => .product v k b c)

/-- The job of an accepted GEMV. -/
def State.gemvJob (s : State) (ring : Nat) (h : Held) : Job :=
  let d := h.bytes
  let part := (s.ring ring).part
  let p := s.operand part d 24
  let hs := s.gemvHeaders part d
  let total := gemvRows d * gemvCols d
  let n := p.castShare
  { newJob s ring h with
    ents := [24, 25, 26, 27].map fun b => (b, s.operand part d b)
    slots := s.slotsFor [p], pins := s.pinsFor [p]
    gemv := { xfmt := bits (fieldAt (nth hs 0 []) 0 1) 0 4, alphas := hs.map (fieldAt · 4 4), phases := phasesOf (gemvCols d) }
    parts := (gemvShares p total).map fun (k, j) =>
      let count := min ((k + 1) * n) total - k * n
      { jet := j, first := k * n, count := count, tiles := rowGroups count * gemvBatch d } }

/-- GEMV (R281 to R286): the rills of each part join the queue of its jet. -/
def execGemv (ring : Nat) (s : State) : Host.Outcome State Fault Refusal :=
  .next <| match s.front ring (· == 9) with
    | none => s
    | some h =>
      let d := h.bytes
      let part := (s.ring ring).part
      let x := s.operand part d 25
      match s.gemvChecks part d with
      | some v => s.refuse ring h v
      | none =>
        let j := s.gemvJob ring h
        let sr := (j.ent 27).base / 0x400000
        ((j.parts.foldl (fun t p => t.updWell p.jet fun w => { w with
          rills := w.rills ++ gemvRills ring h.seq (gemvBatch d) j.gemv.phases (xWidth j.gemv.xfmt) sr (rowGroups p.count) })
          (s.takeUp ring j)).readDue ring h.seq x 0 (gemvBatch d * recordSize (gemvCols d) j.gemv.xfmt)).overHoles
            (x.ranges 0 0 x.size)

/-! ## Tallies (R269, R273) -/

/-- The set bits of the segments of a row (R267). -/
def segmentCounts (row : List Byte) : List Nat :=
  (chunksOf 16 512 row).map fun g => (g.map fun b => popcount 8 b.toNat).sum

/-- Counters that gain a signed multiple of segment counts, modulo 2^32 (R273). -/
def gain (neg : Bool) (k : Nat) (cs ns : List Nat) : List Nat :=
  List.zipWith (fun c n => if neg then (c + 2 ^ 32 - k * n % 2 ^ 32) % 2 ^ 32 else (c + k * n) % 2 ^ 32) cs ns

/-! ## Words on the banks (R273) -/

/-- A bank row (R268). -/
def State.row (s : State) (jet bank row : Nat) : List Byte :=
  s.read (stackAddr jet (bankOffset row bank 0)) 0x2000

/-- Write a bank row from byte `o` on. -/
def State.putRow (s : State) (jet bank row o : Nat) (bs : List Byte) : State :=
  s.write (stackAddr jet (bankOffset row bank o)) bs

/-- The row that a row operation makes (R273). -/
def rowValue (op : Nat) (a b : List Byte) : List Byte :=
  match op with
  | 0x09 => List.zipWith (· &&& ·) a b
  | 0x0A => List.zipWith (· ||| ·) a b
  | 0x0B => List.zipWith (· ^^^ ·) a b
  | 0x0C => a.map (~~~ ·)
  | _ => a

/-- A word on one bank, but for CASC (R273). -/
def State.wordOn (s : State) (jet w bank : Nat) : State :=
  let op := bits w 0 6
  let set := bits w 6 1
  let a := s.row jet bank (bits w 12 14)
  let b := s.row jet bank (bits w 26 14)
  let t (l : List Nat) : State := s.updWell jet (·.putTally bank set l)
  let old := (s.well jet).tally bank set
  match op with
  | 0x08 | 0x09 | 0x0A | 0x0B | 0x0C => s.putRow jet bank (bits w 40 14) 0 (rowValue op a b)
  | 0x10 => t (gain (bit w 7) (2 ^ bits w 8 4) old (segmentCounts (List.zipWith (· &&& ·) a b)))
  | 0x11 => t (gain (bit w 7) (2 ^ bits w 8 4) old (segmentCounts a))
  | 0x18 => t (List.replicate 512 0)
  | 0x1A => s.putRow jet bank (bits w 40 14) (2048 * bits w 8 2) (old.flatMap (leBytes 4))
  | _ => s

/-- CASC within one pseudo-channel, over the banks of the set in ascending position (R270, R273). -/
def cascade (set : Nat) : List Nat → List Nat → Well → Well
  | [], _, w => w
  | b :: t, acc, w =>
    let sum := List.zipWith (fun x y => (x + y) % 2 ^ 32) acc (w.tally b set)
    cascade set t sum (w.putTally b set sum)

/-- A word of a RILL on the banks of the set (R272, R273). -/
def State.rillWord (s : State) (jet w : Nat) (banks : List Nat) : State :=
  if bits w 0 6 = 0x19 then
    s.updWell jet fun x => (List.range 32).foldl (fun y p =>
      cascade (bits w 6 1) (banks.filter (· / 16 == p)) (List.replicate 512 0) y) x
  else banks.foldl (fun t b => t.wordOn jet w b) s

/-! ## Words of a GEMV (R280, R283) -/

/-- The bytes of a replica row (R280): bit j is bit `plane` of element (65536 φ + j) mod COLS. -/
def replicaRow (codes : List Nat) (cols phase plane : Nat) : List Byte :=
  (List.range 0x2000).map fun i => BitVec.ofNat 8
    ((List.range 8).map fun q => 2 ^ q * bits (nth codes ((65536 * phase + 8 * i + q) % cols) 0) plane 1).sum

/-- The codes of an activation vector, as they stand in X (R279). -/
def State.activations (s : State) (j : Job) (vec : Nat) : List Nat :=
  let cols := gemvCols j.desc
  let w := xWidth j.gemv.xfmt
  codesOf w (s.readRegion (j.ent 25) 0 (vec * recordSize cols j.gemv.xfmt + 64) (cols * w / 8))

/-- The broadcast write of a replica row into every bank (R280): a row address of all 512 banks is contiguous (R268). -/
def State.writeReplica (s : State) (j : Job) (jet row vec phase plane : Nat) : State :=
  let bs := replicaRow (s.activations j vec) (gemvCols j.desc) phase plane
  s.putRow jet 0 row 0 (List.replicate 512 bs).flatten

/-- The row of plane `b` of a row group, in its bank (R277). -/
def planeRow (base rgg b : Nat) : Nat :=
  base / 0x400000 + 35 * (rgg / 4096) + 8 * b + rgg % 4096 / 512

/-- The sign and weight of a term (R283): whether it is negative, and 2^(b + c). -/
def productSign (xfmt b c : Nat) : Bool :=
  (b == 3) != (xSigned xfmt && c == xWidth xfmt - 1)

/-- An ANDT word of step `k` of a product, on every bank that has a row group in the step; the first word of a step
starts its set from 0 (R283). -/
def State.productWord (s : State) (j : Job) (jet : Nat) (groups k b c : Nat) : State :=
  let p := j.ent 24
  let base := p.slotBase (j.readSlot p)
  let sr := (j.ent 27).base / 0x400000
  let a := xWidth j.gemv.xfmt
  (List.range 512).foldl (fun t bank =>
    let g := 512 * k + bank
    if g < groups then
      let w := t.row jet bank (planeRow base g b)
      let x := t.row jet bank (sr + a * (g % j.gemv.phases) + c)
      let old := if b = 0 ∧ c = 0 then List.replicate 512 0 else (t.well jet).tally bank (k % 2)
      t.updWell jet (·.putTally bank (k % 2) (gain (productSign j.gemv.xfmt b c) (2 ^ (b + c)) old
        (segmentCounts (List.zipWith (· &&& ·) w x))))
    else t) s

/-! ## RILL_START, RILL_WORD (R276, R293, R299) -/

/-- Whether every debt lets a rill start (R293). -/
def Well.debtsLow (w : Well) : Bool := w.debts.all fun x => decide (x.2 ≤ 5)

/-- Whether the words of the running rill of a jet may be issued, and its tallies drained: the stack's refresh is owned, and no
test holds the engine (R109, R295, R298, R368). -/
def State.rillGoes (s : State) (jet : Nat) : Bool :=
  s.live && s.wellReady jet && !s.underTest (s.engine jet)

/-- RILL_START (R276, R293, R299, R300): the indications of the banks of the oldest waiting rill fall, none of which has a
normal access pending; its words have been read (R414). -/
def execRillStart (jet : Nat) (s : State) : Host.Outcome State Fault Refusal :=
  .next <|
    let w := s.well jet
    match w.rills with
    | [] => s
    | r :: rest =>
      if s.rillGoes jet && s.runs jet && !s.inAdoption jet && w.running.isNone && !s.readsDue r.ring r.seq &&
          w.copying.isEmpty && !w.pend.any r.addressed.contains && w.debtsLow && !w.ops.any (·.bank.isSome) &&
          !w.drains.any (fun d => !(d.ring == r.ring && d.seq == r.seq)) then
        s.updWell jet fun x => { x with rills := rest, running := some r, held := r.addressed, idle := [], suspended := false }
      else s

/-- Whether a word waits for the drain of the tally set that it starts again (R283). -/
def Well.drainDue (w : Well) (o : RillOp) : Bool :=
  match o with
  | .product _ k 0 0 => w.drains.any fun d => d.stepNo % 2 == k % 2
  | _ => false

/-- The word in hand of a running rill. -/
def Rill.word (r : Rill) : Option RillOp := r.ops[r.done]?

/-- The effect of a word of a rill of a job on the banks. -/
def State.wordEffect (s : State) (j : Job) (jet : Nat) (r : Rill) (o : RillOp) : State :=
  match o with
  | .word w => if timedWord w then s.rillWord jet w (bankSet r.pcs r.positions) else s
  | .replica row vec phase plane => s.writeReplica j jet row vec phase plane
  | .product _ k b c => s.productWord j jet (rowGroups ((j.partOn jet).getD { jet := jet }).count) k b c

/-- Whether a word is an operation on the command lane; SELECT is none (R273, R418). -/
def laneWord (o : RillOp) : Bool :=
  match o with | .word w => timedWord w | _ => true

/-- The issuer after a word: the sequence number of its operation, the bank set that SELECT leaves, and the drain that
the last word of a step makes due (R270, R272, R283). -/
def Well.issued (w : Well) (r : Rill) (o : RillOp) (last : Nat) : Well :=
  let r1 := match o with
    | .word v => if timedWord v then r else { r with pcs := bits v 6 32, positions := bits v 38 16 }
    | _ => r
  let u := { w with running := some { r1 with done := r.done + 1 } }
  let v := if laneWord o then { u with ops := u.ops ++ [{ number := u.opNext }], opNext := u.opNext + 1 } else u
  (match o with
    | .product vec k 3 c =>
      if c = last then { v with drains := v.drains ++ [({ ring := r.ring, seq := r.seq, vec := vec, stepNo := k } : Drain)] } else v
    | _ => v).endRill

/-- One more timed word of a RILL has been executed (R276). -/
def State.countWord (s : State) (r : Rill) (jet : Nat) (o : RillOp) : State :=
  match o with
  | .word w =>
    if timedWord w then s.updJob r.ring r.seq fun j => j.updPart jet fun p => { p with committed := p.committed + 1 } else s
  | _ => s

/-- The word in hand of the running rill of a jet is issued, where it can be. -/
def State.rillStep (s : State) (jet : Nat) : State :=
  let w := s.well jet
  match w.running with
  | none => s
  | some r => match r.word, s.job r.ring r.seq with
    | some o, some j =>
      if s.rillGoes jet && !w.suspended && (w.held.all w.idle.contains) && !w.drainDue o then
        (((s.wordEffect j jet r o).countWord r jet o).updWell jet (·.issued r o (xWidth j.gemv.xfmt - 1))).overHoles j.ranges
      else s
    | _, _ => s

/-- RILL_WORD (R109, R273, R276, R280, R283, R298). -/
def execRillWord (jet : Nat) (s : State) : Host.Outcome State Fault Refusal :=
  .next (s.rillStep jet)

/-! ## The epilogue of a GEMV (R270, R284, R285) -/

/-- The scale of the segment at element `x` of a jet's share (R260, R277), as bits. -/
def State.scaleAt (s : State) (p : RegionEntry) (slot jet x : Nat) : Nat :=
  let (bank, row, _, u) := planePlace (p.slotBase slot) (x / 4096)
  s.readLe (stackAddr jet (bankOffset (row + 32) bank (64 * u + 2 * (x % 4096 / 128)))) 2

/-- Whether a scale fails the plane check (R307). -/
def badScaleCode (c : Nat) : Bool :=
  0x8000 ≤ c || c == 0 || (bits c 7 8 == 255 && bits c 0 7 != 0 && c != 0x7FC0)

/-- The tally of the segment at element `x` of a jet's share, as drained (R283). -/
def GemvSetup.tallyAt (g : GemvSetup) (jet x : Nat) : Int :=
  toSigned 32 (nth (Tab.get [] g.drained (jet * 2 ^ 20 + x / 65536)) (x % 65536 / 128) 0)

/-- The F64 accumulator after the segments of a weight row, and whether a step has produced a NaN (R83, R84, R284). -/
def rowAccumulator (terms : List (Nat × Int)) : Nat × Bool :=
  terms.foldl (fun acc t =>
    let sigma := Fmt.b16.decode t.1
    let a := Fmt.f64.decode acc.1
    let r := finish .f64 .rne [sigma, a] ((exactMul sigma (.fin (Dy.ofInt t.2))).bind (exactAdd .rne · a))
    (r.1, acc.2 || r.2 == some .nanProduced)) (0, false)

/-- Output of a weight row: the accumulator times ALPHA, rounded once; a NaN that the accumulation produced counts (R84,
R284). -/
def rowOutput (f : Fmt) (rnd : Rnd) (acc : Nat × Bool) (alpha : Nat) : Nat × Option Event :=
  let a := Fmt.f64.decode acc.1
  let b := Fmt.f32.decode alpha
  let r := finish f rnd [a, b] (exactMul a b)
  (r.1, if acc.2 then some .nanProduced else r.2)

/-- The weight rows of a part whose last segment lies in step `k` (R283 to R285). -/
def rowsDone (cols : Nat) (p : Part) (k : Nat) : List Nat :=
  ((List.range (p.count / cols)).filter fun i => ((i + 1) * cols - 1) / 65536 / 512 == k).map (p.first / cols + ·)

/-- The segments of weight row `i` of a part: scale and tally, in ascending order. -/
def State.rowTerms (s : State) (j : Job) (g : GemvSetup) (p : Part) (i : Nat) : List (Nat × Int) :=
  let e := j.ent 24
  let cols := gemvCols j.desc
  (List.range (cols / 128)).map fun m =>
    let x := i * cols - p.first + 128 * m
    (s.scaleAt e (j.readSlot e) p.jet x, g.tallyAt p.jet x)

/-- A plane check has failed at a row of a bank: the mark, record 09h, and the test of the bank (R307, R311). -/
def State.checkFails (s : State) (jet key : Nat) (e : RegionEntry) (slot bank row : Nat) : State :=
  let t := s.emit { cls := 1, code := 9, part := some (key / 256), jet := jet
                    shard := if e.slotted then some e.shard else none, arg0 := key % 256, arg1 := row }
  let u := t.breakSlot key slot
  { u with tests := u.tests ++ [{ cls := .planeSeal, place := jet, index := bank, engine := u.engine jet }] }

/-- The drained tallies of a step, put into the setup of the job (R270). -/
def State.drained (s : State) (j : Job) (p : Part) (k : Nat) : GemvSetup :=
  let gs := (List.range 512).filter fun b => decide (512 * k + b < rowGroups p.count)
  { j.gemv with drained := gs.foldl (fun d b =>
      Tab.set [] d (p.jet * 2 ^ 20 + 512 * k + b) ((s.well p.jet).tally b (k % 2))) j.gemv.drained }

/-- Write the outputs of weight rows, and count them (R284, R285, R316). -/
def State.writeOutputs (s : State) (j : Job) (g : GemvSetup) (p : Part) (vec : Nat) (rows : List Nat) : State :=
  let f := gemvFmt j.desc
  let y := j.ent 26
  rows.foldl (fun t i =>
    let (code, ev) := rowOutput f (gemvRnd j.desc) (rowAccumulator (t.rowTerms j g p i)) (nth g.alphas vec 0)
    (t.writeRegion y 0 ((vec * gemvRows j.desc + i) * (f.width / 8)) (leBytes (f.width / 8) code)).countTotal p.jet
      (j.ent 24).group (Counts.deliver [] f ev)) s

/-- The first segment of weight rows whose scale fails the check: its element in the share (R307). -/
def State.scaleFault (s : State) (j : Job) (p : Part) (rows : List Nat) : Option (Nat × Nat) :=
  let e := j.ent 24
  let cols := gemvCols j.desc
  rows.findSome? fun i => ((List.range (cols / 128)).map fun m => i * cols - p.first + 128 * m).find? (fun x =>
    badScaleCode (s.scaleAt e (j.readSlot e) p.jet x)) |>.map fun x => (i, x)

/-- The epilogue of a step that has been drained: the outputs of the rows whose last segment it holds, or a failed plane check
of their scales (R284, R285, R307, R311). -/
def State.epilogue (s : State) (j : Job) (g : GemvSetup) (p : Part) (dr : Drain) : State :=
  let rows := rowsDone (gemvCols j.desc) p dr.stepNo
  let n := min 512 (rowGroups p.count - 512 * dr.stepNo)
  match s.scaleFault j p rows with
  | some (i, x) =>
    let e := j.ent 24
    let (bank, row, _, _) := planePlace (e.slotBase (j.readSlot e)) (x / 4096)
    (s.writeOutputs j g p dr.vec (rows.takeWhile (· != i))).checkFails p.jet (regionKey j.part (j.entryNo 24)) e
      (j.readSlot e) bank (row + 32)
  | none =>
    let v := (s.writeOutputs j g p dr.vec rows).updJob dr.ring dr.seq fun x => x.updPart p.jet fun p =>
      { p with committed := p.committed + n }
    if rows = [] then v else v.moveDue j p.jet (j.ent 26)

/-- The oldest tally set of a jet that waits is drained, where it can be, and its step's epilogue runs; after the last one of the
part the tallies are unspecified (R269). -/
def State.drainStep (s : State) (jet : Nat) : State :=
  match (s.well jet).drains with
  | [] => s
  | dr :: rest => match s.job dr.ring dr.seq with
    | none => s
    | some j => match j.partOn jet with
      | none => s
      | some p =>
        if !s.rillGoes jet then s
        else
          let g := s.drained j p dr.stepNo
          let t := (s.updWell jet fun w => { w with drains := rest }).updJob dr.ring dr.seq fun x => { x with gemv := g }
          let u := if (t.well jet).has dr.ring dr.seq then t else t.freeTallies jet
          u.epilogue j g p dr

/-- GEMV_DRAIN_DONE (R109, R269, R270, R284, R285, R307, R311, R368). No word of a rill touches a row that the epilogue reads or
writes, so it does not matter that R299 lets its accesses wait (log 114). -/
def execGemvDrainDone (jet : Nat) (s : State) : Host.Outcome State Fault Refusal :=
  .next (s.drainStep jet)

/-! ## A running rill that a reset drains (R295, R360; log 30) -/

/-- The next drain of a jet, or the next word of its running rill. -/
def State.finishStep (s : State) (jet : Nat) : State :=
  if (s.well jet).drains.isEmpty then s.rillStep jet else s.drainStep jet

/-- A number of such steps. -/
def State.finishSteps (jet : Nat) : Nat → State → State
  | 0, s => s
  | n + 1, s => State.finishSteps jet n (s.finishStep jet)

/-- The words that a rill still has to issue. -/
def Well.wordsLeft (w : Well) : Nat :=
  match w.running with | some r => r.ops.length - r.done | none => 0

/-- The running rill of a jet issues its remaining words, on banks that are idle by then, and its tallies are drained. -/
def State.finishRill (s : State) (jet : Nat) : State :=
  let t := s.updWell jet fun w => { w with idle := w.held }
  State.finishSteps jet (2 * (t.well jet).wordsLeft + (t.well jet).drains.length) t

/-- Whether the running rill of a jet, or a drain, is a descriptor's. -/
def Well.runs (w : Well) (ring : Nat) (seq : Word) : Bool :=
  w.running.any (fun r => r.ring == ring && r.seq == seq) || w.drains.any fun d => d.ring == ring && d.seq == seq

/-- Whether a descriptor's running rill has words left on a jet, or a drain. -/
def Well.unfinished (w : Well) (ring : Nat) (seq : Word) : Bool :=
  w.running.any (fun r => r.ring == ring && r.seq == seq && !r.isOver) || w.drains.any fun d => d.ring == ring && d.seq == seq

/-! ## Refresh and the lane (R291, R293, R297, R299, R300, R418, R419) -/

/-- TAKE_ACK (R297, R404): taken only while the bit is 1. Every debt is taken as 7, and two refreshes are due. -/
def execTakeAck (basin : Nat) (s : State) : Host.Outcome State Fault Refusal :=
  .next <|
    if !s.open? || !(s.basin basin).rfhOwn || (s.wellJets basin).all (fun j => (s.well j).taken) then s
    else s.updJets (s.wellJets basin) fun _ x => { x with well := { x.well with
      taken := true, debts := (List.range 512).map fun b => (b, 7), firsts := (List.range 512).map fun b => (b, 2) } }

/-- REFRESH_TICK (R291). -/
def execRefreshTick (jet bank : Nat) (s : State) : Host.Outcome State Fault Refusal :=
  .next <|
    if !s.live || !s.wellspring jet || 512 ≤ bank || !(s.basin (jet / 4)).rfhOwn then s
    else s.updWell jet fun w => { w with debts := Tab.upd 0 w.debts bank (· + 1) }

/-- Whether a bank is due for a refresh (R293, R297). -/
def Well.due (w : Well) (bank : Nat) : Bool :=
  decide (1 ≤ w.debt bank) && !w.ops.any (·.bank == some bank) &&
    (if w.firsts.isEmpty then !w.pend.contains bank || decide (6 ≤ w.debt bank) else decide (1 ≤ Tab.get 0 w.firsts bank))

/-- The bank that a pseudo-channel refreshes next: ascending, and while a take-back's refreshes are due, those that are
owed most of them first (R293, R297). -/
def Well.nextRefresh (w : Well) (channel : Nat) : Option Nat :=
  let bs := ((List.range 16).map (16 * channel + ·)).filter w.due
  (bs.find? fun b => Tab.get 0 w.firsts b == 2).orElse fun _ => bs.head?

/-- Whether refreshes go on: no rill runs but a suspended one, and it is not the case that a rill waits and every debt
is 5 or less (R293). -/
def Well.refreshes (w : Well) : Bool :=
  (w.running.isNone || w.suspended) &&
    (!w.firsts.isEmpty || !(w.debtsLow && (!w.rills.isEmpty || w.running.isSome)))

/-- REFRESH_ISSUE (R290, R293). -/
def execRefreshIssue (jet bank : Nat) (s : State) : Host.Outcome State Fault Refusal :=
  .next <|
    let w := s.well jet
    if s.live && s.wellspring jet && (s.basin (jet / 4)).rfhOwn && w.taken && w.refreshes &&
        w.nextRefresh (bank / 16) == some bank &&
        decide ((w.ops.filter fun o => o.bank.any (· / 16 == bank / 16)).length < 4) then
      s.updWell jet fun w => { w with ops := w.ops ++ [{ number := w.opNext, bank := some bank }], opNext := w.opNext + 1 }
    else s

/-- An operation of the lane has completed on every bank addressed. -/
def Well.acked (w : Well) (o : LaneOp) : Well :=
  let u := { w with ops := w.ops.filter (·.number != o.number) }
  (match o.bank with | some b => u.refreshed b | none => u).endRill

/-- Whether the in-bank command lane of a jet is in use: refresh is owned (R295, R419). -/
def State.laneOpen (s : State) (jet : Nat) : Bool :=
  s.wellspring jet && s.live && (s.basin (jet / 4)).rfhOwn

/-- OPACK (R418, R419): an acknowledgement that is late, or names no outstanding operation, is an error of class 0Bh. -/
def execOpack (jet number : Nat) (late : Bool) (s : State) : Host.Outcome State Fault Refusal :=
  .next <|
    let w := s.well jet
    if !s.laneOpen jet then s
    else match w.ops.find? (·.number == number) with
      | none => s.detected .bank jet 0 none
      | some o =>
        let t := ((s.updWell jet (·.acked o)).freeAfter jet w).wellTaken jet
        if late then
          t.detected .bank jet (o.bank.getD (w.held.headD 0))
            (if o.bank.isSome then none else w.running.map fun r => (r.ring, r.seq))
        else t

/-- BANK_IDLE (R299, R419): banks of a pseudo-channel that are held are precharged and idle. -/
def execBankIdle (jet channel : Nat) (mask : BitVec 16) (s : State) : Host.Outcome State Fault Refusal :=
  .next <|
    if !s.laneOpen jet then s
    else s.updWell jet fun w => { w with
      idle := w.idle ++ (w.held.filter fun b => b / 16 == channel && mask.getLsbD (b % 16) && !w.idle.contains b) }

/-- PEND (R300): a normal access to a bank is pending. -/
def execPend (jet bank : Nat) (s : State) : Host.Outcome State Fault Refusal :=
  .next <|
    let w := s.well jet
    if !s.live || !s.wellspring jet || 512 ≤ bank || w.pend.contains bank then s
    else s.updWell jet fun w => { w with pend := w.pend ++ [bank] }

/-! ## The patrol and seal reports (R306 to R311) -/

/-- The row-aligned slots of plane regions on a jet whose mark is clear: key, entry, slot (R310). -/
def State.patrolSlots (s : State) (jet : Nat) : List (Nat × RegionEntry × Nat) :=
  (s.regions.filter fun x => x.2.kind == 6 && bit x.2.jets jet && x.2.castShare != 0).flatMap fun x =>
    (x.2.slotList.filter fun k => !(x.2.broken k)).map fun k => (x.1, x.2, k)

/-- Whether a row address belongs to a slot's records. -/
def rowIn (e : RegionEntry) (slot row : Nat) : Bool :=
  decide (e.slotBase slot / 0x400000 ≤ row) && decide (row < e.slotBase slot / 0x400000 + 35 * (e.length / 0x8C00000))

/-- The row address that the patrol reads next: ascending, wrapping at the end (R310). -/
def State.patrolRow (s : State) (jet : Nat) : Option Nat :=
  let rows := (List.range 9216).filter fun r => (s.patrolSlots jet).any fun x => rowIn x.2.1 x.2.2 r
  (rows.find? ((s.well jet).patrol ≤ ·)).orElse fun _ => rows.head?

/-- The plane tiles of a slot that a row address completes: their record numbers (R277, R310). -/
def tilesCompleted (e : RegionEntry) (slot row : Nat) : List Nat :=
  let x := row - e.slotBase slot / 0x400000
  let half := x % 35 - 33
  if x % 35 < 33 then []
  else (List.range 512).flatMap fun bank => (List.range 64).map fun i =>
    let u := 64 * half + i
    65536 * (x / 35) + 16 * (512 * (u / 16) + bank) + u % 16

/-- The row in which a plane tile first fails its check (R306, R307). -/
def State.tileFault (s : State) (e : RegionEntry) (slot jet t : Nat) : Option Nat :=
  let bs := s.readPieces jet (planePieces (e.slotBase slot) t)
  let (_, row, g, _) := planePlace (e.slotBase slot) t
  ((List.range 64).find? fun k => crc16 (sliceAt bs (32 * k) 32) != fieldAt bs (2112 + 2 * k) 2).map
      (fun k => row + 8 * (k / 16) + g) |>.orElse fun _ =>
    if (List.range 32).any fun m => badScaleCode (fieldAt bs (2048 + 2 * m) 2) then some (row + 32) else none

/-- The patrol checks the tiles that a row completes in one slot; the first failure sets the mark. -/
def State.patrolSlot (s : State) (jet row : Nat) (x : Nat × RegionEntry × Nat) : State :=
  if rowIn x.2.1 x.2.2 row then
    match (tilesCompleted x.2.1 x.2.2 row).findSome? fun t => (s.tileFault x.2.1 x.2.2 jet t).map (t, ·) with
    | some (t, r) => s.checkFails jet x.1 x.2.1 x.2.2 (planePlace (x.2.1.slotBase x.2.2) t).1 r
    | none => s
  else s

/-- PATROL_READ (R299, R310, R311). -/
def execPatrolRead (jet : Nat) (s : State) : Host.Outcome State Fault Refusal :=
  .next <|
    if !s.live || !s.wellspring jet || !s.runs jet || !(s.basin (jet / 4)).rfhOwn || s.stackHeld jet ||
        s.underTest (s.engine jet) then s
    else match s.patrolRow jet with
      | none => s
      | some r => ((s.patrolSlots jet).foldl (fun t x => t.patrolSlot jet r x) s).updWell jet fun w => { w with patrol := r + 1 }

/-- SEAL_REPORT (R304, R308, R309): the enabled bytes of the beat have been written from outside with what nobody here
knows: free values (log 31). Every slot of a SEAL 1h region that they touch is broken. -/
def execSealReport (jet offset : Nat) (enables : BitVec 64) (s : State) : Host.Outcome State Fault Refusal :=
  .next <|
    let o := offset / 64 * 64
    let bytes := (List.range 64).filter enables.getLsbD
    let hit := (s.regions.filter fun x => x.2.sealKind == 1 && x.2.loc == 0 && bit x.2.jets jet).flatMap fun x =>
      (x.2.slotList.filter fun k => bytes.any fun i => x.2.slotBase k ≤ o + i && o + i < x.2.slotBase k + x.2.length).map fun k =>
        (jet, x.1, x.2, k)
    if hit.isEmpty then s
    else
      let cells : List Host.Cell := (bytes.zip (s.freeBytes 64)).map fun (i, b) => (stackAddr jet (o + i), b)
      hit.foldl State.sealReported (({ s with mem := memPatch s.mem cells } : State).draw 64)

/-! ## Spare banks (R312, R313) -/

/-- The parts of a range of stack bytes that lie in a bank: of each row address, offset and length (R268). -/
def bankParts (bank base length : Nat) : List (Nat × Nat) :=
  let first := base / 0x400000
  (List.range ((base + length) / 0x400000 + 1 - first)).filterMap fun r =>
    commonRange (bankOffset (first + r) bank 0) 0x2000 base length

/-- Parts of a stack become free values. -/
def State.loseParts (s : State) (jet : Nat) (l : List (Nat × Nat)) : State :=
  l.foldl (fun u r => (u.write (stackAddr jet r.1) (u.freeBytes r.2)).draw r.2) s

/-- What is not copied to a spare is lost: the bank's rows of regions that the chip's check path does not serve, planes and
scratch. They become free values (R304, R313, log 115). -/
def State.loseRows (s : State) (jet bank : Nat) : State :=
  (s.regions.filter fun x => x.2.sealKind != 0 && x.2.loc == 0 && bit x.2.jets jet).foldl (fun t x =>
    x.2.slotList.foldl (fun t k => t.loseParts jet (bankParts bank (x.2.slotBase k) x.2.length)) t) s

/-- BANK_COPY_DONE (R313): the oldest logical bank whose copy runs is switched to the spare; every mark of the stack's plane
regions is set. A reset holds the copy up, and its self-test follows. A station that is FAILED stays so (R314). -/
def execBankCopyDone (jet : Nat) (s : State) : Host.Outcome State Fault Refusal :=
  .next <| match (s.well jet).copying with
    | [] => s
    | bank :: rest =>
      let r := (s.jet (s.engine jet)).resetting
      if !s.live || (s.jet (s.engine jet)).inReset then s
      else
        let left := (s.well jet).spares.getD (bank / 16) 0 - 1
        let t := ((s.updWell jet fun w => { w with
          copying := rest, spares := modAt (· - 1) w.spares (bank / 16)
          banks := w.banks.lose (bankSpareList (bank / 16)) bank (ownBank bank) }).freeTally jet bank).loseRows jet bank
        let u := { t with regions := Tab.mapVals {} (fun _ e =>
          if e.kind = 6 ∧ bit e.jets jet then { e with broken0 := true, broken1 := true } else e) t.regions }
        let v := u.spareIn .bank jet bank left
        if r.isSome || !rest.isEmpty || (s.jet (s.engine jet)).codes.getD 5 0 == 3 then v else v.setCode (u.engine jet) 5 2

end Sys2Proof.Machine
end

