-- ==== Sys2Proof/Machine/Complete.lean ====
section
/-! DEFINITION. DESCRIPTOR_COMPLETE: the status of an accepted descriptor whose work has ended, what its completion leaves, and
its record (R81, R120 to R132, R162, R189, R198, R276, R308, R319, R393). -/

namespace Sys2Proof.Machine

/-! ## Reductions (R81, R161, R162) -/

/-- The partials of a STILL, its jets combined in ascending order (R72, R162). -/
def Job.combinedPartials (j : Job) : List (Option Partial) :=
  j.parts.foldl (fun acc p => addPartials j.env.image acc p.partials) []

/-- Whether some reduction of a STILL had no participating element (R81). -/
def Job.emptyReduction (j : Job) : Bool :=
  opOf j.desc == 3 && !(reductionsOf (progInsns j.env.image)).isEmpty && j.combinedPartials.any (·.isNone)

/-- A write of the home basin's controller that waits for its acknowledgement (R123, R420). -/
def State.homeStore (s : State) (j : Job) : State :=
  s.request { stack := false, place := (s.ring j.ring).home, purpose := .store j.ring j.seq }

/-- The reduction records of a STILL (R162). -/
def State.writeReductions (s : State) (j : Job) : State :=
  let rs := reductionsOf (progInsns j.env.image)
  let ps := j.combinedPartials
  if rs.isEmpty then s
  else (((List.range rs.length).zip rs).foldl (fun t (k, i) => match Op.ofCode i.op with
    | some o =>
      let e := j.ent (30 + i.aux % 4)
      t.writeRegion e (j.writeSlot e) (32 * bits i.aux 2 4) (reductionRecord o i.prec (ps.getD k none))
    | none => t) s).homeStore j

/-! ## Broken marks (R308) -/

/-- The operand byte of PLANE_R. -/
def planeByte (d : List Byte) : Nat := if opOf d = 3 then 36 else 27

/-- Whether a STILL or CAST has written PLANE_R over the whole region (R308, R446). -/
def Job.coversPlane (j : Job) : Bool :=
  let e := j.ent (planeByte j.desc)
  (opOf j.desc == 3 || opOf j.desc == 4) && e.kind == 6 && j.result == 0 &&
    (j.parts.map (·.count)).sum == e.castShare * e.jetList.length

/-- The mark of the slot that a descriptor has written is cleared (R308). -/
def State.mendPlane (s : State) (j : Job) : State :=
  if j.coversPlane then
    let e := j.ent (planeByte j.desc)
    s.updRegion (j.key (planeByte j.desc)) fun x =>
      if j.writeSlot e = 0 then { x with broken0 := false } else { x with broken1 := false }
  else s

/-! ## The end of the parts (R131, R132) -/

/-- Whether every part of a descriptor has ended, its rills and drains included. -/
def State.partsEnded (s : State) (j : Job) : Bool :=
  j.parts.all fun p => j.partDone p && !(s.well p.jet).has j.ring j.seq

/-- DETAIL of OK and EMPTY: tiles, row groups, timed words, or frames (R131, R276, R393). -/
def Job.doneDetail (j : Job) : Nat :=
  if opOf j.desc = 0x13 then (j.length + 0xFFFFF) / 0x100000 else j.tilesDone

/-- The status that the parts of a descriptor give: status, JET, DETAIL (R81, R128, R132, R198). -/
def Job.outcome (j : Job) : Status × Nat × Nat :=
  let (st, jet, detail) := j.combined
  if st = .ok then
    (if j.emptyReduction || (opOf j.desc == 8 && crucibleK j.desc == 0) then .empty else .ok, jet, j.doneDetail)
  else (st, jet, detail)

/-- What the end of the parts leaves beside the record: reductions, marks, and the trailer of an export (R162, R308, R393). -/
def State.partsLeave (s : State) (j : Job) (st : Status) : State :=
  let good := st == .ok || st == .empty
  let t := if good && opOf j.desc == 3 then s.writeReductions j else s
  let u := if good then t.mendPlane j else t
  if good && opOf j.desc == 0x13 then (u.endExport j).homeStore j else u

/-! ## DESCRIPTOR_COMPLETE -/

/-- Whether the writes of a POUR have ended: its prefix entries are acknowledged, and its census records are written and
acknowledged, or dropped; it waits for no record while the log's ENABLE is 0 (R189, R319). -/
def State.pourDone (s : State) (j : Job) : Bool :=
  let mine := 1 + j.ring * 2 ^ 32 + j.seq.toNat
  let on := (Tab.get {} s.censusLogs j.part : Log).enable
  !(s.reqs.any fun r => (match r.purpose with
      | .catchUp n _ _ => n == shardOf j.desc
      | .report => r.detail / 4 == mine && on
      | _ => false)) &&
    !(on && s.basins.any fun b => b.2.queue.any fun r => r.waiter == some (j.ring, j.seq))

/-- Whether a FENCE still waits for the writes of descriptors of its ring that completed before it (R122). -/
def State.fenceHeld (s : State) (j : Job) : Bool :=
  (s.jobs.takeWhile fun x => !(x.ring == j.ring && x.seq == j.seq)).any fun x =>
    x.ring == j.ring && x.recorded && s.storesDue x.ring x.seq

/-- Whether a descriptor waits for reads that are not answered, or for the Weirs that a LAND allocates in (R209, R409, R414,
R420). -/
def State.workWaits (s : State) (j : Job) : Bool :=
  ((opOf j.desc == 0x0D || opOf j.desc == 0x10) && s.readsDue j.ring j.seq) ||
    (opOf j.desc == 1 && !s.weirsReady (shardOf j.desc))

/-- The status of a descriptor that runs no part, none while it waits (R126, R131). -/
def State.waitStatus (s : State) (j : Job) : Option (Status × Nat × Nat) :=
  match j.wait with
  | .ready => some (.ok, 0xFF, if opOf j.desc = 1 then fieldAt j.desc 8 4 else 0)
  | .ring r q => if s.headPassed r q then some (.ok, 0xFF, 0) else none
  | _ => none

/-- The status of a descriptor whose work has ended, with the state that the end leaves; none while it runs or waits. -/
def State.settleJob (s : State) (j : Job) : Option (State × Status × Nat × Nat) :=
  match j.status with
  | some x =>
    if (j.wait == .pour && !s.pourDone j) || (x.1 == .ok && !s.clocks.rst && s.workWaits j) then none else some (s, x)
  | none =>
    if j.wait = .parts then
      let x := j.outcome
      if !s.partsEnded j || (opOf j.desc == 0x13 && x.1 == .ok && s.storesDue j.ring j.seq) then none
      else some (s.partsLeave j x.1, x)
    else if (opOf j.desc = 0x0E ∧ s.fenceHeld j) ∨ s.workWaits j then none
    else (s.waitStatus j).map (s, ·)

/-- The record of a settled descriptor, and what its status does to its shard (R99, R123, R129, R230). -/
def State.finishJob (s : State) (j : Job) (x : Status × Nat × Nat) : State :=
  if cplFenceOf j.desc && s.storesDue j.ring j.seq then
    s.updJob j.ring j.seq fun y => { y with status := some x, wait := if y.wait == .pour then .pour else .ready }
  else (s.stillEnds j x.1).complete j (x.1, x.2.2) x.2.1

/-- DESCRIPTOR_COMPLETE (R120, R123, R129 to R132): the home basin's controller writes the record of a descriptor whose
work has ended, once the bank of its slot is free, and the basins on the way of its jets' statuses are awake (R299, R398). Under
MZ_RST_N the record is offered to the fabric port, which takes it or does not (R365). -/
def execDescriptorComplete (ring : Nat) (seq : Word) (s : State) : Host.Outcome State Fault Refusal :=
  .next <| match s.job ring seq with
    | none => s
    | some j =>
      if j.recorded || !(s.clocks.rst || (s.live && s.basinRuns (s.ring ring).home)) then s
      else match s.settleJob j with
        | none => s
        | some (t, x) =>
          if s.clocks.rst then t.finishJob j x
          else if s.recordHeld ring seq then s
          else if !s.backAwake j then s.wake [] (s.wayBack j)
          else t.finishJob j x

end Sys2Proof.Machine
end

