-- ==== Sys2Proof/Machine/Resets.lean ====
section
/-! DEFINITION. The four reset levels: jet, basin, partition and whole (R212, R269, R359 to R365, R404, R409, R439). -/

namespace Sys2Proof.Machine

/-! ## What a reset does to work (R360, R361) -/

/-- The engines that serve jets, once each. -/
def State.enginesOf (s : State) (js : List Nat) : List Nat :=
  (js.map s.engine).eraseDups

/-- Whether a part of a descriptor is in the scope of a reset of a level, of jet, basin or partition `index` (R359,
R363, R364). -/
def State.inScope (s : State) (level index : Nat) (j : Job) (p : Part) : Bool :=
  match level with
  | 0 => decide (p.jet < 24) && s.engine p.jet == s.engine index
  | 1 => (decide (p.jet < 24) && p.jet / 4 == index) || (s.ring j.ring).home == index
  | 2 => j.part == index
  | _ => true

/-- The waiting rills of a descriptor are dropped, and a running one goes on (R360). -/
def Well.dropWaiting (w : Well) (ring : Nat) (seq : Word) : Well :=
  { w with rills := w.rills.filter fun r => !(r.ring == ring && r.seq == seq) }

/-- What becomes of the running rill of a part that a reset ends: it is absorbed; it issues its remaining words before refresh
is handed back; or it runs on, on a jet that is not reset (R295, R360; log 30). -/
inductive RillEnd where
  | absorbed | finished | runsOn
  deriving DecidableEq, Repr

/-- A part in scope ends: absorbed at once, or, in DRAIN, after its tiles in flight and its running rill, where that is not
absorbed (R295, R360, R361; log 30). -/
def State.stopPart (s : State) (level : Nat) (absorb : Bool) (rill : RillEnd) (j : Job) (p : Part) : State :=
  let v : Verdict' := (.abortedReset, level)
  let runs := (s.well p.jet).runs j.ring j.seq
  let t := if !absorb && runs && rill == .finished then s.finishRill p.jet else s
  if absorb || (rill == .absorbed && (s.well p.jet).has j.ring j.seq) ||
      (rill == .finished && (t.well p.jet).unfinished j.ring j.seq) then t.cutPart j.ring j.seq p.jet v
  else (t.updJob j.ring j.seq fun x => x.updPart p.jet (·.endWith v)).updWell p.jet (·.dropWaiting j.ring j.seq)

/-- The parts in scope that have work left. -/
def State.scopeParts (s : State) (level index : Nat) : List (Job × Part) :=
  s.jobs.flatMap fun j =>
    if j.recorded || j.status.isSome then []
    else (j.parts.filter fun p => s.inScope level index j p && (!j.partDone p || (s.well p.jet).has j.ring j.seq)).map (j, ·)

/-- Parts end in the mode of a reset, and the rills of the descriptors' other parts with them (R276, R361). -/
def State.stopParts (s : State) (level : Nat) (absorb : Bool) (rill : Nat → RillEnd) (l : List (Job × Part)) : State :=
  l.foldl (fun t x => t.stopRills x.1.ring x.1.seq) (l.foldl (fun t x => t.stopPart level absorb (rill x.2.jet) x.1 x.2) s)

/-- The engines that a partition reset resets: those that serve jets of the partition, and of no other (R106, R364; log 123). -/
def State.partEngines (s : State) (p : Nat) : List Nat :=
  (s.enginesOf (s.jetsOf p)).filter fun e => (s.servedBy e).all fun j => (s.jet j).part == p

/-- What becomes of running rills in DRAIN: the row of MZ_JRST and MZ_BRST_N of R295 absorbs those of the stacks that are handed
over; JET_RST, PART_GO and MZ_RST_N let them complete, as R360 says; log 30. -/
def State.rillEnd (s : State) (level index : Nat) (pin : Bool) (jet : Nat) : RillEnd :=
  match level with
  | 0 => if pin then .absorbed else .finished
  | 1 => if jet / 4 = index then .absorbed else .runsOn
  | 2 => if (s.partEngines index).contains (s.engine jet) then .finished else .runsOn
  | _ => .finished

/-- The work in the scope of a reset ends in its mode; `pin`: a pin begins the reset (R360, R361). -/
def State.endWork (s : State) (level index : Nat) (absorb : Bool) (pin : Bool := false) : State :=
  s.stopParts level absorb (s.rillEnd level index pin) (s.scopeParts level index)

/-! ## The reset of an engine (R269, R361, R363, R409) -/

/-- The stations that report TESTING while an engine is in reset: those it has that have not FAILED; Wellspring only
where it serves a wellspring stack (R107, R361). -/
def State.resetStations (s : State) (e : Nat) : List Nat :=
  (List.range 6).filter fun k => (s.jet e).codes.getD k 0 != 3 && (k != 5 || (s.servedBy e).any s.wellspring)

/-- A HALT of a target that is reset before it has halted is over (R407, R409; log 124). -/
def Response.haltOver (r : Response) (targets : List Nat) : Response :=
  if r.status = 1 ∧ r.op = 5 ∧ targets.contains r.target then { r with status := 0 } else r

/-- The breakpoints of targets are cleared, and a HALT of one is over (R409). -/
def State.unhalt (s : State) (targets : List Nat) : State :=
  { s with garhal := { s.garhal with
    breaks := s.garhal.breaks.filter fun x => !targets.contains x.target, resp := s.garhal.resp.haltOver targets } }

/-- The targeted self-tests of engines are abandoned (R361). -/
def State.dropTests (s : State) (es : List Nat) : State :=
  { s with tests := s.tests.filter fun x => !es.any x.of }

/-- The jet resets that end with a reset that takes the place of another one (R371). -/
def Reset.takes (r : Reset) : Option Reset → Reset
  | some old => { r with joined := r.joined ++ old.joined ++ if old.level = 0 then [(old.jet, old.since)] else [] }
  | none => r

/-- An engine enters reset, or a reset takes the place of one: its halt and its breakpoints are cleared, its targeted
self-tests are abandoned, and its stations report TESTING (R361, R409). A defective engine has none. A partition reset whose
last engine it takes is over (R371). -/
def State.resetEngine (s : State) (r : Reset) (e : Nat) : State :=
  if (s.jet e).bad then s
  else
    let js := s.servedBy e
    let t := (s.dropTests [e]).unhalt js
    let u := (t.updJets js fun _ x => { x with well := { x.well with awaits := false } }).updJet e fun x =>
      { x with resetting := some (r.takes (s.jet e).resetting), halted := false, halting := false, steps := 0 }
    let v := u.setCodes e (s.resetStations e) 1
    match (s.jet e).resetting with
    | some old => if old.level = 2 ∧ old.ended then v.levelOver e old else v
    | none => v

/-- A reset that begins now. -/
def State.newReset (s : State) (level : Nat) (absorb : Bool) : Reset :=
  { level := level, absorb := absorb, since := s.aon, drained := absorb }

/-- The reset itself of an engine ends: its stations are tested next, once the block is not frozen (R363, R403). -/
def State.endReset (s : State) (e : Nat) : State :=
  let t := s.updJet e fun x => { x with resetting := x.resetting.map fun r => { r with ended := true } }
  if s.open? then t.settleReset e else t

/-! ## Jet resets (R359 to R363) -/

/-- A jet reset begins, by its pin or by JET_RST. One that finds the engine in reset ends with the reset that it finds (R359,
R371; log 65). -/
def State.resetJet (s : State) (jet : Nat) (pin : Bool) : State :=
  let e := s.engine jet
  let absorb := s.resets.jetMode
  let t := (s.emit { cls := 1, code := 0x88, part := some (s.jet jet).part, jet := jet, arg0 := 0, arg1 := jet / 4 }).dropTests [e]
  let u := (t.endWork 0 jet absorb pin).clearTallies (if absorb then s.servedBy e else [])
  if (s.jet e).inReset then u.updJet e fun x =>
    { x with resetting := x.resetting.map fun r => { r with joined := r.joined ++ [(jet, s.aon)] } }
  else (u.resetEngine { s.newReset 0 absorb with jet := jet } e).settleBasins.settleOwners

/-- JET_RST by a partition, where the engine also serves a jet of another one: R106 lets nothing of the other partition change,
so that the engine is not reset; the work of the partition's own jets on it ends (log 135). -/
def State.resetShared (s : State) (part jet : Nat) : State :=
  let js := (s.servedBy (s.engine jet)).filter fun k => (s.jet k).part == part
  let absorb := s.resets.jetMode
  let t := s.emit { cls := 1, code := 0x88, part := some part, jet := jet, arg0 := 0, arg1 := jet / 4 }
  let u := t.stopParts 0 absorb (fun _ => .runsOn) ((t.scopeParts 0 jet).filter fun x => js.contains x.2.jet)
  (u.clearTallies (if absorb then js else [])).jetResetOver jet s.aon

/-- JET_RESET_ASSERT (R359, R404, R426; log 71): held while the block is frozen; before the jets run, it acts when they do. -/
def execJetResetAssert (jet : Nat) (s : State) : Host.Outcome State Fault Refusal :=
  .next <|
    if 24 ≤ jet || (s.jet jet).pin then s
    else
      let t := s.updJet jet fun x => { x with pin := true, pinDue := s.clocks.freeze != .off }
      if s.live && s.present jet then t.resetJet jet true else t

/-- The reset of the engine that serves a jet ends, where it is a jet reset and no pin holds it. -/
def State.jetResetEnds (s : State) (jet : Nat) : State :=
  let e := s.engine jet
  match (s.jet e).resetting with
  | some r => if r.level = 0 ∧ !r.ended ∧ !((s.servedBy e).any fun k => (s.jet k).pin) then s.endReset e else s
  | none => s

/-- JET_RESET_END (R363, R404): MZ_JRST is deasserted, or the eight cycles of JET_RST are over. -/
def execJetResetEnd (jet : Nat) (s : State) : Host.Outcome State Fault Refusal :=
  .next <|
    if 24 ≤ jet then s
    else
      let t := s.updJet jet fun x => { x with pin := false }
      if s.clocks.rst then t else (t.jetResetEnds jet).settleOwners

/-! ## Basin resets (R359 to R363) -/

/-- The present jets of a basin. -/
def State.jetsIn (s : State) (b : Nat) : List Nat :=
  ([0, 1, 2, 3].map (4 * b + ·)).filter s.present

/-- The targeted self-tests of a basin's own units are abandoned (R361). -/
def State.dropBasinTests (s : State) (b : Nat) : State :=
  { s with tests := s.tests.filter fun x => !((basinClass x.cls && x.place == b) || (x.cls == .core && x.place == 24 + b)) }

/-- A basin reset begins (R359, R363, R371). -/
def State.resetBasin (s : State) (b : Nat) : State :=
  let r := s.newReset 1 s.resets.basinMode
  let t := s.emit { cls := 1, code := 0x88, basin := b, arg0 := 1, arg1 := b }
  let u := (((t.endWork 1 b r.absorb true).dropBasinTests b).unhalt [24 + b]).updBasin b fun x =>
    { x with resetting := some r, halted := false, halting := false }
  (((u.enginesOf (u.jetsIn b)).foldl (fun v e => v.resetEngine r e) u).clearTallies
    (if r.absorb then u.jetsIn b else [])).settleOwners

/-- BASIN_RESET_ASSERT (R359, R404, R426; log 71). -/
def execBasinResetAssert (basin : Nat) (s : State) : Host.Outcome State Fault Refusal :=
  .next <|
    if 6 ≤ basin || (s.basin basin).pin then s
    else
      let t := s.updBasin basin fun x => { x with pin := true, pinDue := s.clocks.freeze != .off }
      if s.live then t.resetBasin basin else t

/-- A basin or partition reset of an engine ends while MZ_JRST of a jet holds it: the jet's own reset goes on (R359). -/
def Reset.heldBy (r : Reset) (jet : Nat) : Reset :=
  match r.joined.find? (·.1 == jet) with
  | some x => { r with level := 0, jet := jet, since := x.2, joined := r.joined.erase x }
  | none => { r with level := 0, jet := jet }

/-- The reset itself of an engine of a basin or a partition ends; MZ_JRST may still hold it (R359, R363). -/
def State.endUnlessHeld (s : State) (e : Nat) : State :=
  match (s.servedBy e).find? fun k => (s.jet k).pin with
  | some k => s.updJet e fun x => { x with resetting := x.resetting.map (·.heldBy k) }
  | none => s.endReset e

/-- The reset of a basin ends; a basin whose engines need no test is out of it at once (R362, R363). -/
def State.basinResetEnds (s : State) (b : Nat) : State :=
  match (s.basin b).resetting with
  | none => s
  | some r =>
    let es := ([0, 1, 2, 3].map (4 * b + ·)).filter fun e =>
      match (s.jet e).resetting with | some x => x.level == 1 | none => false
    let t := es.foldl State.endUnlessHeld (s.updBasin b fun x => { x with resetting := some { r with ended := true } })
    if s.open? then t.settleBasin b else t

/-- BASIN_RESET_DEASSERT (R363, R404). -/
def execBasinResetDeassert (basin : Nat) (s : State) : Host.Outcome State Fault Refusal :=
  .next <|
    if 6 ≤ basin then s
    else
      let t := s.updBasin basin fun x => { x with pin := false }
      if s.clocks.rst then t else (t.basinResetEnds basin).settleOwners

/-! ## Partition resets (R364, R394, R439) -/

/-- The descriptors of a partition that run no part end with it; an activation is broken off (R361, R364, R385). -/
def State.endWaits (s : State) (level : Nat) (scope : Job → Bool) : State :=
  let mine (j : Job) : Bool := !j.recorded && j.status.isNone && scope j &&
    (match j.wait with | .ring _ _ | .meter | .vote | .activation _ => true | _ => false)
  let acts := s.jobs.any fun j => mine j && (match j.wait with | .activation _ => true | _ => false)
  { s with
    jobs := s.jobs.map fun j => if mine j then { j with wait := .ready, status := some (.abortedReset, 0xFF, level) } else j
    warden := { s.warden with activating := s.warden.activating && !acts } }

/-- A partition reset begins: step 1 of R364, and the engines enter reset (R359, R364, R371). -/
def State.resetPartition (s : State) (p : Nat) (absorb : Bool) : State :=
  let r := s.newReset 2 absorb
  let t := s.emit { cls := 1, code := 0x88, part := some p, arg0 := 2, arg1 := p }
  if (Tab.get none s.resets.parts p).isSome then t
  else
    let u := { t with resets := { t.resets with parts := Tab.set none t.resets.parts p (some r) } }
    let v := ((u.dropTests (u.partEngines p)).endWork 2 p absorb).endWaits 2 fun j => j.part == p
    (((v.partEngines p).filter fun e => !(v.jet e).inReset).foldl
      (fun w e => w.resetEngine r e) v).settleBasins.settleOwners

/-- A write of RESET_CTL (R362, R439). -/
def State.resetCtl (s : State) (part v : Nat) : State :=
  let go := bit v 7
  let rst := bit v 13
  let p := bits v 4 3
  let jet := bits v 8 5
  let mayGo := go && p == part
  let mayRst := rst && s.present jet && (s.jet jet).part == part
  if part ≠ 0 ∧ (!(mayGo || mayRst) ∨ (go ∧ rst)) then s
  else
    let t := s.resetModes v
    let shared := decide (part ≠ 0) && (t.servedBy (t.engine jet)).any fun k => (t.jet k).part != part
    let u := if rst && t.present jet then (if shared then t.resetShared part jet else t.resetJet jet false) else t
    if go then u.resetPartition p (bit v 3) else u

/-- PART_GO (R362, R364, R439). -/
def State.partGo (s : State) (part : Nat) (value : Word) : State :=
  if !s.portOpen part false || !value.getLsbD 7 then s else s.resetCtl part value.toNat

/-- PART_GO at the register port (R424). -/
def execPartGo (part : Nat) (value : Word) (s : State) : Host.Outcome State Fault Refusal :=
  .next <| s.regWrite part 0x44 value (·.partGo part value)

/-- JET_RST (R362, R439): its eight cycles end with JET_RESET_END. -/
def State.jetRst (s : State) (part : Nat) (value : Word) : State :=
  if !s.portOpen part false || !value.getLsbD 13 then s else s.resetCtl part value.toNat

/-- JET_RST at the register port (R424). -/
def execJetRst (part : Nat) (value : Word) (s : State) : Host.Outcome State Fault Refusal :=
  .next <| s.regWrite part 0x44 value (·.jetRst part value)

/-- The rings of a partition are disabled: the end of step 1 of R364 (R114). -/
def State.disableRings (s : State) (p : Nat) : State :=
  ((s.rings.filter fun x => x.2.part == p && x.2.enable).map (·.1)).foldl State.disableRing s

/-- Steps 2 and 3 of R364: open attempts end ABORTED with no record, and the shards leave the partition (R101, R215). -/
def State.resetShards (s : State) (p : Nat) : State :=
  let ns := (s.shards.filter fun x => x.2.owner == some p).map (·.1)
  (ns.foldl (fun t n =>
    let u := if (t.shard n).isOpen then (t.endAttempt n 3).endSets n true else t
    ((u.releaseLedger n).forgetNaps n).updShard n fun _ => {}) s).retireKeys

/-- Steps 4 and 5 of R364: region entries, the census log, groups with their TOTAL sets, and program slots (R174, R316,
R324). The ranges of the entries are withdrawn, and a range message that is due for the table leaves its entry clear. -/
def State.resetTenancy (s : State) (p : Nat) : State :=
  let gs := (s.groups.filter fun x => x.2.owner == some p).map (·.1)
  { s with
    regions := s.regions.filter fun x => x.1 / 256 != p
    ranges := s.ranges.filter fun x => x.index / 512 != p
    range := s.range.map fun w =>
      if w.key / 256 = p then { w with entry := {}, acks := w.acks.map fun m => { m with body := none } } else w
    censusLogs := s.censusLogs.filter (·.1 != p)
    groups := s.groups.filter fun x => x.2.owner != some p
    census := { s.census with totals := s.census.totals.filter fun x => !gs.contains (x.1 % 4096) }
    slots := s.slots.filter fun x => x.2.owner != some p
    warden := { s.warden with exports := s.warden.exports.filter (·.1 != p) } }

/-- PARTITION_RESET_DONE (R364, R394): taken once the accepted descriptors of the partition have completed. -/
def execPartitionResetDone (part : Nat) (s : State) : Host.Outcome State Fault Refusal :=
  .next <| match Tab.get none s.resets.parts part with
    | none => s
    | some r =>
      if !s.live || s.jobs.any (fun j => !j.recorded && j.part == part) then s
      else
        let es := (s.enginesOf (s.jetsOf part)).filter fun e =>
          match (s.jet e).resetting with | some x => x.level == 2 | none => false
        let t := (((s.disableRings part).resetShards part).resetTenancy part).clearTallies (s.jetsOf part)
        let u := { t with resets := { t.resets with parts := Tab.set none t.resets.parts part none } }
        (if es.isEmpty then u.emit { cls := 3, code := 0x89, part := some part, arg0 := 2, arg1 := s.since r.since }
          else es.foldl State.endUnlessHeld u).settleOwners

/-! ## The whole reset (R334, R335, R365, R404, R427) -/

/-- An accepted descriptor under the whole reset: ABORTED_RESET, level 3h; parts that a drain carries to their end leave their
own status (R361, R365). -/
def Job.underWhole (j : Job) (absorb : Bool) : Job :=
  if j.recorded || (j.wait == .parts && j.status.isNone && (!absorb || j.outcome.1 == .abortedReset)) then j
  else { j with wait := .ready, status := some (.abortedReset, 0xFF, 3) }

/-- All work ends in WHOLE_MODE (R365). -/
def State.endAll (s : State) (absorb : Bool) : State :=
  let t := s.endWork 3 0 absorb
  { t with jobs := t.jobs.map (·.underWhole absorb) }

/-- The reset of every part of the block but the retention file; memory, the levels of the pins, and the model's own fields
stand. A record that a fabric port has not taken by now is not written (R335, R365, log 2). -/
def State.wholeEnd (s : State) : State :=
  let b := s.boot
  { pending := s.pending, mem := s.mem, free := s.free, aon := s.aon
    boot := { retValid := b.retValid, retSeq := b.retSeq, retSeal := b.retSeal, temper := b.temper }
    warden := { draws := s.warden.draws }
    jets := Tab.mapVals {} (fun _ x => { pin := x.pin }) s.jets
    basins := Tab.mapVals {} (fun _ x => { pin := x.pin }) s.basins
    clocks := { rst := true, wake := s.clocks.wake } }

/-- Every halt, every breakpoint and every targeted self-test is over (R361, R409). -/
def State.unhaltAll (s : State) : State :=
  { s with
    tests := []
    jets := Tab.mapVals {} (fun _ x => { x with halted := false, halting := false, steps := 0 }) s.jets
    basins := Tab.mapVals {} (fun _ x => { x with halted := false, halting := false }) s.basins
    garhal := { s.garhal with breaks := [], resp := s.garhal.resp.haltOver (List.range 32) } }

/-- MZ_RST_ASSERT (R365, R404, R409): a frozen block thaws, halts are over, all work ends in WHOLE_MODE, and refresh is handed
back. In DRAIN the tiles in flight go on until DRAIN_TIMEOUT. DESCRIPTOR_COMPLETE writes the records that the fabric ports
take. -/
def execMzRstAssert (s : State) : Host.Outcome State Fault Refusal :=
  .next <|
    if s.clocks.rst then s
    else
      let t := s.unhaltAll.endAll s.resets.wholeMode
      ({ t with clocks := { t.clocks with rst := true, freeze := .off, waiting := [], late := [] } } : State).settleOwners

/-- MZ_RST_DEASSERT (R334, R365): the block has been reset, and a restart begins in ROM. -/
def execMzRstDeassert (s : State) : Host.Outcome State Fault Refusal :=
  .next <|
    if !s.clocks.rst then s
    else let t := s.wholeEnd; { t with clocks := { t.clocks with rst := false } }

/-- AON_POWER_LOSS (R335): the retention file is cleared. -/
def execAonPowerLoss (s : State) : Host.Outcome State Fault Refusal :=
  .next { s with boot := s.boot.forget }

/-! ## DRAIN_TIMEOUT (R360) -/

/-- The drain of an engine's reset of a level is over. -/
def State.drainOver (s : State) (level e : Nat) : State :=
  s.updJet e fun x => { x with resetting := x.resetting.map fun r =>
    if r.level = level then { r with drained := true } else r }

/-- Whether one of some engines, or a controller, is halted, so that a bound of its time does not run (R447). -/
def State.anyHalted (s : State) (es bs : List Nat) : Bool :=
  es.any (fun e => (s.jet e).halted || (s.jet e).halting) || bs.any fun b => (s.basin b).halted || (s.basin b).halting

/-- The tiles in flight of an engine that is to adopt a jet are absorbed: their descriptors end as under a jet reset (R360,
R370; log 125). -/
def State.absorbTiles (s : State) (e : Nat) : State :=
  s.jobs.foldl (fun t j => (j.parts.filter fun p => p.jet < 24 && s.engine p.jet == e && !p.inFlight.isEmpty).foldl
    (fun t p => t.endPart j.ring j.seq p.jet (.abortedReset, 0)) t) s

/-- Whether one of the engines or controllers whose work a reset drains is halted. -/
def State.scopeHalted (s : State) (level index : Nat) : Bool :=
  (s.scopeParts level index).any fun x =>
    if x.2.jet < 24 then s.anyHalted [s.engine x.2.jet] [] else s.anyHalted [] [(s.ring x.1.ring).home]

/-- What the reset of a part of an engine's work has left in flight is absorbed (R360; log 135). -/
def State.absorbEnded (s : State) (e : Nat) : State :=
  s.jobs.foldl (fun t j => (j.parts.filter fun p => p.jet < 24 && s.engine p.jet == e &&
      (match p.ended with | some (.abortedReset, _) => true | _ => false)).foldl
    (fun t p => t.endPart j.ring j.seq p.jet (.abortedReset, 0)) t) s

/-- DRAIN_TIMEOUT of a jet: of its reset, or of the drain of an engine before an adoption (R360, R370). -/
def State.drainJet (s : State) (jet : Nat) : State :=
  let e := s.engine jet
  if !s.live || s.anyHalted [e] [] then s
  else match (s.jet e).resetting with
    | some r =>
      if r.level == 0 && !r.drained then ((s.endWork 0 jet true).drainOver 0 e).settleReset e else s
    | none => if (s.awaiting e).isEmpty then s.absorbEnded e else (s.absorbTiles e).absorbEnded e

/-- DRAIN_TIMEOUT of a basin. -/
def State.drainBasin (s : State) (b : Nat) : State :=
  match (s.basin b).resetting with
  | some r =>
    let es := s.enginesOf (s.jetsIn b)
    if s.live && !r.drained && !s.anyHalted es [b] && !s.scopeHalted 1 b then
      es.foldl (fun u e => (u.drainOver 1 e).settleReset e)
        ((s.endWork 1 b true).updBasin b fun x => { x with resetting := some { r with drained := true } })
    else s
  | none => s

/-- DRAIN_TIMEOUT of a partition. -/
def State.drainPartition (s : State) (p : Nat) : State :=
  match Tab.get none s.resets.parts p with
  | some r =>
    let es := s.enginesOf (s.jetsOf p)
    if s.live && !r.drained && !s.anyHalted es [] && !s.scopeHalted 2 p then
      let t := s.endWork 2 p true
      let u := { t with resets := { t.resets with parts := Tab.set none t.resets.parts p (some { r with drained := true }) } }
      (es.foldl (fun v e => v.drainOver 2 e) u).settleOwners
    else s
  | none => s

/-- DRAIN_TIMEOUT (R360, R365, R370, R447): what has not committed or completed is absorbed. -/
def execDrainTimeout (level : ResetLevel) (index : Nat) (s : State) : Host.Outcome State Fault Refusal :=
  .next <| match level with
    | .jet => s.drainJet index
    | .basin => s.drainBasin index
    | .partition => s.drainPartition index
    | .whole => if s.clocks.rst && !s.scopeHalted 3 0 then s.endWork 3 0 true else s

end Sys2Proof.Machine
end

