-- ==== Sys2Proof/Machine/Security.lean ====
section
/-! DEFINITION. The Warden while the block runs: key agreement, staging and activation of firmware, attestation (R381 to R391,
R395). -/

namespace Sys2Proof.Machine

/-! ## Key agreement (R387 to R390) -/

/-- Why a GO is refused, 0 if it is not: one that R388 and R389 forbid by 4h, else the lowest (R390, R433; log 126). -/
def State.keyReason (s : State) (part v : Nat) : Nat :=
  let w := s.warden
  let number := bits v 0 16
  if part ≠ 0 ∧ !(bit v 19 && bits v 16 3 == part) then 4
  else if number = 0 then 1
  else if (pointOf w.peer).isNone then 2
  else if !bit v 19 && (w.sessions.any (·.number == number) || decide (4 ≤ w.sessions.length)) then 3
  else if w.busy then 5 else 0

/-- KEYX_GO (R387, R389, R390): a refused GO changes nothing but REASON. -/
def State.keyxGo (s : State) (part : Nat) (value : Word) : State :=
  let v := value.toNat
  if !s.portOpen part false || !bit v 20 then s
  else match s.keyReason part v with
    | 0 =>
      let t := s.keyWrite part 0x259 v
      { t with warden := { t.warden with
        reason := 0, busy := true, asked := t.warden.peer, askedFor := (bits v 19 1, bits v 0 16, t.warden.chip, bits v 16 3) } }
    | k => ({ s with warden := { s.warden with reason := k } }).emit
        { cls := 1, code := 0xC6, part := some part, arg0 := k, arg1 := bits v 0 16 }

/-- KEYX_GO at the register port (R424). -/
def execKeyxGo (part : Nat) (value : Word) (s : State) : Host.Outcome State Fault Refusal :=
  .next <| s.regWrite part 0x259 value (·.keyxGo part value)

/-- What an agreement forms from its random draws: E, the key, the salt and the signature (R387, R389). -/
structure Agreed where
  out : List Byte
  key : List Byte
  salt : List Byte
  sig : List Byte
  deriving DecidableEq, Repr

/-- M: what the identity key signs (R387, R389). -/
def agreementMessage (target number chip part : Nat) (out peer salt : List Byte) : List Byte :=
  leBytes 1 (1 + target) ++ out ++ peer ++ leBytes 2 number ++ leBytes 4 (if target = 1 then 0 else chip) ++
    leBytes 1 (if target = 1 then part else 0) ++ salt

/-- The agreement in progress (R387, R389): draw 0 is the ephemeral key, draw 1 KEY_SALT, draw 2 the nonce. -/
def Warden.agree (w : Warden) : Agreed :=
  let (target, number, chip, part) := w.askedFor
  let e := scalarOf (Config.random w.draws).toNat
  let out := pointBytes (pointMul e p384G)
  let z := beBytes 48 (match pointMul e (pointOf w.asked) with | some (x, _) => x | none => 0)
  let salt := if target = 1 then (beBytes 48 (Config.random (w.draws + 1)).toNat).take 32 else List.replicate 32 0#8
  let key := if target = 1 then hkdf 32 salt z (ascii "MZ export" ++ leBytes 1 part ++ leBytes 2 number)
    else hkdf 32 (leBytes 2 number ++ leBytes 4 chip) z (ascii "MZ session")
  { out := out, key := key, salt := salt
    sig := ecdsaSign w.idKey (scalarOf (Config.random (w.draws + 2)).toNat)
      (sha384 (agreementMessage target number chip part out w.asked salt)) }

/-- The key of an agreement comes into force (R387 to R389). -/
def Warden.keyed (w : Warden) : Warden :=
  let (target, number, chip, part) := w.askedFor
  let a := w.agree
  let u := { w with busy := false, draws := w.draws + 3, keyOut := a.out, keySig := a.sig, keySalt := a.salt, asked := [] }
  if target = 1 then
    { u with exports := Tab.set {} u.exports part { valid := true, keyId := number, key := a.key, salt := a.salt, seq := 0 } }
  else { u with sessions := { number := number, chip := chip, key := a.key } :: u.sessions }

/-- KEY_AGREEMENT_DONE (R387 to R389). -/
def execKeyAgreementDone (s : State) : Host.Outcome State Fault Refusal :=
  .next <|
    if !s.open? || !s.warden.busy || s.wardenCopies.stopped then s
    else
      let (target, number, _, part) := s.warden.askedFor
      ({ s with warden := s.warden.keyed }).retireKeys.emit
        { cls := 3, code := 0xC5, part := if target = 1 then some part else none, arg0 := target, arg1 := number }

/-! ## Staging (R382 to R384) -/

/-- VERSION of FWCHUNK and FWACTIVATE. -/
def fwVersion (d : List Byte) : Nat := fieldAt d 8 4
/-- CHUNK of a FWCHUNK. -/
def fwChunk (d : List Byte) : Nat := fieldAt d 12 4
/-- SRC_OFFSET of a FWCHUNK. -/
def fwOffset (d : List Byte) : Nat := fieldAt d 16 5
/-- Whether a chunk number is a manifest chunk's (R382). -/
def ofManifest (c : Nat) : Bool := 0x80000000 ≤ c

/-- The table of the staged manifest, from its chunks (R381, R382). -/
def tableOfChunks (m : Tab (List Byte)) : List Byte :=
  ((List.range 4).flatMap fun k => padTo 4096 (Tab.get [] m k)).drop 256

/-- Whether every chunk of a manifest of `n` image chunks is present. -/
def manifestWhole (m : Tab (List Byte)) (n : Nat) : Bool :=
  (List.range ((256 + 48 * n + 4095) / 4096)).all fun k => !(Tab.get [] m k).isEmpty

/-- Whether VERSION has a staged manifest whose header is verified. -/
def Warden.stages (w : Warden) (version : Nat) : Bool :=
  w.fwStage != 0 && w.fwStage == version

/-- CHUNKS of VERSION's staged manifest, 0 if there is none. -/
def Warden.chunksOfVersion (w : Warden) (version : Nat) : Nat :=
  if w.stages version then w.chunks else 0

/-- Whether CHUNK is too high (R383). -/
def Warden.chunkBad (w : Warden) (version c : Nat) : Bool :=
  if ofManifest c then
    c != 0x80000000 && decide (256 + 48 * w.chunksOfVersion version ≤ 4096 * (c - 0x80000000))
  else w.stages version && decide (w.chunks ≤ c)

/-- The checks of FWCHUNK before its bytes are verified, in the order of R133 (R126, R383). -/
def State.chunkChecks (s : State) (part : Nat) (d : List Byte) : Option Verdict' :=
  let src := s.operand part d 24
  let w := s.warden
  (formatCheck d []).orElse fun _ =>
  (lowest .denied [(part ≠ 0, 0), (src.kind == 0, 24)]).orElse fun _ =>
  firstOf [(src.loc ≠ 1, at' .format 24), (w.chunkBad (fwVersion d) (fwChunk d), at' .length 12),
    (decide (src.size < fwOffset d + 4096), at' .bound 16), (w.ready != 2, stationDown 8),
    (w.activating || (!ofManifest (fwChunk d) && !(w.stages (fwVersion d) && w.manifestOk)), cause 0xA)]

/-- The manifest with chunk `k` of VERSION staged: chunk 0 of another version discards what was staged (R382). -/
def Warden.withChunk (w : Warden) (version k : Nat) (bs : List Byte) : Warden :=
  if k = 0 ∧ w.fwStage ≠ version then
    { w with
      fwStage := version, manifest := [(0, bs)], manifestOk := false, staged := []
      lacks := if fieldAt bs 12 2 = 0 then [] else (List.range 31).map fun c => (c, 2 ^ fieldAt bs 12 2 - 1) }
  else { w with manifest := Tab.set [] w.manifest k bs, manifestOk := false }

/-- Whether a manifest chunk verifies: its header where it is chunk 0, and the table once every chunk is present (R382,
R383). -/
def Warden.verifies (w : Warden) (version k : Nat) (bs : List Byte) : Bool :=
  let u := w.withChunk version k bs
  (k != 0 || (headerOk (bs.take 256) && fieldAt bs 4 4 == version)) &&
    (!manifestWhole u.manifest u.chunks || tableOk (Tab.get [] u.manifest 0) (tableOfChunks u.manifest))

/-- A manifest chunk arrives: MANIFEST_OK once the whole manifest is there, with trace record C1h (R382, R395). -/
def State.stageManifest (s : State) (version k : Nat) (bs : List Byte) : State :=
  let u := s.warden.withChunk version k bs
  let whole := manifestWhole u.manifest u.chunks
  ({ s with warden := { u with manifestOk := whole } }).emitIf whole
    { cls := 3, code := 0xC1, arg0 := version, arg1 := u.chunks }

/-- The reset of a core's engine or controller (R384). -/
def State.coreReset (s : State) (c : Nat) : Option Reset :=
  if c < 24 then (s.jet c).resetting else if c < 30 then (s.basin (c - 24)).resetting else none

/-- Whether a core can store a chunk: it is not in reset (R384). -/
def State.coreRuns (s : State) (c : Nat) : Bool :=
  match s.coreReset c with | some x => x.ended | none => true

/-- The cores that store a chunk now: those that are not in reset, and to which it does not come spoilt (R384; log 122). -/
def State.storingCores (s : State) : List Nat :=
  s.cores.filter fun c => s.coreRuns c && (c == 30 || !Config.chunkSpoilt s.free c)

/-- A core no longer lacks chunk `k`. -/
def clearLack (l : Tab Nat) (c k : Nat) : Tab Nat :=
  Tab.upd 0 l c fun m => if bit m k then m - 2 ^ k else m

/-- An image chunk that matches its table entry is stored by every core that can (R382, R384). -/
def State.stageChunk (s : State) (k : Nat) (bs : List Byte) : State :=
  ({ s with warden := { s.warden with
    staged := Tab.set [] s.warden.staged k bs
    lacks := s.storingCores.foldl (fun l c => clearLack l c k) s.warden.lacks } } : State).draw 1

/-- Whether an image chunk is staged already. -/
def Warden.hasChunk (w : Warden) (c : Nat) : Bool :=
  !ofManifest c && !(Tab.get [] w.staged c).isEmpty

/-- FWCHUNK (R382, R383, R395); it waits while the Warden has stopped (log 109). -/
def execFwchunk (ring : Nat) (s : State) : Host.Outcome State Fault Refusal :=
  .next <| match s.front ring (· == 0x10) with
  | none => s
  | some h =>
    let d := h.bytes
    let part := (s.ring ring).part
    if s.wardenCopies.stopped then s
    else match s.chunkChecks part d with
    | some v => s.refuse ring h v
    | none =>
      let src := s.operand part d 24
      let c := fwChunk d
      let k := c - 0x80000000
      let bs := s.readRegion src 0 (fwOffset d) 4096
      let fails (code offset arg0 : Nat) : State :=
        (s.emit { cls := 1, code := code, part := some part, arg0 := arg0, arg1 := fwVersion d }).refuse ring h (at' .denied offset)
      let stores (t : State) (n : Nat) : State :=
        (t.takeUp ring { newJob s ring h with
          ents := [(24, src)], wait := .ready, result := b2n (s.warden.hasChunk c), status := some (.ok, 0xFF, n) }).readDue
            ring h.seq src (fwOffset d) 4096
      (if ofManifest c then
        if s.warden.verifies (fwVersion d) k bs then stores (s.stageManifest (fwVersion d) k bs) 1 else fails 0xC2 8 k
      else if chunkOk (tableOfChunks s.warden.manifest) bs c then stores (s.stageChunk c bs) s.storingCores.length
      else fails 0xC0 12 c).overHoles (src.ranges 0 (fwOffset d) 4096)

/-- The chunks that a core lacks and the Warden has. -/
def Warden.fetchable (w : Warden) (c : Nat) : List Nat :=
  (List.range w.chunks).filter fun k => bit (Tab.get 0 w.lacks c) k && !bit (Tab.get 0 w.lacks 30) k

/-- A core that is READY fetches the chunks it lacks from the Warden's staging bank, with record C3h (R384, R395). -/
def State.repair (s : State) (c : Nat) : State :=
  let l := s.warden.fetchable c
  if l.isEmpty || (s.coreReset c).isSome then s
  else
    ({ s with warden := { s.warden with lacks := l.foldl (fun m k => clearLack m c k) s.warden.lacks } }).emit
      { cls := 1, code := 0xC3, jet := if c < 24 then c else 255, basin := if 24 ≤ c ∧ c < 30 then c - 24 else 0
        part := if c < 24 then some (s.jet c).part else none, arg0 := c, arg1 := l.length }

/-- CHUNK_FETCH (R384). -/
def execChunkFetch (core : Nat) (s : State) : Host.Outcome State Fault Refusal :=
  .next <| if !s.live || !s.cores.contains core || !s.warden.manifestOk then s else s.repair core

/-! ## Activation (R385) -/

/-- The checks of FWACTIVATE that complete it DENIED or by its station (R126, R385). -/
def State.activateChecks (s : State) (part : Nat) (d : List Byte) : Option Verdict' :=
  let w := s.warden
  let prev := sliceAt (Tab.get [] w.manifest 0) 80 48
  (formatCheck d []).orElse fun _ =>
  firstOf [(part ≠ 0, at' .denied 0), (decide (fwVersion d ≤ w.fwRun), at' .denied 8),
    (w.fwStage ≠ 0 && prev != sha384 (w.runHeader.take 160), at' .denied 8),
    (w.ready != 2, stationDown 8)]

/-- FWACTIVATE (R384, R385; log 109): missing chunks are repaired first; without them, or without the manifest, nothing changes. -/
def execFwactivate (ring : Nat) (s : State) : Host.Outcome State Fault Refusal :=
  .next <| match s.front ring (· == 0x11) with
    | none => s
    | some h =>
      if s.wardenCopies.stopped then s
      else match s.activateChecks (s.ring ring).part h.bytes with
      | some v => s.refuse ring h v
      | none =>
        if !(s.warden.stages (fwVersion h.bytes) && s.warden.manifestOk) then s.refuse ring h (cause 0xA)
        else
          let t := s.cores.foldl State.repair s
          if !t.missing.isEmpty then t.refuse ring h (cause 0xA)
          else ({ t with warden := { t.warden with activating := true } }).takeUp ring
            { newJob s ring h with wait := .activation s.aon }

/-- The FWACTIVATE in progress, with the cycle of its acceptance. -/
def State.activation (s : State) : Option (Job × Nat) :=
  s.jobs.findSome? fun j => match j.wait with | .activation a => if j.recorded then none else some (j, a) | _ => none

/-- Whether the banks may swap: every accepted descriptor but VOTE and FENCE has completed, and no present engine or
controller is in reset or not READY after it (R385). -/
def State.maySwap (s : State) (j : Job) : Bool :=
  s.jobs.all (fun x => x.recorded || opOf x.desc == 5 || opOf x.desc == 0x0E || (x.ring == j.ring && x.seq == j.seq)) &&
    s.cores.all fun c => if c < 24 then (s.jet c).resetting.isNone else c == 30 || (s.basin (c - 24)).resetting.isNone

/-- The running firmware after the swap; nothing is staged any more (R385). -/
def Warden.swapped (w : Warden) : Warden :=
  { w with
    fwRun := w.fwStage, runHeader := (Tab.get [] w.manifest 0).take 256, runTable := tableOfChunks w.manifest
    runImage := (List.range w.chunks).flatMap fun k => Tab.get [] w.staged k
    fwStage := 0, manifest := [], manifestOk := false, staged := [], lacks := [], activating := false }

/-- FW_SWAP (R352, R385, R395). -/
def execFwSwap (s : State) : Host.Outcome State Fault Refusal :=
  .next <| match s.activation with
    | none => s
    | some (j, at') =>
      if !s.live || !s.maySwap j || s.wardenCopies.stopped then s
      else
        let w := s.warden.swapped
        (({ s with warden := w, boot := { s.boot with image := w.runImage, temperDue := true } }).updJob j.ring j.seq fun x =>
          { x with wait := .ready, status := some (.ok, 0xFF, fwVersion j.desc) }).emit
            { cls := 3, code := 0xC4, arg0 := fwVersion j.desc, arg1 := s.since at' }

/-- FWACTIVATE_TIMEOUT (R385, R395, R447): 100 ms, in which nothing is halted, after acceptance the activation is given up. -/
def execFwactivateTimeout (s : State) : Host.Outcome State Fault Refusal :=
  .next <| match s.activation with
    | none => s
    | some (j, _) =>
      if !s.live || s.anyHalted (List.range 24) (List.range 6) then s
      else
        (({ s with warden := { s.warden with activating := false } }).updJob j.ring j.seq fun x =>
          { x with wait := .ready, status := some (.refusedState, 0xFF, 0xA) }).emit
            { cls := 0, code := 0xC7, arg0 := fwVersion j.desc }

/-! ## Attestation (R391) -/

/-- DST_OFFSET of an ATTEST. -/
def attestTo (d : List Byte) : Nat := fieldAt d 16 5

/-- The checks of ATTEST, in the order of R133 (R391). -/
def State.attestChecks (s : State) (part : Nat) (d : List Byte) : Option Verdict' :=
  let dst := s.operand part d 24
  (formatCheck d []).orElse fun _ =>
  firstOf [(dst.kind == 0, at' .denied 24), (dst.kind ≠ 11, at' .format 24),
    (decide (dst.size < attestTo d + 512), at' .bound 24), (s.warden.ready != 2, stationDown 8)]

/-- The programs that a partition owns, as they are measured (R391). -/
def State.measuredPrograms (s : State) (part : Nat) : List Byte :=
  (s.slots.filter fun x => x.2.owner == some part).flatMap fun x => leBytes 2 x.1 ++ x.2.image.flatMap (leBytes 8)

/-- The 256 region entries of a partition, as they are measured (R391). -/
def State.measuredRegions (s : State) (part : Nat) : List Byte :=
  (List.range 256).flatMap fun e => (s.entryWords part e).flatMap (leBytes 4)

/-- Bytes 0 to 415 of a measurement (R391). -/
def State.measurement (s : State) (part : Nat) (d : List Byte) : List Byte :=
  let w := s.warden
  padTo 416 (leBytes 1 0x50 ++ leBytes 1 1 ++ leBytes 1 part ++
    leBytes 1 (b2n s.boot.warm + 2 * b2n s.boot.soakDone + 4 * b2n s.boot.soakFail) ++
    leBytes 4 (maskOf 24 fun j => (s.jetsOf part).contains j) ++ leBytes 4 w.fwRun ++
    leBytes 2 (((w.sessions.head?).map (·.number)).getD 0) ++ leBytes 2 0 ++ leBytes 4 s.capsuleSerial ++
    leBytes 4 s.capsuleStat ++ leBytes 8 (w.measurements + 1) ++ sliceAt d 32 32 ++ sha384 w.idPub ++ sha384 s.boot.capsule ++
    sha384 s.boot.flawmap ++ sha384 (w.runHeader.take 160) ++ sha384 (s.measuredPrograms part) ++
    sha384 (s.measuredRegions part))

/-- A measurement with its signature (R379, R391). -/
def State.signedMeasurement (s : State) (part : Nat) (d : List Byte) : List Byte :=
  let m := s.measurement part d
  m ++ ecdsaSign s.warden.idKey (scalarOf (Config.random s.warden.draws).toNat) (sha384 m)

/-- ATTEST (R391; log 109): the measurement is taken at acceptance, and written. -/
def execAttest (ring : Nat) (s : State) : Host.Outcome State Fault Refusal :=
  .next <| match s.front ring (· == 0x12) with
  | none => s
  | some h =>
    let d := h.bytes
    let part := (s.ring ring).part
    if s.wardenCopies.stopped then s
    else match s.attestChecks part d with
    | some v => s.refuse ring h v
    | none =>
      let dst := s.operand part d 24
      let t := s.writeRegion dst 0 (attestTo d) (s.signedMeasurement part d)
      let u := { t with warden := { t.warden with measurements := t.warden.measurements + 1, draws := t.warden.draws + 1 } }
      let j := { newJob s ring h with ents := [(24, dst)], wait := .ready, status := some (.ok, 0xFF, 0) }
      (u.takeUp ring j).moveDue j 255 dst

end Sys2Proof.Machine
end

