-- ==== Sys2Proof/Machine/Clocks.lean ====
section
/-! DEFINITION. Sleep, wake and freeze (R295 to R298, R397 to R404). -/

namespace Sys2Proof.Machine

/-! ## Sleep (R397) -/

/-- Whether an engine has nothing to do: it runs no part of an accepted descriptor, no self-test, soak or adoption step, no
shard in LANDING has a share on a jet it serves, and no hold is set (R397; a part that has ended is run no more, log 54). -/
def State.engineIdle (s : State) (e : Nat) : Bool :=
  let js := s.servedBy e
  !(s.jobs.any fun j => !j.recorded && j.parts.any fun p =>
    js.contains p.jet && (!j.partDone p || (s.well p.jet).has j.ring j.seq)) &&
    !s.underTest e && !s.testing e && !(s.boot.phase == .soak && js.any s.boot.soakJets.contains) &&
    !(s.jets.any fun x => x.2.adoptBy.isSome && (x.1 == e || x.2.adoptBy == some e)) &&
    !(s.shards.any fun x => x.2.state == 1 && (s.landingJets x.1).any js.contains) && !(js.any (bit s.clocks.jetHold))

/-- Whether an engine that serves a wellspring stack may stop its clock: those of the basin's other wellspring jets are
idle too (R397). -/
def State.wellsIdle (s : State) (e : Nat) : Bool :=
  !(s.servedBy e).any s.wellspring || (s.enginesOf (s.wellJets (e / 4))).all s.engineIdle

/-- JET_SLEEP (R295, R397, R426, R432): SLEEP_IDLE has passed with the conditions held, and MZ_WAKE is low. What the jet's
registers read from now on is kept. -/
def execJetSleep (jet : Nat) (s : State) : Host.Outcome State Fault Refusal :=
  .next <|
    let e := s.engine jet
    let x := s.jet e
    if s.live && s.present jet && s.clocks.sleepIdle != 0 && !s.clocks.wake && x.awake && x.resetting.isNone && !x.halted &&
        !x.halting && s.engineIdle e && s.wellsIdle e then
      ((s.updJets (s.servedBy e) fun j y => { y with asleep := some (s.heldRegs j) }).updJet e fun y =>
        { y with awake := false }).settleOwners
    else s

/-- Whether a ring homed on a basin holds an unfetched or incomplete descriptor (R397). -/
def State.ringWork (s : State) (b : Nat) : Bool :=
  s.rings.any fun x => x.2.home == b &&
    ((x.2.enable && x.2.next != x.2.tail) || !x.2.held.isEmpty || !(s.outstanding x.1).isEmpty)

/-- Whether a completion or Sluice record of a basin waits (R397). -/
def State.recordsWait (s : State) (b : Nat) : Bool :=
  !(s.basin b).queue.isEmpty || s.reqs.any fun r => !r.stack && r.place == b

/-- Whether every jet of a basin sleeps or is absent (R397). -/
def State.jetsAsleep (s : State) (b : Nat) : Bool :=
  (s.jetsIn b).all fun j => !(s.jet (s.engine j)).awake && !(s.jet (s.engine j)).waking

/-- BASIN_SLEEP (R397, R426): SLEEP_IDLE has passed with the conditions held and no aqueduct traffic, and MZ_WAKE is low. -/
def execBasinSleep (basin : Nat) (s : State) : Host.Outcome State Fault Refusal :=
  .next <|
    let x := s.basin basin
    if s.live && decide (basin < 6) && s.clocks.sleepIdle != 0 && !s.clocks.wake && x.awake && x.resetting.isNone &&
        !x.halted && !x.halting && !bit s.clocks.basinHold basin && s.jetsAsleep basin && !s.ringWork basin &&
        !s.recordsWait basin then
      s.updBasin basin fun y => { y with awake := false }
    else s

/-- MZ_WAKE (R398, R426): its level changes (log 78); its rise wakes every basin and every present jet. -/
def execMzWake (s : State) : Host.Outcome State Fault Refusal :=
  .next <|
    let t : State := { s with clocks := { s.clocks with wake := !s.clocks.wake } }
    if s.clocks.wake then t else t.wake t.jetsPresent (List.range 6)

/-! ## Wake (R398) -/

/-- A jet's registers are read live again, and a counter clear that waited for its wake takes effect (R432). -/
def Jet.woken (x : Jet) : Jet :=
  if x.clearDue then { x with asleep := none, naps := [], transient := 0, corrected := 0, clearDue := false }
  else { x with asleep := none, naps := [] }

/-- WAKE_DONE (R398): the part is ready; refresh ownership follows (R295). -/
def execWakeDone (ofBasin : Bool) (index : Nat) (s : State) : Host.Outcome State Fault Refusal :=
  .next <|
    if !s.live then s
    else if ofBasin then
      (if (s.basin index).waking then s.updBasin index fun x => { x with awake := true, waking := false } else s)
    else if (s.jet index).waking then
      ((s.updJets (s.servedBy index) fun _ => Jet.woken).updJet index fun x =>
        { x with awake := true, waking := false }).settleOwners
    else s

/-- FREEZE (R401, R404): events 1 to 3; no new request or word is issued, what has started completes, and every
MZ_RFH_OWN bit falls. -/
def execFreeze (s : State) : Host.Outcome State Fault Refusal :=
  .next <|
    if s.clocks.rst || s.clocks.freeze ≠ .off then s
    else ({ s with clocks := { s.clocks with freeze := .stopping } }).settleOwners

/-! ## Freeze (R401 to R404) -/

/-- FREEZE_CLOCKS_STOP (R401): events 5 and 6. What STATE_RD may then read is fresh (log 15). -/
def execFreezeClocksStop (s : State) : Host.Outcome State Fault Refusal :=
  .next <|
    if s.clocks.freeze = .stopping then ({ s with clocks := { s.clocks with freeze := .frozen } } : State).draw 1 else s

/-- No reset pin has a change left that the freeze held. -/
def State.clearDue (s : State) : State :=
  { s with
    jets := Tab.mapVals {} (fun _ x => { x with pinDue := false }) s.jets
    basins := Tab.mapVals {} (fun _ x => { x with pinDue := false }) s.basins }

/-- Resets whose end the freeze held are tested next (R363, R403). -/
def State.settleAll (s : State) : State :=
  ((List.range 24).foldl State.settleReset s).settleBasins

/-- At thaw, the resets that were asserted while the block was frozen take effect, and those whose pin is low again by then
end (R404). -/
def State.heldResets (s : State) : State :=
  if s.live then
    let bs := (List.range 6).filter fun b => (s.basin b).pinDue
    let js := s.jetsPresent.filter fun j => (s.jet j).pinDue
    let t := js.foldl (·.resetJet · true) (bs.foldl State.resetBasin s)
    let u := (bs.filter fun b => !(s.basin b).pin).foldl State.basinResetEnds t
    ((js.filter fun j => !(s.jet j).pin).foldl State.jetResetEnds u).clearDue.settleAll
  else s.clearDue

end Sys2Proof.Machine
end

