-- ==== Sys2Proof/Machine/Ports.lean ====
section
/-! DEFINITION. The set-up register port: writes by address, the accesses that wait, RANGE_ACK and the thaw, which serve them
(R403, R408, R415, R424, R429). -/

namespace Sys2Proof.Machine

/-! ## Register writes by address (R429) -/

/-- The effect of a write to a set-up register of any address, as the row of that register has it (R92, R111, R144, R221,
R227, R324, R332, R333, R336, R362, R376, R387, R399, R406, R429, R437). -/
def State.writeReg (s : State) (part addr : Nat) (value : Word) : State :=
  let v := value.toNat
  if addr = 3 ∧ bit v 0 then s.bootGo part value
  else if addr = 0x41 then s.clkHoldWrite part value
  else if addr = 0x43 then s.dbgCtlWrite part value
  else if addr = 0x44 ∧ bit v 7 then s.partGo part value
  else if addr = 0x44 ∧ bit v 13 then s.jetRst part value
  else if 0x80 ≤ addr ∧ addr < 0x98 then s.jetMove part (addr - 0x80) value
  else if addr = 0xA0 then s.sluiceLogWrite part value
  else if addr = 0xA8 then s.clrDrops part value
  else if addr = 0xB1 then s.alarmPop part value
  else if 0xC0 ≤ addr ∧ addr < 0xD0 ∧ addr % 2 = 0 then s.censusLogWrite part ((addr - 0xC0) / 2) value
  else if 0x120 ≤ addr ∧ addr < 0x138 then s.faultCntClear part (addr - 0x120) value
  else if addr = 0x259 ∧ bit v 20 then s.keyxGo part value
  else if addr = 0x410 then (if bits v 0 4 = 0 then s.regionClear part value else s.regionCommit part value)
  else if addr = 0x428 then (if bit v 0 then s.ringEnable part value else s.ringDisable part value)
  else if 0x800 ≤ addr ∧ addr < 0xC00 ∧ addr % 16 = 4 then s.stepWrite part ((addr - 0x800) / 16) value
  else if 0x800 ≤ addr ∧ addr < 0xC00 ∧ addr % 16 = 11 then s.retire part ((addr - 0x800) / 16) value
  else if s.portOpen part (earlyAddr addr) then s.plainWrite part addr v
  else s

/-- REGISTER_WRITE (R424, R429): a write to a set-up register that has no row of its own. An address that has one acts as
that row says. -/
def execRegisterWrite (part addr : Nat) (value : Word) (s : State) : Host.Outcome State Fault Refusal :=
  .next <| s.regWrite part addr value (·.writeReg part addr value)

/-! ## Accesses of the Garhal port (R408) -/

/-- The frozen block, or the sequence towards it. -/
def State.freezing (s : State) : Bool := s.clocks.freeze != .off

/-- A register read over the port, as of partition 0: during freeze only the always-on domain answers; a phase that
does not serve the register reads 0 (R408, R433, R435). -/
def State.debugRead (s : State) (a : Nat) : State × Nat :=
  if s.freezing && inJet a then (s, 0)
  else if earlyAddr a || s.boot.phase == .test || s.boot.phase == .soak || s.boot.phase == .run then s.regRead 0 a
  else (s, 0)

/-- A command of the Garhal port that was BUSY is done (R407). -/
def State.garhalDone (s : State) (data : Nat) : State :=
  { s with garhal := { s.garhal with resp := { s.garhal.resp with status := 0, data := data } } }

/-- A register access of the Garhal port, as of partition 0: done at once, but a region change once its range messages are
acknowledged (R408, R415). -/
def State.serveDebug (s : State) (addr : Nat) (data : Option Word) : State :=
  match data with
  | none => let r := s.debugRead addr; r.1.garhalDone r.2
  | some v =>
    let t := s.writeReg 0 addr v
    match t.range with
    | none => t.garhalDone 0
    | some w => { t with range := some { w with part := 8 } }

/-! ## The accesses that wait (R415, R424) -/

/-- An access that has waited is served; part 8 is the Garhal port. -/
def State.serveAccess (s : State) (a : Access) : State :=
  if 8 ≤ a.part then s.serveDebug a.addr a.data
  else match a.data with
    | none => s.portRead a.part a.addr
    | some v => s.regWrite a.part a.addr v (·.writeReg a.part a.addr v)

/-- The accesses that wait are served in their order, as far as the port does not hold them again. -/
def State.serveWaiting (s : State) : State :=
  s.clocks.waiting.foldl (fun t a => if t.portHeld then t.holdAccess a else t.serveAccess a)
    { s with clocks := { s.clocks with waiting := [] } }

/-- The last range message of a region change is acknowledged: the entry takes its place, and the response is given (R304,
R415). -/
def State.rangeDone (s : State) (w : RangeWait) : State :=
  let t := ({ s with range := none } : State).install w.key w.entry
  let u := if w.part < 8 then t.reply 0 else t.garhalDone 0
  if u.portHeld then u else u.serveWaiting

/-- RANGE_ACK (R415): the oldest message that the memory controller of the jet's stack has not acknowledged. It is taken
until the block is frozen; a later one is lost (R401, R402; log 25). -/
def execRangeAck (jet : Nat) (s : State) : Host.Outcome State Fault Refusal :=
  .next <| match s.range with
    | none => s
    | some w => match w.acks.find? (·.jet == jet) with
      | none => s
      | some m =>
        if s.clocks.rst || s.clocks.freeze == .frozen then s
        else if (w.acks.erase m).isEmpty then (s.ranged m).rangeDone w
        else { s.ranged m with range := some { w with acks := w.acks.erase m } }

/-- THAW (R297, R402 to R404, R424, R426): every unit resumes, the take-back proceeds, the responses that a frozen block lost
show, resets that were held act, and register accesses that waited are served. -/
def execThaw (s : State) : Host.Outcome State Fault Refusal :=
  .next <|
    if s.clocks.freeze = .off then s
    else
      let t : State := { s with clocks := { s.clocks with freeze := .off } }
      let u := ((if s.clocks.freeze = .frozen then t.loseAnswers else t).heldResets).settleOwners
      let v := if u.clocks.wake then u.wake u.jetsPresent (List.range 6) else u
      if v.portHeld then v else v.serveWaiting

end Sys2Proof.Machine
end

