-- ==== Sys2Proof/Machine/Garhal.lean ====
section
/-! DEFINITION. The Garhal port (R405 to R411). -/

namespace Sys2Proof.Machine

/-! ## The TAP controller (R405) -/

/-- The code of the GARHAL instruction (R405). -/
def garhalCode : Nat := 8

/-- The state after a rising edge of GH_TCK at a level of GH_TMS (IEEE 1149.1). -/
def Tap.next : Tap → Bool → Tap
  | .testLogicReset, m => if m then .testLogicReset else .runTestIdle
  | .runTestIdle, m => if m then .selectDr else .runTestIdle
  | .selectDr, m => if m then .selectIr else .captureDr
  | .captureDr, m => if m then .exit1Dr else .shiftDr
  | .shiftDr, m => if m then .exit1Dr else .shiftDr
  | .exit1Dr, m => if m then .updateDr else .pauseDr
  | .pauseDr, m => if m then .exit2Dr else .pauseDr
  | .exit2Dr, m => if m then .updateDr else .shiftDr
  | .updateDr, m => if m then .selectDr else .runTestIdle
  | .selectIr, m => if m then .testLogicReset else .captureIr
  | .captureIr, m => if m then .exit1Ir else .shiftIr
  | .shiftIr, m => if m then .exit1Ir else .shiftIr
  | .exit1Ir, m => if m then .updateIr else .pauseIr
  | .pauseIr, m => if m then .exit2Ir else .pauseIr
  | .exit2Ir, m => if m then .updateIr else .shiftIr
  | .updateIr, m => if m then .selectDr else .runTestIdle

/-- What the registers of the port take at an edge of GH_TCK in the state they stand in: the capture value 0001b, the shifted
bits, and the bypass register, which every instruction but GARHAL selects. -/
def Garhal.edge (g : Garhal) (tdi : Bool) : Garhal :=
  match g.tap with
  | .captureIr => { g with shift := 1 }
  | .shiftIr => { g with shift := g.shift / 2 + 8 * b2n tdi }
  | .captureDr => if g.ir = garhalCode then g else { g with bypass := false }
  | .shiftDr => if g.ir = garhalCode then g else { g with bypass := tdi }
  | _ => g

/-- The state that is entered: Update-IR loads the instruction register, Test-Logic-Reset selects BYPASS. -/
def Garhal.enter (g : Garhal) (t : Tap) : Garhal :=
  match t with
  | .updateIr => { g with tap := t, ir := g.shift }
  | .testLogicReset => { g with tap := t, ir := 15 }
  | _ => { g with tap := t }

/-- One cycle of GH_TCK. -/
def Garhal.tck (g : Garhal) (x : Bool × Bool) : Garhal :=
  (g.edge x.2).enter (g.tap.next x.1)

/-- GH_TMS and GH_TDI of a scan of the instruction register, from Test-Logic-Reset or Run-Test/Idle to Run-Test/Idle; bit 0
is shifted first. -/
def irScan (code : BitVec 4) : List (Bool × Bool) :=
  [(false, false), (true, false), (true, false), (false, false), (false, false),
    (false, code.getLsbD 0), (false, code.getLsbD 1), (false, code.getLsbD 2), (true, code.getLsbD 3),
    (true, false), (false, false)]

/-- INSTRUCTION_REGISTER_UPDATE (R405; log 104): a scan of the instruction register. -/
def execInstructionRegisterUpdate (code : BitVec 4) (s : State) : Host.Outcome State Fault Refusal :=
  .next { s with garhal := (irScan code).foldl Garhal.tck s.garhal }

/-- GH_TRST (R405): Test-Logic-Reset, so that BYPASS is selected; halts, breakpoints and enables stay. -/
def execGhTrst (s : State) : Host.Outcome State Fault Refusal :=
  .next { s with garhal := { s.garhal with tap := .testLogicReset, ir := 15 } }

/-! ## Commands and responses (R405 to R408) -/

/-- Whether TARGET is a basin controller (R407). -/
def ofController (target : Nat) : Bool := 0x18 ≤ target && target < 0x1E

/-- Whether TARGET is a logical jet that is present or a basin controller. -/
def State.hasTarget (s : State) (target : Nat) : Bool :=
  ofController target || s.present target

/-- Whether TARGET is halted; of the whole block, whether any engine is (R399, R407). -/
def State.targetHalted (s : State) (target : Nat) : Bool :=
  if ofController target then (s.basin (target - 0x18)).halted
  else if target = 0x1F then s.jets.any (·.2.halted) || s.basins.any (·.2.halted)
  else s.present target && (s.jet (s.engine target)).halted

/-- The response that the next Capture-DR takes (R407). -/
def State.capture (s : State) : Nat :=
  let r := s.garhal.resp
  r.data + 2 ^ 32 * r.status + 2 ^ 34 * b2n r.unsealed + 2 ^ 35 * b2n (s.targetHalted r.target) +
    2 ^ 36 * b2n (s.clocks.freeze == .frozen) + 2 ^ 37 * r.op

/-- A response: STATUS 0h OK, 1h BUSY, 2h DENIED, 3h REFUSED (R407). -/
def State.respond (s : State) (op : Nat) (c : GarhalCmd) (status : Nat) (data : Nat := 0) (unsealed : Bool := false) : State :=
  { s with garhal := { s.garhal with resp :=
      { data := data, status := status, unsealed := unsealed, target := c.target.toNat, op := op } } }

/-- Whether the command register takes a command: the GARHAL instruction is selected, and no command is BUSY (R405,
R407). -/
def State.garhalTakes (s : State) : Bool :=
  !s.clocks.rst && s.garhal.ir == garhalCode && s.garhal.resp.status != 1

/-- Whether a command has a reserved field that is nonzero, or the reserved TARGET 1Eh (R407). -/
def badCommand (c : GarhalCmd) : Bool :=
  c.reserved != 0 || c.target == 0x1E

/-- A scan of 96 bits while an instruction other than GARHAL is selected: they pass through the bypass register, which keeps
the last (R405, R407). -/
def State.bypassScan (s : State) (c : GarhalCmd) : State :=
  if s.garhal.ir = garhalCode then s
  else { s with garhal := { s.garhal with tap := .runTestIdle, bypass := c.reserved.getLsbD 4 } }

/-- A command of the port: DENIED while GH_EN is 0, REFUSED for a reserved field; `run` otherwise (R406 to R408). -/
def State.garhalRun (s : State) (op : Nat) (c : GarhalCmd) (run : State) : State :=
  if !s.garhalTakes then s.bypassScan c
  else if !s.garhal.enabled then s.respond op c 2
  else if badCommand c then s.respond op c 3
  else run

/-- STAT (R406, R408): DATA is CLK_STAT, whatever GH_EN is. -/
def execStat (cmd : GarhalCmd) (s : State) : Host.Outcome State Fault Refusal :=
  .next <|
    if !s.garhalTakes then s.bypassScan cmd
    else if badCommand cmd then s.respond 0 cmd 3
    else s.respond 0 cmd 0 s.clkStat

/-- A register access that waits for the register port, BUSY until it is served (R408, R415). -/
def State.debugWaits (s : State) (op : Nat) (cmd : GarhalCmd) (data : Option Word) : State :=
  (s.respond op cmd 1).holdAccess { part := 8, addr := cmd.addr.toNat % 2 ^ 16, data := data }

/-- REG_RD (R408). -/
def execRegRd (cmd : GarhalCmd) (s : State) : Host.Outcome State Fault Refusal :=
  .next <| s.garhalRun 1 cmd <|
    if !s.freezing && s.range.isSome then s.debugWaits 1 cmd none
    else (s.respond 1 cmd 1).serveDebug (cmd.addr.toNat % 2 ^ 16) none

/-- REG_WR (R408). -/
def execRegWr (cmd : GarhalCmd) (s : State) : Host.Outcome State Fault Refusal :=
  .next <| s.garhalRun 2 cmd <|
    if s.freezing then s.respond 2 cmd 3
    else if s.range.isSome then s.debugWaits 2 cmd (some cmd.data)
    else (s.respond 2 cmd 1).serveDebug (cmd.addr.toNat % 2 ^ 16) (some cmd.data)

/-! ## Memory (R408) -/

/-- The aligned address of a memory command. -/
def cmdPlace (c : GarhalCmd) : Nat := c.addr.toNat / 4 * 4

/-- Whether an address lies in a region of SEAL 1h or 2h on a stack (R304). -/
def State.unsealedAt (s : State) (a : Nat) : Bool :=
  s.regions.any fun x => x.2.sealKind != 0 && x.2.loc == 0 && bit x.2.jets (a / 2 ^ 36) &&
    x.2.slotList.any fun k => x.2.slotBase k ≤ a % 2 ^ 36 && a % 2 ^ 36 < x.2.slotBase k + x.2.length

/-- An access of 4 bytes in the doorbell window, which R116 refuses: the partition and the offset of its page. -/
def State.windowAccess (s : State) (a : Nat) (write : Bool) : State :=
  let o := a - doorbellBase
  if s.pageOpen (o / 0x20000) then s.badAccess (o / 0x20000) (o % 0x20000) write else s

/-- A read or a write of four bytes of fabric memory is done (R201, R304, R408, R413, R420): a write is one like another of the
fabric, which names no format. -/
def State.memAccess (s : State) (write : Bool) (cmd : GarhalCmd) : State :=
  let a := cmdPlace cmd
  if write then (s.put true a (leBytes 4 cmd.data.toNat) 15).respond 4 cmd 0
  else (s.respond 3 cmd 0 (s.readLe a 4) (s.unsealedAt a)).overHoles [(a, 4)]

/-- A read or a write, BUSY while the indication of its bank is low (R299). -/
def State.memServe (s : State) (write : Bool) (cmd : GarhalCmd) : State :=
  if s.rangeHeld (cmdPlace cmd) 4 then
    let t := s.respond (if write then 4 else 3) cmd 1
    { t with garhal := { t.garhal with waits := some (write, cmd) } }
  else s.memAccess write cmd

/-- An access that waited for the indication of its bank is done once it is high (R299). -/
def State.memWaits (s : State) : State :=
  match s.garhal.waits with
  | some (write, cmd) =>
    if s.clocks.rst || s.freezing || s.rangeHeld (cmdPlace cmd) 4 then s
    else ({ s with garhal := { s.garhal with waits := none } } : State).memAccess write cmd
  | none => s

/-- MEM_RD (R408, R413, R420). -/
def execMemRd (cmd : GarhalCmd) (s : State) : Host.Outcome State Fault Refusal :=
  .next <| s.garhalRun 3 cmd <|
    let a := cmdPlace cmd
    if s.freezing then s.respond 3 cmd 3
    else if !s.garhal.memEnabled then s.respond 3 cmd 2
    else if doorbellBase ≤ a then (s.windowAccess a false).respond 3 cmd 0
    else s.memServe false cmd

/-- MEM_WR (R201, R304, R408, R413, R420). -/
def execMemWr (cmd : GarhalCmd) (s : State) : Host.Outcome State Fault Refusal :=
  .next <| s.garhalRun 4 cmd <|
    let a := cmdPlace cmd
    if s.freezing then s.respond 4 cmd 3
    else if !s.garhal.memEnabled then s.respond 4 cmd 2
    else if doorbellBase ≤ a then (s.windowAccess a true).respond 4 cmd 0
    else s.memServe true cmd

/-! ## HALT, RESUME, STEP (R409, R410) -/

/-- Set whether a TARGET is halting and halted. -/
def State.setHalt (s : State) (target : Nat) (halting halted : Bool) : State :=
  (if ofController target then s.updBasin (target - 0x18) fun x => { x with halting := halting, halted := halted }
  else s.updJet (s.engine target) fun x => { x with halting := halting, halted := halted, steps := 0 }).settleOwners

/-- HALT (R408, R409): the engine's ports stop as under freeze, and its refresh is handed back; BUSY until it has
halted. -/
def execHalt (cmd : GarhalCmd) (s : State) : Host.Outcome State Fault Refusal :=
  .next <| s.garhalRun 5 cmd <|
    let t := cmd.target.toNat
    if s.freezing || !s.hasTarget t then s.respond 5 cmd 3
    else if s.targetHalted t then s.respond 5 cmd 0
    else (s.setHalt t true false).respond 5 cmd 1

/-- Whether a TARGET is on its way to the halt. -/
def State.targetHalting (s : State) (target : Nat) : Bool :=
  if ofController target then (s.basin (target - 0x18)).halting
  else s.present target && (s.jet (s.engine target)).halting

/-- ENGINE_HALTED (R409): the clock of the TARGET has stopped. What STATE_RD may then read is fresh (log 15). -/
def execEngineHalted (target : BitVec 5) (s : State) : Host.Outcome State Fault Refusal :=
  .next <|
    let n := target.toNat
    if s.clocks.rst || s.freezing || !s.targetHalting n then s
    else
      let t := (s.setHalt n false true).draw 1
      if s.garhal.resp.status = 1 ∧ s.garhal.resp.target = n then
        { t with garhal := { t.garhal with resp := { t.garhal.resp with status := 0 } } }
      else t

/-- RESUME (R408, R409): the TARGET goes on where it stopped. -/
def execResume (cmd : GarhalCmd) (s : State) : Host.Outcome State Fault Refusal :=
  .next <| s.garhalRun 6 cmd <|
    let t := cmd.target.toNat
    if s.freezing || t = 0x1F || !s.targetHalted t then s.respond 6 cmd 3
    else (s.setHalt t false false).respond 6 cmd 0

/-- Whether a part of a job is a STILL's with tiles in flight on an engine. -/
def State.inNozzle (s : State) (e : Nat) (j : Job) (p : Part) : Bool :=
  !j.recorded && opOf j.desc == 3 && decide (p.jet < 24) && s.engine p.jet == e && !p.inFlight.isEmpty

/-- The Nozzle of a part runs `n` arithmetic cycles (R137, R138, R410). -/
def Part.cycles (p : Part) (env : NzEnv) (n : Nat) : Part :=
  let (zs, c) := chainCycles env n p.cycle (p.inFlight.filterMap (·.nz)) p.cistern
  { p with inFlight := putNz p.inFlight zs, cistern := c, cycle := p.cycle + n }

/-- An engine runs `n` arithmetic cycles. -/
def State.runCycles (s : State) (e n : Nat) : State :=
  let run (j : Job) : Job := { j with parts := j.parts.map fun p => if s.inNozzle e j p then p.cycles j.env n else p }
  let t := { s with jobs := s.jobs.map run }
  t.updJets (t.servedBy e) fun _ x => { x with cycle := (x.cycle + n) % 2 ^ 48 }

/-- A halted engine has `n` more cycles in which it can start or commit a tile (R410, log 7). -/
def State.addSteps (s : State) (e n : Nat) : State :=
  s.updJet e fun x => { x with steps := x.steps + n }

/-- STEP (R408, R410): one arithmetic cycle of the whole jet, or one instruction of the sequencer core, which takes a number
of the jet's cycles that the manual does not give. -/
def execStep (cmd : GarhalCmd) (s : State) : Host.Outcome State Fault Refusal :=
  .next <| s.garhalRun 7 cmd <|
    let t := cmd.target.toNat
    let n := if cmd.unit = 0 then (Config.freeWord s.free).toNat else 1
    if s.freezing || t = 0x1F || !s.targetHalted t || (ofController t && cmd.unit != 0) then s.respond 7 cmd 3
    else if ofController t then (s.draw 1).respond 7 cmd 0
    else (((s.runCycles (s.engine t) n).addSteps (s.engine t) n).draw 1).respond 7 cmd 0

/-! ## Breakpoints (R410) -/

/-- The engine or controller whose breakpoints a TARGET names. -/
def State.brkTarget (s : State) (target : Nat) : Nat :=
  if ofController target then target else s.engine target

/-- The breakpoint index of a command: DATA[1:0] (R407). -/
def breakIndex (c : GarhalCmd) : Nat := bits c.data.toNat 0 2

/-- Whether a UNIT of a TARGET has a breakpoint of an index (R410). -/
def State.hasBreak (s : State) (c : GarhalCmd) : Bool :=
  let i := breakIndex c
  s.hasTarget c.target.toNat &&
    ((c.unit == 0) || (c.unit == 1 && !ofController c.target.toNat && decide (i < 2)))

/-- The breakpoints without one. -/
def dropBreak (l : List Break) (target unit index : Nat) : List Break :=
  l.filter fun x => !(x.target == target && x.unit == unit && x.index == index)

/-- Replace the breakpoints. -/
def State.setBreaks (s : State) (l : List Break) : State :=
  { s with garhal := { s.garhal with breaks := l } }

/-- BRK_SET (R408, R410). -/
def execBrkSet (cmd : GarhalCmd) (s : State) : Host.Outcome State Fault Refusal :=
  .next <| s.garhalRun 8 cmd <|
    let t := s.brkTarget cmd.target.toNat
    let i := breakIndex cmd
    if s.hasBreak cmd then
      (s.setBreaks (dropBreak s.garhal.breaks t cmd.unit.toNat i ++ [⟨t, cmd.unit.toNat, i, cmd.addr.toNat⟩])).respond 8 cmd 0
    else s.respond 8 cmd 3

/-- BRK_CLR (R408, R410). -/
def execBrkClr (cmd : GarhalCmd) (s : State) : Host.Outcome State Fault Refusal :=
  .next <| s.garhalRun 9 cmd <|
    if s.hasBreak cmd then
      (s.setBreaks (dropBreak s.garhal.breaks (s.brkTarget cmd.target.toNat) cmd.unit.toNat (breakIndex cmd))).respond 9 cmd 0
    else s.respond 9 cmd 3

/-- Where a breakpoint of a Nozzle halts an engine, no other coming first: the descriptor, the part and the cycle. -/
def State.nozzleBreak (s : State) (e : Nat) (b : Break) : Option (Job × Part × Nat) :=
  s.jobs.findSome? fun j => j.parts.findSome? fun p =>
    if s.inNozzle e j p then
      (j.breakCycle p b.addr).bind fun c => if s.breaksFirst j p c then none else some (j, p, c)
    else none

/-- The engine or controller halts at a breakpoint, with trace record 44h (R410, R329). -/
def State.breakHalt (s : State) (target unit index : Nat) : State :=
  if ofController target then
    ((s.setHalt target false true).draw 1).emit { cls := 3, code := 0x44, basin := target - 0x18, arg0 := unit, arg1 := index }
  else
    ((s.setHalt target false true).draw 1).emit
      { cls := 3, code := 0x44, part := some (s.jet target).part, jet := target, arg0 := unit, arg1 := index }

/-- BREAKPOINT_HIT (R406, R410): taken where BRK_EN is 1, the breakpoint is set and the TARGET runs. A Nozzle breakpoint halts
the jet at the cycle in which group 0 of a tile of the program reaches the instruction's stage. -/
def execBreakpointHit (target : BitVec 5) (unit index : Nat) (s : State) : Host.Outcome State Fault Refusal :=
  .next <|
    let n := target.toNat
    let t := s.brkTarget n
    let up := if ofController n then s.basinRuns (n - 0x18) else s.present n && s.runs n
    match s.garhal.breaks.find? fun x => x.target == t && x.unit == unit && x.index == index with
    | none => s
    | some b =>
      if !s.live || !s.garhal.brkEnabled || !up then s
      else if unit = 0 then s.breakHalt n unit index
      else match s.nozzleBreak t b with
        | some (j, p, c) =>
          ((s.runCycles t (c - p.cycle)).updJob j.ring j.seq fun x =>
            x.updPart p.jet fun y => { y with met := c + 1 }).breakHalt n unit index
        | none => s

/-! ## STATE_RD (R411) -/

/-- What STATE_RD reads of a TARGET at an address where the manual leaves the state open: one value for as long as nothing is
drawn, as on an engine that stands still nothing changes (R411, log 15). -/
def State.openState (s : State) (target a : Nat) : Nat := (Config.stateWord s.free target a).toNat

/-- The group that is about to execute stage `field` + 1 in the Nozzle of an engine, with the lane of its first element: 0, or
32q for the 32 elements that an F64 program issues as quarter q of a group (R136, R166, R411). -/
def Part.groupAtStage (p : Part) (env : NzEnv) (field : Nat) : Option (Nat × List Elem) :=
  (p.inFlight.filterMap (·.nz)).findSome? fun z => (List.range (passes env.image)).findSome? fun k =>
    (groupAt env.image z (24 * k + field + 1) p.cycle).map fun g => (groupSize env.image * g % 128, nth z.groups g [])

/-- A value of a Nozzle lane; none where no group stands at the stage, or the lane holds no element (R411). -/
def State.laneState (s : State) (e a : Nat) : Option Nat :=
  (s.jobs.findSome? fun j => j.parts.findSome? fun p =>
    if s.inNozzle e j p then p.groupAtStage j.env (bits a 7 5) else none).bind fun es =>
  (if bits a 0 7 < es.1 then none else es.2[bits a 0 7 - es.1]?).map fun x =>
    if bit a 17 then (List.range 4).foldl (fun m i => m + 2 ^ i * b2n (nth x.p i false)) 0
    else bits (nth x.v (bits a 12 4) 0) (32 * bits a 16 1) 32

/-- A word of the Cistern of an engine, as the last STILL that has begun there left it; none where there is none (R163,
R411). -/
def State.cisternWord (s : State) (e w : Nat) : Option Nat :=
  s.jobs.reverse.findSome? fun j => j.parts.findSome? fun p =>
    if !j.recorded && opOf j.desc == 3 && decide (p.jet < 24) && s.engine p.jet == e && p.loaded then
      some (Tab.get 0 p.cistern w)
    else none

/-- The output elements of the CRUCIBLE tile in flight on an engine, its descriptor with them (R89, R198). -/
def State.crucibleTile (s : State) (e : Nat) : Option (Job × List Nat) :=
  s.jobs.findSome? fun j => j.parts.findSome? fun p =>
    if !j.recorded && opOf j.desc == 8 && decide (p.jet < 24) && s.engine p.jet == e then
      p.inFlight.head?.map fun t => (j, (List.range (tileSize p.count t.index)).map (j.outFirst p t.index + ·))
    else none

/-- The value of the accumulator at a row and column. The manual does not say which output element it works on, nor how far it
has come: with a CRUCIBLE tile in flight it may hold any element of the tile after any number of its groups (R63, R67, log
15). None where it holds no such element. -/
def State.accumulator (s : State) (target a : Nat) : Option Num :=
  (s.crucibleTile (s.engine target)).bind fun x =>
    (x.2[s.openState target (2 ^ 20 + a)]?).map fun i =>
      (dot none ((s.crucibleProducts x.1 i).take (16 * (s.openState target (2 ^ 21 + a) + 1)))).value

/-- The class code of a decoded value (R58). -/
def Num.cls : Num → Nat
  | .fin d => if d.m = 0 then 1 else 0
  | .inf _ => 2
  | .nan _ => 3

/-- The two words of an accumulator: the significand with its leading bit at bit 23; class, sign and biased exponent (R411).
The fields that a class leaves without a meaning, `w` and `x`, are open: significand and exponent of what is not finite and
nonzero, and the sign of a NaN. -/
def accWords (v : Num) (w x : Nat) : Nat × Nat :=
  match v with
  | .fin d =>
    if d.m = 0 then (w % 2 ^ 24, 2 ^ 11 * v.cls + 2 ^ 10 * b2n d.neg + x % 2 ^ 10)
    else (d.roundAt .rne 0 (d.top - 23), 2 ^ 10 * b2n d.neg + (d.top + 511).toNat % 2 ^ 10)
  | .inf s => (w % 2 ^ 24, 2 ^ 11 * v.cls + 2 ^ 10 * b2n s + x % 2 ^ 10)
  | .nan _ => (w % 2 ^ 24, 2 ^ 11 * v.cls + x % 2 ^ 11)

/-- An accumulator that holds no element: open, with the leading bit of a finite value at bit 23 (R411). -/
def openWords (w x : Nat) : Nat × Nat :=
  (if bits x 11 2 = 0 then 2 ^ 23 + w % 2 ^ 23 else w % 2 ^ 24, x % 2 ^ 13)

/-- A word of the Crucible of a TARGET (R411). -/
def State.crucibleWord (s : State) (target a : Nat) : Nat :=
  let w := s.openState target (2 ^ 22 + a % 2 ^ 14)
  let x := s.openState target (2 ^ 23 + a % 2 ^ 14)
  let r := match s.accumulator target (a % 2 ^ 14) with
    | some v => accWords v w x
    | none => openWords w x
  if bit a 14 then r.2 else r.1

/-- Whether an address lies in a space of STATE_RD for a TARGET (R411). -/
def stateAddress (target a : Nat) : Bool :=
  let low := a % 2 ^ 44
  match a / 2 ^ 44 with
  | 0 => low < 2 ^ 8 && target != 0x1F
  | 1 => target < 0x18 && low < 2 ^ 18 && bits low 7 5 < 24 && (!bit low 17 || bits low 12 5 == 0)
  | 2 => target < 0x18 && low < 2 ^ 15
  | 3 => target < 0x18 && low < 2 ^ 19
  | _ => false

/-- DATA of STATE_RD: the fields that R411 fixes are as it says, and what it leaves open is a free value. -/
def State.stateData (s : State) (target a : Nat) : Nat :=
  let low := a % 2 ^ 44
  let e := s.engine target
  match a / 2 ^ 44 with
  | 0 => s.openState (s.brkTarget target) a
  | 1 => (s.laneState e low).getD (if bit low 17 then s.openState e a % 16 else s.openState e a)
  | 2 => s.crucibleWord e low
  | _ => (s.cisternWord e low).getD (s.openState e a)

/-- STATE_RD (R408, R411). -/
def execStateRd (cmd : GarhalCmd) (s : State) : Host.Outcome State Fault Refusal :=
  .next <| s.garhalRun 0xA cmd <|
    let t := cmd.target.toNat
    if !(s.clocks.freeze == .frozen) && !(t != 0x1F && s.targetHalted t) then s.respond 0xA cmd 3
    else if !stateAddress t cmd.addr.toNat || !s.hasTarget t then s.respond 0xA cmd 2
    else s.respond 0xA cmd 0 (s.stateData t cmd.addr.toNat)

/-! ## Reserved operations (R408) -/

/-- GARHAL_RESERVED_OP (R407, R408): codes Bh to Fh complete REFUSED. -/
def execGarhalReservedOp (op : BitVec 4) (cmd : GarhalCmd) (s : State) : Host.Outcome State Fault Refusal :=
  .next <| if op.toNat < 0xB then s else s.garhalRun op.toNat cmd (s.respond op.toNat cmd 3)

end Sys2Proof.Machine
end

