-- ==== Sys2Proof/Machine/Dispatch.lean ====
section
/-! DEFINITION. The meaning of every command, one arm for each. -/

namespace Sys2Proof.Machine

open Sys2Proof

def exec (i : Instr) (s : State) : Host.Outcome State Fault Refusal :=
  match i with
  | .land ring => Sys2Proof.Machine.execLand ring s
  | .meter ring => Sys2Proof.Machine.execMeter ring s
  | .still ring => Sys2Proof.Machine.execStill ring s
  | .cast ring => Sys2Proof.Machine.execCast ring s
  | .vote ring => Sys2Proof.Machine.execVote ring s
  | .pour ring => Sys2Proof.Machine.execPour ring s
  | .rewind ring => Sys2Proof.Machine.execRewind ring s
  | .crucible ring => Sys2Proof.Machine.execCrucible ring s
  | .gemv ring => Sys2Proof.Machine.execGemv ring s
  | .rill ring => Sys2Proof.Machine.execRill ring s
  | .copy ring => Sys2Proof.Machine.execCopy ring s
  | .fill ring => Sys2Proof.Machine.execFill ring s
  | .sched ring => Sys2Proof.Machine.execSched ring s
  | .fence ring => Sys2Proof.Machine.execFence ring s
  | .census ring => Sys2Proof.Machine.execCensus ring s
  | .fwchunk ring => Sys2Proof.Machine.execFwchunk ring s
  | .fwactivate ring => Sys2Proof.Machine.execFwactivate ring s
  | .attest ring => Sys2Proof.Machine.execAttest ring s
  | .exportStream ring => Sys2Proof.Machine.execExportStream ring s
  | .descriptorFetch basin => Sys2Proof.Machine.execDescriptorFetch basin s
  | .tileStart ring seq jet => Sys2Proof.Machine.execTileStart ring seq jet s
  | .tileCommit ring seq jet => Sys2Proof.Machine.execTileCommit ring seq jet s
  | .descriptorComplete ring seq => Sys2Proof.Machine.execDescriptorComplete ring seq s
  | .meterComplete ring seq => Sys2Proof.Machine.execMeterComplete ring seq s
  | .voteTaken => Sys2Proof.Machine.execVoteTaken s
  | .verdict record whole => Sys2Proof.Machine.execVerdict record whole s
  | .doorbellWrite part ring value => Sys2Proof.Machine.execDoorbellWrite part ring value s
  | .ringResume part ring value => Sys2Proof.Machine.execRingResume part ring value s
  | .pin part shard => Sys2Proof.Machine.execPin part shard s
  | .unpin part shard value => Sys2Proof.Machine.execUnpin part shard value s
  | .doorbellPageBadAccess part offset size write => Sys2Proof.Machine.execDoorbellPageBadAccess part offset size write s
  | .regionCommit part value => Sys2Proof.Machine.execRegionCommit part value s
  | .regionClear part value => Sys2Proof.Machine.execRegionClear part value s
  | .rangeAck jet => Sys2Proof.Machine.execRangeAck jet s
  | .ringEnable part value => Sys2Proof.Machine.execRingEnable part value s
  | .ringDisable part value => Sys2Proof.Machine.execRingDisable part value s
  | .programCommit part value => Sys2Proof.Machine.execProgramCommit part value s
  | .programClear part value => Sys2Proof.Machine.execProgramClear part value s
  | .jetMove part jet value => Sys2Proof.Machine.execJetMove part jet value s
  | .stepWrite part shard value => Sys2Proof.Machine.execStepWrite part shard value s
  | .retire part shard value => Sys2Proof.Machine.execRetire part shard value s
  | .partGo part value => Sys2Proof.Machine.execPartGo part value s
  | .partitionResetDone part => Sys2Proof.Machine.execPartitionResetDone part s
  | .jetRst part value => Sys2Proof.Machine.execJetRst part value s
  | .censusLogWrite part log value => Sys2Proof.Machine.execCensusLogWrite part log value s
  | .sluiceLogWrite part value => Sys2Proof.Machine.execSluiceLogWrite part value s
  | .clrDrops part value => Sys2Proof.Machine.execClrDrops part value s
  | .alarmPop part value => Sys2Proof.Machine.execAlarmPop part value s
  | .alarmHeadRead part => Sys2Proof.Machine.execAlarmHeadRead part s
  | .counterLowRead part addr => Sys2Proof.Machine.execCounterLowRead part addr s
  | .faultCntClear part jet value => Sys2Proof.Machine.execFaultCntClear part jet value s
  | .clkHoldWrite part value => Sys2Proof.Machine.execClkHoldWrite part value s
  | .dbgCtlWrite part value => Sys2Proof.Machine.execDbgCtlWrite part value s
  | .keyxGo part value => Sys2Proof.Machine.execKeyxGo part value s
  | .keyAgreementDone => Sys2Proof.Machine.execKeyAgreementDone s
  | .registerWrite part addr value => Sys2Proof.Machine.execRegisterWrite part addr value s
  | .bootGo part value => Sys2Proof.Machine.execBootGo part value s
  | .romDone pufOk => Sys2Proof.Machine.execRomDone pufOk s
  | .bootVerify readOk => Sys2Proof.Machine.execBootVerify readOk s
  | .bootMap badLanes => Sys2Proof.Machine.execBootMap badLanes s
  | .bootLoad gauges => Sys2Proof.Machine.execBootLoad gauges s
  | .stationSelfTestDone jet station pass inBanks spares => Sys2Proof.Machine.execStationSelfTestDone jet station pass inBanks spares s
  | .testEnd => Sys2Proof.Machine.execTestEnd s
  | .soakSweepDone => Sys2Proof.Machine.execSoakSweepDone s
  | .soakEnd => Sys2Proof.Machine.execSoakEnd s
  | .temperWrite => Sys2Proof.Machine.execTemperWrite s
  | .temperWriteDone => Sys2Proof.Machine.execTemperWriteDone s
  | .mzRstAssert => Sys2Proof.Machine.execMzRstAssert s
  | .mzRstDeassert => Sys2Proof.Machine.execMzRstDeassert s
  | .aonPowerLoss => Sys2Proof.Machine.execAonPowerLoss s
  | .jetResetAssert jet => Sys2Proof.Machine.execJetResetAssert jet s
  | .jetResetEnd jet => Sys2Proof.Machine.execJetResetEnd jet s
  | .basinResetAssert basin => Sys2Proof.Machine.execBasinResetAssert basin s
  | .basinResetDeassert basin => Sys2Proof.Machine.execBasinResetDeassert basin s
  | .drainTimeout level index => Sys2Proof.Machine.execDrainTimeout level index s
  | .jetSleep jet => Sys2Proof.Machine.execJetSleep jet s
  | .basinSleep basin => Sys2Proof.Machine.execBasinSleep basin s
  | .mzWake => Sys2Proof.Machine.execMzWake s
  | .wakeDone ofBasin index => Sys2Proof.Machine.execWakeDone ofBasin index s
  | .freeze => Sys2Proof.Machine.execFreeze s
  | .freezeClocksStop => Sys2Proof.Machine.execFreezeClocksStop s
  | .thaw => Sys2Proof.Machine.execThaw s
  | .takeAck basin => Sys2Proof.Machine.execTakeAck basin s
  | .refreshTick jet bank => Sys2Proof.Machine.execRefreshTick jet bank s
  | .refreshIssue jet bank => Sys2Proof.Machine.execRefreshIssue jet bank s
  | .rillStart jet => Sys2Proof.Machine.execRillStart jet s
  | .rillWord jet => Sys2Proof.Machine.execRillWord jet s
  | .opack jet number late => Sys2Proof.Machine.execOpack jet number late s
  | .bankIdle jet channel mask => Sys2Proof.Machine.execBankIdle jet channel mask s
  | .pend jet bank => Sys2Proof.Machine.execPend jet bank s
  | .gemvDrainDone jet => Sys2Proof.Machine.execGemvDrainDone jet s
  | .patrolRead jet => Sys2Proof.Machine.execPatrolRead jet s
  | .sealReport jet offset enables => Sys2Proof.Machine.execSealReport jet offset enables s
  | .landingWrite jet offset enables data tag => Sys2Proof.Machine.execLandingWrite jet offset enables data tag s
  | .flushAck jet => Sys2Proof.Machine.execFlushAck jet s
  | .stackResponse jet request status => Sys2Proof.Machine.execStackResponse jet request status s
  | .fabricResponse basin request status => Sys2Proof.Machine.execFabricResponse basin request status s
  | .flit basin direction lane arrival => Sys2Proof.Machine.execFlit basin direction lane arrival s
  | .laneRetrain basin direction lane margin => Sys2Proof.Machine.execLaneRetrain basin direction lane margin s
  | .sluiceWrite basin => Sys2Proof.Machine.execSluiceWrite basin s
  | .detectedError cls place index work => Sys2Proof.Machine.execDetectedError cls place index work s
  | .correction cls place index => Sys2Proof.Machine.execCorrection cls place index s
  | .selfTestResult cls place index pass => Sys2Proof.Machine.execSelfTestResult cls place index pass s
  | .adoptionDone jet => Sys2Proof.Machine.execAdoptionDone jet s
  | .bankCopyDone jet => Sys2Proof.Machine.execBankCopyDone jet s
  | .copyReload ofWarden copy pass => Sys2Proof.Machine.execCopyReload ofWarden copy pass s
  | .replan gauges eyes => Sys2Proof.Machine.execReplan gauges eyes s
  | .chunkFetch core => Sys2Proof.Machine.execChunkFetch core s
  | .fwSwap => Sys2Proof.Machine.execFwSwap s
  | .fwactivateTimeout => Sys2Proof.Machine.execFwactivateTimeout s
  | .stat cmd => Sys2Proof.Machine.execStat cmd s
  | .regRd cmd => Sys2Proof.Machine.execRegRd cmd s
  | .regWr cmd => Sys2Proof.Machine.execRegWr cmd s
  | .memRd cmd => Sys2Proof.Machine.execMemRd cmd s
  | .memWr cmd => Sys2Proof.Machine.execMemWr cmd s
  | .halt cmd => Sys2Proof.Machine.execHalt cmd s
  | .resume cmd => Sys2Proof.Machine.execResume cmd s
  | .step cmd => Sys2Proof.Machine.execStep cmd s
  | .brkSet cmd => Sys2Proof.Machine.execBrkSet cmd s
  | .brkClr cmd => Sys2Proof.Machine.execBrkClr cmd s
  | .stateRd cmd => Sys2Proof.Machine.execStateRd cmd s
  | .breakpointHit target unit index => Sys2Proof.Machine.execBreakpointHit target unit index s
  | .ghTrst => Sys2Proof.Machine.execGhTrst s
  | .reservedOpcode ring => Sys2Proof.Machine.execReservedOpcode ring s
  | .garhalReservedOp op cmd => Sys2Proof.Machine.execGarhalReservedOp op cmd s
  | .instructionRegisterUpdate code => Sys2Proof.Machine.execInstructionRegisterUpdate code s
  | .engineHalted target => Sys2Proof.Machine.execEngineHalted target s

end Sys2Proof.Machine
end

