-- ==== Sys2Proof/Machine/Tick.lean ====
section
/-! DEFINITION. One always-on cycle with no command: the counters of R330 advance (log 4). -/

namespace Sys2Proof.Machine

/-- A CYCLE counter after one always-on cycle, 48 bits wide: 30 cycles of 1.5 GHz (R330). -/
def cycleOn (c : Nat) : Nat :=
  (c + 30) % 2 ^ 48

/-- The normal accesses that are pending on banks whose indication is up take place (R299, R300; log 32). -/
def Well.serve (w : Well) : Well :=
  { w with pend := w.pend.filter fun b => w.held.contains b || w.ops.any (·.bank == some b) }

/-- One always-on cycle passes: the counters of the basins and of the jets whose engine is not halted advance, unless the
clocks are stopped by a freeze or MZ_RST_N is asserted; an access of the Garhal port whose bank is free is done (R299, R330,
R401, R409). -/
def tick (s : State) : State :=
  if !s.clocks.rst && s.clocks.freeze != .frozen then
    ({ s with
      aon := s.aon + 1
      basins := Tab.updAll {} s.basins (List.range 6) fun _ b => { b with cycle := cycleOn b.cycle }
      jets := Tab.updAll {} s.jets (List.range 24) fun k j =>
        if (s.jet (s.engine k)).halted then j else { j with cycle := cycleOn j.cycle, well := j.well.serve } } : State).memWaits
  else s

end Sys2Proof.Machine
end

