-- ==== Sys2Proof/Safety.lean ====
section
/-! DEFINITION. What a safe step and a safe run are: the block goes on, its memory and its tables keep their canonical form,
and its queues and buffers keep the size the manual gives them. -/

namespace Sys2Proof.Machine

/-- The memory is in its canonical form. -/
def State.MemWf (s : State) : Prop :=
  Memory.wf s.mem = true

/-- The table of region tables is canonical. -/
def regionsWf (t : Tab RegionEntry) : Prop := Tab.wf {} t = true
/-- The table of ring contexts is canonical. -/
def ringsWf (t : Tab Ring) : Prop := Tab.wf {} t = true
/-- The table of shard contexts is canonical. -/
def shardsWf (t : Tab Shard) : Prop := Tab.wf {} t = true
/-- The table of parameter groups is canonical. -/
def groupsWf (t : Tab Group) : Prop := Tab.wf {} t = true
/-- The table of program slots is canonical. -/
def slotsWf (t : Tab Slot) : Prop := Tab.wf {} t = true
/-- The table of jets is canonical. -/
def jetsWf (t : Tab Jet) : Prop := Tab.wf {} t = true
/-- The table of basins is canonical. -/
def basinsWf (t : Tab Basin) : Prop := Tab.wf {} t = true
/-- The table of registers of each accessing partition is canonical. -/
def ownWf (t : Tab Own) : Prop := Tab.wf {} t = true
/-- The table of census logs is canonical. -/
def logsWf (t : Tab Log) : Prop := Tab.wf {} t = true
/-- The table of export keys is canonical. -/
def exportsWf (t : Tab ExportKey) : Prop := Tab.wf {} t = true

/-- The tables of the state are in their canonical form, so that a key that was written reads as it was written. -/
structure State.TablesWf (s : State) : Prop where
  regions : regionsWf s.regions
  rings : ringsWf s.rings
  shards : shardsWf s.shards
  groups : groupsWf s.groups
  slots : slotsWf s.slots
  quotas : Tab.wf 0x100 s.quotas = true
  jets : jetsWf s.jets
  basins : basinsWf s.basins
  own : ownWf s.own
  censusLogs : logsWf s.censusLogs
  totals : Tab.wf [] s.census.totals = true
  attempts : Tab.wf none s.census.attempts = true
  firsts : Tab.wf [] s.census.firsts = true
  resetParts : Tab.wf none s.resets.parts = true
  exports : exportsWf s.warden.exports
  temperJets : jetsWf s.boot.temper.jets

/-- Whether an alarm buffer has the size R333 gives it: 511 records, and a 512th only beside the overflow alarm, code 25h. -/
def alarmsFit (alarms : List (List Byte)) : Prop :=
  alarms.length ≤ 511 ∨ (alarms.length = 512 ∧ (alarms.any fun x => fieldAt x 1 1 == 0x25) = true)

/-- No basin's Sluice queue holds more than 64 records (R328). -/
def queuesFit (basins : Tab Basin) : Prop :=
  ∀ x ∈ basins, x.2.queue.length ≤ 64

/-- The invariant of the block: canonical memory and tables, and queues and buffers of the manual's size. -/
structure State.Inv (s : State) : Prop where
  mem : s.MemWf
  tables : s.TablesWf
  alarms : alarmsFit s.sluice.alarms
  queues : queuesFit s.basins

/-- The step of a state answers a next state. -/
def State.Goes (s : State) : Prop :=
  ∃ t, step s = .next t

/-- `n` steps from a state all answer next states. -/
def State.RunsFor (s : State) (n : Nat) : Prop :=
  ∃ t, Sys2Proof.core.run n s = .next t

/-! ## What changes, and what does not -/

/-- Key `i` of a table now reads as `x`, and every other key as before. -/
def Tab.Only {α : Type} (d : α) (t u : Tab α) (i : Nat) (x : α) : Prop :=
  Tab.get d u i = x ∧ ∀ k, k ≠ i → Tab.get d u k = Tab.get d t k

/-- Only the context of shard `n` has changed, to `x`. -/
def State.OnlyShard (s t : State) (n : Nat) (x : Shard) : Prop :=
  t = { s with shards := t.shards } ∧ Tab.Only {} s.shards t.shards n x

/-- Only the context of ring `r` has changed, to `x`. -/
def State.OnlyRing (s t : State) (r : Nat) (x : Ring) : Prop :=
  t = { s with rings := t.rings } ∧ Tab.Only {} s.rings t.rings r x

/-- Only logical jet `j` has changed, to `x`. -/
def State.OnlyJet (s t : State) (j : Nat) (x : Jet) : Prop :=
  t = { s with jets := t.jets } ∧ Tab.Only {} s.jets t.jets j x

/-- Only what the issuer of the wellspring stack of jet `j` holds has changed, to `w`. -/
def State.OnlyWell (s t : State) (j : Nat) (w : Well) : Prop :=
  s.OnlyJet t j { s.jet j with well := w }

/-- Only basin `b` has changed, to `x`. -/
def State.OnlyBasin (s t : State) (b : Nat) (x : Basin) : Prop :=
  t = { s with basins := t.basins } ∧ Tab.Only {} s.basins t.basins b x

/-- Only the registers that partition `p` has for itself have changed, to `x`. -/
def State.OnlyOwn (s t : State) (p : Nat) (x : Own) : Prop :=
  t = { s with own := t.own } ∧ Tab.Only {} s.own t.own p x

/-- What records change where they are offered: the Sluice's counters and alarm buffer, and the queues of the basins
(R326 to R333). -/
structure State.Records (s t : State) : Prop where
  sluice : t.sluice = { s.sluice with
    log := { s.sluice.log with next := t.sluice.log.next }, drops := t.sluice.drops, alarms := t.sluice.alarms }
  basins : ∀ b, t.basin b = { s.basin b with queue := (t.basin b).queue, episode := (t.basin b).episode }

/-- Records have been offered, and nothing else has changed. -/
structure State.OnlyRecords (s t : State) : Prop extends State.Records s t where
  rest : t = { s with basins := t.basins, sluice := t.sluice }

/-- What records change, and beside it the waking flags of the basins (R326 to R333, R398). -/
structure State.RecordsAndWakes (s t : State) : Prop where
  sluice : t.sluice = { s.sluice with
    log := { s.sluice.log with next := t.sluice.log.next }, drops := t.sluice.drops, alarms := t.sluice.alarms }
  basins : ∀ b, t.basin b = { s.basin b with
    waking := (t.basin b).waking, queue := (t.basin b).queue, episode := (t.basin b).episode }

/-- What waking parts changes: their waking flags (R398). -/
structure State.OnlyWakes (s t : State) : Prop where
  rest : t = { s with jets := t.jets, basins := t.basins }
  jets : ∀ j, t.jet j = { s.jet j with waking := (t.jet j).waking }
  basins : ∀ b, t.basin b = { s.basin b with waking := (t.basin b).waking }

/-- The descriptor `h` of a ring has been accepted as the job `j` (R120): the newest of the accepted descriptors, of the
ring's partition; it has left the fetched ones of its ring, and no other ring has changed. -/
structure State.Accepts (s t : State) (ring : Nat) (h : Held) (j : Job) : Prop where
  jobs : t.jobs = s.jobs ++ [j]
  names : j.ring = ring ∧ j.seq = h.seq ∧ j.desc = h.bytes ∧ j.part = (s.ring ring).part ∧ j.recorded = false
  rings : Tab.Only {} s.rings t.rings ring { s.ring ring with held := (s.ring ring).held.tail }

/-- The descriptor has been accepted, and nothing else has changed but the waking flags of the parts it runs on (R398)
and the pin counts of the shards it reads (R99). -/
structure State.AcceptsOnly (s t : State) (ring : Nat) (h : Held) (j : Job) : Prop extends State.Accepts s t ring h j where
  rest : t = { s with jobs := t.jobs, rings := t.rings, shards := t.shards, jets := t.jets, basins := t.basins }
  shards : ∀ n, t.shard n = { s.shard n with pins0 := (t.shard n).pins0, pins1 := (t.shard n).pins1 }
  jets : ∀ k, t.jet k = { s.jet k with waking := (t.jet k).waking }
  basins : ∀ b, t.basin b = { s.basin b with waking := (t.basin b).waking }

/-- No byte of memory has changed outside ranges of (address, length). -/
def State.WritesOnly (s t : State) (ranges : List (Nat × Nat)) : Prop :=
  ∀ a, (∀ r ∈ ranges, a < r.1 ∨ r.1 + r.2 ≤ a) → memGet t.mem a = memGet s.mem a

/-- No byte of a list of ranges lies in a landing share or in a slot whose outside writes are reported (R201, R304). -/
def State.unwatched (s : State) (ranges : List (Nat × Nat)) : Prop :=
  ∀ r ∈ ranges, s.landingHits r.1 r.2 = [] ∧ s.sealHits r.1 r.2 = []

/-- No byte of a list of ranges lies where there is no memory (R413). -/
def State.inMemory (s : State) (ranges : List (Nat × Nat)) : Prop :=
  ∀ r ∈ ranges, s.touches r = false

/-! ## What stands in memory after writes -/

/-- Two ranges (address, length) have no byte in common. -/
def clear (x y : Nat × Nat) : Prop := x.1 + x.2 ≤ y.1 ∨ y.1 + y.2 ≤ x.1

/-- Bytes cut into the ranges that take them in order: the address and the bytes of each. -/
def cutTo : List (Nat × Nat) → List Byte → List (Nat × List Byte)
  | [], _ => []
  | r :: t, bs => (r.1, bs.take r.2) :: cutTo t (bs.drop r.2)

/-- The bytes of codes of region elements from element `first` on, with the other element of a byte that they fill by half, as it
stands (R33). -/
def State.elemBytes (s : State) (e : RegionEntry) (slot first : Nat) (codes : List Nat) : List Byte :=
  let next := first + codes.length
  bytesOf e.width ((if e.midByte first then s.readElems e slot (first - 1) 1 else []) ++ codes ++
    if e.midByte next then s.readElems e slot next 1 else [])

/-- What a write leaves: bytes at addresses, or codes of mould elements (R33, R94, R246). -/
inductive Laid where
  /-- Bytes at addresses. -/
  | pieces (l : List (Nat × List Byte))
  /-- Codes of the elements of a mould from one on. -/
  | mould (e : RegionEntry) (slot first : Nat) (codes : List Nat)
  deriving DecidableEq, Repr

/-- Bytes of a slot of a region from byte `off` on. -/
def RegionEntry.lays (e : RegionEntry) (slot off : Nat) (bs : List Byte) : Laid :=
  .pieces (cutTo (e.ranges slot off bs.length) bs)

/-- The bytes of a record of a stack, in its pieces. -/
def laysRecord (at' : Nat × List (Nat × Nat)) (bs : List Byte) : Laid :=
  .pieces (cutTo (at'.2.map fun x => (stackAddr at'.1 x.1, x.2)) bs)

/-- Codes of region elements from element `first` on (R33, R94). -/
def State.laysElems (s : State) (e : RegionEntry) (slot first : Nat) (codes : List Nat) : Laid :=
  if codes.isEmpty then .pieces [] else e.lays slot (first * e.width / 8) (s.elemBytes e slot first codes)

/-- Codes of a stream operand from element `first` on (R33, R94, R246). -/
def State.laysStream (s : State) (e : RegionEntry) (slot first : Nat) (codes : List Nat) : Laid :=
  if e.mould then .mould e slot first codes else s.laysElems e slot first codes

/-- The ranges that it lies in. -/
def Laid.places : Laid → List (Nat × Nat)
  | .pieces l => l.map fun x => (x.1, x.2.length)
  | .mould e slot first codes => (List.range codes.length).map fun i => ((e.mouldPlace slot (first + i)).1, 1)

/-- No byte, or half of a byte, is laid twice. -/
def Laid.once : Laid → Prop
  | .pieces l => (l.map fun x => (x.1, x.2.length)).Pairwise clear
  | .mould e slot first codes =>
    ((List.range codes.length).map fun i => e.mouldPlace slot (first + i)).Pairwise (· ≠ ·)

/-- It stands in memory. -/
def State.holds (s : State) : Laid → Prop
  | .pieces l => ∀ x ∈ l, memRead s.mem x.1 x.2.length = x.2
  | .mould e slot first codes => ∀ i, i < codes.length →
    let (x, hi) := e.mouldPlace slot (first + i)
    (if hi then (memGet s.mem x).toNat / 16 else (memGet s.mem x).toNat % 16) = nth codes i 0 % 16

/-- The ranges of a list of writes. -/
def placesOf (l : List Laid) : List (Nat × Nat) := l.flatMap (·.places)

/-- A list of writes that do not meet one another, all of them where there is memory (R413). -/
structure State.Apart (s : State) (l : List Laid) : Prop where
  memory : s.inMemory (placesOf l)
  once : ∀ x ∈ l, x.once
  apart : l.Pairwise fun x y => ∀ p ∈ x.places, ∀ q ∈ y.places, clear p q

/-- The broken marks of slots have been set or stand, and no other part of a region entry has changed (R304, R309). -/
def State.OnlyMarks (s t : State) : Prop :=
  ∀ k, let e : RegionEntry := Tab.get {} s.regions k
    ∃ x y, (e.broken0 = true → x = true) ∧ (e.broken1 = true → y = true) ∧ Tab.get {} t.regions k = { e with broken0 := x, broken1 := y }

/-- What a reset may change while it goes on: accepted descriptors, jets, basins, the Sluice, self-tests, breakpoints, the
status of a HALT in progress, the reset registers, and the count of free values drawn, which tallies take that nothing specifies
any more (R269). No byte of memory, no region, ring, shard, group, program slot, census counter or log has changed. -/
def State.ResetOnly (s t : State) : Prop :=
  t = { s with
    jobs := t.jobs, jets := t.jets, basins := t.basins, sluice := t.sluice, tests := t.tests, resets := t.resets, free := t.free
    garhal := { s.garhal with breaks := t.garhal.breaks, resp := { s.garhal.resp with status := t.garhal.resp.status } }
    warden := { s.warden with activating := t.warden.activating } }

/-- What a reset changes that lets running rills issue their remaining words (R295, R360): what another reset may, and what those
words and their drains write and count, as it shows. No ring, group, program slot, log, key or boot register has changed. -/
def State.DrainOnly (s t : State) : Prop :=
  s.OnlyMarks t ∧
  (∀ n, t.shard n = { s.shard n with landing := (t.shard n).landing, straySeen := (t.shard n).straySeen }) ∧
  s.ResetOnly { t with
    mem := s.mem, regions := s.regions, shards := s.shards, reqs := s.reqs, census := s.census, free := s.free }

/-- Every accepted descriptor is still there, and of a part none but the tiles, words and row groups that it has done, what is
left of it, and its end have changed. -/
def State.KeepsJobs (s t : State) : Prop :=
  t.jobs.length = s.jobs.length ∧ ∀ (i : Nat) (j : Job), s.jobs[i]? = some j → ∃ u : Job, t.jobs[i]? = some u ∧
    u.ring = j.ring ∧ u.seq = j.seq ∧ u.desc = j.desc ∧ u.recorded = j.recorded ∧ u.pins = j.pins ∧
    u.parts.length = j.parts.length ∧ ∀ (k : Nat) (p : Part), j.parts[k]? = some p → ∃ q : Part, u.parts[k]? = some q ∧
      q.jet = p.jet ∧ q.tiles = p.tiles ∧ p.committed ≤ q.committed

/-- No rill or drain runs of the work in the scope of a reset, so that none issues words on its account (R295, R360). -/
def State.noRills (s : State) (level index : Nat) : Prop :=
  ∀ x ∈ s.scopeParts level index, (s.well x.2.jet).runs x.1.ring x.1.seq = false

/-- Every rill that runs on the jets of a scope is of an accepted descriptor that has no status, with a part on its jet. -/
def State.rillsOwned (s : State) (scope : Nat → Prop) : Prop :=
  ∀ k r, k < 24 → scope k → (s.well k).running = some r → ∃ j ∈ s.jobs, j.ring = r.ring ∧ j.seq = r.seq ∧ j.recorded = false ∧
    j.status = none ∧ ∃ p ∈ j.parts, p.jet = k

/-- Every accepted descriptor is still there; no tile of it has committed or been undone; and a part outside `scope` is as it
was. -/
def State.OnlyParts (s t : State) (scope : Job → Part → Prop) : Prop :=
  t.jobs.length = s.jobs.length ∧ ∀ (i : Nat) (j : Job), s.jobs[i]? = some j → ∃ u : Job, t.jobs[i]? = some u ∧
    u.ring = j.ring ∧ u.seq = j.seq ∧ u.desc = j.desc ∧ u.recorded = j.recorded ∧ u.pins = j.pins ∧
    u.parts.length = j.parts.length ∧ ∀ (k : Nat) (p : Part), j.parts[k]? = some p → ∃ q : Part, u.parts[k]? = some q ∧
      q.jet = p.jet ∧ q.tiles = p.tiles ∧ q.committed = p.committed ∧ (¬scope j p → (∀ i ∈ s.jobs, ∀ r ∈ i.parts,
        i.ring = j.ring → i.seq = j.seq → r.jet = p.jet → ¬scope i r) → q = p)

/-- What the block's own writes change beside memory, where they are watched: the Weirs reckon them, and slots are marked
broken, with records and with the end of the RILL and GEMV that read them (R201 to R212, R304, R309, R311). -/
structure State.Shown (s t : State) : Prop extends State.Records s t where
  rest : t = { s with
    mem := t.mem, jobs := t.jobs, regions := t.regions, shards := t.shards, jets := t.jets, basins := t.basins, sluice := t.sluice }
  jobs : s.OnlyParts t fun j _ => opOf j.desc = 9 ∨ opOf j.desc = 0x0A
  regions : s.OnlyMarks t
  shards : ∀ n, t.shard n = { s.shard n with landing := (t.shard n).landing, straySeen := (t.shard n).straySeen }
  jets : ∀ k, t.jet k = { s.jet k with ledger := (t.jet k).ledger, naps := (t.jet k).naps, well := (t.jet k).well }

/-- Bytes have been written in a list of ranges, and shown where they are watched; where they are not, nothing but the
bytes has changed. -/
structure State.Stores (s t : State) (ranges : List (Nat × Nat)) : Prop extends State.Shown s t where
  writes : s.WritesOnly t ranges
  unwatched : s.unwatched ranges → t = { s with mem := t.mem }

/-- The descriptor `j` has completed with the status, JET and DETAIL of `x` (R99, R123, R129, R134): its 16 bytes stand in its
completion slot, where the region and the memory are there, and nothing else is written; the pins it took are released, one each;
it is outstanding no more; a ring with HALT_ON_REFUSE halts on REFUSED_STATE, a draining one too; no other ring changes. -/
structure State.Completes (s t : State) (j : Job) (x : Status × Nat × Nat) : Prop where
  stores : ∃ u, (s.releasePins j.pins).Stores u [(s.recordAddr (s.ring j.ring) j.seq, 16)] ∧
    t = { u with jobs := t.jobs, rings := t.rings, reqs := t.reqs }
  reqs : ∀ r ∈ t.reqs, r ∈ s.reqs ∨ r.purpose = .record j.ring j.seq
  bytes : let c := s.ring j.ring
    let slot := (s.recordAddr c j.seq, 16)
    (s.region c.part c.cplRegion).kind = 10 → s.touches slot = false → memRead t.mem slot.1 16 =
      leBytes 1 x.1.code ++ leBytes 1 (if opOf j.desc < 0x14 then opOf j.desc else 0) ++
      leBytes 1 (b2n (!j.seq.getLsbD c.sizeExp) + 2 * b2n (cplFenceOf j.desc) +
        4 * b2n (c.haltOnRefuse && (c.enable || c.draining) && x.1 == .refusedState)) ++ leBytes 1 x.2.1 ++
      leBytes 4 j.seq.toNat ++ leBytes 4 (tagOf j.desc) ++ leBytes 4 x.2.2
  pinsOnly : s.releasePins j.pins = { s with shards := (s.releasePins j.pins).shards }
  pins : ∀ n, (s.releasePins j.pins).shard n = { s.shard n with
    pins0 := (s.shard n).pins0 - j.pins.countP (· == (n, 0))
    pins1 := (s.shard n).pins1 - j.pins.countP fun y => y.1 == n && y.2 != 0 }
  others : ∀ r, r ≠ j.ring → t.ring r = s.ring r
  halted : let c := s.ring j.ring
    (t.ring j.ring).halted = (c.halted || (c.haltOnRefuse && (c.enable || c.draining) && x.1 == .refusedState))
  done : ∀ y ∈ t.jobs, y.ring = j.ring → y.seq = j.seq → y.recorded = true

/-- The engine of logical jet `e` has entered a reset of a level and mode (R361, R363): it is not halted, its five stations
that have not FAILED report TESTING, and those that have stay FAILED. -/
structure State.EngineResets (s t : State) (e level : Nat) (absorb : Bool) : Prop where
  reset : ∃ r, (t.jet e).resetting = some r ∧ r.level = level ∧ r.absorb = absorb ∧ r.ended = false
  halt : (t.jet e).halted = false ∧ (t.jet e).halting = false
  testing : ∀ k, k < 5 → nth (s.jet e).codes k 0 ≠ 0 → nth (s.jet e).codes k 0 ≠ 3 → nth (t.jet e).codes k 0 = 1
  failed : ∀ k, k < 6 → nth (s.jet e).codes k 0 = 3 → nth (t.jet e).codes k 0 = 3

end Sys2Proof.Machine
end

