-- ==== Sys2Proof/Certificates/Slice0/Obligations.lean ====
section
/-! DEFINITION. The statements about the block for the provers. -/

open Sys2Proof Sys2Proof.Machine

/-! ## The block as a whole -/

/-- One step takes the command at the front of the queue and does what it means on the state with the rest of the queue.
With no command waiting one always-on cycle passes (the model's choice, log 4): nothing changes while the clocks are
stopped by a freeze or the block is held in reset; otherwise the CYCLE counters of R330 advance, but for those of the
jets that a halted engine serves (R401, R409), and a memory access of the debug port that waited for the indication of its bank is
done once that is high (R299, R408; log 4). -/
def Obligations.StepRunsFrontCommand : Prop :=
  (∀ (c : Instr) (rest : List Instr) (s : State), s.pending = c :: rest → step s = exec c { s with pending := rest }) ∧
  ∀ s : State, s.pending = [] → s.Inv → ∃ t, step s = .next t ∧
    (s.clocks.rst = true ∨ s.clocks.freeze = .frozen → t = s) ∧
    (s.clocks.rst = false → s.clocks.freeze ≠ .frozen →
      ∃ u : State, u = { s with aon := s.aon + 1, jets := u.jets, basins := u.basins } ∧
      (∀ b, b < 6 → u.basin b = { s.basin b with cycle := ((s.basin b).cycle + 30) % 2 ^ 48 }) ∧
      (∀ j, j < 24 → (s.jet (s.engine j)).halted = true → u.jet j = s.jet j) ∧
      (∀ j, j < 24 → (s.jet (s.engine j)).halted = false →
        u.jet j = { s.jet j with cycle := ((s.jet j).cycle + 30) % 2 ^ 48, well := (u.jet j).well }) ∧
      (s.garhal.waits = none → t = u) ∧
      ∀ write cmd, s.garhal.waits = some (write, cmd) →
        (s.clocks.freeze ≠ .off ∨ u.rangeHeld (cmdPlace cmd) 4 = true → t = u) ∧
        (s.clocks.freeze = .off → u.rangeHeld (cmdPlace cmd) 4 = false →
          t.garhal = { s.garhal with waits := none, resp := t.garhal.resp } ∧ t.garhal.resp.status = 0 ∧
          t.garhal.resp.op = (if write then 4 else 3) ∧
          (write = false → t = { u with free := t.free, garhal := t.garhal }) ∧
          (write = true → ∃ w, u.Stores w [(cmdPlace cmd, 4)] ∧ t = { w with garhal := t.garhal })))

/-- What reset leaves, where the manual gives the value: phase ROM and no reason, no ring enabled, every shard IDLE,
every jet in partition 0, refresh not owned, the resting registers of the boot, of the Sluice, of the clocks, of the
resets and of the debug port. The empty memory and the empty queue are the model's (logs 1 and 6). -/
def Obligations.ResetLeaves : Prop :=
  let s := State.reset
  s.boot.phase = .rom ∧ s.boot.reason = 0 ∧ s.boot.dir = 0 ∧ s.boot.retValid = false ∧
    (∀ r, s.ring r = { enable := false, halted := false, draining := false, tail := 0, next := 0, haltSeq := 0 }) ∧
    (∀ n, (s.shard n).state = 0 ∧ (s.shard n).pins0 = 0 ∧ (s.shard n).pins1 = 0) ∧
    (∀ p e, (s.region p e).kind = 0) ∧ (∀ n, (s.slot n).owner = none) ∧ (∀ p, s.quota p = 0x100) ∧
    (∀ j, (s.jet j).part = 0 ∧ (s.jet j).codes = [0, 0, 0, 0, 0, 0]) ∧ (∀ b, (s.basin b).rfhOwn = false) ∧
    s.sluice.log.enable = false ∧ s.sluice.log.trace = false ∧ s.sluice.alarms = [] ∧ s.sluice.drops = [0, 0, 0, 0] ∧
    s.clocks.sleepIdle = 0x1388 ∧ s.clocks.jetHold = 0 ∧ s.clocks.basinHold = 0 ∧ s.clocks.freeze = .off ∧
    s.resets.jetMode = false ∧ s.resets.basinMode = false ∧ s.resets.wholeMode = true ∧
    s.garhal.ir = 15 ∧ s.garhal.enabled = false ∧ s.garhal.memEnabled = false ∧ s.garhal.brkEnabled = false ∧
    s.warden.sessions = [] ∧ s.ranges = [] ∧ s.mem = [] ∧ s.pending = []

/-- The state after reset meets the invariant. -/
def Obligations.ResetMeetsInvariant : Prop :=
  State.reset.Inv

/-- Every step from every state that meets the invariant leaves a state that meets it: the memory and every table stay
in their canonical form, a basin's queue never holds more than 64 records (R328), and the alarm buffer never more than
511 beside its overflow record (R333). The canonical form of the tables is the model's own (log 8). -/
def Obligations.StepKeepsInvariant : Prop :=
  ∀ s t : State, s.Inv → step s = .next t → t.Inv

/-- Every row of the command table has a meaning: in every state, whatever its operands, a command answers a next state;
none is refused and none faults, and no command changes the queue of the commands that wait. An access to an address
that the memory map gives to no memory goes out and is answered (R413, R420). That a command whose event cannot happen
goes on, unchanged, is the model's choice (log 5), and so is what is read where there is no memory (log 106). -/
def Obligations.EveryCommandHasItsMeaning : Prop :=
  ∀ (c : Instr) (s : State), ∃ t, exec c s = .next t ∧ t.pending = s.pending

/-! ## Records (R326 to R333) -/

/-- Offering a record changes nothing but the Sluice and the queues of the basins; no trace record while TRACE_EN is 0
(R332); while the event log is disabled an error is dropped and counted, an alarm is kept, and neither it nor a trace
record is counted (R332; the trace record's count is the model's reading, log 99). No alarm is lost (R333): after it has
been offered, the buffer holds a record that it matches, or the overflow alarm, code 25h; every record that was unread
still is, with its first occurrence's fields; and no other class changes the buffer. -/
def Obligations.RecordsAndAlarms : Prop :=
  ∀ (s : State) (e : Event'), s.Inv →
    s.OnlyRecords (s.emit e) ∧
    (e.cls = 3 → s.sluice.log.trace = false → s.emit e = s) ∧
    (e.cls = 1 → s.sluice.log.enable = false →
      s.emit e = { s with sluice := { s.sluice with drops := modAt (satAdd 32 · 1) s.sluice.drops 1 } }) ∧
    (e.cls ≠ 1 → s.sluice.log.enable = false →
      s.emit e = { s with sluice := { s.sluice with alarms := (s.emit e).sluice.alarms } }) ∧
    (e.cls = 0 → ∃ r ∈ (s.emit e).sluice.alarms, alarmKey r = alarmKey (s.eventBytes e 0) ∨ fieldAt r 1 1 = 0x25) ∧
    (∀ r ∈ s.sluice.alarms, r ∈ (s.emit e).sluice.alarms ∨ bumpRepeat r ∈ (s.emit e).sluice.alarms) ∧
    (e.cls ≠ 0 → (s.emit e).sluice.alarms = s.sluice.alarms)

/-! ## Descriptors at acceptance (R120 to R134) -/

/-- A descriptor of the ring that a check of R133 fails completes with that status at once (R129, R131, R134): its 16
bytes stand in its completion slot, where the slot is memory, with JET FFh; a ring with HALT_ON_REFUSE 1 halts on
REFUSED_STATE, and what it held fetched is returned; no other byte of memory and no other part of the block changes, but
for what is shown of the record where it is watched. The checks come from the rules of each opcode. A reserved opcode is
no command of the ring (R124): its record is FORMAT with DETAIL 0 and OPCODE 00h. What a stopped Warden or pour logic
would take up waits (log 109), and a LAND whose Weir is under test (R109). Which byte DETAIL names where several checks of one step fail is the model's reading
(logs 16, 17, 21, 37 and 39). -/
def Obligations.RefusalWritesRecord : Prop :=
  (∀ (s : State) (ring : Nat) (h : Held) (v : Status × Nat), s.Inv → s.unitStopped = false →
    let c := s.ring ring
    let d := h.bytes
    ∀ x ∈ [(Instr.land ring, 1, s.landChecks c.part d), (.meter ring, 2, s.meterChecks c.part d),
      (.still ring, 3, s.stillChecks (s.stillView c.part d)), (.cast ring, 4, s.castChecks c.part d),
      (.vote ring, 5, s.voteChecks c.part d), (.pour ring, 6, s.pourChecks c.part d), (.rewind ring, 7, s.rewindChecks c.part d),
      (.crucible ring, 8, s.crucibleChecks c.part d), (.gemv ring, 9, s.gemvChecks c.part d), (.rill ring, 0x0A, s.rillChecks c.part d),
      (.copy ring, 0x0B, s.copyChecks c.part d), (.fill ring, 0x0C, s.fillChecks c.part d), (.sched ring, 0x0D, s.schedChecks c.part d),
      (.fence ring, 0x0E, s.fenceChecks c.part d), (.census ring, 0x0F, s.censusChecks c.part d),
      (.fwchunk ring, 0x10, s.chunkChecks c.part d), (.fwactivate ring, 0x11, s.activateChecks c.part d),
      (.attest ring, 0x12, s.attestChecks c.part d), (.exportStream ring, 0x13, s.exportChecks c.part d)],
      s.front ring (· == x.2.1) = some h → (x.2.1 = 1 → s.weirsFree (shardOf d) = true) → x.2.2 = some v →
        let halts := c.haltOnRefuse && v.1 == .refusedState
        let there := (s.region c.part c.cplRegion).kind == 10
        let slot := (s.recordAddr c h.seq, 16)
        ∃ t, exec x.1 s = .next t ∧ s.Stores { t with rings := s.rings, reqs := s.reqs } (if there then [slot] else []) ∧
          (∀ r ∈ t.reqs, r ∈ s.reqs ∨ r.purpose = .record ring h.seq) ∧
          (there = true → s.touches slot = false → memRead t.mem slot.1 16 =
            leBytes 1 v.1.code ++ leBytes 1 x.2.1 ++
            leBytes 1 (b2n (!h.seq.getLsbD c.sizeExp) + 2 * b2n (cplFenceOf d) + 4 * b2n halts) ++ leBytes 1 0xFF ++
            leBytes 4 h.seq.toNat ++ leBytes 4 (tagOf d) ++ leBytes 4 v.2) ∧
          Tab.Only {} s.rings t.rings ring (if halts then
              { c with halted := true, haltSeq := h.seq, held := [], next := (c.held.tail.head?.map (·.seq)).getD c.next }
            else { c with held := c.held.tail })) ∧
  ∀ (s : State) (ring : Nat) (h : Held), s.Inv → s.front ring (fun op => op == 0 || 0x14 ≤ op) = some h →
    (s.region (s.ring ring).part (s.ring ring).cplRegion).kind = 10 →
    let c := s.ring ring
    let slot := (s.recordAddr c h.seq, 16)
    ∃ t, exec (.reservedOpcode ring) s = .next t ∧ s.Stores { t with rings := s.rings, reqs := s.reqs } [slot] ∧
      (∀ r ∈ t.reqs, r ∈ s.reqs ∨ r.purpose = .record ring h.seq) ∧
      Tab.Only {} s.rings t.rings ring { c with held := c.held.tail } ∧
      (s.touches slot = false → memRead t.mem slot.1 16 =
        leBytes 1 4 ++ leBytes 1 0 ++ leBytes 1 (b2n (!h.seq.getLsbD c.sizeExp) + 2 * b2n (cplFenceOf h.bytes)) ++
        leBytes 1 0xFF ++ leBytes 4 h.seq.toNat ++ leBytes 4 (tagOf h.bytes) ++ leBytes 4 0)

/-- LAND (R209, R204, R225, R228): the ledger entries of the shard are allocated anew on every jet of its landing
regions, within the 262144 of a jet, and those it had are released; the landing census, the figures and every mark of
the attempt are cleared, but that the epoch's one record of a stray write stands (R202); the shard is LANDING, with the
epoch and attempt of R225; its sleeping landing jets begin to wake (R398); no byte of memory changes. It waits while a Weir of
them is under test (R109). -/
def Obligations.LandOpensTheAttempt : Prop :=
  ∀ (s : State) (ring : Nat) (h : Held), s.Inv → s.front ring (· == 1) = some h → s.unitStopped = false →
    s.weirsFree (shardOf h.bytes) = true → s.landChecks (s.ring ring).part h.bytes = none →
    let n := shardOf h.bytes
    let x := s.shard n
    let epoch : Word := BitVec.ofNat 32 (fieldAt h.bytes 8 4)
    let attempt := if epoch = x.openEpoch then x.attempt + 1 else 0
    ∃ t, exec (.land ring) s = .next t ∧ s.Accepts t ring h { newJob s ring h with wait := .ready } ∧ s.RecordsAndWakes t ∧
      t = { s with jobs := t.jobs, rings := t.rings, shards := t.shards, jets := t.jets, basins := t.basins, sluice := t.sluice } ∧
      Tab.Only {} s.shards t.shards n { x with
        state := 1, curEpoch := if x.state = 0 then epoch - 1 else x.curEpoch, otherLabel := none, openEpoch := epoch
        attempt := attempt, ended := x.ended.filter (· != (epoch.toNat, attempt)), verdictHeld := false, restillDue := false
        firstPass := false, stillDone := false, torn := [], tornOverflow := false, specMax := none, heldAs := none, vote := []
        voteLanding := [], figures := {}, landing := [], straySeen := x.straySeen && x.openEpoch == epoch, restillBegun := false, kept := [] } ∧
      ∀ k, t.jet k = { s.jet k with
          alloc := (s.jet k).alloc.filter (·.1 != n) ++ if k ∈ s.landingJets n then s.landNeeds n k else []
          ledger := (s.jet k).ledger.filter fun b => !(((s.jet k).alloc.filter (·.1 == n)).map (·.2.1)).contains (b.1 / 2 ^ 26)
          naps := Tab.set 0 (s.jet k).naps n 0, waking := (t.jet k).waking } ∧
        (k ∈ s.landingJets n → s.present k = true → (s.jet (s.engine k)).awake = false → (t.jet (s.engine k)).waking = true) ∧
        (k ∈ s.landingJets n → (((t.jet k).alloc.map (·.2.2)).sum ≤ 262144))

/-- METER (R210, R417) and FENCE (R126) are taken up and wait: METER for the flush of every jet on which a landing
region of the shard lies, FENCE for the ring that it names, or for nothing. -/
def Obligations.MeterAndFenceWait : Prop :=
  ∀ (s : State) (ring : Nat) (h : Held), s.Inv →
    let part := (s.ring ring).part
    let n := shardOf h.bytes
    (s.front ring (· == 2) = some h → s.shardChecks part h.bytes = none → (s.shard n).state = 1 →
      (∀ j ∈ s.landingJets n, s.code j 0 = 2) → s.pourReady = 2 →
      ∃ t, exec (.meter ring) s = .next t ∧
        s.AcceptsOnly t ring h { newJob s ring h with wait := .meter, flush := s.landingJets n }) ∧
    (s.front ring (· == 0x0E) = some h → s.fenceChecks part h.bytes = none →
      let other := fieldAt h.bytes 8 2
      ∃ t, exec (.fence ring) s = .next t ∧ s.AcceptsOnly t ring h { newJob s ring h with
        wait := if 2 ^ 15 ≤ other then .ring (other % 4096) (BitVec.ofNat 32 (fieldAt h.bytes 12 4)) else .ready })

/-- VOTE (R231, R234): in METERED and STILLED the record of the shard's figures is built under the session in force and
given to the collective port, and the shard is VOTED; in VOTED, waiting, the identical record goes out again. Its fields
(R231, R232, R234) lie at their places, DIGEST is over the landing census, and the MAC is of its first 48 bytes. -/
def Obligations.VoteSendsTheRecord : Prop :=
  (∀ (s : State) (ring : Nat) (h : Held) (k : Session), s.Inv → s.front ring (· == 5) = some h →
    s.voteChecks (s.ring ring).part h.bytes = none → s.session = some k →
    let n := shardOf h.bytes
    let x := s.shard n
    let v := if x.state = 4 then x.vote else voteRecord n x k
    ∃ t, exec (.vote ring) s = .next t ∧ s.Accepts t ring h { newJob s ring h with wait := .vote } ∧ s.Records t ∧
      t = { s with jobs := t.jobs, rings := t.rings, shards := t.shards, basins := t.basins, sluice := t.sluice, port := t.port } ∧
      t.port = { s.port with votes := s.port.votes ++ [(ring, h.seq, v)] } ∧
      Tab.Only {} s.shards t.shards n
        { x with state := 4, vote := v, voteLanding := if x.state = 4 then x.voteLanding else x.landing }) ∧
  ∀ (n : Nat) (x : Shard) (k : Session), n < 64 → x.attempt < 2 ^ 16 → k.number < 2 ^ 16 → k.chip < 2 ^ 32 →
    let v := voteRecord n x k
    v.length = 64 ∧ fieldAt v 0 1 = 1 ∧ fieldAt v 1 1 = 1 ∧ fieldAt v 2 1 = n ∧ fieldAt v 3 1 = b2n x.figures.empty ∧
      fieldAt v 4 4 = x.openEpoch.toNat ∧ fieldAt v 8 4 = (x.stepNo + 1).toNat ∧ fieldAt v 12 2 = x.attempt ∧
      fieldAt v 14 2 = k.number ∧ fieldAt v 16 4 = x.figures.sumsq.toNat ∧ fieldAt v 20 4 = x.figures.nonfin.toNat ∧
      fieldAt v 24 4 = k.chip ∧ fieldAt v 28 4 = 0 ∧ sliceAt v 32 16 = digestOf x.landing ∧
      sliceAt v 48 16 = (hmac k.key (v.take 48)).take 16

/-- REWIND (R242): the epochs, the step and LAST_G go back to those of the slot that becomes current, and REWINDABLE is
clear; no byte of memory, no other shard and no other part changes. -/
def Obligations.RewindFlipsBack : Prop :=
  ∀ (s : State) (ring : Nat) (h : Held), s.Inv → s.front ring (· == 7) = some h → s.unitStopped = false →
    s.rewindChecks (s.ring ring).part h.bytes = none →
    let n := shardOf h.bytes
    let x := s.shard n
    ∃ t, exec (.rewind ring) s = .next t ∧
      s.Accepts t ring h { newJob s ring h with wait := .ready, status := some (.ok, 0xFF, x.prevEpoch.toNat) } ∧
      t = { s with jobs := t.jobs, rings := t.rings, shards := t.shards } ∧
      Tab.Only {} s.shards t.shards n { x with
        curSlot := 1 - x.curSlot, curEpoch := x.prevEpoch, stepNo := x.prevStep, lastG := x.priorG, lastGValid := x.priorGValid
        priorG := 0, priorGValid := false, rewindable := false, otherLabel := some x.curEpoch }

/-- A POUR of a held COMMIT (R237, R238, R215, R189, R204): the flip of every field of R238 at once, REWINDABLE set and
the old bases kept; the ledger of the shard is released; the attempt keeps no ATTEMPT set; and the only bytes of memory
written are the prefix entries of the step on each channel of the CATCHUP groups that took part, and of the step before
it where a group's tables begin afresh. Where a Weir sees none of them, nothing but this changes. -/
def Obligations.PourCommitFlips : Prop :=
  ∀ (s : State) (ring : Nat) (h : Held), s.Inv → s.front ring (· == 6) = some h → s.unitStopped = false →
    s.pourChecks (s.ring ring).part h.bytes = none → bit (fieldAt h.bytes 12 1) 0 = false →
    let n := shardOf h.bytes
    let x := s.shard n
    x.verdict = 0 →
    let entries := (x.kept.filter fun k => s.prefixFits (s.group k.group)).flatMap fun k =>
      let g := s.group k.group
      g.channels.flatMap fun c => ((if g.oldest.isNone then [(x.stepNo + 1).toNat - 1] else []) ++ [(x.stepNo + 1).toNat]).flatMap fun q =>
        (s.tableOf g).ranges 0 (g.prefixByte c.1 q) 8
    let released (k : Nat) : Tab Block :=
      (s.jet k).ledger.filter fun b => !(((s.jet k).alloc.filter (·.1 == n)).map (·.2.1)).contains (b.1 / 2 ^ 26)
    ∃ t, exec (.pour ring) s = .next t ∧ s.Records t ∧ s.WritesOnly t entries ∧
      (s.unwatched entries → s.Accepts t ring h { newJob s ring h with wait := .pour, status := some (.ok, 0xFF, x.openEpoch.toNat) }) ∧
      t = { s with
        jobs := t.jobs, rings := t.rings, shards := t.shards, jets := t.jets, basins := t.basins, sluice := t.sluice
        mem := t.mem, groups := t.groups, reqs := t.reqs, regions := t.regions, census := t.census, censusLogs := t.censusLogs
        free := t.free, warden := { s.warden with sessions := t.warden.sessions } } ∧
      (∀ m, t.shard m = { (if m = n then { x with
        state := 6, prevEpoch := x.curEpoch, curEpoch := x.openEpoch, curSlot := 1 - x.curSlot, prevStep := x.stepNo
        stepNo := x.stepNo + 1, priorG := x.lastG, priorGValid := x.lastGValid, lastG := x.heldG, lastGValid := true
        rewindable := true, pouredOnce := true, lastOutcome := 1, otherLabel := some x.curEpoch
        ended := x.ended ++ [(x.openEpoch.toNat, x.attempt)], vote := [] } else s.shard m : Shard) with
        landing := (t.shard m).landing, straySeen := (t.shard m).straySeen }) ∧
      (∀ j g, g < 4096 → t.attemptSet j n g = none) ∧ s.OnlyMarks t ∧
      (∀ k, t.jet k = { s.jet k with
        alloc := (s.jet k).alloc.filter (·.1 != n), ledger := (t.jet k).ledger, naps := (t.jet k).naps, well := (t.jet k).well }) ∧
      (s.unwatched entries → t.regions = s.regions ∧ (∀ k, (t.jet k).ledger = released k ∧ (t.jet k).naps = (s.jet k).naps ∧ t.well k = s.well k) ∧
        ∀ m, (t.shard m).landing = (s.shard m).landing ∧ (t.shard m).straySeen = (s.shard m).straySeen)

/-- A POUR that ends the attempt without a flip, by ACTION 1 or by a held SKIP or ABORT (R237, R223, R204): the epochs,
the slot, the step and both clip bases stand; the shard rests in POURED if it has poured before and in IDLE if not; the
outcome is kept; no byte of memory and no prefix entry is written. -/
def Obligations.PourEndsTheAttempt : Prop :=
  ∀ (s : State) (ring : Nat) (h : Held), s.Inv → s.front ring (· == 6) = some h → s.unitStopped = false →
    s.pourChecks (s.ring ring).part h.bytes = none →
    let n := shardOf h.bytes
    let x := s.shard n
    let abort := bit (fieldAt h.bytes 12 1) 0
    let skip := !abort && x.verdict == 1
    (abort = true ∨ x.verdict = 1 ∨ x.verdict = 2) →
    ∃ t, exec (.pour ring) s = .next t ∧ s.Records t ∧
      s.Accepts t ring h { newJob s ring h with
        wait := .pour
        status := some (if skip then (.skipped, 0xFF, x.openEpoch.toNat) else (.ok, 0xFF, x.curEpoch.toNat)) } ∧
      t = { s with
        jobs := t.jobs, rings := t.rings, shards := t.shards, jets := t.jets, basins := t.basins, sluice := t.sluice
        census := t.census, censusLogs := t.censusLogs, warden := { s.warden with sessions := t.warden.sessions } } ∧
      Tab.Only {} s.shards t.shards n { x with
        state := if x.pouredOnce then 6 else 0, lastOutcome := if skip then 2 else 3, tornOverflow := false, vote := []
        ended := x.ended ++ [(x.openEpoch.toNat, x.attempt)], owner := (t.shard n).owner } ∧
      (x.pouredOnce = true → (t.shard n).owner = x.owner) ∧ (∀ j g, g < 4096 → t.attemptSet j n g = none) ∧
      ∀ k, t.jet k = { s.jet k with
        alloc := (s.jet k).alloc.filter (·.1 != n)
        ledger := (s.jet k).ledger.filter fun b => !(((s.jet k).alloc.filter (·.1 == n)).map (·.2.1)).contains (b.1 / 2 ^ 26) }

/-! ## Data opcodes at acceptance -/

/-- STILL (R213, R216 to R219, R228): accepted over a range that is not empty, it has a part on each share of IN0 that
holds an element of the range; FIRST_PASS is set by a first pass; the clip factor is 1.0 without a basis, and else
formed from LAST_G under LAGGED and from the held G under EXACT and in a re-still; no byte of memory changes. -/
def Obligations.StillAccepted : Prop :=
  ∀ (s : State) (ring : Nat) (h : Held) (mode : StillMode), s.Inv → s.front ring (· == 3) = some h →
    let v := s.stillView (s.ring ring).part h.bytes
    let n := shardOf h.bytes
    let x := s.shard n
    let cmax := nth (s.constants v.g v.n) v.g.clipK 0
    let basis := if mode = .firstPass then (if clipOf h.bytes = 1 ∧ x.lastGValid then some x.lastG.toNat else none)
      else some x.heldG.toNat;
    s.stillChecks v = none → x.stillMode (clipOf h.bytes) = some mode → v.count ≠ 0 →
    ∃ t j, exec (.still ring) s = .next t ∧ s.Accepts t ring h j ∧
      j.wait = .parts ∧ j.parts = partsOf v.in0 v.first v.count ∧ j.pins = s.pinsFor (s.stillReads v) ∧ j.step = v.n ∧
      j.clip = (if v.g.clipEn then some (clipFactor cmax basis) else none) ∧ j.restill = (mode == .restill) ∧
      t = { s with
        jobs := t.jobs, rings := t.rings, shards := t.shards, jets := t.jets, basins := t.basins, sluice := t.sluice
        census := t.census, free := t.free } ∧
      t.sluice = { s.sluice with
        log := { s.sluice.log with next := t.sluice.log.next }, drops := t.sluice.drops, alarms := t.sluice.alarms } ∧
      (∀ k, t.jet k = { s.jet k with waking := (t.jet k).waking }) ∧
      (∀ b, t.basin b = { s.basin b with waking := (t.basin b).waking, queue := (t.basin b).queue, episode := (t.basin b).episode }) ∧
      (t.shard n).firstPass = (x.firstPass || mode == .firstPass) ∧
      ∀ m, t.shard m = { s.shard m with
        pins0 := (t.shard m).pins0, pins1 := (t.shard m).pins1, firstPass := (t.shard m).firstPass
        restillBegun := (t.shard m).restillBegun, specMax := (t.shard m).specMax, kept := (t.shard m).kept } ∧
        (m ≠ n → (t.shard m).firstPass = (s.shard m).firstPass ∧ (t.shard m).restillBegun = (s.shard m).restillBegun ∧
          (t.shard m).specMax = (s.shard m).specMax ∧ (t.shard m).kept = (s.shard m).kept)

/-- CAST (R245, R228, R316): accepted over a range that is not empty, it has a part on each share of its source that
holds an element of the range and takes the pins of its source; one with a slotted output sets FIRST_PASS, but not in
VOTED; no byte of memory changes. -/
def Obligations.CastAccepted : Prop :=
  ∀ (s : State) (ring : Nat) (h : Held), s.Inv → s.front ring (· == 4) = some h →
    let d := h.bytes
    let part := (s.ring ring).part
    let src := s.operand part d 24
    let n := shardOf d
    s.castChecks part d = none → countElem d src ≠ 0 →
    ∃ t j, exec (.cast ring) s = .next t ∧ s.Accepts t ring h j ∧ j.wait = .parts ∧
      j.parts = partsOf src (firstElem d src) (countElem d src) ∧ j.pins = s.pinsFor [src] ∧
      t = { s with jobs := t.jobs, rings := t.rings, shards := t.shards, jets := t.jets, basins := t.basins
                   census := t.census, free := t.free } ∧
      (s.shardOrdered part d = false → t.census = s.census) ∧
      (∀ k, t.jet k = { s.jet k with waking := (t.jet k).waking }) ∧
      (∀ b, t.basin b = { s.basin b with waking := (t.basin b).waking }) ∧
      ∀ m, t.shard m = { s.shard m with
        pins0 := (t.shard m).pins0, pins1 := (t.shard m).pins1
        firstPass := (s.shard m).firstPass || (m == n && s.shardOrdered part d && (s.shard n).state != 5) }

/-- COPY, FILL and CRUCIBLE (R125, R98, R99, R132, R198): accepted over a range that is not empty, each is queued with
its parts, with the pins of what it reads, and with nothing else changed but what
wakes for it: no byte of memory, no shard but for its pins. -/
def Obligations.MovesAccepted : Prop :=
  ∀ (s : State) (ring : Nat) (h : Held), s.Inv →
    let d := h.bytes
    let part := (s.ring ring).part
    let a := s.operand part d 24
    let b := s.operand part d 25
    let c := s.operand part d 26
    let len := lengthOf d a.size
    (s.front ring (· == 0x0B) = some h → s.copyChecks part d = none → len ≠ 0 →
      ∃ t j, exec (.copy ring) s = .next t ∧ s.AcceptsOnly t ring h j ∧ j.wait = .parts ∧ j.pins = s.pinsFor [a] ∧
        j.offset = offsetOf d ∧ j.length = len ∧
        j.parts = movePart a (some b) (firstElem d a) (countElem d a) (fieldAt d 32 5) (copyWidth a b)) ∧
    (s.front ring (· == 0x0C) = some h → s.fillChecks part d = none → len ≠ 0 →
      ∃ t j, exec (.fill ring) s = .next t ∧ s.AcceptsOnly t ring h j ∧ j.wait = .parts ∧ j.pins = [] ∧
        j.offset = offsetOf d ∧ j.length = len ∧ j.parts = movePart a none (firstElem d a) (countElem d a) 0 8) ∧
    (s.front ring (· == 8) = some h → s.crucibleChecks part d = none → crucibleM d * crucibleN d ≠ 0 →
      ∃ t j, exec (.crucible ring) s = .next t ∧ s.AcceptsOnly t ring h j ∧ j.wait = .parts ∧ j.pins = s.pinsFor [a, b] ∧
        j.parts = partsOf c 0 (crucibleM d * crucibleN d))

/-- EXPORT (R392): the 128 bytes of the header are written at DST_OFFSET, with the kind, the key and its salt (where
ENCRYPT is 1) and the stream number in force, and EXPORT_SEQ of the partition advances by one, so that no stream number is used twice; nothing else changes,
but for what is shown of the bytes where they are watched. It waits while the Warden has stopped (log 109). The
signature rests on the free draws of log 12. -/
def Obligations.ExportAccepted : Prop :=
  ∀ (s : State) (ring : Nat) (h : Held), s.Inv → s.front ring (· == 0x13) = some h → s.wardenCopies.stopped = false →
    let d := h.bytes
    let part := (s.ring ring).part
    let src := s.operand part d 24
    let dst := s.operand part d 25
    let key : ExportKey := Tab.get {} s.warden.exports part
    let header := s.exportHeader part d
    s.exportChecks part d = none → lengthOf d src.size ≠ 0 → part < 8 → key.seq < 2 ^ 64 →
    header.length = 128 ∧ fieldAt header 0 1 = 0x60 ∧ fieldAt header 3 1 = part ∧ fieldAt header 48 8 = key.seq ∧
    fieldAt header 60 8 = key.seq ∧ fieldAt header 2 1 = b2n (exportEncrypts d) ∧ sliceAt header 80 16 = padTo 16 s.warden.idDigest ∧
    (exportEncrypts d = true → fieldAt header 18 2 = key.keyId % 2 ^ 16 ∧ sliceAt header 96 32 = padTo 32 key.salt) ∧
    (exportEncrypts d = false → fieldAt header 18 2 = 0 ∧ sliceAt header 96 32 = List.replicate 32 0#8) ∧
    ∃ t u j, exec (.exportStream ring) s = .next t ∧ s.Stores u (dst.ranges 0 (exportTo d) 128) ∧
      ({ u with warden := t.warden } : State).AcceptsOnly t ring h j ∧ j.wait = .parts ∧ j.pins = s.pinsFor [src] ∧
      (dst.loc = 1 → s.touches (dst.base + exportTo d, 128) = false → memRead t.mem (dst.base + exportTo d) 128 = header) ∧
      t.warden = { s.warden with exports := t.warden.exports } ∧
      Tab.Only {} s.warden.exports t.warden.exports part { key with seq := key.seq + 1 }

/-- RILL and GEMV (R274 to R276, R281 to R286): accepted, the words of a RILL join the queue of its jet as one rill, and
the rills of a GEMV that of each jet with a row group, behind those that wait there; the reads of the words and of the
activations are to be answered (R414, R420); no byte of memory changes. -/
def Obligations.RillAndGemvQueued : Prop :=
  ∀ (s : State) (ring : Nat) (h : Held), s.Inv →
    let d := h.bytes
    let part := (s.ring ring).part
    let rest (t : State) : Prop :=
      t = { s with jobs := t.jobs, rings := t.rings, shards := t.shards, jets := t.jets, basins := t.basins, reqs := t.reqs, free := t.free } ∧
      (∀ r ∈ t.reqs, r ∈ s.reqs ∨ r.purpose = .operand ring h.seq) ∧
      (∀ m, t.shard m = { s.shard m with pins0 := (t.shard m).pins0, pins1 := (t.shard m).pins1 }) ∧
      (∀ b, t.basin b = { s.basin b with waking := (t.basin b).waking }) ∧
      ∀ k, t.jet k = { s.jet k with waking := (t.jet k).waking, well := { (s.jet k).well with rills := (t.well k).rills } }
    (let cmd := s.operand part d 24;
      s.front ring (· == 0x0A) = some h → s.rillChecks part d = none → lengthOf d cmd.size ≠ 0 →
      ∃ t j, exec (.rill ring) s = .next t ∧ s.Accepts t ring h j ∧ j.wait = .parts ∧ rest t ∧
        j.parts = [{ jet := rillJet d, tiles := ((s.rillWords part d).filter timedWord).length }] ∧
        ∀ k, (t.well k).rills = (s.well k).rills ++
          if k = rillJet d then [{ ring := ring, seq := h.seq, ops := (s.rillWords part d).map .word }] else []) ∧
    (let p := s.operand part d 24;
      s.front ring (· == 9) = some h → s.gemvChecks part d = none →
      ∃ t j, exec (.gemv ring) s = .next t ∧ s.Accepts t ring h j ∧ j.wait = .parts ∧ rest t ∧
        j.parts = (gemvShares p (gemvRows d * gemvCols d)).map (fun q =>
          let count := min ((q.1 + 1) * p.castShare) (gemvRows d * gemvCols d) - q.1 * p.castShare
          { jet := q.2, first := q.1 * p.castShare, count := count, tiles := rowGroups count * gemvBatch d }) ∧
        ∀ k, (s.well k).rills.isPrefixOf (t.well k).rills = true ∧
          ((∀ q ∈ j.parts, q.jet ≠ k) → (t.well k).rills = (s.well k).rills) ∧
          ((∃ q ∈ j.parts, q.jet = k) → (s.well k).rills.length < (t.well k).rills.length))

/-- CENSUS and ATTEST (R323, R391): the total records, 1024 bytes each, or the 512 bytes of the signed measurement are
written at DST_OFFSET of DST, and no other byte; one unacknowledged write of the descriptor is left; ATTEST counts one
more measurement, and waits while the Warden has stopped (log 109). Where the bytes are watched, that is shown. The
signature of ATTEST rests on the free draws of log 12, and its digest on log 50. -/
def Obligations.CensusAndAttestWrite : Prop :=
  ∀ (s : State) (ring : Nat) (h : Held), s.Inv →
    let d := h.bytes
    let part := (s.ring ring).part
    let dst := s.operand part d 24
    let written (t : State) (bs : List Byte) : Prop :=
      (dst.loc = 1 → s.touches (dst.base + fieldAt d 16 5, bs.length) = false →
        memRead t.mem (dst.base + fieldAt d 16 5) bs.length = bs) ∧
      ∃ u r, s.Stores u (dst.ranges 0 (fieldAt d 16 5) bs.length) ∧
        u.Accepts t ring h { newJob s ring h with ents := [(24, dst)], wait := .ready, status := some (.ok, 0xFF, 0) } ∧
        t = { u with jobs := t.jobs, rings := t.rings, reqs := s.reqs ++ [r], warden := t.warden } ∧ r.purpose = .store ring h.seq
    (let bs := (s.censusGroups part d).flatMap s.totalRecord;
      s.front ring (· == 0x0F) = some h → s.censusChecks part d = none → s.censusGroups part d ≠ [] →
      bs.length = 1024 * (s.censusGroups part d).length ∧
        ∃ t, exec (.census ring) s = .next t ∧ written t bs ∧ t.warden = s.warden) ∧
    (let bs := s.signedMeasurement part d;
      s.front ring (· == 0x12) = some h → s.wardenCopies.stopped = false → s.attestChecks part d = none →
      bs.length = 512 ∧ sliceAt bs 32 32 = sliceAt d 32 32 ∧ fieldAt bs 24 8 = (s.warden.measurements + 1) % 2 ^ 64 ∧
        ∃ t, exec (.attest ring) s = .next t ∧ written t bs ∧
          t.warden = { s.warden with measurements := s.warden.measurements + 1, draws := s.warden.draws + 1 })

/-- SCHED (R174, R175, R189): the group is the ring's partition's, with the header and the points of the table as they
were read; OLDEST is emptied where CATCHUP is newly chosen or a channel changes, and else stands; the read of the
table is to be answered (R414, R420); no byte of memory and no other group changes. -/
def Obligations.SchedSetsTheGroup : Prop :=
  ∀ (s : State) (ring : Nat) (h : Held), s.Inv → s.front ring (· == 0x0D) = some h →
    let d := h.bytes
    let part := (s.ring ring).part
    let e := s.operand part d 10
    let old := s.group (fieldAt d 8 2)
    let header := s.readRegion e 0 (fieldAt d 16 5) 128
    s.schedChecks part d = none →
    ∃ t, exec (.sched ring) s = .next t ∧ s.Accepts t ring h { newJob s ring h with wait := .ready, ents := [(10, e)], before := some old } ∧
      t = { s with jobs := t.jobs, rings := t.rings, groups := t.groups, reqs := t.reqs, free := t.free } ∧
      (∀ r ∈ t.reqs, r ∈ s.reqs ∨ r.purpose = .operand ring h.seq) ∧
      Tab.Only {} s.groups t.groups (fieldAt d 8 2) {
        owner := some part, header := header, table := fieldAt d 10 1, tableOffset := fieldAt d 16 5, points := fieldAt d 12 2
        seed := fieldAt d 24 8
        oldest := if (bits (fieldAt header 2 1) 0 2 = 2 ∧ old.policy ≠ 2) ∨ fieldAt old.header 72 8 ≠ fieldAt header 72 8 then none
          else old.oldest }

/-- A data opcode over an empty range completes EMPTY at once, with DETAIL 0, no part and no byte of its outputs written
(R128, R132): only its completion record is, where its slot is memory. -/
def Obligations.EmptyRangeCompletesEmpty : Prop :=
  ∀ (s : State) (ring : Nat) (h : Held), s.Inv →
    let c := s.ring ring
    let d := h.bytes
    let a := s.operand c.part d 24
    let len := lengthOf d a.size
    let v := s.stillView c.part d
    let slot := (s.recordAddr c h.seq, 16)
    let empty (i : Instr) : Prop :=
      ∃ t, exec i s = .next t ∧ s.Stores { t with rings := s.rings, reqs := s.reqs } [slot] ∧
        (∀ r ∈ t.reqs, r ∈ s.reqs ∨ r.purpose = .record ring h.seq) ∧ Tab.Only {} s.rings t.rings ring { c with held := c.held.tail } ∧
        ((s.region c.part c.cplRegion).kind = 10 → s.touches slot = false → memRead t.mem slot.1 16 =
          leBytes 1 11 ++ leBytes 1 (opOf d) ++ leBytes 1 (b2n (!h.seq.getLsbD c.sizeExp) + 2 * b2n (cplFenceOf d)) ++
          leBytes 1 0xFF ++ leBytes 4 h.seq.toNat ++ leBytes 4 (tagOf d) ++ leBytes 4 0)
    (s.front ring (· == 3) = some h → s.stillChecks v = none →
      ((s.shard (shardOf d)).stillMode (clipOf d)).isSome → v.count = 0 → empty (.still ring)) ∧
    (s.front ring (· == 4) = some h → s.castChecks c.part d = none → countElem d a = 0 → empty (.cast ring)) ∧
    (s.front ring (· == 0x0A) = some h → s.rillChecks c.part d = none → len = 0 → empty (.rill ring)) ∧
    (s.front ring (· == 0x0B) = some h → s.copyChecks c.part d = none → len = 0 → empty (.copy ring)) ∧
    (s.front ring (· == 0x0C) = some h → s.fillChecks c.part d = none → len = 0 → empty (.fill ring)) ∧
    (s.front ring (· == 8) = some h → s.crucibleChecks c.part d = none → crucibleM d * crucibleN d = 0 → empty (.crucible ring)) ∧
    (s.front ring (· == 0x0F) = some h → s.censusChecks c.part d = none → s.censusGroups c.part d = [] → empty (.census ring)) ∧
    (s.front ring (· == 0x13) = some h → s.wardenCopies.stopped = false → s.exportChecks c.part d = none → len = 0 →
      empty (.exportStream ring))

/-- FWCHUNK (R382 to R384): a manifest chunk that verifies is staged, an image chunk that matches its table entry is
stored by every core that can store it; a chunk that does not verify stages nothing, keeps what was staged, and
completes DENIED with its record; no byte of memory but a completion record is written. FWACTIVATE (R385): with the
whole of VERSION staged on every core, the activation begins, and new descriptors wait until it ends; without it, the
descriptor is REFUSED_STATE with cause Ah and the running firmware stands. Both wait while the Warden has stopped. Which
cores store a chunk, and what is checked without a staged manifest, are the model's readings (logs 80, 81, 82, 109 and
122). -/
def Obligations.FirmwareIsStagedAndActivated : Prop :=
  (∀ (s : State) (ring : Nat) (h : Held), s.Inv → s.front ring (· == 0x10) = some h → s.wardenCopies.stopped = false →
    let d := h.bytes
    let part := (s.ring ring).part
    let src := s.operand part d 24
    let c := fwChunk d
    let bs := s.readRegion src 0 (fwOffset d) 4096
    let good := if ofManifest c then s.warden.verifies (fwVersion d) (c - 0x80000000) bs else chunkOk (tableOfChunks s.warden.manifest) bs c
    s.chunkChecks part d = none →
    (good = true → ∃ t, exec (.fwchunk ring) s = .next t ∧ s.Records t ∧
      t = { s with
        jobs := t.jobs, rings := t.rings, basins := t.basins, sluice := t.sluice, reqs := t.reqs, free := t.free, warden := { s.warden with
          fwStage := t.warden.fwStage, manifest := t.warden.manifest, manifestOk := t.warden.manifestOk
          staged := t.warden.staged, lacks := t.warden.lacks } } ∧
      (∀ r ∈ t.reqs, r ∈ s.reqs ∨ r.purpose = .operand ring h.seq) ∧
      s.Accepts t ring h { newJob s ring h with
        ents := [(24, src)], wait := .ready, result := if !ofManifest c && Tab.get [] s.warden.staged c != [] then 1 else 0
        status := some (.ok, 0xFF, if ofManifest c then 1 else s.storingCores.length) } ∧
      if ofManifest c then Tab.get [] t.warden.manifest (c - 0x80000000) = bs
      else Tab.get [] t.warden.staged c = bs ∧
        t.warden.lacks = s.storingCores.foldl (fun l k => Tab.upd 0 l k fun m => if bit m c then m - 2 ^ c else m) s.warden.lacks) ∧
    (good = false → ∃ t u, exec (.fwchunk ring) s = .next t ∧ s.OnlyRecords u ∧
      u = s.emit { cls := 1, code := if ofManifest c then 0xC2 else 0xC0, part := some part
                   arg0 := if ofManifest c then c - 0x80000000 else c, arg1 := fwVersion d } ∧
      t = { u.refuse ring h (.denied, if ofManifest c then 8 else 12) with free := t.free } ∧ t.warden = s.warden)) ∧
  ∀ (s : State) (ring : Nat) (h : Held), s.Inv → s.front ring (· == 0x11) = some h → s.wardenCopies.stopped = false →
    s.activateChecks (s.ring ring).part h.bytes = none →
    let staged := s.warden.stages (fwVersion h.bytes) && s.warden.manifestOk
    let repaired := s.cores.foldl State.repair s
    (staged = true → repaired.missing = [] → ∃ t, exec (.fwactivate ring) s = .next t ∧ s.Records t ∧
      t = { s with
        jobs := t.jobs, rings := t.rings, basins := t.basins, sluice := t.sluice, warden := { s.warden with
          lacks := t.warden.lacks, activating := true } } ∧
      s.Accepts t ring h { newJob s ring h with wait := .activation s.aon }) ∧
    (staged = true → repaired.missing ≠ [] → ∃ t, exec (.fwactivate ring) s = .next t ∧
      t = repaired.refuse ring h (.refusedState, 0xA) ∧ repaired.warden = { s.warden with lacks := repaired.warden.lacks }) ∧
    (staged = false → exec (.fwactivate ring) s = .next (s.refuse ring h (.refusedState, 0xA)))

/-! ## Fetch, tiles and completion -/

/-- DESCRIPTOR_FETCH (R119): the controller takes one descriptor of the ring whose turn it is: the next eligible one
after the ring it visited last, ascending, wrapping; the ring's NEXT advances by one, the 64 bytes are held as they
stand, and a fetch is outstanding; nothing else changes. A ring is eligible when it is enabled and not halted, NEXT is
not TAIL, and fewer than 16 descriptors of it and fewer than 256 of its home basin are accepted and not complete. -/
def Obligations.FetchTakesTheNextTurn : Prop :=
  ∀ (s : State) (basin r : Nat), s.Inv → s.live = true → basin < 6 → s.basinRuns basin = true → s.nextRing basin = some r →
    let c := s.ring r
    let a := s.slotAddr c c.next
    (∃ t, exec (.descriptorFetch basin) s = .next t ∧
      t = { s with rings := t.rings, basins := t.basins, free := t.free
                   reqs := s.reqs ++ [{ stack := false, place := basin, purpose := .fetch r c.next }] } ∧
      Tab.Only {} s.rings t.rings r { c with next := c.next + 1, held := c.held ++ [{ seq := c.next, bytes := s.read a 64 }] } ∧
      Tab.Only {} s.basins t.basins basin { s.basin basin with last := some r }) ∧
    (∀ q, s.resets.parts.any (·.1 == (s.ring q).part) = false →
      (s.eligible basin q = true ↔ (s.ring q).home = basin ∧ (s.ring q).enable = true ∧ (s.ring q).halted = false ∧
        (s.ring q).next ≠ (s.ring q).tail ∧ (s.jobs.filter fun x => x.ring == q && !x.recorded).length < 16 ∧
        (s.jobs.filter fun x => !x.recorded && (s.ring x.ring).home == basin).length < 256)) ∧
    s.eligible basin r = true ∧
    ((s.basin basin).last = none → ∀ q, q < r → s.eligible basin q = false) ∧
    ∀ l, (s.basin basin).last = some l → (l < r ∧ ∀ q, l < q → q < r → s.eligible basin q = false) ∨
      (r ≤ l ∧ ∀ q, l < q ∨ q < r → s.eligible basin q = false)

/-- TILE_START (R89, R185): while the part has a tile whose operands are read, a station is free for it and its engine
runs, the next tile enters behind those in flight, of which at most four pass stations; no other descriptor and no other
part changes, and, but for the workspace of a matrix step, no byte of memory. FACTOR leaves its new statistics there, ORTHO
free values that are drawn (R195, R196; log 3). Where STEP has let a halted engine run, a cycle of that is used up (R410; log 7). -/
def Obligations.TileStartEntersTheNext : Prop :=
  ∀ (s : State) (ring : Nat) (seq : Word) (jet : Nat) (j : Job) (p : Part), s.Inv → s.live = true → s.job ring seq = some j →
    j.partOn jet = some p → j.tileReady p = true → s.startsTiles j jet = true → s.tileFits j p = true →
    opOf j.desc ∈ [3, 4, 8, 0x0B, 0x0C, 0x13] →
    let g := s.jobGroup j
    let e := j.ent 29
    let a := j.tileFirst p p.started
    let q := (a - j.rangeFirst) / (g.rows * g.cols)
    let first := j.rangeFirst + q * (g.rows * g.cols)
    let laid : List Laid := if opOf j.desc ≠ 3 ∨ g.mxKind = 0 ∨ nth j.matrix q [] ≠ [] then []
      else if g.mxKind = 1 then
        [e.lays (j.writeSlot e) 0 (s.freeBytes ((2 * g.rows * g.cols + 2 * min g.rows g.cols ^ 2) * e.width / 8))]
      else [s.laysElems e (j.writeSlot e) (first / (g.rows * g.cols) * (g.rows + g.cols)) (s.matrixStep j first).stats]
    let workspace := placesOf laid
    ∃ t w u q tile, exec (.tileStart ring seq jet) s = .next t ∧ s.Stores w workspace ∧
      t = { w with jobs := t.jobs, free := t.free, jets := (w.useStep jet).jets } ∧
      (s.Apart laid → ∀ x ∈ laid, t.holds x) ∧ t.job ring seq = some u ∧ u.partOn jet = some q ∧
      q.started = p.started + 1 ∧ q.inFlight = p.inFlight ++ [tile] ∧ tile.index = p.started ∧ q.passing ≤ 4 ∧
      q.committed = p.committed ∧ q.tiles = p.tiles ∧ q.ended = none ∧
      (opOf j.desc ≠ 3 → tile.treatment = .plain) ∧
      (∀ k, k ≠ jet → u.partOn k = j.partOn k) ∧
      (s.unwatched workspace → ∀ r n, (r ≠ ring ∨ n ≠ seq) → t.job r n = s.job r n)

/-- TILE_COMMIT of a FILL, a COPY, a CRUCIBLE and an EXPORT (R89, R98, R125, R198, R392, R393): the oldest tile in flight is
stored: of a FILL its value repeated, of a COPY the bytes or the converted elements that the tile took, in both slots of a slotted
region and at their place alone; of a CRUCIBLE its output elements, in the current slot, free values where OUT_FMT and the region's
FORMAT differ in width (log 24); of an EXPORT its bytes after the header, encrypted under the key stream of the header's IV where the
stream is. The part counts one tile more, its store is due to be acknowledged, the conversions of a COPY and a CRUCIBLE go to the
census, and nothing else changes, but for what is shown of the bytes where they are watched and a cycle that STEP gave (log 7). -/
def Obligations.MoveTilesStore : Prop :=
  ∀ (s : State) (ring : Nat) (seq : Word) (jet : Nat) (j : Job) (p : Part) (tile : Tile) (rest : List Tile), s.Inv →
    (s.live = true ∨ s.clocks.rst = true) → s.job ring seq = some j → j.partOn jet = some p →
    p.inFlight = tile :: rest → s.clocked j jet = true → s.accessHeld j p = false → s.hasLeft j p tile = true →
    opOf j.desc ∈ [8, 0x0B, 0x0C, 0x13] →
    let op := opOf j.desc
    let data := nth tile.data 0 []
    let a := j.tileFirst p tile.index
    let b := j.outFirst p tile.index
    let src := j.ent 24
    let dst := j.ent (if op = 0x0C then 24 else if op = 8 then 26 else 25)
    let out := s.outBytes dst ((Fmt.ofCode (fieldAt j.desc 44 1)).getD .f32) data
    let off := (a - j.rangeFirst) * src.width / 8
    let plain := data.map (BitVec.ofNat 8)
    let cipher := if exportEncrypts j.desc then
        List.zipWith (· ^^^ ·) plain (keyStream (j.words.map (BitVec.ofNat 8)) (sliceAt (Tab.get [] j.payload 0) 56 12) off plain.length)
      else plain
    let laid : List Laid :=
      if op = 0x0C then dst.bothSlots.map fun k => s.laysElems dst k a (List.replicate (tileSize p.count tile.index) (fillValue j.desc))
      else if op = 0x0B then dst.bothSlots.map fun k =>
        if rawCopy src dst then dst.lays k (fieldAt j.desc 32 5 + off) (bytesOf 8 data)
        else s.laysElems dst k (fieldAt j.desc 32 5 * 8 / dst.width + (a - j.rangeFirst)) data
      else if op = 8 then [dst.lays (j.readSlot dst) (b * dst.width / 8) out.2]
      else [dst.lays 0 (exportTo j.desc + 128 + off) cipher]
    let u := if op = 8 then out.1 else s
    let counted := if op = 8 then s.countTotal jet dst.group tile.counts
      else if op = 0x0B ∧ tile.counts ≠ [] then s.countTotal (if jet < 24 then jet else 24) dst.group tile.counts else s
    ∃ t w r, exec (.tileCommit ring seq jet) s = .next t ∧ u.Stores w (placesOf laid) ∧
      t = { w with jobs := t.jobs, jets := (w.useStep jet).jets, reqs := s.reqs ++ [r], census := counted.census } ∧
      r.purpose = .store ring seq ∧ (s.Apart laid → ∀ x ∈ laid, t.holds x) ∧
      (u.unwatched (placesOf laid) → t.jobs = s.jobs.map fun x => if x.ring = ring ∧ x.seq = seq then
        { x.updPart jet (·.tileGone []) with payload := if op = 0x13 then Tab.set [] x.payload (1 + off) cipher else x.payload }
        else x)

/-- TILE_COMMIT of a CAST and of a STILL (R245, R246, R98, R157, R158, R164, R185, R188, R446). Of a CAST the bytes written are those
of the records of the tile in the used outputs, in the slot that is not current. Of a STILL whose oldest tile has left the Nozzle
without a fault they are, where the block runs or is forced, the codes of its output streams, the records that Cast makes of stream
0, and the block's new stamp; where it is skipped, its outputs and its stamp of the current slot if the two stamps differ, and else its
plane record if PLANE_R was broken; and after the last tile the write-back windows. The counts go to the census, the part counts
one tile more, and nothing else changes but what is shown of the bytes. A program fault ends the part and writes nothing (R172). -/
def Obligations.StillAndCastTilesStore : Prop :=
  ∀ (s : State) (ring : Nat) (seq : Word) (jet : Nat) (j : Job) (p : Part) (tile : Tile) (rest : List Tile), s.Inv →
    (s.live = true ∨ s.clocks.rst = true) → s.job ring seq = some j → j.partOn jet = some p →
    p.inFlight = tile :: rest → s.clocked j jet = true → s.accessHeld j p = false → s.hasLeft j p tile = true →
    s.breaksFirst j p (tile.leaves j.env.image) = false →
    let a := j.tileFirst p tile.index
    let n := tileSize p.count tile.index
    let records (fields : CastFields) (ci : CastIn) : List Laid :=
      let o := castTile ci
      let at' (b : Nat) : Nat × List (Nat × Nat) := (j.ent b).recordAt (j.writeSlot (j.ent b)) a
      let base (b : Nat) : Nat := stackAddr (at' b).1 ((((at' b).2.head?).map (·.1)).getD 0)
      (if ci.mould then [.pieces (o.mould.map fun x => (base fields.mould + x.1, x.2))] else []) ++
        (if ci.dross then [.pieces [(base fields.dross, o.dross)]] else []) ++
        if ci.plane then [laysRecord (at' fields.plane) o.plane] else []
    (opOf j.desc = 4 →
      let ci := j.castIn (j.primary.fmt.getD .f32) (nth tile.data 0 [])
        ((tileElems (nth j.words 2 0) (ctlOf j.desc) j.rangeFirst a).map (j.primary.pidx + ·))
      let laid := records (castFields 4) ci
      let counts := (castTile ci).counts
      let counted := if j.stillClass then s.countTile j jet counts else s.countTotal jet j.primary.group counts
      ∃ t r, exec (.tileCommit ring seq jet) s = .next t ∧ s.WritesOnly t (placesOf laid) ∧
        t = { s with
          mem := t.mem, jets := (s.useStep jet).jets, reqs := s.reqs ++ [r], census := counted.census
          jobs := s.jobs.map fun x => if x.ring = ring ∧ x.seq = seq then x.updPart jet (·.tileGone []) else x } ∧
        r.purpose = .store ring seq ∧ (s.Apart laid → ∀ x ∈ laid, t.holds x)) ∧
    (opOf j.desc = 3 → p.canLeave j.env.image (s.lastTile j p) = true → ∀ (q : Part) (z : Tile) (more : List Tile),
      p.advance j.env = q → q.inFlight = z :: more →
      (∀ f, z.nz.bind (·.fault) = some f → exec (.tileCommit ring seq jet) s = .next { s with
        jets := (s.useStep jet).jets
        jobs := s.jobs.map fun x => if x.ring = ring ∧ x.seq = seq then
          x.updPart jet fun _ => { q with inFlight := [], ended := some (.length, f.detail) } else x }) ∧
      (z.nz.bind (·.fault) = none → z.index = tile.index →
        let im := j.env.image
        let g := s.jobGroup j
        let outs := match z.nz with | some x => tileOuts im x | none => z.data
        let ci := j.castIn (nth j.env.outFmts 0 .f32) (nth outs 0 []) ((List.range (nth outs 0 []).length).map (j.primary.pidx + a + ·))
        let made := casts j.desc
        let skip := z.treatment = .skip
        let differ := s.stampsDiffer j a
        let pidx := j.primary.pidx + a
        let stamp := if skip then s.stampAt g (j.readSlot j.primary) pidx else if z.treatment = .forced then j.step - 1 else j.step
        let copied (plane : Bool) (e : RegionEntry) : Laid :=
          if plane then
            let src := e.recordAt (j.readSlot e) a
            laysRecord (e.recordAt (j.writeSlot e) a) (s.readPieces src.1 src.2)
          else s.laysStream e (j.writeSlot e) a (s.readStream e (j.readSlot e) a n)
        let block : List Laid :=
          if skip then
            if differ then j.slottedOuts.map fun x => copied x.1 x.2 else if j.forcesPlane then [copied true (j.ent 36)] else []
          else (((List.range 4).zip outs).filter fun x => !x.2.isEmpty).map (fun x => let e := j.ent (30 + x.1)
            s.laysStream e (j.writeSlot e) a x.2) ++ if made then records (castFields 3) ci else []
        let stamps : List Laid := if (if skip then differ = true else g.policy ≠ 0) ∧ s.stampFits g (j.writeSlot j.primary) pidx = true then
          [(s.stampsOf g).lays 0 (g.stampByte (j.writeSlot j.primary) pidx) (leBytes 4 stamp)] else []
        let last := decide (q.committed + 1 = q.tiles) && !(j.updPart jet fun _ => q).programFault
        let windows : List Laid := if last then ((progWindows im).filter (·.writeBack)).map fun w =>
          let e := j.ent (30 + w.stream)
          e.lays (j.writeSlot e) (if e.loc = 1 then 0 else e.shareNo jet * e.length)
            ((List.range w.words).flatMap fun i => leBytes 4 (Tab.get 0 q.cistern (w.cbase + i))) else []
        let laid := block ++ stamps ++ windows
        let sources : List (Nat × Nat) := if skip then j.slottedOuts.flatMap fun x =>
          let e := x.2
          if x.1 then let src := e.recordAt (j.readSlot e) a
            src.2.map fun y => (stackAddr src.1 y.1, y.2)
          else (s.laysStream e (j.readSlot e) a (List.replicate n 0)).places else []
        let counts := Counts.sum (Counts.sum z.counts ((z.nz.map tileNzCounts).getD [])) (if made then (castTile ci).counts else [])
        let counted := if skip then s else s.countTile j jet counts
        let parts := match z.nz with
          | some x => addPartials im q.partials (tilePartials im x)
          | none => q.partials
        (skip → ∀ x ∈ sources, s.touches x = false ∧ ∀ y ∈ placesOf laid, clear x y) →
        ∃ t w, exec (.tileCommit ring seq jet) s = .next t ∧ s.Stores w (placesOf laid) ∧
          t = { w with
            jobs := t.jobs, jets := ((w.markBlock j a).useStep jet).jets, census := counted.census
            reqs := (s.stillStores j jet (s.tileWrites j z a) last).reqs } ∧
          (s.Apart laid → ∀ x ∈ laid, t.holds x) ∧
          (s.unwatched (placesOf laid) → t.jobs = s.jobs.map fun x => if x.ring = ring ∧ x.seq = seq then
            { x.updPart jet fun _ => q.tileGone parts with result := x.result + b2n (decide skip && s.skipsPlane j a) } else x)))

/-- DESCRIPTOR_COMPLETE (R81, R123, R129, R132, R134, R99, R162, R230, R308, R393): a descriptor whose status stands, or all of
whose parts have ended, gets its 16-byte record. Before it the end of the parts leaves, where the status is OK or EMPTY, the reduction
records of a STILL, the trailer of an EXPORT, and the mark of PLANE_R's slot clear where all of it was written. A still-class
descriptor of an open attempt sets STILL_DONE and takes its range off the torn list, and METERED becomes STILLED; with another status
its range enters the list, or TORN_OVERFLOW is set; STILL_BUSY falls with the last one. Under CPL_FENCE the record waits while a write
is not acknowledged. The parts give FAULT, ABORTED_RESET, LENGTH, OK, EMPTY in that order, of the lowest jet that has it, and OK is
EMPTY where a reduction had no element or a CRUCIBLE has K 0. -/
def Obligations.CompletionWritesTheRecord : Prop :=
  (∀ (s : State) (ring : Nat) (seq : Word) (j : Job) (x : Status × Nat × Nat), s.Inv → s.live = true → s.job ring seq = some j →
    j.recorded = false → s.basinRuns (s.ring ring).home = true → s.recordHeld ring seq = false → s.backAwake j = true →
    (j.status = some x ∧ (j.wait = .pour → s.pourDone j = true) ∧ (x.1 = .ok → s.workWaits j = false) ∨
      j.status = none ∧ j.wait = .parts ∧ s.partsEnded j = true ∧ x = j.outcome ∧
        (opOf j.desc = 0x13 → x.1 = .ok → s.storesDue ring seq = false)) →
    let op := opOf j.desc
    let good := x.1 = .ok ∨ x.1 = .empty
    let leaves := j.status = none ∧ good
    let rs := reductionsOf (progInsns j.env.image)
    let laid : List Laid :=
      (if leaves ∧ op = 3 then ((List.range rs.length).zip rs).filterMap fun (k, i) => (Op.ofCode i.op).map fun o =>
          let e := j.ent (30 + i.aux % 4)
          e.lays (j.writeSlot e) (32 * bits i.aux 2 4) (reductionRecord o i.prec (j.combinedPartials.getD k none)) else []) ++
        if leaves ∧ op = 0x13 then [(j.ent 25).lays 0 (exportTo j.desc + 128 + j.length) (s.exportTrailer j)] else []
    let port : List Request := if leaves ∧ (op = 3 ∧ rs ≠ [] ∨ op = 0x13) then
      [{ stack := false, place := (s.ring ring).home, purpose := .store ring seq }] else []
    let plane := j.key (planeByte j.desc)
    let n := shardOf j.desc
    ∃ t w u : State, exec (.descriptorComplete ring seq) s = .next t ∧ s.Stores w (placesOf laid) ∧
      u = { w with
        regions := u.regions, reqs := s.reqs ++ port
        warden := { s.warden with draws := s.warden.draws + if leaves ∧ op = 0x13 then 1 else 0 } } ∧
      (s.Apart laid → ∀ y ∈ laid, u.holds y) ∧
      (∀ k, let e : RegionEntry := Tab.get {} w.regions k
        Tab.get {} u.regions k = if leaves ∧ j.coversPlane = true ∧ k = plane then
          if j.writeSlot (j.ent (planeByte j.desc)) = 0 then { e with broken0 := false } else { e with broken1 := false } else e) ∧
      let waits := cplFenceOf j.desc && u.storesDue ring seq
      (waits = true → t = { u with jobs := t.jobs } ∧ ∃ y, t.job ring seq = some y ∧ y.recorded = false ∧ y.status = some x) ∧
      (waits = false → ∃ v : State, u.Records v ∧ v = { u with shards := v.shards, basins := v.basins, sluice := v.sluice } ∧
        v.Completes t j x ∧
        (j.stillClass = false ∨ (s.shard n).isOpen = false → v = u) ∧
        (j.stillClass = true → (s.shard n).isOpen = true →
          let h := u.shard n
          let state := if good ∧ h.state = 2 then 3 else h.state
          Tab.Only {} u.shards v.shards n { h with
            state := state, stillDone := if good then true else h.stillDone
            torn := if good then h.torn.filter (· != j.torn)
              else if h.torn.contains j.torn then h.torn else if h.torn.length < 16 then h.torn ++ [j.torn] else h.torn
            tornOverflow := if good ∨ h.torn.contains j.torn = true ∨ h.torn.length < 16 then h.tornOverflow else true
            restillDue := state == 5 && h.verdict == 0 && h.needsRestill h.heldG.toNat && u.restillOwed n (ring, seq) }) ∧
        ((∀ y ∈ s.jobs, y.ring = ring ∧ y.seq = seq ∨ y.stillClass = false ∨ shardOf y.desc ≠ n) → u.storesDue ring seq = false →
          t.stillBusy n = false))) ∧
  ∀ j : Job, j.parts ≠ [] → (∀ p ∈ j.parts, p.status.1 ∈ [Status.fault, .abortedReset, .length, .ok, .empty]) →
    let rank (st : Status) : Nat := [Status.fault, .abortedReset, .length, .ok, .empty].idxOf st
    ∃ p ∈ j.parts, j.outcome.2.1 = p.jet ∧
      (∀ q ∈ j.parts, rank p.status.1 < rank q.status.1 ∨ p.status.1 = q.status.1 ∧ p.jet ≤ q.jet) ∧
      (p.status.1 ≠ .ok → j.outcome = (p.status.1, p.jet, p.status.2)) ∧
      (p.status.1 = .ok → j.outcome.2.2 = (if opOf j.desc = 0x13 then (j.length + 0xFFFFF) / 0x100000 else (j.parts.map (·.committed)).sum) ∧
        j.outcome.1 = if j.emptyReduction = true ∨ (opOf j.desc = 8 ∧ crucibleK j.desc = 0) then .empty else .ok)

/-- METER_COMPLETE and VOTE_TAKEN (R109, R205, R210, R211, R231, R299, R398, R409, R422). A METER whose flushes are acknowledged and
whose deferred blocks are read, with every Weir of its shard awake, not halted and under no test, and its controller running,
completes: the sum of the blocks that are not ragged, added jet by jet in the order of R74, and the count of their elements that are
not finite, of the ragged blocks and of an infinite sum are the figures, under the METER's epoch; the shard becomes METERED; its census
counts the elements not finite, the present, the dry, the ragged and the deferred blocks; the record is OK, or EMPTY where no block was
present, with the epoch. A METER whose attempt was aborted meanwhile completes OK (log 101). While a basin on the way of the jets'
figures sleeps, it is only woken. The oldest vote leaves the port when it is taken, and its VOTE completes OK with its epoch, at once or,
where the controller does not run, when it does. -/
def Obligations.MeterAndVoteComplete : Prop :=
  (∀ (s : State) (ring : Nat) (seq : Word) (j : Job), s.Inv → s.live = true → s.job ring seq = some j →
    j.wait = .meter → j.flush = [] → j.recorded = false → s.basinRuns (s.ring ring).home = true →
    s.weirsReady (shardOf j.desc) = true → s.readsDue ring seq = false → s.recordHeld ring seq = false →
    let n := shardOf j.desc
    let x := s.shard n
    let epoch := fieldAt j.desc 8 4
    let jets := (s.landingJets n).map (s.meterJet n)
    let present := jets.flatten
    let closed := present.filter (!·.ragged)
    let ragged := present.length - closed.length
    let nonFinite := (closed.map (·.nonFinite)).sum
    let sum := sumF32 (jets.map fun l => sumF32 ((l.filter (!·.ragged)).map (·.value)))
    let blocks := (((List.range 24).flatMap fun k => (s.jet k).alloc.filter (·.1 == n)).map (·.2.2)).sum
    (s.backAwake j = true → x.state = 1 → ∃ t u, exec (.meterComplete ring seq) s = .next t ∧ s.Records u ∧
      u = { s with shards := u.shards, basins := u.basins, sluice := u.sluice } ∧
      Tab.Only {} s.shards u.shards n { x with
        state := 2, landing := (u.shard n).landing
        figures := { epoch := BitVec.ofNat 32 epoch, sumsq := BitVec.ofNat 32 sum, valid := true, empty := present.isEmpty
                     nonfin := BitVec.ofNat 32 (min (nonFinite + ragged + b2n (sum == 0x7F800000)) (2 ^ 32 - 1)) } } ∧
      (Tab.wf 0 x.landing = true → ∀ k, Tab.get 0 (u.shard n).landing k =
        let added := if k = 6 then nonFinite else if k = 7 then present.length else if k = 8 then blocks - present.length
          else if k = 9 then ragged else if k = 10 then (closed.filter (·.deferred)).length else 0
        if 6 ≤ k ∧ k ≤ 10 then min (Tab.get 0 x.landing k + added) (2 ^ 48 - 1) else Tab.get 0 x.landing k) ∧
      u.Completes t j (if present = [] then .empty else .ok, 0xFF, epoch)) ∧
    (s.backAwake j = true → x.state ≠ 1 → ∃ t, exec (.meterComplete ring seq) s = .next t ∧ s.Completes t j (.ok, 0xFF, epoch)) ∧
    (s.backAwake j = false → ∃ t, exec (.meterComplete ring seq) s = .next t ∧ s.OnlyWakes t ∧
      ∀ b, (s.basin b).awake = false → b ∈ s.wayBack j → (t.basin b).waking = true)) ∧
  (∀ (s : State) (ring : Nat) (seq : Word) (v : List Byte) (rest : List (Nat × Word × List Byte)) (j : Job), s.Inv →
    s.open? = true → s.port.votes = (ring, seq, v) :: rest → s.job ring seq = some j → j.recorded = false → j.status = none →
    let w : State := { s with port := { s.port with votes := rest } }
    let now := s.basinRuns (s.ring ring).home = true ∧ s.recordHeld ring seq = false
    (now → ∃ t, exec .voteTaken s = .next t ∧ w.Completes t j (.ok, 0xFF, fieldAt j.desc 8 4)) ∧
    (¬now → exec .voteTaken s = .next { w with jobs := s.jobs.map fun y =>
      if y.ring = ring ∧ y.seq = seq then { y with wait := .ready, status := some (.ok, 0xFF, fieldAt j.desc 8 4) } else y }))

/-! ## Verdicts (R235, R236) -/

/-- VERDICT: a record that fails a check changes no shard but for its counters; one that passes every check and names
the open attempt of a shard that waits VOTED is held, with its outcome and its G, and the shard stays VOTED, held; no
epoch, slot, step or clip basis of any shard changes by a verdict, and no byte of memory. One that arrives again for an
attempt that has ended counts REDELIVERED and nothing else; while the pour logic or the Warden has stopped, the port
holds up to 16 verdicts as they came (R235, R236, R372, R422). -/
def Obligations.VerdictIsHeldOrIgnored : Prop :=
  ∀ (s : State) (v : List Byte) (whole : Bool), s.Inv → s.live = true →
    let n := fieldAt v 2 1 % 64
    let x := s.shard n
    let commits := fieldAt v 20 1 == 0 && fieldAt v 21 1 == 1
    let outcome := if fieldAt v 20 1 = 2 then 2 else if fieldAt v 21 1 = 0 then 1 else fieldAt v 20 1
    let checked := s.verdictMalformed v whole = false ∧ s.macMatches v = true ∧ x.owner.isSome = true
    (s.unitStopped = false → ∃ t, exec (.verdict v whole) s = .next t ∧ s.OnlyRecords { t with shards := s.shards } ∧
      (∀ m, m ≠ n → t.shard m = s.shard m) ∧
      (s.verdictMalformed v whole = true ∨ s.macMatches v = false ∨ x.owner = none → t.shards = s.shards) ∧
      t.shard n = { x with
        state := (t.shard n).state, verdictHeld := (t.shard n).verdictHeld, verdict := (t.shard n).verdict
        heldG := (t.shard n).heldG, heldAs := (t.shard n).heldAs, restillDue := (t.shard n).restillDue
        redelivered := (t.shard n).redelivered, discarded := (t.shard n).discarded } ∧
      ((t.shard n).state ≠ x.state → x.state = 4 ∧ (t.shard n).state = 5 ∧ s.macMatches v = true) ∧
      (checked → (commits = true → badBasis (fieldAt v 16 4) = false ∧ x.figures.nonfin = 0) →
        x.state = 4 → x.openEpoch.toNat = fieldAt v 4 4 → x.attempt = fieldAt v 12 2 →
        (t.shard n).state = 5 ∧ (t.shard n).verdictHeld = true ∧ (t.shard n).verdict = outcome ∧
        (t.shard n).heldG.toNat = (if fieldAt v 16 4 = 2 ^ 31 then 0 else fieldAt v 16 4) ∧
        (outcome ≠ 0 → (t.shard n).restillDue = false) ∧
        (t.shard n).redelivered = x.redelivered ∧ (t.shard n).discarded = x.discarded) ∧
      (checked → commits = false → (x.state = 0 ∨ x.state = 6 ∨ x.openEpoch.toNat ≠ fieldAt v 4 4) →
        (fieldAt v 4 4, fieldAt v 12 2) ∈ x.ended →
        s.OnlyShard t n { x with redelivered := min (x.redelivered + 1) (2 ^ 16 - 1) })) ∧
    (s.unitStopped = true →
      exec (.verdict v whole) s = .next (if s.port.verdicts.length < 16 then
        { s with port := { s.port with verdicts := s.port.verdicts ++ [(v, whole)] } } else s))

/-! ## The doorbell pages -/

/-- DOORBELL_WRITE (R118, R117, R398): a valid write sets TAIL and nothing else, but that it wakes the home basin, no other one, and
the jets; an invalid one changes nothing and makes error record 02h; a read returns TAIL and HEAD; a disabled or halted ring
is never eligible for fetch. A read of the word comes as an access of the page that R116 allows (log 96). -/
def Obligations.DoorbellMovesTheTail : Prop :=
  ∀ (s : State) (part ring : Nat) (value : Word64), s.Inv → s.pageOpen part = true → ring < 4096 → (s.ring ring).part = part →
    let c := s.ring ring
    let head := s.head ring
    let v : Word := value.setWidth 32
    let valid : Prop := value.toNat < 2 ^ 32 ∧ (c.next - head).toNat ≤ (v - head).toNat ∧ (v - head).toNat ≤ 2 ^ c.sizeExp
    (valid → ∃ t, exec (.doorbellWrite part ring value) s = .next t ∧
      t = { s with rings := t.rings, jets := t.jets, basins := t.basins } ∧
      Tab.Only {} s.rings t.rings ring { c with tail := v } ∧
      (∀ k, t.jet k = { s.jet k with waking := (t.jet k).waking }) ∧
      (∀ b, t.basin b = { s.basin b with waking := (t.basin b).waking }) ∧ (∀ b, b ≠ c.home → t.basin b = s.basin b) ∧
      (s.live = true → (s.basin c.home).awake = false → (t.basin c.home).waking = true)) ∧
    (¬valid → exec (.doorbellWrite part ring value) s =
      .next (s.emit { cls := 1, code := 2, part := some part, arg0 := ring, arg1 := value.toNat % 2 ^ 32 })) ∧
    exec (.doorbellPageBadAccess part (8 * ring) 8 false) s = .next { s with pinReply := c.tail.toNat + 2 ^ 32 * head.toNat } ∧
    (c.enable = false ∨ c.halted = true → ∀ b, s.eligible b ring = false)

/-- RING_RESUME (R135): a write of 1 resumes a halted ring, whose NEXT and everything else stand; on a ring that is not
halted it makes error record 06h alone; a write with any other bit makes error record 01h alone, as a refused access; a
read returns ENABLE, HALTED, DRAINING and HALT_SEQ. A read of the word comes as an access of the page that R116 allows
(log 96). -/
def Obligations.ResumeRestartsAHaltedRing : Prop :=
  ∀ (s : State) (part ring : Nat) (value : Word64), s.Inv → s.pageOpen part = true → ring < 4096 → (s.ring ring).part = part →
    let c := s.ring ring
    (value = 1 → c.halted = true →
      ∃ t, exec (.ringResume part ring value) s = .next t ∧ s.OnlyRing t ring { c with halted := false }) ∧
    (value = 1 → c.halted = false →
      exec (.ringResume part ring value) s = .next (s.emit { cls := 1, code := 6, part := some part, arg0 := ring })) ∧
    (value ≠ 0 → value ≠ 1 → exec (.ringResume part ring value) s =
      .next (s.emit { cls := 1, code := 1, part := some part, arg0 := 0x8000 + 8 * ring, arg1 := 1 })) ∧
    exec (.doorbellPageBadAccess part (0x8000 + 8 * ring) 8 false) s = .next { s with
      pinReply := b2n c.enable + 2 * b2n c.halted + 4 * b2n c.draining + 2 ^ 32 * c.haltSeq.toNat }

/-- PIN and UNPIN (R100, R101): a read of the pin word returns the epoch, the slot and whether it failed, and takes one
pin of that slot unless it failed; an unpin of an epoch that a slot holds, with pins on it, releases one; any other
changes nothing and makes error record 03h. -/
def Obligations.PinsAreTakenAndReleased : Prop :=
  ∀ (s : State) (part n : Nat) (value : Word64), s.Inv → s.pageOpen part = true → n < 64 → (s.shard n).owner = some part →
    let x := s.shard n
    let slot := x.curSlot
    let fails : Bool := x.pins slot == 65535 || !x.pouredOnce
    let epoch : Word := value.setWidth 32
    let named := if epoch = x.curEpoch then some slot else if x.otherLabel = some epoch then some (1 - slot) else none
    (∃ t, exec (.pin part n) s = .next t ∧ t = { s with shards := t.shards, pinReply := t.pinReply } ∧
      t.pinReply = x.curEpoch.toNat + 2 ^ 32 * slot + (if fails then 2 ^ 33 else 0) ∧
      Tab.Only {} s.shards t.shards n (if fails then x else x.setPins slot (x.pins slot + 1))) ∧
    (∀ k, value.toNat < 2 ^ 32 → named = some k → x.pins k ≠ 0 →
      ∃ t, exec (.unpin part n value) s = .next t ∧ s.OnlyShard t n (x.setPins k (x.pins k - 1))) ∧
    (2 ^ 32 ≤ value.toNat ∨ named = none ∨ (∃ k, named = some k ∧ x.pins k = 0) → exec (.unpin part n value) s =
      .next (s.emit { cls := 1, code := 3, part := some part, shard := some n, arg0 := value.toNat % 2 ^ 32 }))

/-- Refused accesses of a doorbell page (R116): one of another size or alignment, a write to a pin word, a read of an
unpin word, and any access to a ring or a shard of another partition has no effect but error record 01h, and a read
returns 0. -/
def Obligations.RefusedPageAccess : Prop :=
  ∀ (s : State) (part offset size : Nat) (write : Bool), s.Inv → s.pageOpen part = true → offset < 0x20000 →
    let record (a : Nat) (w : Bool) : State := s.emit { cls := 1, code := 1, part := some part, arg0 := a, arg1 := b2n w }
    let unread (t : State) : State := { t with pinReply := 0 }
    (size ≠ 8 ∨ offset % 8 ≠ 0 ∨ (offset < 0x10000 ∧ (s.ring (offset % 0x8000 / 8)).part ≠ part) ∨
        (0x10000 ≤ offset ∧ offset < 0x10400 ∧
          ((s.shard ((offset - 0x10000) / 16)).owner ≠ some part ∨ (write = true ↔ offset % 16 = 0))) →
      exec (.doorbellPageBadAccess part offset size write) s = .next (if write then record offset true else unread (record offset false))) ∧
    (∀ ring value, ring < 4096 → (s.ring ring).part ≠ part →
      exec (.doorbellWrite part ring value) s = .next (record (8 * ring) true) ∧
      exec (.ringResume part ring value) s = .next (record (0x8000 + 8 * ring) true)) ∧
    ∀ n value, n < 64 → (s.shard n).owner ≠ some part →
      exec (.pin part n) s = .next (unread (record (0x10000 + 16 * n) false)) ∧
      exec (.unpin part n value) s = .next (record (0x10008 + 16 * n) true)

/-! ## The register port -/

/-- REGION_COMMIT, REGION_CLEAR and RANGE_ACK (R92, R95, R304, R415, R438): a commit that meets no reason, or a clear of
an entry that is not in use, reports REASON 0 and puts the entry in force, at once where it passes and withdraws no
range, and else with the last acknowledgement, until when the table stands and the port serves no access; one that is
refused changes RT_STAT alone. An acknowledgement changes the range of its slot in the memory controller's table. What
stands while a range message is outstanding, and the order of the reasons, are the model's readings (logs 46, 47, 116
and 117). -/
def Obligations.RegionEntriesAreCommitted : Prop :=
  ∀ (s : State) (part : Nat) (value : Word), s.Inv → s.portOpen part false = true →
    let o := s.ownOf part
    let table := if part = 0 then o.rtPart else part
    let key := 256 * table + o.rtEntry
    let old := s.region table o.rtEntry
    let clears := bits value.toNat 0 4 = 0
    let new := if clears then {} else entryOf value.toNat o.staging
    let reason := if clears then (if s.entryInUse table o.rtEntry then 7 else 0)
      else s.entryReason table o.rtEntry new (reservedSet value.toNat o.staging)
    let ranged (e : RegionEntry) : Bool := e.kind == 3 || e.kind == 6 || e.kind == 7
    let placed (r t : State) : Prop :=
      Tab.Only {} s.regions t.regions key new ∧ t = { r with regions := t.regions, shards := t.shards } ∧
      ∀ m, t.shard m = { s.shard m with owner := (t.shard m).owner } ∧
        (new.namesShard = true → m = new.shard → (t.shard m).owner = some ((s.shard m).owner.getD table)) ∧
        ((new.namesShard = false ∨ m ≠ new.shard) → (old.namesShard = false ∨ m ≠ old.shard) → t.shard m = s.shard m)
    let cmd : Instr := if clears then .regionClear part value else .regionCommit part value
    let acks := old.messages key false ++ new.messages key true
    o.rtEntry < 256 → (∃ t, exec cmd s = .next t ∧
      (reason ≠ 0 → s.OnlyOwn { t with portReply := s.portReply } part { o with rtReason := reason, rtLast := o.rtEntry } ∧ t.portReply = 0) ∧
      (reason = 0 → Tab.Only {} s.own t.own part { o with rtReason := 0, rtLast := o.rtEntry } ∧
        (ranged old = false → ranged new = false → placed { s with own := t.own, portReply := 0 } t) ∧
        ((ranged old = true ∧ old.jetList ≠ []) ∨ (ranged new = true ∧ new.jetList ≠ []) →
          t = { s with own := t.own, range := some ⟨part, key, new, acks⟩ } ∧
          ∀ p early, t.portOpen p early = false))) ∧
    (∀ m, m ∈ new.messages key true ↔ ranged new = true ∧ ∃ j ∈ new.jetList, ∃ k ∈ new.slotList,
      m = ⟨j, 2 * key + k, some (if new.kind = 3 then 1 else new.kind - 4, new.slotBase k, new.length)⟩) ∧
    ∀ (r : State) (w : RangeWait) (jet : Nat) (m : RangeMsg), r.range = some w → r.clocks.rst = false → r.clocks.freeze ≠ .frozen →
      w.acks.find? (·.jet == jet) = some m →
      let known : List Range := (r.ranges.filter fun x => !(x.jet == jet && x.index == m.index)) ++ (match m.body with
        | some (kind, base, length) => [⟨jet, m.index, kind, base, length⟩] | none => [])
      (w.acks.erase m ≠ [] → exec (.rangeAck jet) r = .next { r with ranges := known, range := some { w with acks := w.acks.erase m } }) ∧
      (r.Inv → r.regions = s.regions → r.shards = s.shards → reason = 0 → w.acks.erase m = [] → w.key = key → w.entry = new →
        w.part < 8 → (r.clocks.waiting = [] ∨ r.clocks.freeze ≠ .off) →
        ∃ t, exec (.rangeAck jet) r = .next t ∧ placed { r with range := none, ranges := known, portReply := 0 } t)

/-- RING_ENABLE (R111, R440): with no reason against it HEAD, TAIL and NEXT take START_SEQ and the ring fetches, not
halted; with one, RING_STAT alone changes. RING_DISABLE (R111, R114, R440): a write that leaves every other field as it
stands disables an enabled ring: what it has fetched and not accepted completes SKIPPED, it is not halted, and it is
DRAINING until its last accepted descriptor has completed; a FENCE that waits for it ends REFUSED_STATE with cause 7h,
unless HEAD has passed by then (R126); a write that changes another field of a ring in force is refused, reason 7h; a
ring at rest takes the fields. The order of the reasons is the model's (log 118). -/
def Obligations.RingsAreEnabledAndDisabled : Prop :=
  (∀ (s : State) (part : Nat) (value : Word), s.Inv → s.portOpen part false = true → value.getLsbD 0 = true →
    let o := s.ownOf part
    let r := o.ringSel
    let c := s.ring r
    let w := value.toNat
    let n : Ring := { c with part := bits w 1 3, sizeExp := bits w 4 5, home := bits w 9 3, haltOnRefuse := bit w 12 }
    let d := s.region n.part c.descRegion
    let k := s.region n.part c.cplRegion
    let reasons : List (Bool × Nat) := [(part != 0 && n.part != part, 8), (c.enable || c.draining, 7), (16 < n.sizeExp, 1), (6 ≤ n.home, 2),
      (d.kind != 10 || k.kind != 10, 3), (d.length < 2 ^ n.sizeExp * 64 || k.length < 2 ^ n.sizeExp * 16, 4),
      ((d.loc == 0 && 1 < d.jetList.length) || (k.loc == 0 && 1 < k.jetList.length), 5), (c.descRegion == c.cplRegion, 6)]
    let reason := ((reasons.find? (·.1)).map (·.2)).getD 0
    (part = 0 ∨ c.part = part →
      ∃ t, exec (.ringEnable part value) s = .next t ∧ t = { s with rings := t.rings, own := t.own, portReply := 0 } ∧
        Tab.Only {} s.own t.own part { o with ringReason := reason, ringLast := r } ∧
        Tab.Only {} s.rings t.rings r (if reason = 0 then
          { n with enable := true, halted := false, tail := c.startSeq, next := c.startSeq } else c)) ∧
    (part ≠ 0 → c.part ≠ part → exec (.ringEnable part value) s = .next { s with portReply := 0 })) ∧
  ∀ (s : State) (part : Nat) (value : Word), s.Inv → s.portOpen part false = true → value.getLsbD 0 = false →
    let o := s.ownOf part
    let r := o.ringSel
    let c := s.ring r
    let w := value.toNat
    let n : Ring := { c with part := bits w 1 3, sizeExp := bits w 4 5, home := bits w 9 3, haltOnRefuse := bit w 12 }
    let stat (k : Nat) : Own := { o with ringReason := k, ringLast := r }
    let only (t : State) (k : Nat) : Prop := s.OnlyOwn { t with portReply := s.portReply } part (stat k)
    let ends (j : Job) : Job := match j.wait with
      | .ring m q => if m = r then { j with wait := .ready, status := if s.headPassed r q then j.status else some (.refusedState, 0xFF, 7) } else j
      | _ => j
    (part = 0 ∨ c.part = part) →
      ∃ t, exec (.ringDisable part value) s = .next t ∧ t.portReply = 0 ∧
        (part ≠ 0 ∧ n.part ≠ part → only t 8) ∧
        (part = 0 ∨ n.part = part →
          ((c.enable || c.draining) = true → n ≠ c → only t 7) ∧
          ((c.enable || c.draining) = false → t = { s with rings := t.rings, own := t.own, portReply := 0 } ∧
            Tab.Only {} s.own t.own part (stat 0) ∧ Tab.Only {} s.rings t.rings r n) ∧
          (c.enable = false → c.draining = true → n = c → only t 0) ∧
          (c.enable = true → n = c → (∃ u, ({ s with jobs := s.jobs.map ends } : State).Stores u (c.held.map fun h => (s.recordAddr c h.seq, 16)) ∧
              t = { u with rings := t.rings, own := t.own, reqs := t.reqs, portReply := 0 }) ∧
            Tab.Only {} s.own t.own part (stat 0) ∧
            (∀ x ∈ t.reqs, (∃ h ∈ c.held, x.purpose = .record r h.seq) ∨ (x ∈ s.reqs ∧ ∀ q, x.purpose ≠ .fetch r q)) ∧
            (∀ h, c.held = [h] → (s.region c.part c.cplRegion).kind = 10 → s.touches (s.recordAddr c h.seq, 16) = false →
              sliceAt (memRead t.mem (s.recordAddr c h.seq) 16) 0 2 = [8#8, BitVec.ofNat 8 (if opOf h.bytes < 0x14 then opOf h.bytes else 0)]) ∧
            Tab.Only {} s.rings t.rings r { c with
              enable := false, halted := false, draining := !(s.outstanding r).isEmpty, held := [] }))

/-- PROGRAM_COMMIT and PROGRAM_CLEAR (R144, R145, R146): a COMMIT that meets no reason stores the staged image in the
slot for OWNER, and a CLEAR empties it; with COMMIT and CLEAR at once, or with a reason, no slot changes and REASON
tells it. Which reason a write of both bits reports is the model's reading (log 52). -/
def Obligations.ProgramSlotsAreCommitted : Prop :=
  ∀ (s : State) (part : Nat) (value : Word), s.Inv → s.portOpen part false = true →
    let o := s.ownOf part
    let n := o.progSel
    let owner := bits value.toNat 4 3
    let held := (s.slots.filter fun x => x.2.owner == some owner).length
    let refused := n < 0x100 || 0x200 ≤ n || s.slotInUse n || (s.slot n).owner.getD owner != owner || (part != 0 && owner != part)
    let commit : Bool := value.getLsbD 0
    let clear : Bool := value.getLsbD 1
    let reason := if commit then
        if imageReason o.image ≠ 0 then imageReason o.image else if refused then 9
        else if (s.slot n).owner = none ∧ min (s.quota owner) 256 < held + 1 then 10 else if clear then 11 else 0
      else if refused then 9 else 0
    (commit = true ∨ clear = true) →
    ∀ cmd ∈ (if commit then [Instr.programCommit part value] else []) ++ (if clear then [Instr.programClear part value] else []),
      ∃ t, exec cmd s = .next t ∧ t = { s with own := t.own, slots := t.slots, portReply := 0 } ∧
        Tab.Only {} s.own t.own part { o with progOwner := owner, progReason := reason } ∧
        Tab.Only {} s.slots t.slots n (if reason ≠ 0 then s.slot n
          else if commit then { owner := some owner, image := o.image } else {})

/-- JET_MOVE (R105, R437): a jet moves, its tallies cleared, unless an entry of its partition names it, an accepted
descriptor of that partition runs on it, or its wellspring stack has a rill in flight; then nothing changes but
PART_STAT. That a descriptor runs on a jet while its part there is not done, and the order of the reasons, are
the model's readings (logs 53 and 54). -/
def Obligations.JetMovesBetweenPartitions : Prop :=
  ∀ (s : State) (jet : Nat) (value : Word), s.Inv → s.portOpen 0 false = true → jet < 24 → s.present jet = true →
    let x := s.jet jet
    let new := bits value.toNat 0 3
    let named := ∃ e ∈ s.regions, e.1 / 256 = x.part ∧ bit e.2.jets jet = true
    let runs := ∃ j ∈ s.jobs, j.recorded = false ∧ j.part = x.part ∧ ∃ p ∈ j.parts, p.jet = jet ∧ j.partDone p = false
    let rill := (s.well jet).running ≠ none ∨ (s.well jet).rills ≠ []
    ∃ t, exec (.jetMove 0 jet value) s = .next t ∧
      t = { s with jets := t.jets, portReply := 0, resets := { s.resets with statReason := t.resets.statReason, statJet := jet } } ∧
      (x.part = new → t.resets.statReason = 0 ∧ t.jets = s.jets) ∧
      (x.part ≠ new → ¬named → ¬runs → ¬rill → t.resets.statReason = 0 ∧
        Tab.Only {} s.jets t.jets jet { x with part := new, well := { x.well with tallies := [] } }) ∧
      (x.part ≠ new → named ∨ runs ∨ rill → t.jets = s.jets ∧
        (named → t.resets.statReason = 1) ∧ (¬named → runs → t.resets.statReason = 2) ∧
        (¬named → ¬runs → t.resets.statReason = 3))

/-- STEP_WRITE and RETIRE (R221, R227, R104): the step counter of an IDLE shard takes the value; a POURED shard without
pins, without still-class work and that no accepted descriptor names goes to IDLE, its bases empty and its attempt 0; in
any other state nothing changes, and error record 05h says so. -/
def Obligations.ShardContextWrites : Prop :=
  ∀ (s : State) (part n : Nat) (value : Word), s.Inv → s.portOpen part false = true → n < 64 →
    let x := s.shard n
    (part = 0 ∨ x.owner = some part) →
    let busy := s.stillBusy n = true ∨ ∃ j ∈ s.jobs, j.recorded = false ∧ ∃ e ∈ j.ents, e.2.slotted = true ∧ e.2.shard = n
    let refused (w : Nat) : State :=
      { s.emit { cls := 1, code := 5, part := x.owner, shard := some n, arg0 := w, arg1 := value.toNat } with portReply := 0 }
    (x.state = 0 → ∃ t, exec (.stepWrite part n value) s = .next t ∧ s.OnlyShard { t with portReply := s.portReply } n { x with stepNo := value } ∧ t.portReply = 0) ∧
    (x.state ≠ 0 → exec (.stepWrite part n value) s = .next (refused 4)) ∧
    (value.getLsbD 0 = false ∨ x.state = 0 → exec (.retire part n value) s = .next { s with portReply := 0 }) ∧
    (value.getLsbD 0 = true → x.state = 6 → x.pins0 = 0 → x.pins1 = 0 → ¬busy →
      ∃ t, exec (.retire part n value) s = .next t ∧ s.Records t ∧
        t = { s with shards := t.shards, basins := t.basins, sluice := t.sluice, portReply := 0 } ∧
        Tab.Only {} s.shards t.shards n { x with
          state := 0, pouredOnce := false, rewindable := false, lastGValid := false, priorGValid := false, attempt := 0
          owner := (t.shard n).owner } ∧
        ((∃ e ∈ s.regions, e.2.namesShard = true ∧ e.2.shard = n ∧ some (e.1 / 256) = x.owner) → (t.shard n).owner = x.owner) ∧
        ((∀ e ∈ s.regions, e.2.namesShard = true → e.2.shard = n → some (e.1 / 256) ≠ x.owner) → (t.shard n).owner = none)) ∧
    (value.getLsbD 0 = true → x.state ≠ 0 → x.state ≠ 6 ∨ x.pins0 ≠ 0 ∨ x.pins1 ≠ 0 ∨ busy →
      exec (.retire part n value) s = .next (refused 11))

/-- The registers of the logs, the alarm buffer, the fault counters, the clocks and debug (R324, R332, R333, R376, R399,
R406, R429): a log is set unless its region does not hold it; the others are taken from partition 0 alone. -/
def Obligations.ControlRegistersAreWritten : Prop :=
  ∀ (s : State) (part : Nat) (value : Word), s.Inv → s.portOpen part false = true →
    let v := value.toNat
    let k := bits v 9 5
    let ok (t : State) : State := { t with portReply := 0 }
    let holds (p record : Nat) : Bool :=
      !bit v 8 || ((s.region p (bits v 0 8)).kind == 9 && k ≤ 20 && 2 ^ k * record ≤ (s.region p (bits v 0 8)).size)
    (∀ log, log < 8 → part = 0 ∨ part = log →
      let l : Log := Tab.get {} s.censusLogs log
      ∃ t, exec (.censusLogWrite part log value) s = .next t ∧ t = ok { s with censusLogs := t.censusLogs } ∧
        Tab.Only {} s.censusLogs t.censusLogs log
          (if holds log 1024 then { l with region := bits v 0 8, enable := bit v 8, sizeExp := k } else l)) ∧
    (∀ log, log < 8 → part ≠ 0 → part ≠ log → exec (.censusLogWrite part log value) s = .next (ok s)) ∧
    (part ≠ 0 → ∀ jet, ∀ c ∈ [Instr.sluiceLogWrite part value, .clrDrops part value, .alarmPop part value, .faultCntClear part jet value,
      .clkHoldWrite part value, .dbgCtlWrite part value], exec c s = .next (ok s)) ∧
    (part = 0 →
      exec (.sluiceLogWrite 0 value) s = .next (ok <| if holds 0 32 then { s with sluice := { s.sluice with log := { s.sluice.log with
        region := bits v 0 8, enable := bit v 8, sizeExp := k, trace := bit v 14 } } } else s) ∧
      exec (.clrDrops 0 value) s = .next (ok <| if bit v 0 then { s with sluice := { s.sluice with drops := [0, 0, 0, 0] } } else s) ∧
      (∃ t, exec (.alarmPop 0 value) s = .next t ∧ (bit v 0 = false → t = ok s) ∧
        (bit v 0 = true → t = ok { s with own := t.own, sluice := { s.sluice with alarms := s.sluice.alarms.tail } } ∧
          Tab.Only {} s.own t.own 0 { s.ownOf 0 with alarm := none })) ∧
      (∀ jet, s.present jet = true → ∃ t, exec (.faultCntClear 0 jet value) s = .next t ∧
        t.portReply = 0 ∧ s.OnlyJet { t with portReply := s.portReply } jet (if (s.jet (s.engine jet)).awake then { s.jet jet with transient := 0, corrected := 0 }
          else { s.jet jet with clearDue := true })) ∧
      (∃ t, exec (.clkHoldWrite 0 value) s = .next t ∧ s.OnlyWakes { t with clocks := s.clocks, portReply := s.portReply } ∧ t.portReply = 0 ∧
        t.clocks = { s.clocks with jetHold := v % 2 ^ 24, basinHold := v / 2 ^ 24 % 2 ^ 6 } ∧
        (s.live = true → ∀ b, b < 6 → bit v (24 + b) = true → (s.basin b).awake = false → (t.basin b).waking = true)) ∧
      ∃ t, exec (.dbgCtlWrite 0 value) s = .next t ∧ s.OnlyRecords { t with garhal := s.garhal, portReply := s.portReply } ∧ t.portReply = 0 ∧
        t.garhal = { s.garhal with enabled := bit v 0, memEnabled := bit v 1 && bit s.boot.features 3, brkEnabled := bit v 2 } ∧
        (bit v 0 = false → t.sluice = s.sluice ∧ t.basins = s.basins))

/-- The register port (R362, R415, R424, R429, R430, R433, R435, R439): an access waits while the block is frozen or a
region change is outstanding, and else a write answers 0; it changes none of the registers that another partition has
for itself; the registers that each partition has for itself take their fields, those of partition 0 alone take them
from it and from no other; and a write to an address above them, or in a phase that does not serve it, changes nothing.
The reset modes go with any write of RESET_CTL that is taken (log 102). -/
def Obligations.RegisterWritesStayInTheirPartition : Prop :=
  ∀ (s : State) (part addr : Nat) (value : Word), s.Inv → part < 8 → s.clocks.rst = false →
    let o := s.ownOf part
    let v := value.toNat
    let ok (t : State) : State := { t with portReply := 0 }
    let own (t : State) (x : Own) : Prop := s.OnlyOwn { t with portReply := s.portReply } part x
    let modes : ResetRegs := { s.resets with jetMode := bit v 0, basinMode := bit v 1, wholeMode := bit v 2 }
    (s.clocks.freeze ≠ .off ∨ s.range ≠ none → exec (.registerWrite part addr value) s = .next { s with clocks := { s.clocks with
      waiting := s.clocks.waiting ++ [{ part := part, addr := addr, data := some value }] } }) ∧
    (s.clocks.freeze = .off → s.range = none → ∃ t, exec (.registerWrite part addr value) s = .next t ∧
      (t.range = none → t.portReply = 0) ∧ (∀ q, q ≠ part → t.ownOf q = s.ownOf q) ∧
      (s.portOpen part (earlyAddr addr) = false → t = ok s) ∧ (0x1000 ≤ addr → t = ok s) ∧
      (s.portOpen part true = true →
        (addr = 1 → t = ok (if part = 0 then { s with boot := { s.boot with dir := v + 2 ^ 32 * (s.boot.dir / 2 ^ 32) } } else s)) ∧
        (addr = 2 → t = ok (if part = 0 then { s with boot := { s.boot with dir := s.boot.dir % 2 ^ 32 + 2 ^ 32 * (v % 2 ^ 16) } } else s)) ∧
        (addr = 3 → bit v 0 = false →
          t = ok (if part = 0 then { s with boot := { s.boot with fullTest := bit v 1, soakReq := bit v 2 } } else s))) ∧
      (s.portOpen part false = true →
        (addr = 0x40 → t = ok (if part = 0 then { s with clocks := { s.clocks with sleepIdle := v % 2 ^ 16 } } else s)) ∧
        (addr = 0x44 → bit v 7 = false → bit v 13 = false → t = ok (if part = 0 then { s with resets := modes } else s)) ∧
        (0x448 ≤ addr → addr < 0x450 → t = ok { s with quotas := t.quotas } ∧
          Tab.Only 0x100 s.quotas t.quotas (addr - 0x448) (if part = 0 then v % 2 ^ 9 else s.quota (addr - 0x448))) ∧
        (addr = 0x400 → own t { o with rtEntry := v % 2 ^ 8, rtPart := if part = 0 then v / 2 ^ 8 % 2 ^ 3 else o.rtPart }) ∧
        (0x411 ≤ addr → addr ≤ 0x419 → own t { o with staging := modAt (fun _ => v) o.staging (addr - 0x411) }) ∧
        (addr = 0x420 → own t { o with ringSel := v % 2 ^ 12 }) ∧
        (addr = 0x440 → own t { o with progSel := v % 2 ^ 16 }) ∧
        (0x500 ≤ addr → addr < 0x5C0 → own t { o with image := putHalf o.image (addr - 0x500) v }) ∧
        (addr = 0x429 → let r := o.ringSel
          part = 0 ∨ (s.ring r).part = part → (s.ring r).enable = false → (s.ring r).draining = false →
            s.OnlyRing { t with portReply := s.portReply } r
              { s.ring r with descRegion := v % 2 ^ 8, cplRegion := v / 2 ^ 8 % 2 ^ 8 })))

/-- ALARM_HEAD_READ and COUNTER_LOW_READ (R333, R431, R432): word 0 of the oldest unread alarm, which is latched; the low word
of a 48-bit census counter of WEIR_STAT, whose high word is latched and returned by the next read of it, whatever the
counter has become; partitions that the access code refuses read 0. A stray write that sleeping jets hold is not counted yet. That the
high word is read by the same command at the next address, and that the other counters of a sleeping jet are read as they stand, are
the model's readings (logs 51 and 119). -/
def Obligations.ReadsLatchWholeValues : Prop :=
  (∀ (s : State) (part : Nat), s.Inv → s.portOpen part true = true →
    let oldest := s.sluice.alarms.headD []
    ∃ t, exec (.alarmHeadRead part) s = .next t ∧
      (part = 0 → t = { s with own := t.own, portReply := fieldAt oldest 0 4 } ∧
        Tab.Only {} s.own t.own 0 { s.ownOf 0 with alarm := some oldest }) ∧
      (part ≠ 0 → t = { s with portReply := 0 })) ∧
  ∀ (s : State) (part n k : Nat), s.Inv → s.portOpen part false = true → n < 64 → k < 12 →
    let a := 0x1000 + 32 * n + 4 + 2 * k
    let own : Bool := part == 0 || (s.shard n).owner == some part
    let c := if own then Tab.get 0 (s.shard n).landing k - (if k = 11 then s.napped n else 0) else 0
    ∃ t, exec (.counterLowRead part a) s = .next t ∧ t = { s with own := t.own, portReply := c % 2 ^ 32 } ∧
      (∀ q, q ≠ part → t.ownOf q = s.ownOf q) ∧
      ∀ u : State, u.own = t.own → u.portOpen part false = true →
        ∃ w, exec (.counterLowRead part (a + 1)) u = .next w ∧ w = { u with own := w.own, portReply := c / 2 ^ 32 }

/-! ## Resets -/

/-- JET_RESET_ASSERT, JET_RST and BASIN_RESET_ASSERT (R106, R295, R359 to R363, R269): the engine, or every sound engine of the
basin and its controller, enters reset in its mode, in ABSORB with its tallies cleared at once; only the work on it
ends, no tile of which commits or is undone; no byte of memory and nothing of the tenancy changes; an engine outside the
scope is touched only in what the owner of refresh holds. A JET_RST in DRAIN lets running rills issue their remaining words
first, and the pins absorb them. A partition's JET_RST of a jet whose engine also serves another partition resets no engine: the work
of its own jets on it ends. How running rills end, that FAILED stays, that a second reset begins nothing, the mode of a JET_RST from
bit 0 of its write, and the shared engine are the model's readings (logs 30, 65, 68, 102 and 135). -/
def Obligations.ResetsStayInTheirScope : Prop :=
  (∀ (s : State) (jet : Nat) (pin : Bool) (part : Nat) (value : Word), s.Inv → s.live = true → jet < 24 → s.present jet = true →
    let e := s.engine jet
    (s.jet e).inReset = false → (s.jet e).bad = false → (pin = true → (s.jet jet).pin = false) →
    (pin = false → s.portOpen part false = true ∧ value.getLsbD 13 = true ∧ value.getLsbD 7 = false ∧
      bits value.toNat 8 5 = jet ∧ (part = 0 ∨ (s.jet jet).part = part)) →
    let shared := pin = false ∧ part ≠ 0 ∧ ∃ k, k < 24 ∧ s.engine k = e ∧ (s.jet k).part ≠ part
    let absorb := if pin then s.resets.jetMode else value.getLsbD 0
    let scope (j : Job) (p : Part) : Prop := j.recorded = false ∧ j.status = none ∧ p.jet < 24 ∧ s.engine p.jet = e
    let mine (k : Nat) : Prop := k < 24 ∧ s.engine k = e ∧ (s.jet k).part = part
    (¬shared → ∃ t, exec (if pin then .jetResetAssert jet else .jetRst part value) s = .next t ∧
      s.EngineResets t e 0 absorb ∧ (t.jet jet).pin = (pin || (s.jet jet).pin) ∧
      (pin = true ∨ absorb = true ∨ s.noRills 0 jet → s.ResetOnly { t with portReply := s.portReply } ∧ s.OnlyParts t scope ∧
        ∀ k, k ≠ e → k ≠ jet → t.jet k = { s.jet k with well := (t.jet k).well }) ∧
      s.DrainOnly { t with portReply := s.portReply } ∧ s.KeepsJobs t ∧
      (∀ k, k ≠ e → k ≠ jet → t.jet k = { s.jet k with
        well := (t.jet k).well, ledger := (t.jet k).ledger, naps := (t.jet k).naps }) ∧
      (absorb = true → s.rillsOwned (fun k => s.engine k = e) → ∀ k, k < 24 → s.engine k = e → (t.well k).tallies = [])) ∧
    (shared → ∃ t, exec (.jetRst part value) s = .next t ∧ s.ResetOnly { t with portReply := s.portReply } ∧
      s.OnlyParts t (fun j p => scope j p ∧ mine p.jet) ∧ (∀ k, t.jet k = { s.jet k with well := (t.jet k).well }) ∧
      (absorb = true → ∀ j ∈ t.jobs, j.recorded = false → j.status = none → ∀ p ∈ j.parts, mine p.jet → p.inFlight = []) ∧
      (absorb = true → s.rillsOwned mine → ∀ k, mine k → (t.well k).tallies = []))) ∧
  ∀ (s : State) (b : Nat), s.Inv → s.live = true → b < 6 → (s.basin b).pin = false →
    ∃ t, exec (.basinResetAssert b) s = .next t ∧ s.ResetOnly t ∧
      (∃ r, (t.basin b).resetting = some r ∧ r.level = 1 ∧ r.absorb = s.resets.basinMode ∧ r.ended = false) ∧
      (t.basin b).pin = true ∧ (t.basin b).halted = false ∧
      (∀ k, k / 4 = b → s.present k = true → (s.jet (s.engine k)).bad = false →
        s.EngineResets t (s.engine k) 1 s.resets.basinMode ∧ (s.resets.basinMode = true → s.rillsOwned (· / 4 = b) → (t.well k).tallies = [])) ∧
      s.OnlyParts t (fun j p => j.recorded = false ∧ j.status = none ∧ ((p.jet < 24 ∧ p.jet / 4 = b) ∨ (s.ring j.ring).home = b)) ∧
      ∀ k, (∀ i, i / 4 = b → s.present i = true → s.engine i ≠ k) → t.jet k = { s.jet k with well := (t.jet k).well }

/-- PART_GO and PARTITION_RESET_DONE (R106, R364, R394, R439): a partition reset begins with its mode, its rings fetch
no more, only its own work ends, and the engines that serve its jets alone enter reset; once its accepted descriptors
have completed, its rings are disabled, its shards, region entries, groups, program slots, census log and export key are
as after a whole reset, its jets' tallies are clear, and, where no record that this writes is watched, nothing of
another partition has changed. A partition other than 0 resets itself alone. The order in which what waits ends, and
that a shared engine is not reset, are the model's readings (logs 74, 75 and 123), and so is it that in DRAIN the running rills of
the others issue their remaining words first (log 30). -/
def Obligations.PartitionResetClearsTheTenancy : Prop :=
  (∀ (s : State) (part : Nat) (value : Word), s.Inv → s.portOpen part false = true → value.getLsbD 7 = true → value.getLsbD 13 = false →
    let p := bits value.toNat 4 3
    let absorb := value.getLsbD 3
    (part ≠ 0 → p ≠ part → exec (.partGo part value) s = .next { s with portReply := 0 }) ∧
    (part = 0 ∨ p = part → Tab.get none s.resets.parts p = none →
      ∃ t r, exec (.partGo part value) s = .next t ∧ t.portReply = 0 ∧
        s.DrainOnly { t with portReply := s.portReply } ∧ s.KeepsJobs t ∧
        (absorb = true ∨ s.noRills 2 p → s.ResetOnly { t with portReply := s.portReply } ∧
          s.OnlyParts t fun j _ => j.recorded = false ∧ j.status = none ∧ j.part = p) ∧
        Tab.Only none s.resets.parts t.resets.parts p (some r) ∧ r.level = 2 ∧ r.absorb = absorb ∧ r.ended = false ∧
        (∀ b c, (s.ring c).part = p → t.eligible b c = false) ∧
        (∀ k, k < 24 → s.present k = true → (s.jet k).part = p → (s.jet (s.engine k)).inReset = false → (s.jet (s.engine k)).bad = false →
          (∀ i, i < 24 → s.engine i = s.engine k → (s.jet i).part = p) → s.EngineResets t (s.engine k) 2 absorb))) ∧
  ∀ (s : State) (p : Nat) (r : Reset), s.Inv → s.live = true → Tab.get none s.resets.parts p = some r →
    (∀ j ∈ s.jobs, j.part = p → j.recorded = true) →
    let records := (s.rings.filter fun x => x.2.part == p && x.2.enable).flatMap fun x =>
      x.2.held.map fun h => (s.recordAddr x.2 h.seq, 16)
    ∃ t, exec (.partitionResetDone p) s = .next t ∧ Tab.Only none s.resets.parts t.resets.parts p none ∧
      t.boot = s.boot ∧ t.quotas = s.quotas ∧ s.WritesOnly t records ∧
      (∀ c, ((s.ring c).part = p → (t.ring c).enable = false) ∧ ((s.ring c).part ≠ p → t.ring c = s.ring c)) ∧
      (∀ g, t.group g = if (s.group g).owner = some p then {} else s.group g) ∧
      (∀ n, t.slot n = if (s.slot n).owner = some p then {} else s.slot n) ∧
      (∀ q, Tab.get {} t.censusLogs q = if q = p then {} else Tab.get {} s.censusLogs q) ∧
      (∀ q, Tab.get {} t.warden.exports q = if q = p then {} else Tab.get {} s.warden.exports q) ∧
      (∀ k, s.present k = true → (s.jet k).part = p → (s.well k).running = none → (t.well k).tallies = []) ∧
      (∀ e, e < 256 → t.region p e = {}) ∧ (∀ n, (s.shard n).owner = some p → t.shard n = {}) ∧
      (s.unwatched records →
        (∀ q e, q ≠ p → e < 256 → t.region q e = s.region q e) ∧ (∀ n, (s.shard n).owner ≠ some p → t.shard n = s.shard n) ∧
        ((∀ j ∈ s.jobs, ∀ c q, j.wait = .ring c q → (s.ring c).part ≠ p) → t.jobs = s.jobs))

/-- JET_RESET_END, BASIN_RESET_DEASSERT and DRAIN_TIMEOUT (R360, R362, R363, R403, R404, R447): the reset itself of an
engine that no pin holds ends, in a freeze too, and the whole reset of it where no station is left to test, after the
thaw; a drain that is over leaves no tile in flight in its scope, and none of those tiles has committed; the time of a
drain does not run while an engine or controller in it is halted. How the reset of a pin and that of a register join,
when a drain is over, that the controller follows its engines, and what ends in a freeze and is tested after the thaw, are the model's
readings (logs 7, 66, 68, 69, 70 and 71). -/
def Obligations.ResetsEnd : Prop :=
  let wells (s t : State) (js : List Nat) : Prop := t = { s with jets := t.jets, basins := t.basins, free := t.free } ∧
    (∀ k, k ∉ js → t.jet k = { s.jet k with well := (t.jet k).well })
  (∀ (s : State) (jet : Nat), s.Inv → s.clocks.rst = false → jet < 24 →
    let e := s.engine jet
    let held := ∃ k, k < 24 ∧ s.engine k = e ∧ k ≠ jet ∧ (s.jet k).pin = true
    (held ∨ (∀ r, (s.jet e).resetting = some r → r.level ≠ 0 ∨ r.ended = true) →
      ∃ t, exec (.jetResetEnd jet) s = .next t ∧ wells s t [jet] ∧ t.jet jet = { s.jet jet with pin := false, well := (t.jet jet).well } ∧
        ∀ b, t.basin b = { s.basin b with rfhOwn := (t.basin b).rfhOwn }) ∧
    ∀ r, (s.jet e).resetting = some r → r.level = 0 → r.ended = false → ¬held →
      ∃ t, exec (.jetResetEnd jet) s = .next t ∧ s.ResetOnly t ∧ t.jobs = s.jobs ∧ (t.jet jet).pin = false ∧
        (t.jet e).resetting = (if s.open? = false ∨ (s.jet e).codes.contains 1 then some { r with ended := true } else none) ∧
        ∀ k, k ≠ jet → k ≠ e → t.jet k = { s.jet k with well := (t.jet k).well }) ∧
  (∀ (s : State) (b : Nat), s.Inv → s.clocks.rst = false → b < 6 →
    ((s.basin b).resetting = none →
      ∃ t, exec (.basinResetDeassert b) s = .next t ∧ wells s t [] ∧
        t.basin b = { s.basin b with pin := false, rfhOwn := (t.basin b).rfhOwn } ∧
        ∀ c, c ≠ b → t.basin c = { s.basin c with rfhOwn := (t.basin c).rfhOwn }) ∧
    ((s.basin b).resetting ≠ none →
      ∃ t, exec (.basinResetDeassert b) s = .next t ∧ s.ResetOnly t ∧ t.jobs = s.jobs ∧ (t.basin b).pin = false ∧
        (∀ e x, e / 4 = b → (s.jet e).resetting = some x → x.level = 1 → (∀ k, k < 24 → s.engine k = e → (s.jet k).pin = false) →
          (t.jet e).resetting = if s.open? = false ∨ (s.jet e).codes.contains 1 then some { x with ended := true } else none) ∧
        (s.open? = true → (∀ e x, e < 24 → e / 4 = b → (s.jet e).resetting = some x → x.level ≠ 1) → (t.basin b).resetting = none))) ∧
  ∀ (s : State) (level : ResetLevel) (i : Nat) (r : Reset), s.Inv → s.live = true → level ≠ .whole → r.drained = false →
    let now (u : State) : Option Reset := match level with
      | .jet => (u.jet (s.engine i)).resetting | .basin => (u.basin i).resetting | _ => Tab.get none u.resets.parts i
    let scope (j : Job) (p : Part) : Prop := match level with
      | .jet => p.jet < 24 ∧ s.engine p.jet = s.engine i
      | .basin => (p.jet < 24 ∧ p.jet / 4 = i) ∨ (s.ring j.ring).home = i
      | _ => j.part = i
    let halted := match level with
      | .jet => s.anyHalted [s.engine i] [] | .basin => s.anyHalted (s.enginesOf (s.jetsIn i)) [i] || s.scopeHalted 1 i
      | _ => s.anyHalted (s.enginesOf (s.jetsOf i)) [] || s.scopeHalted 2 i
    now s = some r → (level = .jet → r.level = 0) →
    (halted = true → exec (.drainTimeout level i) s = .next s) ∧
    (halted = false → ∃ t, exec (.drainTimeout level i) s = .next t ∧ s.ResetOnly t ∧ (∀ x, now t = some x → x.drained = true) ∧
      s.OnlyParts t (fun j p => j.recorded = false ∧ j.status = none ∧ scope j p) ∧
      ∀ j ∈ t.jobs, j.recorded = false → j.status = none → ∀ p ∈ j.parts, scope j p → p.inFlight = [])

/-- MZ_RST_ASSERT, MZ_RST_DEASSERT and AON_POWER_LOSS (R335, R365, R404, R427): with the assertion all work ends in
WHOLE_MODE, refresh is handed back at once and a frozen block thaws; in ABSORB no tile stays in flight and every
accepted descriptor is left with ABORTED_RESET, whose record a DESCRIPTOR_COMPLETE writes while the ports take records;
with the deassertion every part of the block is as after reset, but the retention file and what lies outside the block;
the loss of the always-on supply clears the retention file alone. The memory and the levels of the pins are the model's
(logs 2, 72 and 73); AON_POWER_LOSS alone is log 77; that a running rill issues its remaining words in DRAIN before refresh is handed
back is log 30. The time of the drain does not run while a part of it is halted (R447). -/
def Obligations.WholeResetLeaves : Prop :=
  ∀ s : State, s.Inv →
    (s.clocks.rst = false → ∃ t, exec .mzRstAssert s = .next t ∧
      t.clocks = { s.clocks with rst := true, freeze := .off, waiting := [], late := [] } ∧
      s.DrainOnly { t with clocks := s.clocks } ∧ s.KeepsJobs t ∧
      (s.resets.wholeMode = true ∨ s.noRills 3 0 → s.ResetOnly { t with clocks := s.clocks } ∧
        s.OnlyParts t (fun j _ => j.recorded = false ∧ j.status = none)) ∧
      (∀ b, b < 6 → (t.basin b).rfhOwn = false) ∧
      (s.resets.wholeMode = true → ∀ j ∈ t.jobs, j.recorded = false →
        (j.status = some (.abortedReset, 0xFF, 3) ∧ j.wait = .ready) ∨
        (j.status = none ∧ j.wait = .parts ∧ j.outcome.1 = .abortedReset ∧ ∀ p ∈ j.parts, p.inFlight = []))) ∧
    (s.clocks.rst = true → exec .mzRstAssert s = .next s ∧
      (∃ t, exec .mzRstDeassert s = .next t ∧ t = { State.reset with
        pending := s.pending, mem := s.mem, free := s.free, aon := s.aon, jets := t.jets, basins := t.basins
        boot := { retValid := s.boot.retValid, retSeq := s.boot.retSeq, retSeal := s.boot.retSeal, temper := s.boot.temper }
        warden := { draws := s.warden.draws }, clocks := { wake := s.clocks.wake } } ∧
        (∀ j, t.jet j = { pin := (s.jet j).pin }) ∧ ∀ b, t.basin b = { pin := (s.basin b).pin }) ∧
      ∀ i, (s.scopeHalted 3 0 = true → exec (.drainTimeout .whole i) s = .next s) ∧ (s.scopeHalted 3 0 = false →
        ∃ t, exec (.drainTimeout .whole i) s = .next t ∧ s.ResetOnly t ∧
        s.OnlyParts t (fun j _ => j.recorded = false ∧ j.status = none) ∧
        ∀ j ∈ t.jobs, j.recorded = false → j.status = none → ∀ p ∈ j.parts, p.inFlight = [])) ∧
    (s.clocks.rst = false → exec .mzRstDeassert s = .next s) ∧
    exec .aonPowerLoss s = .next { s with boot := { s.boot with
      retValid := false, retSeq := 0, retSeal := List.replicate 32 0#8 } }

/-! ## The boot and the soak -/

/-- BOOT_GO, ROM_DONE, BOOT_VERIFY, BOOT_MAP and BOOT_LOAD (R336, R337, R338, R341, R348, R350, R351, R354): the phases
follow each other; a boot that cannot continue is HALTED with its reason, an alarm, and no clock running; the capsule's
fields are taken as they stand in the record; the warm path is taken only where R351 allows it. The order of the
reasons, the moment of the reads, the free fields of the alarm, REASON 0Bh where the directory or a record lies at no memory, and a
temper record whose contents are taken from the state are the model's (logs 14, 34, 35, 56 to 60 and 121). -/
def Obligations.BootPhasesFollow : Prop :=
  ∀ s : State, s.Inv →
    let b := s.boot
    let halts (was : Boot) (t : State) (reason : Nat) : Prop :=
      t.boot = { was with phase := .halted, reason := reason } ∧ t.mem = s.mem ∧ t.sluice.alarms ≠ [] ∧
      (∀ j, (t.jet j).awake = false) ∧ ∀ k, (t.basin k).awake = false
    (∀ (part : Nat) (value : Word), s.portOpen part true = true → value.getLsbD 0 = true →
      let full := value.getLsbD 1 || !b.retValid
      let set : Boot := { b with fullTest := value.getLsbD 1, soakReq := value.getLsbD 2 }
      (part ≠ 0 → exec (.bootGo part value) s = .next { s with portReply := 0 }) ∧
      (part = 0 → b.phase = .rom → exec (.bootGo part value) s = .next { s with portReply := 0, boot := { set with goHeld := true } }) ∧
      (part = 0 → b.phase = .waitGo → ∃ t, exec (.bootGo part value) s = .next t ∧ t = { s with portReply := 0, boot := t.boot, basins := t.basins } ∧
        t.boot = { set with phase := .verify, goHeld := false, retValid := !full, retSeq := if full then 0 else b.retSeq,
                            retSeal := if full then List.replicate 32 0#8 else b.retSeal } ∧
        Tab.Only {} s.basins t.basins 0 { s.basin 0 with awake := true }) ∧
      (part = 0 → b.phase ≠ .rom → b.phase ≠ .waitGo → exec (.bootGo part value) s = .next { s with portReply := 0, boot := set })) ∧
    (s.open? = true → b.phase = .rom →
      (∃ t, exec (.romDone true) s = .next t ∧ t.mem = s.mem ∧ t.boot.phase = (if b.goHeld then .verify else .waitGo) ∧
        t.warden = { s.warden with
          root := t.warden.root, idKey := t.warden.idKey, idPub := pointBytes (pointMul t.warden.idKey p384G)
          idDigest := (sha384 (pointBytes (pointMul t.warden.idKey p384G))).take 16 }) ∧
      ∃ t, exec (.romDone false) s = .next t ∧ halts b t 0x0C) ∧
    (∀ readOk, s.open? = true → b.phase = .verify →
      let r := s.bootReads
      let c := r.capsule
      let dirOk := readOk && !s.touches (b.dir, 128)
      let records := bootRanges r.directory (fieldAt r.header 12 2)
      let reason := s.bootReason r readOk
      let warm := readOk && s.warmPath r
      let was : Boot := if warm then b else { b with retValid := false, retSeq := 0, retSeal := List.replicate 32 0#8 }
      (dirOk = false → reason = 0x0B) ∧
      (dirOk = true → directoryBad b.dir b.soakReq r.directory = true → reason = 1) ∧
      (dirOk = true → directoryBad b.dir b.soakReq r.directory = false → (∃ x ∈ records.1, s.touches x = true) → reason = 0x0B) ∧
      (reason = 0 → s.inMemory (records.1 ++ records.2)) ∧
      ∃ t, exec (.bootVerify readOk) s = .next t ∧ (reason ≠ 0 → halts was t reason) ∧
        (reason = 0 → t = { s with boot := t.boot, warden := t.warden } ∧ t.boot.phase = .map ∧ t.boot.verified = true ∧
          t.boot.variant = fieldAt c 5 1 ∧ t.boot.variant < 3 ∧ t.boot.wcfg = fieldAt c 6 1 ∧ t.boot.wcfg < 3 ∧
          t.boot.features = fieldAt c 8 4 ∧ t.boot.serial = fieldAt c 12 4 ∧ sliceAt c 16 16 = s.warden.idDigest ∧
          t.warden.ready = 2 ∧ t.warden.fwRun = fieldAt r.header 4 4 ∧ t.boot.retValid = t.boot.warm ∧
          (t.boot.warm = true ↔ b.fullTest = false ∧ b.retValid = true ∧ s.temperSeal r.temper = b.retSeal ∧
            b.temper.seq = b.retSeq ∧ s.touches (fieldAt r.directory 56 6, 0x10000) = false ∧
            sha384 c = b.temper.capsule ∧ sha384 r.flawmap = b.temper.flawmap ∧ sha384 r.image = b.temper.image))) ∧
    (∀ bad, s.open? = true → b.phase = .map →
      let reason := if b.warm then 0 else s.mapReason (flaws b.flawmap) bad
      ∃ t, exec (.bootMap bad) s = .next t ∧ (reason ≠ 0 → halts b t reason) ∧
        (reason = 0 → t = { s with boot := { b with phase := .load }, jets := t.jets, basins := t.basins, free := t.free } ∧
          ∀ k, k < 6 → (t.basin k).awake = true)) ∧
    ∀ gauges, s.open? = true → b.phase = .load →
      ∃ t, exec (.bootLoad gauges) s = .next t ∧ t.pourReady = 2 ∧ t.sluice.ready = 2 ∧ t.mem = s.mem ∧
        t.boot = { b with phase := .test } ∧
        ∀ j, s.present j = true → (t.jet j).awake = true ∧
          (b.warm = false → (s.jet j).bad = false → (t.jet j).codes.take 5 = List.replicate 5 1) ∧
          (b.warm = true → s.pinned j = none → (t.jet j).codes.take 5 = ((Tab.get {} b.temper.jets j : Jet).codes).take 5) ∧
          (t.jet j).resetting = s.pinned j

/-- STATION_SELF_TEST_DONE, TEST_END, SOAK_SWEEP_DONE and SOAK_END (R108, R314, R348, R349, R355 to R358): a station
that passes with every unit in use sound or spared is READY alone; a Wellspring whose banks fail is FAILED, once no
other fault is handled; the end of TEST opens RUN, or the soak; sweep 0 writes within the soak areas; at the soak's end
the jets that disagree with the majority are marked, and whether all agree with the directory, and the record is due
whose write ends the soak (TemperRecordIsSealed). The layout of the soak area and what a bad area leaves are the model's
readings (logs 36 and 61 to 64). -/
def Obligations.TestAndSoakSettle : Prop :=
  (∀ (s : State) (jet spares : Nat) (st : Station), s.Inv → s.present jet = true →
    let e := s.engine jet
    let others (t : State) : Prop := ∀ j, j ≠ e → t.jet j = { s.jet j with well := (t.jet j).well }
    s.selfTests e (stationNo st) = true →
    (st ≠ .wellspring → ((s.loseSpares jet st spares).jet e).unspared = false →
      ∃ t, exec (.stationSelfTestDone jet st true false spares) s = .next t ∧ t.mem = s.mem ∧ t.boot = s.boot ∧
      nth (t.jet e).codes (stationNo st) 0 = 2 ∧ (∀ k, k ≠ stationNo st → nth (t.jet e).codes k 0 = nth (s.jet e).codes k 0) ∧
      others t) ∧
    (st = .wellspring → s.handling = false →
      ∃ t, exec (.stationSelfTestDone jet st false true spares) s = .next t ∧ t.mem = s.mem ∧ t.boot = s.boot ∧
      nth (t.jet e).codes 5 0 = 3 ∧ others t)) ∧
  (∀ s : State, s.Inv → s.open? = true → s.boot.phase = .test → s.settled = true →
    let due := s.boot.temperDue || !s.boot.warm
    (s.boot.soakReq = false → exec .testEnd s = .next { s with boot := { s.boot with phase := .run, temperDue := due } }) ∧
    (s.boot.soakReq = true → s.soakBad = true → exec .testEnd s = .next { s with boot := { s.boot with
      phase := .run, temperDue := due, soakFail := true, soakStat := 2 ^ 26 } }) ∧
    (s.boot.soakReq = true → s.soakBad = false → ∃ t, exec .testEnd s = .next t ∧ s.OnlyRecords { t with boot := s.boot } ∧
      t.boot = { s.boot with phase := .soak, temperDue := due, sweep := 0, soakJets := t.boot.soakJets } ∧
      ∀ j, j ∈ t.boot.soakJets ↔ s.present j = true ∧ ∀ k ∈ [1, 3, 4], s.code j k = 2)) ∧
  ∀ s : State, s.Inv → s.open? = true → s.boot.phase = .soak → s.boot.soakOver = false →
    (s.boot.sweep ≤ s.soakSweeps → ∃ t, exec .soakSweepDone s = .next t ∧
      t = { s with mem := t.mem, free := t.free, boot := { s.boot with sweep := s.boot.sweep + 1 } } ∧
      (s.boot.sweep = 0 → s.WritesOnly t (s.boot.soakJets.map fun j => (stackAddr j s.soakBase, s.soakLen)))) ∧
    (s.soakSweeps < s.boot.sweep →
      let digest (j : Nat) : List Byte := s.soakDigest (stackAddr j s.soakBase) (soakParams s.soakLen) s.soakSweeps
      let agree (d : List Byte) : Nat := (s.boot.soakJets.filter fun j => digest j == d).length
      let most (d : List Byte) : Prop := s.boot.soakJets.length < 2 * agree d
      let expect := sliceAt s.boot.directory 96 16
      ∃ t, exec .soakEnd s = .next t ∧ t.mem = s.mem ∧
        t.boot = { s.boot with soakOver := true, soakStat := t.boot.soakStat, temperDue := true, soakJets := [] } ∧
        (∀ j, j < 24 → (bit t.boot.soakStat j = true ↔ j ∈ s.boot.soakJets ∧ ∃ d, most d ∧ d ≠ digest j)) ∧
        (bit t.boot.soakStat 24 = true ↔ zeros expect 0 16 = false ∧ ∃ d, most d ∧ d ≠ expect) ∧
        (bit t.boot.soakStat 25 = true ↔ ∀ d, ¬most d))

/-- TEMPER_WRITE and TEMPER_WRITE_DONE (R351, R352, R353, R358, R372): VALID is clear from the first byte of a write of
the record to its end, when the sequence number has advanced by one, is the record's, and the seal is that of what was
written, so that the record matches; the end of the write that a soak made due is the end of the soak; a Warden that has
stopped writes nothing, and nothing is written before the end of TEST. The bytes of the record after KIND and VERSION are free values (log 14). -/
def Obligations.TemperRecordIsSealed : Prop :=
  (∀ s : State, s.wardenCopies.stopped = true → exec .temperWrite s = .next s ∧ exec .temperWriteDone s = .next s) ∧
  (∀ s : State, s.boot.phase = .test → exec .temperWrite s = .next s) ∧
  (∀ s : State, s.Inv → s.live = true → s.boot.phase ≠ .test → s.wardenCopies.stopped = false → s.boot.temperWriting = false →
    (s.boot.temperDue = true ∨ (s.boot.ageDue = true ∧ s.boot.temperAt + 500000000 ≤ s.aon)) →
    let a := fieldAt s.boot.directory 56 6
    ∃ t, exec .temperWrite s = .next t ∧
      (∃ u, s.Stores u [(a, 0x10000)] ∧ t = { u with free := t.free, boot := t.boot }) ∧
      t.boot = { s.boot with
        retValid := false, temperWriting := true, temperDue := false, ageDue := false, temper := t.boot.temper
        newSeal := t.boot.newSeal } ∧
      t.boot.temper.seq = s.boot.retSeq + 1 ∧ t.boot.temper.capsule = sha384 s.boot.capsule ∧
      t.boot.temper.flawmap = sha384 s.boot.flawmap ∧ t.boot.temper.image = sha384 s.boot.image ∧
      (s.touches (a, 0x10000) = false → t.boot.newSeal = s.temperSeal (memRead t.mem a 0x10000) ∧
        memRead t.mem a 2 = [0x40#8, 1#8])) ∧
  ∀ s : State, s.Inv → s.open? = true → s.boot.temperWriting = true → s.wardenCopies.stopped = false →
    let sealed : Boot := { s.boot with
      retValid := true, retSeq := s.boot.retSeq + 1, retSeal := s.boot.newSeal, temperWriting := false, temperAt := s.aon }
    (s.boot.soakOver = false ∨ s.boot.temperDue = true → exec .temperWriteDone s = .next { s with boot := sealed }) ∧
    (s.boot.soakOver = true → s.boot.temperDue = false → ∃ t, exec .temperWriteDone s = .next t ∧
      s.OnlyRecords { t with boot := s.boot } ∧
      t.boot = { sealed with phase := .run, soakOver := false, soakDone := true, soakFail := decide (s.boot.soakStat ≠ 0) })

/-! ## Sleep, wake, freeze and thaw -/

/-- JET_SLEEP, BASIN_SLEEP, MZ_WAKE and WAKE_DONE (R295, R397, R398, R426, R432): a part that is idle while MZ_WAKE is
low stops, with its basin's refresh handed back where it is a wellspring jet, and its registers are held; no part stops
while MZ_WAKE is high; every sleeping part wakes at its rise, and runs when its wake is done, with its registers live
again; no descriptor and no byte of memory changes. That the idle time has passed when the command comes, and that MZ_WAKE
turns the level of its pin round, are the model's (logs 7 and 78). -/
def Obligations.SleepAndWake : Prop :=
  ∀ s : State, s.Inv → s.live = true →
    (∀ jet, s.present jet = true → s.clocks.sleepIdle ≠ 0 →
      let e := s.engine jet
      let x := s.jet e
      x.awake = true → x.resetting = none → x.halted = false → x.halting = false → s.engineIdle e = true → s.wellsIdle e = true →
      (s.clocks.wake = true → exec (.jetSleep jet) s = .next s) ∧
      (s.clocks.wake = false → ∃ t, exec (.jetSleep jet) s = .next t ∧ t = { s with jets := t.jets, basins := t.basins, free := t.free } ∧ (t.jet e).awake = false ∧
        (∀ k, k ≠ e → t.jet k = { s.jet k with well := (t.jet k).well, asleep := (t.jet k).asleep }) ∧
        (∀ k, k < 24 → s.engine k = e → (t.jet k).asleep = some (s.heldRegs k)) ∧
        ∀ k, s.wellspring k = true → s.engine k = e → (t.basin (k / 4)).rfhOwn = false)) ∧
    (∀ b, b < 6 → s.clocks.sleepIdle ≠ 0 → (s.basin b).awake = true → (s.basin b).resetting = none → (s.basin b).halted = false →
      (s.basin b).halting = false → bit s.clocks.basinHold b = false → s.jetsAsleep b = true →
      s.ringWork b = false → s.recordsWait b = false →
      (s.clocks.wake = true → exec (.basinSleep b) s = .next s) ∧
      (s.clocks.wake = false → ∃ t, exec (.basinSleep b) s = .next t ∧ s.OnlyBasin t b { s.basin b with awake := false })) ∧
    (s.clocks.wake = false → ∃ t, exec .mzWake s = .next t ∧ s.OnlyWakes { t with clocks := s.clocks } ∧
      t.clocks = { s.clocks with wake := true } ∧ (∀ b, b < 6 → (s.basin b).awake = false → (t.basin b).waking = true) ∧
      ∀ j, s.present j = true → (s.jet (s.engine j)).awake = false → (t.jet (s.engine j)).waking = true) ∧
    (s.clocks.wake = true → exec .mzWake s = .next { s with clocks := { s.clocks with wake := false } }) ∧
    (∀ b, (s.basin b).waking = true →
      ∃ t, exec (.wakeDone true b) s = .next t ∧ s.OnlyBasin t b { s.basin b with awake := true, waking := false }) ∧
    ∀ j, (s.jet j).waking = true → ∃ t, exec (.wakeDone false j) s = .next t ∧ t = { s with jets := t.jets, basins := t.basins, free := t.free } ∧
      (t.jet j).awake = true ∧ (t.jet j).waking = false ∧
      (∀ k, k < 24 → s.engine k = j → (t.jet k).asleep = none ∧ ((s.jet k).clearDue = true →
        (t.jet k).transient = 0 ∧ (t.jet k).corrected = 0)) ∧
      ∀ k, k ≠ j → s.engine k ≠ j → t.jet k = { s.jet k with well := (t.jet k).well }

/-- FREEZE, FREEZE_CLOCKS_STOP and THAW (R296, R401, R403, R404): refresh is handed back at once, the clocks stop after
it, and fetches, tiles, completions, rills, refreshes, drains, patrol reads, sleep, temper writes and TEST_END do
nothing until the thaw, which, where no answer was lost and no register access waits, changes no memory and no tenancy,
and no descriptor either where no reset was held. A part whose next tile waited for its operands meets a class 0Ah error, since their
answer is lost (R402; log 25). What a pin that moves during the freeze does is the model's reading
(log 71). -/
def Obligations.FreezeAndThaw : Prop :=
  ∀ s : State, s.Inv →
    (s.clocks.rst = false → s.clocks.freeze = .off → ∃ t, exec .freeze s = .next t ∧
      t = { s with clocks := { s.clocks with freeze := .stopping }, jets := t.jets, basins := t.basins, free := t.free } ∧
      (∀ b, b < 6 → (t.basin b).rfhOwn = false) ∧ (∀ b, t.basin b = { s.basin b with rfhOwn := (t.basin b).rfhOwn }) ∧
      ∀ j, t.jet j = { s.jet j with well := (t.jet j).well }) ∧
    (s.clocks.freeze = .stopping → exec .freezeClocksStop s = .next { s with
      free := s.free + 1, clocks := { s.clocks with freeze := .frozen } }) ∧
    (s.clocks.freeze ≠ .off → (∃ t, exec .thaw s = .next t) ∧
      (s.clocks.waiting = [] → s.clocks.late = [] → (s.clocks.freeze = .stopping ∨ (s.reqs = [] ∧ s.starving = [])) →
        ∃ t, exec .thaw s = .next t ∧ t.clocks = { s.clocks with freeze := .off } ∧
        s.ResetOnly { t with clocks := s.clocks } ∧
        ((∀ j, (s.jet j).pinDue = false ∧ (s.jet j).resetting = none) → (∀ b, (s.basin b).pinDue = false ∧ (s.basin b).resetting = none) →
          t = { s with clocks := t.clocks, jets := t.jets, basins := t.basins, free := t.free } ∧
          (∀ j, t.jet j = { s.jet j with well := (t.jet j).well, waking := (t.jet j).waking }) ∧
          ∀ b, t.basin b = { s.basin b with rfhOwn := (t.basin b).rfhOwn, waking := (t.basin b).waking }))) ∧
    (∀ j p, s.clocks.freeze = .frozen → s.clocks.waiting = [] → s.clocks.late = [] → s.reqs = [] → s.starving = [(j, p)] →
      (∀ k, (s.jet k).pinDue = false ∧ (s.jet k).resetting = none) → (∀ b, (s.basin b).pinDue = false ∧ (s.basin b).resetting = none) →
      s.job j.ring j.seq = some j → j.partOn p.jet = some p → j.partDone p = false →
      ∃ t, exec .thaw s = .next t ∧ t.mem = s.mem ∧ ∃ k : Job, t.job j.ring j.seq = some k ∧
        k.partOn p.jet = some { p with ended := some (.fault, 0x0A), inFlight := [] }) ∧
    (s.clocks.freeze ≠ .off → s.clocks.rst = false →
      ∀ (r : Nat) (q : Word) (j b : Nat), ∀ c ∈ [Instr.descriptorFetch b, .tileStart r q j, .descriptorComplete r q, .rillStart j,
        .rillWord j, .refreshIssue j b, .gemvDrainDone j, .patrolRead j, .jetSleep j, .basinSleep b, .temperWrite, .testEnd], exec c s = .next s)

/-! ## Refresh and the command lane (R290 to R300, R418, R419) -/

/-- TAKE_ACK, REFRESH_TICK, REFRESH_ISSUE, OPACK, BANK_IDLE and PEND: the acknowledgement of a take-back makes every
debt 7; a debt rises by 1 at a tick and falls by 1 when the refresh completes; no bank whose debt is 0 is refreshed;
banks that are held become idle, and a pending access to a bank is kept. The bank that an unknown OPACK is charged to,
and the list of pending banks, are the model's (logs 32 and 41). -/
def Obligations.RefreshKeepsItsDebts : Prop :=
  (∀ (s : State) (b : Nat), s.Inv → s.open? = true →
    ((s.basin b).rfhOwn = false → exec (.takeAck b) s = .next s) ∧
    ((s.basin b).rfhOwn = true → (∃ j ∈ s.wellJets b, (s.well j).taken = false) →
      ∃ t, exec (.takeAck b) s = .next t ∧ t = { s with jets := t.jets } ∧ (∀ j, j ∉ s.wellJets b → t.jet j = s.jet j) ∧
        ∀ j ∈ s.wellJets b, t.jet j = { s.jet j with well := { s.well j with
            taken := true, debts := (t.well j).debts, firsts := (t.well j).firsts } } ∧
          ∀ k, k < 512 → (t.well j).debt k = 7 ∧ Tab.get 0 (t.well j).firsts k = 2)) ∧
  ∀ (s : State) (jet : Nat), s.Inv → s.live = true → s.wellspring jet = true → (s.basin (jet / 4)).rfhOwn = true →
    let w := s.well jet
    Tab.wf 0 w.debts = true →
    (∀ bank, bank < 512 → ∃ t, exec (.refreshTick jet bank) s = .next t ∧
      s.OnlyWell t jet { w with debts := (t.well jet).debts } ∧ Tab.Only 0 w.debts (t.well jet).debts bank (w.debt bank + 1)) ∧
    (∀ bank, w.debt bank = 0 → exec (.refreshIssue jet bank) s = .next s) ∧
    (∀ bank, w.running.isSome = true → w.suspended = false → exec (.refreshIssue jet bank) s = .next s) ∧
    (∀ bank, w.taken = true → w.refreshes = true → w.nextRefresh (bank / 16) = some bank →
      (w.ops.filter fun o => o.bank.any (· / 16 == bank / 16)).length < 4 →
      1 ≤ w.debt bank ∧ ∃ t, exec (.refreshIssue jet bank) s = .next t ∧
        s.OnlyWell t jet { w with ops := w.ops ++ [{ number := w.opNext, bank := some bank }], opNext := w.opNext + 1 }) ∧
    (∀ (o : LaneOp) (bank : Nat), w.ops.find? (·.number == o.number) = some o → o.bank = some bank →
      ∃ t, exec (.opack jet o.number false) s = .next t ∧ t.mem = s.mem ∧ t.jobs = s.jobs ∧ t.regions = s.regions ∧
        (∀ j, j ≠ jet → t.well j = { s.well j with tallies := (t.well j).tallies }) ∧ Tab.Only 0 w.debts (t.well jet).debts bank (w.debt bank - 1) ∧
        (t.well jet).ops = w.ops.filter (·.number != o.number)) ∧
    (∀ number late, (∀ o ∈ w.ops, o.number ≠ number) →
      exec (.opack jet number late) s = .next (s.detected .bank jet 0 none)) ∧
    (∀ channel mask, ∃ t, exec (.bankIdle jet channel mask) s = .next t ∧
      s.OnlyWell t jet { w with idle := (t.well jet).idle } ∧
      ∀ b, b ∈ (t.well jet).idle ↔ b ∈ w.idle ∨ (b ∈ w.held ∧ b / 16 = channel ∧ mask.getLsbD (b % 16) = true)) ∧
    ∀ bank, bank < 512 →
      (bank ∈ w.pend → exec (.pend jet bank) s = .next s) ∧
      (bank ∉ w.pend → ∃ t, exec (.pend jet bank) s = .next t ∧ s.OnlyWell t jet { w with pend := w.pend ++ [bank] })

/-! ## Rills (R271 to R276, R280, R283, R293, R299) -/

/-- RILL_START and RILL_WORD: a rill starts when its words are read, every debt is 5 or less, no access to a bank it addresses
is pending, its engine runs, is under no test and in no adoption, and the lane is clear; a word runs once every held bank is idle. A
row operation writes the row of each bank of the set and no other byte; a counting word changes the tallies of those
banks and no byte of memory; SELECT is no operation on the lane. -/
def Obligations.RillsRunWordByWord : Prop :=
  ∀ (s : State) (jet : Nat), s.Inv → s.live = true → s.wellReady jet = true →
    let w := s.well jet
    (∀ r rest, s.runs jet = true → s.underTest (s.engine jet) = false → s.inAdoption jet = false → w.rills = r :: rest → w.running = none →
      s.readsDue r.ring r.seq = false → w.copying = [] → (∀ o ∈ w.ops, o.bank = none) → (∀ d ∈ w.drains, d.ring = r.ring ∧ d.seq = r.seq) →
      ((∀ b ∈ w.pend, b ∉ r.addressed) → (∀ x ∈ w.debts, x.2 ≤ 5) → ∃ t, exec (.rillStart jet) s = .next t ∧ s.OnlyWell t jet { w with
        rills := rest, running := some r, held := r.addressed, idle := [], suspended := false }) ∧
      ((∃ b ∈ w.pend, b ∈ r.addressed) ∨ (∃ x ∈ w.debts, 5 < x.2) → exec (.rillStart jet) s = .next s)) ∧
    ∀ r o j, s.underTest (s.engine jet) = false → w.running = some r → r.word = some o → s.job r.ring r.seq = some j → w.suspended = false →
      (∀ b ∈ w.held, b ∈ w.idle) → w.drainDue o = false → Tab.wf [] w.tallies = true → (∀ x ∈ w.tallies, x.2.length = 512) →
      ∃ t, exec (.rillWord jet) s = .next t ∧ t = { s with mem := t.mem, free := t.free, jobs := t.jobs, jets := t.jets } ∧
        (∀ k, k ≠ jet → t.jet k = s.jet k) ∧ t.jet jet = { s.jet jet with well := t.well jet } ∧
        (t.well jet).rills = w.rills ∧ (t.well jet).debts = w.debts ∧
        (∀ q, (t.well jet).running = some q → q.ops = r.ops ∧ q.done = r.done + 1) ∧
        (laneWord o = true → (t.well jet).ops = w.ops ++ [{ number := w.opNext }] ∧ (t.well jet).opNext = w.opNext + 1) ∧
        let only (u : List Nat) (set : Nat) : Prop := t.mem = s.mem ∧
          ∀ b k, b < 512 → k < 2 → (b ∉ u ∨ k ≠ set) → (t.well jet).tally b k = w.tally b k
        (match o with
        | .word x =>
          let op := bits x 0 6
          let banks := bankSet r.pcs r.positions
          let set := bits x 6 1
          let d := bits x 40 14
          let row (b n : Nat) : List Byte := s.row jet b (bits x n 14)
          (op = 1 → t.mem = s.mem ∧ t.jobs = s.jobs ∧ (t.well jet).tallies = w.tallies ∧ (t.well jet).ops = w.ops ∧
            ∀ q, (t.well jet).running = some q → q.pcs = bits x 6 32 ∧ q.positions = bits x 38 16) ∧
          (op ≠ 1 → t.job r.ring r.seq = some (j.updPart jet fun p => { p with committed := p.committed + 1 })) ∧
          (op ∈ [0x08, 0x09, 0x0A, 0x0B, 0x0C] → (t.well jet).tallies = w.tallies ∧
            s.WritesOnly t (banks.map fun b => (stackAddr jet (bankOffset d b 0), 0x2000)) ∧
            ∀ b ∈ banks, t.row jet b d = rowValue op (row b 12) (row b 26)) ∧
          (op = 0x10 → only banks set ∧ ∀ b ∈ banks, (t.well jet).tally b set =
            gain (bit x 7) (2 ^ bits x 8 4) (w.tally b set) (segmentCounts (List.zipWith (· &&& ·) (row b 12) (row b 26)))) ∧
          (op = 0x11 → only banks set ∧ ∀ b ∈ banks, (t.well jet).tally b set =
            gain (bit x 7) (2 ^ bits x 8 4) (w.tally b set) (segmentCounts (row b 12))) ∧
          (op = 0x18 → only banks set ∧ ∀ b ∈ banks, (t.well jet).tally b set = List.replicate 512 0) ∧
          (op = 0x19 → only banks set ∧ ∀ b ∈ banks, ∀ m, m < 512 → nth ((t.well jet).tally b set) m 0 =
            ((banks.filter fun c => c / 16 == b / 16 && c ≤ b).map fun c => nth (w.tally c set) m 0).sum % 2 ^ 32) ∧
          (op = 0x1A → (t.well jet).tallies = w.tallies ∧
            let part (b : Nat) : Nat := stackAddr jet (bankOffset d b (2048 * bits x 8 2))
            s.WritesOnly t (banks.map fun b => (part b, 2048)) ∧
            ∀ b ∈ banks, t.read (part b) 2048 = (w.tally b set).flatMap (leBytes 4))
        | .replica row vec phase plane => (t.well jet).tallies = w.tallies ∧ t.jobs = s.jobs ∧
          s.WritesOnly t [(stackAddr jet (bankOffset row 0 0), 0x400000)] ∧
          ∀ b, b < 512 → t.row jet b row = replicaRow (s.activations j vec) (gemvCols j.desc) phase plane
        | .product _ k b c => t.jobs = s.jobs ∧
          let p := (j.partOn jet).getD { jet := jet }
          let e := j.ent 24
          let sr := (j.ent 27).base / 0x400000
          let mine := (List.range 512).filter fun bank => 512 * k + bank < rowGroups p.count
          only mine (k % 2) ∧ ∀ bank ∈ mine, (t.well jet).tally bank (k % 2) =
            gain (productSign j.gemv.xfmt b c) (2 ^ (b + c))
              (if b = 0 ∧ c = 0 then List.replicate 512 0 else w.tally bank (k % 2))
              (segmentCounts (List.zipWith (· &&& ·)
                (s.row jet bank (planeRow (e.slotBase (j.readSlot e)) (512 * k + bank) b))
                (s.row jet bank (sr + xWidth j.gemv.xfmt * ((512 * k + bank) % j.gemv.phases) + c)))))

/-! ## Drains, the patrol, seals and spare banks (R284, R304, R308 to R313) -/

/-- GEMV_DRAIN_DONE, PATROL_READ, SEAL_REPORT and BANK_COPY_DONE: a drain takes its step off the list and writes the outputs
of its own weight rows, each the sum of its segments' scales and tallies times ALPHA, rounded once (R284, R285); the patrol writes nothing and clears no mark; a seal report breaks every slot that the write
touched; a bank that is copied costs a spare, breaks every plane slot of the jet and loses no row that the chip's check
path serves. What a report writes is free, and the order of the patrol's checks and which rows are lost are the model's
readings (logs 31, 40 and 115). -/
def Obligations.DrainsPatrolsAndSeals : Prop :=
  ∀ (s : State) (jet : Nat), s.Inv → s.live = true →
    let w := s.well jet
    (∀ dr rest j p, w.drains = dr :: rest → s.job dr.ring dr.seq = some j → j.partOn jet = some p → s.wellReady jet = true →
      let y := j.ent 26
      let n := (gemvFmt j.desc).width / 8
      let rows := rowsDone (gemvCols j.desc) p dr.stepNo
      s.scaleFault j p rows = none → s.underTest (s.engine jet) = false →
      let cols := gemvCols j.desc
      let scales : List (Nat × Nat) := rows.flatMap fun i => (List.range (cols / 128)).map fun m =>
        let x := i * cols - p.first + 128 * m
        let (bank, row, _, u) := planePlace ((j.ent 24).slotBase (j.readSlot (j.ent 24))) (x / 4096)
        (stackAddr jet (bankOffset (row + 32) bank (64 * u + 2 * (x % 4096 / 128))), 2)
      let g := s.drained j p dr.stepNo
      let laid : List Laid := rows.map fun i => y.lays 0 ((dr.vec * gemvRows j.desc + i) * n)
        (leBytes n (rowOutput (gemvFmt j.desc) (gemvRnd j.desc) (rowAccumulator (s.rowTerms j g p i)) (nth g.alphas dr.vec 0)).1)
      s.inMemory scales →
      ∃ t, exec (.gemvDrainDone jet) s = .next t ∧
        let stored := placesOf laid
        (s.Apart laid → (∀ x ∈ scales, ∀ z ∈ stored, clear x z) → ∀ x ∈ laid, t.holds x) ∧
        (∃ u, s.Stores u stored ∧ t = { u with
          jobs := t.jobs, jets := t.jets, reqs := t.reqs, census := t.census, free := t.free }) ∧
        (s.unwatched stored → s.OnlyWell { t with mem := s.mem, jobs := s.jobs, reqs := s.reqs, census := s.census, free := s.free } jet
          { w with drains := rest, tallies := (t.well jet).tallies }) ∧
        (({ w with drains := rest } : Well).has dr.ring dr.seq = true → (t.well jet).tallies = w.tallies) ∧
        (s.unwatched stored → ∃ (k : Job) (q : Part), t.job dr.ring dr.seq = some k ∧ k.partOn jet = some q ∧
          q = { p with committed := p.committed + min 512 (rowGroups p.count - 512 * dr.stepNo) })) ∧
    (∀ r, s.wellspring jet = true → s.runs jet = true → (s.basin (jet / 4)).rfhOwn = true → s.stackHeld jet = false →
      s.underTest (s.engine jet) = false →
      s.patrolRow jet = some r → ∃ t, exec (.patrolRead jet) s = .next t ∧ t.mem = s.mem ∧ s.OnlyMarks t ∧
        (t.well jet).patrol = r + 1 ∧ ((∀ x ∈ s.patrolSlots jet, rowIn x.2.1 x.2.2 r = true →
          ∀ n ∈ tilesCompleted x.2.1 x.2.2 r, s.tileFault x.2.1 x.2.2 jet n = none) → s.OnlyWell t jet { w with patrol := r + 1 })) ∧
    (∀ offset enables, (s.jet (s.engine jet)).inReset = false → (s.jet (s.engine jet)).halted = false →
      let o := offset / 64 * 64
      let touches (e : RegionEntry) (slot : Nat) : Prop := e.sealKind = 1 ∧ e.loc = 0 ∧ bit e.jets jet = true ∧ slot ∈ e.slotList ∧
        ∃ i, i < 64 ∧ enables.getLsbD i = true ∧ e.slotBase slot ≤ o + i ∧ o + i < e.slotBase slot + e.length
      ((∃ x ∈ s.regions, ∃ slot, touches x.2 slot) → ∃ t, exec (.sealReport jet offset enables) s = .next t ∧ s.OnlyMarks t ∧
        (∀ a, (∀ i, i < 64 → enables.getLsbD i = true → a ≠ stackAddr jet (o + i)) → memGet t.mem a = memGet s.mem a) ∧
        ∀ x ∈ s.regions, ∀ slot, touches x.2 slot →
          (if slot = 0 then (Tab.get {} t.regions x.1 : RegionEntry).broken0 else (Tab.get {} t.regions x.1 : RegionEntry).broken1) = true) ∧
      ((∀ x ∈ s.regions, ∀ slot, ¬touches x.2 slot) → exec (.sealReport jet offset enables) s = .next s)) ∧
    ∀ bank rest, w.copying = bank :: rest → bank / 16 < w.spares.length → (s.jet (s.engine jet)).inReset = false →
      ∃ t, exec (.bankCopyDone jet) s = .next t ∧ t.jobs = s.jobs ∧ t.boot = { s.boot with temperDue := true } ∧ s.OnlyMarks t ∧
        (t.well jet).copying = rest ∧ nth (t.well jet).spares (bank / 16) 0 = nth w.spares (bank / 16) 0 - 1 ∧
        (∀ k, (Tab.get {} s.regions k : RegionEntry).kind = 6 → bit (Tab.get {} s.regions k : RegionEntry).jets jet = true →
          (Tab.get {} t.regions k : RegionEntry).broken0 = true ∧ (Tab.get {} t.regions k : RegionEntry).broken1 = true) ∧
        ∀ a, (∀ x ∈ s.regions, x.2.sealKind ≠ 0 → x.2.loc = 0 → bit x.2.jets jet = true → ∀ k ∈ x.2.slotList, ∀ r o,
          x.2.slotBase k ≤ o → o < x.2.slotBase k + x.2.length → bankOffset r bank 0 ≤ o → o < bankOffset r bank 0 + 0x2000 →
          a ≠ stackAddr jet o) → memGet t.mem a = memGet s.mem a

/-! ## The landing tap (R201 to R212, R417) -/

/-- LANDING_WRITE and FLUSH_ACK: the enabled bytes of a beat are stored, and no other; a beat of a landing that is open
is reckoned in its block and its elements are counted; one that is not is stray; one that the Weir does not take leaves
its block ragged; a flush acknowledgement takes the jet off the list of the oldest METER that waits on it, where the
Weir takes it, and the deferred blocks of the jet are read (R205). That the beat is stored and reckoned in one step, and that the block of a lost beat is ragged whatever
else it gets, are the model's choices (logs 20 and 105). -/
def Obligations.LandingWritesAreReckoned : Prop :=
  ∀ (s : State) (jet : Nat), s.Inv →
    (∀ offset enables data tag key e,
      let c := Instr.landingWrite jet offset enables data tag
      let o := offset / 64 * 64
      let a := stackAddr jet o
      let x := s.shard e.shard
      let k := (o - e.base) / e.blockBytes
      let held := !s.open? || (s.jet (s.engine jet)).inReset || (s.jet (s.engine jet)).halted
      let n := ((elementEnables (e.width / 8) enables).filter fun l => l.any id).length
      let ok := wellFormedWrite e enables tag
      (s.landingAt jet o = none → exec c s = .next s) ∧
      (s.landingAt jet o = some (key, e) → ∃ t, exec c s = .next t ∧
        (∀ i, i < 64 → memGet t.mem (a + i) = if enables.getLsbD i then data.getD i 0#8 else memGet s.mem (a + i)) ∧
        s.WritesOnly t [(a, 64)] ∧
        (enables = 0 ∨ (held = true ∧ s.landingOpen e.shard jet = false) → t = { s with mem := t.mem }) ∧
        (enables ≠ 0 → held = true → s.landingOpen e.shard jet = true → Tab.wf {} (s.jet jet).ledger = true →
          s.OnlyJet { t with mem := s.mem } jet { s.jet jet with ledger := (t.jet jet).ledger } ∧
          Tab.Only {} (s.jet jet).ledger (t.jet jet).ledger (blockKey key k) { s.block jet key k with present := true, ragged := true }) ∧
        (enables ≠ 0 → held = false → s.landingOpen e.shard jet = true → Tab.wf {} (s.jet jet).ledger = true →
          Tab.wf 0 x.landing = true →
          let b := s.block jet key k
          let d := t.block jet key k
          let opened := if b.present then b.opened else decide ((s.jet jet).openBlocks < 1024)
          let codes := beatCodes (e.width / 8) enables data
          let f := e.fmt.getD .f32
          let count := if ok then landedCounter e.format else 5
          t = { s with mem := t.mem, jets := t.jets, shards := t.shards } ∧
          s.OnlyJet { t with mem := s.mem, shards := s.shards } jet { s.jet jet with ledger := (t.jet jet).ledger } ∧
          Tab.Only {} (s.jet jet).ledger (t.jet jet).ledger (blockKey key k) d ∧
          s.OnlyShard { t with mem := s.mem, jets := s.jets } e.shard { x with landing := (t.shard e.shard).landing } ∧
          Tab.Only 0 x.landing (t.shard e.shard).landing count (min (Tab.get 0 x.landing count + n) (2 ^ 48 - 1)) ∧
          d.present = true ∧ d.landed = b.landed + popcount 64 enables.toNat ∧
          (d.ragged = true ↔ b.ragged = true ∨ ok = false ∨ e.blockBytes < d.landed) ∧
          (ok = true → opened = true → d.sum = addSquares f b.sum codes ∧ d.nonFinite = b.nonFinite + nonFiniteCodes f codes ∧
            (b.landed < e.blockBytes → d.landed = e.blockBytes → d.value = some (roundF32 d.sum) ∧ d.opened = false))) ∧
        (enables ≠ 0 → held = false → s.landingOpen e.shard jet = false → Tab.wf 0 x.landing = true →
          (x.isOpen = false ∨ (s.jet (s.engine jet)).awake = true → t.jets = s.jets) ∧
          (x.isOpen = true → (s.jet (s.engine jet)).awake = false →
            Tab.Only {} s.jets t.jets jet { s.jet jet with naps := Tab.upd 0 (s.jet jet).naps e.shard (· + 1) }) ∧
          t.jobs = s.jobs ∧ (∀ m, m ≠ e.shard → t.shard m = s.shard m) ∧
          t.shard e.shard = { x with straySeen := true, landing := (t.shard e.shard).landing } ∧
          (x.isOpen = false → (t.shard e.shard).landing = x.landing) ∧
          (x.isOpen = true → Tab.Only 0 x.landing (t.shard e.shard).landing 11 (min (Tab.get 0 x.landing 11 + 1) (2 ^ 48 - 1))) ∧
          (x.straySeen = true → t.sluice = s.sluice ∧ t.basins = s.basins)))) ∧
    ((s.jet (s.engine jet)).inReset = true ∨ (s.jet (s.engine jet)).halted = true → exec (.flushAck jet) s = .next s) ∧
    (s.open? = true → (s.jet (s.engine jet)).inReset = false → (s.jet (s.engine jet)).halted = false →
      (∀ j, (s.jobs.find? fun x => x.wait == .meter && x.flush.contains jet) = some j →
        exec (.flushAck jet) s = .next { s with
          jobs := s.jobs.map fun x => if x.ring = j.ring ∧ x.seq = j.seq then { x with flush := x.flush.erase jet } else x
          reqs := s.reqs ++ if s.deferredOn (shardOf j.desc) jet then
            [{ stack := true, place := jet, purpose := .operand j.ring j.seq }] else [] }) ∧
      ((∀ x ∈ s.jobs, x.wait = .meter → jet ∉ x.flush) → exec (.flushAck jet) s = .next s))

/-! ## Ports (R123, R189, R325, R328, R332, R414, R420) -/

/-- STACK_RESPONSE, FABRIC_RESPONSE and SLUICE_WRITE (R123, R189, R325, R328, R332, R402, R414, R420): operands that are
read let a part go on, and those that cannot be read end it FAULT, class 0Ah, or the descriptor where it has no part for
them; an acknowledged write is forgotten, and a record that failed leaves the bytes it replaced; a response to a frozen
block is lost; the oldest record of a queue is written at its place in its log, or, where the log is disabled, dropped
and, if it is an error record, counted. That a response to a frozen block shows at the thaw, that a failed data store
leaves its bytes, that a SLUICE_WRITE wakes its basin, and what one of a disabled log counts, are the model's readings (logs 25, 33,
38 and 99). A read that a descriptor made at its acceptance, or for METER, is listed: it is answered before those of its tiles. -/
def Obligations.PortsAreAnswered : Prop :=
  (∀ (s : State) (place : Nat) (request : RequestFor) (status : PortStatus), s.clocks.rst = false → s.clocks.freeze = .frozen →
    s.present place = true →
    let late (stack : Bool) : State := if s.requestListed stack place request then s else { s with clocks := { s.clocks with
      late := s.clocks.late ++ [{ stack := stack, place := place, purpose := request }] } }
    exec (.stackResponse place request status) s = .next (late true) ∧
    exec (.fabricResponse place request status) s = .next (late false)) ∧
  ∀ s : State, s.Inv → s.clocks.rst = false → s.clocks.freeze ≠ .frozen →
    let first (a : List Request) (r : Request) (b : List Request) : Prop := s.reqs = a ++ r :: b ∧
      ∀ x ∈ a, x.stack ≠ r.stack ∨ x.place ≠ r.place ∨ x.purpose ≠ r.purpose
    let answer (r : Request) (status : PortStatus) : Instr :=
      if r.stack then .stackResponse r.place r.purpose status else .fabricResponse r.place r.purpose status
    (∀ a r b ring seq j, first a r b → r.purpose = .operand ring seq → (r.stack = true → s.present r.place = true) →
      s.job ring seq = some j → j.recorded = false →
      exec (answer r .ok) s = .next { s with reqs := a ++ b } ∧
      (j.readsAlone = true → ∃ t, exec (answer r .bad) s = .next t ∧ t.mem = s.mem ∧ t.reqs = a ++ b ∧
        ∃ k : Job, t.job ring seq = some k ∧ k.status = some (.fault, if r.stack then r.place else 0xFF, 0x0A) ∧ k.wait = .ready)) ∧
    (∀ ring seq jet j p, s.present jet = true → s.job ring seq = some j → j.recorded = false → j.partOn jet = some p →
      s.requestListed true jet (.operand ring seq) = false →
      (∃ t, exec (.stackResponse jet (.operand ring seq) .ok) s = .next t ∧ t = { s with jobs := t.jobs } ∧
        ∃ k : Job, t.job ring seq = some k ∧ k.partOn jet =
          some { p with ready := if p.ready < p.tiles ∧ p.ready < p.started + 8 then p.ready + 1 else p.ready }) ∧
      (p.ended = none → j.partDone p = false → j.movesAlone = false → ∃ t, exec (.stackResponse jet (.operand ring seq) .bad) s = .next t ∧
        t.mem = s.mem ∧ ∃ k : Job, t.job ring seq = some k ∧
          k.partOn jet = some { p with ended := some (.fault, 0x0A), inFlight := [] })) ∧
    (∀ ring seq basin j jet p, s.job ring seq = some j → j.recorded = false → s.fabricPart j basin = some jet →
      j.partOn jet = some p → s.requestListed false basin (.operand ring seq) = false →
      (∃ t, exec (.fabricResponse basin (.operand ring seq) .ok) s = .next t ∧ t = { s with jobs := t.jobs } ∧
        ∃ k : Job, t.job ring seq = some k ∧ k.partOn jet =
          some { p with ready := if p.ready < p.tiles ∧ p.ready < p.started + 8 then p.ready + 1 else p.ready }) ∧
      (j.partDone p = false → ∃ t, exec (.fabricResponse basin (.operand ring seq) .bad) s = .next t ∧
        t.mem = s.mem ∧ ∃ k : Job, t.job ring seq = some k ∧
          k.partOn jet = some { p with ended := some (.fault, 0x0A), inFlight := [] })) ∧
    (∀ ring seq basin j, s.job ring seq = some j → j.recorded = false → j.readsAlone = true → j.parts = [] →
      s.requestListed false basin (.operand ring seq) = false → ∃ t, exec (.fabricResponse basin (.operand ring seq) .bad) s = .next t ∧ t.mem = s.mem ∧
        ∃ k : Job, t.job ring seq = some k ∧ k.status = some (.fault, 0xFF, 0x0A) ∧ k.wait = .ready) ∧
    (∀ a r b ring seq, first a r b → r.purpose = .store ring seq → (r.stack = true → s.present r.place = true) →
      ∃ t, exec (answer r .ok) s = .next t ∧ t = { s with reqs := a ++ b, jobs := t.jobs } ∧
        ∀ x, x ∈ t.jobs ↔ x ∈ s.jobs ∧ (x.recorded = false ∨ t.storesDue x.ring x.seq = true)) ∧
    (∀ a r b ring seq j p, first a r b → r.purpose = .store ring seq → r.stack = true → s.present r.place = true →
      s.job ring seq = some j → j.recorded = false → j.movesAlone = false → j.partOn r.place = some p → p.ended = none →
      j.partDone p = false →
      ∃ t, exec (answer r .bad) s = .next t ∧ t.mem = s.mem ∧ t.reqs = a ++ b ∧ ∃ k : Job, t.job ring seq = some k ∧
        k.partOn r.place = some { p with ended := some (.fault, 0x0A), inFlight := [] }) ∧
    (∀ a r b ring seq, first a r b → r.purpose = .fetch ring seq → r.stack = false →
      exec (answer r .ok) s = .next { s with reqs := a ++ b } ∧
      let c := s.ring ring
      let slot := (s.recordAddr c seq, 16)
      ∃ t u, exec (answer r .bad) s = .next t ∧ s.Stores u (if (s.region c.part c.cplRegion).kind = 10 then [slot] else []) ∧
        t = { u with rings := t.rings, reqs := t.reqs } ∧ (∀ x ∈ t.reqs, x ∈ a ++ b ∨ x.purpose = .record ring seq) ∧
        Tab.Only {} s.rings t.rings ring { c with held := c.held.filter fun h => h.seq ≠ seq } ∧
        ((s.region c.part c.cplRegion).kind = 10 → s.touches slot = false → memRead t.mem slot.1 16 =
          leBytes 1 Status.fault.code ++ leBytes 1 0 ++ leBytes 1 (b2n (!seq.getLsbD c.sizeExp)) ++ leBytes 1 0xFF ++
          leBytes 4 seq.toNat ++ leBytes 4 0 ++ leBytes 4 0x0A)) ∧
    (∀ a r b ring seq, first a r b → r.purpose = .record ring seq → r.stack = false →
      exec (answer r .ok) s = .next { s with reqs := a ++ b } ∧
      ∃ t, exec (answer r .bad) s = .next t ∧
        s.OnlyRecords { t with mem := s.mem, reqs := s.reqs } ∧ t.reqs = a ++ b ∧ t.mem = memPatch s.mem r.old) ∧
    (∀ a r b, first a r b → r.purpose = .report → r.stack = false →
      exec (answer r .ok) s = .next { s with reqs := a ++ b } ∧
      exec (answer r .bad) s = .next { s with
        reqs := a ++ b, mem := memPatch s.mem r.old
        sluice := { s.sluice with drops := modAt (satAdd 32 · 1) s.sluice.drops (r.detail % 4) } }) ∧
    (∀ a r b shard group channel, first a r b → r.purpose = .catchUp shard group channel → (r.stack = true → s.present r.place = true) →
      exec (answer r .ok) s = .next { s with reqs := a ++ b } ∧
      ∃ t, exec (answer r .bad) s = .next t ∧ t.mem = memPatch s.mem r.old ∧
        t.reqs = a ++ b ∧ t.jobs = s.jobs ∧ (t.group group).oldest = none ∧ ∀ g, g ≠ group → t.group g = s.group g) ∧
    ∀ basin r rest, s.live = true → basin < 6 → (s.basin basin).queue = r :: rest →
      let log := s.logOf r
      let e := s.logRegion r
      let off := (if r.rank = 2 then 1024 else 32) * (r.seq % 2 ^ log.sizeExp)
      let stored := e.ranges 0 off r.bytes.length
      (s.basinRuns basin = true → (∀ x ∈ (s.basin basin).episode, x = 0) →
        (s.logHeld r = true → exec (.sluiceWrite basin) s = .next s) ∧
        (log.enable = true → s.logHeld r = false → ∃ t, exec (.sluiceWrite basin) s = .next t ∧
          (∃ u, s.Stores u stored ∧ t = { u with reqs := t.reqs, basins := t.basins, jets := t.jets, sluice := t.sluice }) ∧
          (s.unwatched stored → s.OnlyBasin { t with mem := s.mem, reqs := s.reqs } basin { s.basin basin with queue := rest }) ∧
          (∃ x : Request, t.reqs = s.reqs ++ [x] ∧ x.stack = false ∧ x.place = basin ∧ x.purpose = .report ∧ x.rank = r.detail % 4) ∧
          (e.loc = 1 → s.touches (e.base + off, r.bytes.length) = false → s.unwatched stored →
            memRead t.mem (e.base + off) r.bytes.length = r.bytes)) ∧
        (log.enable = false → ∃ t, exec (.sluiceWrite basin) s = .next t ∧
          s.OnlyBasin { t with sluice := s.sluice } basin { s.basin basin with queue := rest } ∧
          t.sluice = if r.rank = 1 then { s.sluice with drops := modAt (satAdd 32 · 1) s.sluice.drops 1 } else s.sluice)) ∧
      ((s.basin basin).awake = false → (s.basin basin).resetting = none →
        ∃ t, exec (.sluiceWrite basin) s = .next t ∧ s.OnlyWakes t ∧ (t.basin basin).waking = true)

/-! ## The aqueduct and ageing (R366, R369, R375, R421) -/

/-- FLIT, LANE_RETRAIN and REPLAN: a flit wakes the basin it reaches, and waits for it; a failed one is retried four times, and the fifth
failure is an error in the work that it is of; one recovered is a correction; a lane below 15 ps costs a spare, or a
lane, and below four lanes the link; a re-plan sets the margins, the guards and the voltage request by the gauges. No
byte of memory changes. The counter of a basin's corrections is the model's choice (log 27),
and so are the parts that an aqueduct error ends (log 28). -/
def Obligations.LinksAndGaugesAge : Prop :=
  (∀ (s : State) (basin direction lane : Nat), s.Inv → s.live = true → basin < 6 → direction < 2 → lane < 8 →
    let l := (s.basin basin).link direction
    let n := Tab.get 0 l.retries lane
    let link (t : State) : Link := (t.basin basin).link direction
    let keeps (t : State) : Prop := t.mem = s.mem ∧ t.jobs = s.jobs ∧ t.regions = s.regions ∧ t.shards = s.shards
    let far := if direction = 0 then (basin + 1) % 6 else (basin + 5) % 6
    let wakes (t : State) : Prop := s.OnlyWakes t ∧ ((s.basin far).awake = false → (t.basin far).waking = true)
    (l.out = false → s.laneTest basin (lane + 256 * direction) = false → (s.basin far).awake = true → Tab.wf 0 l.retries = true → ∀ work,
      (n = 0 → ∃ t, exec (.flit basin direction lane ⟨true, work⟩) s = .next t ∧ wakes t) ∧
      (0 < n → ∃ t, exec (.flit basin direction lane ⟨true, work⟩) s = .next t ∧ keeps t ∧ link t = { l with retries := (link t).retries } ∧
        Tab.Only 0 l.retries (link t).retries lane 0 ∧ (t.jet (4 * basin)).corrected = min ((s.jet (4 * basin)).corrected + 1) 65535) ∧
      (n < 4 → ∃ t, exec (.flit basin direction lane ⟨false, work⟩) s = .next t ∧
        t = { s with jets := t.jets, basins := t.basins } ∧ (∀ j, t.jet j = s.jet j) ∧
        t.basin basin = (s.basin basin).setLink direction { l with retries := (link t).retries } ∧
        (∀ k, k ≠ basin → t.basin k = { s.basin k with waking := (t.basin k).waking }) ∧
        Tab.Only 0 l.retries (link t).retries lane (n + 1)) ∧
      (4 ≤ n → ∃ t, exec (.flit basin direction lane ⟨false, work⟩) s = .next t ∧ t.mem = s.mem ∧ t.regions = s.regions ∧
        t.shards = s.shards ∧ (work = none → t.jobs = s.jobs) ∧
        (∀ ring seq, work = some (ring, seq) → s.OnlyParts t fun j p => j.ring = ring ∧ j.seq = seq ∧ p.jet ∈ j.errorParts .aqueduct basin) ∧
        Tab.Only 0 l.retries (link t).retries lane 0 ∧
        t.tests = s.tests ++ [{ cls := .aqueduct, place := basin, index := lane + 256 * direction, engine := s.engine basin }])) ∧
    (l.out = true ∨ s.laneTest basin (lane + 256 * direction) = true → ∀ arrival, exec (.flit basin direction lane arrival) s = .next s) ∧
    (l.out = false → s.laneTest basin (lane + 256 * direction) = false → (s.basin far).awake = false → ∀ arrival,
      ∃ t, exec (.flit basin direction lane arrival) s = .next t ∧ wakes t) ∧
    ∀ margin, (15 ≤ margin ∨ s.handling = true → exec (.laneRetrain basin direction lane margin) s = .next s) ∧
      (margin < 15 → s.handling = false → ∃ t, exec (.laneRetrain basin direction lane margin) s = .next t ∧ keeps t ∧
        t.boot = { s.boot with temperDue := true } ∧
        let lanes := l.lanes.lose linkSpareList lane lane
        link t = if 0 < l.spare then { l with spare := l.spare - 1, lanes := lanes }
          else { l with active := l.active - 1, out := l.out || l.active ≤ 4, lanes := lanes })) ∧
  ∀ (s : State) (gauges : List (List Nat)) (eyes : List Nat) (m : Nat → Nat), s.Inv → s.live = true →
    let works (j : Nat) : Prop := s.present j = true ∧ (s.jet (s.engine j)).awake = true
    let guard (j : Nat) : Nat := if m j < 30 ∧ (s.jet j).guard < 7 then (s.jet j).guard + 1 else (s.jet j).guard
    (∀ j, works j → m j ∈ nth gauges j [] ∧ ∀ x ∈ nth gauges j [], m j ≤ x) →
    ∃ t, exec (.replan gauges eyes) s = .next t ∧ t.mem = s.mem ∧ t.jobs = s.jobs ∧ t.shards = s.shards ∧
      (∀ j, works j → t.jet j = { s.jet j with margin := min (m j) 255, guard := guard j, exhausted := (t.jet j).exhausted }) ∧
      (∀ j, ¬works j → t.jet j = s.jet j) ∧
      ∀ b, b < 6 → (∃ j, j / 4 = b ∧ works j) → (t.basin b).linkMargin = min (nth eyes b 0) 255 ∧
        ((∃ j, j / 4 = b ∧ works j ∧ m j < 30 ∧ guard j = 7) → (t.basin b).vreq = min ((s.basin b).vreq + 1) 15) ∧
        ((∀ j, j / 4 = b → works j → 60 < m j) → (t.basin b).vreq = (s.basin b).vreq - 1) ∧
        ((∀ j, j / 4 = b → works j → 30 ≤ m j) → (∃ j, j / 4 = b ∧ works j ∧ m j ≤ 60) → (t.basin b).vreq = (s.basin b).vreq)

/-! ## Faults (R212, R222, R309, R366 to R372) -/

/-- DETECTED_ERROR, CORRECTION, SELF_TEST_RESULT, ADOPTION_DONE and COPY_RELOAD: an error ends the part in whose work it
was met FAULT with its class, and its unit is tested; a passed test counts a transient, a failed one costs a spare or,
with none, the engine; a copy of a triplicated unit reloads, one fault after another (R374), and a second one that disagrees stops
the unit. The counter and the scope of an error in a basin's unit are the model's (logs 27 and 28), and so is it that an error of the
plane check or a seal ends the part on its jet and marks nothing by itself (log 45). -/
def Obligations.FaultsAreContained : Prop :=
  ∀ s : State, s.Inv → s.open? = true →
    (∀ cls place index work, s.live = true → copyClass cls = false → s.unitAt cls place index = true →
      ∃ t, exec (.detectedError cls place index work) s = .next t ∧ t.mem = s.mem ∧ t.regions = s.regions ∧ t.shards = s.shards ∧
        t.tests = (if cls = .stackData then s.tests else s.tests ++ [{ cls := cls, place := place, index := index, engine := s.engine place }]) ∧
        (work = none → s.OnlyRecords { t with tests := s.tests }) ∧
        ∀ ring seq, work = some (ring, seq) →
          s.OnlyParts t (fun j p => j.ring = ring ∧ j.seq = seq ∧ p.jet ∈ j.errorParts cls place) ∧
          ∀ m ∈ errorScope cls place, ∀ j p, s.job ring seq = some j → j.recorded = false → j.movesAlone = false → j.partOn m = some p →
            p.ended = none → j.partDone p = false → ∃ k : Job, t.job ring seq = some k ∧
              k.partOn m = some { p with ended := some (.fault, classCode cls), inFlight := [] }) ∧
    (∀ (warden : Bool) (copy : Nat), copy < 3 →
      let c := if warden then s.wardenCopies else s.pourCopies
      c.stopped = false → copy ∉ c.lost →
      ∃ t, exec (.detectedError (if warden then .wardenCopy else .pourCopy) 0 copy none) s = .next t ∧
        s.OnlyRecords { t with wardenCopies := s.wardenCopies, pourCopies := s.pourCopies, tests := s.tests } ∧
        t.tests = s.tests ++ (if c.lost = [] then [{ cls := copyOf warden, place := 0, index := copy }] else []) ∧
        (if warden then t.wardenCopies else t.pourCopies) =
          (if c.lost = [] then { c with reloading := c.reloading ++ [copy] } else { c with stopped := true }) ∧
        (if warden then t.pourCopies = s.pourCopies else t.wardenCopies = s.wardenCopies)) ∧
    (∀ (warden : Bool) (copy : Nat) (pass : Bool),
      let c := if warden then s.wardenCopies else s.pourCopies
      let mine : Test := { cls := copyOf warden, place := 0, index := copy }
      (s.adopting = true ∨ s.tests.head? ≠ some mine → exec (.copyReload warden copy pass) s = .next s) ∧
      (s.adopting = false → ∀ rest, s.tests = mine :: rest →
      ∃ t, exec (.copyReload warden copy pass) s = .next t ∧ t.tests = rest ∧
        s.OnlyRecords { t with wardenCopies := s.wardenCopies, pourCopies := s.pourCopies, tests := s.tests } ∧
        (if warden then t.wardenCopies else t.pourCopies) =
          { c with reloading := c.reloading.erase copy, lost := if pass then c.lost else c.lost ++ [copy] } ∧
        (if warden then t.pourCopies = s.pourCopies else t.wardenCopies = s.wardenCopies))) ∧
    (∀ cls place index, s.live = true → correctable cls = true → s.unitAt cls place index = true →
      let j := counterJet cls place
      ∃ t, exec (.correction cls place index) s = .next t ∧ t.mem = s.mem ∧ t.jobs = s.jobs ∧ t.regions = s.regions ∧
        (t.jet j).corrected = min ((s.jet j).corrected + 1) 65535 ∧ (t.jet j).transient = (s.jet j).transient) ∧
    (∀ cls place index e rest, s.tests = { cls := cls, place := place, index := index, engine := e } :: rest → s.adopting = false → copyClass cls = false →
      let x := s.jet e
      (∃ t, exec (.selfTestResult cls place index true) s = .next t ∧ t.tests = rest ∧
        let j := counterJet cls place
        s.OnlyRecords { t with tests := s.tests, jets := s.jets } ∧
          Tab.Only {} s.jets t.jets j { s.jet j with transient := min ((s.jet j).transient + 1) 65535 }) ∧
      ∃ t, exec (.selfTestResult cls place index false) s = .next t ∧ t.tests = rest ∧ t.mem = s.mem ∧ t.regions = s.regions ∧
        t.shards = s.shards ∧
        (cls = .lane → x.bad = false → 0 < x.laneSpares → t.jobs = s.jobs ∧ (t.jet e).laneSpares = x.laneSpares - 1 ∧ (t.jet e).lanes = x.lanes.lose laneSpareList index index ∧ (t.jet e).bad = x.bad) ∧
        (cls = .row → x.bad = false → x.rowSpare = true → t.jobs = s.jobs ∧ (t.jet e).rowSpare = false ∧ (t.jet e).bad = x.bad) ∧
        (cls = .column → x.bad = false → x.colSpare = true → t.jobs = s.jobs ∧ (t.jet e).colSpare = false ∧ (t.jet e).bad = x.bad) ∧
        ∀ k, (cls = .lane ∧ x.laneSpares = 0) ∨ (cls = .row ∧ x.rowSpare = false) ∨ (cls = .column ∧ x.colSpare = false) ∨
            cls ∈ [FaultClass.cistern, .castUnit, .weirUnit] ∨ (cls = .core ∧ place < 24) → x.bad = false →
          s.adopts e = false → s.adopterFor e = some k → t.jobs = s.jobs ∧ (t.jet e).bad = true ∧ (t.jet e).adoptBy = some k) ∧
    ∀ jet k, (s.jet jet).adoptBy = some k → s.runs k = true → s.tileInFlight k = false → Tab.wf {} (s.jet jet).ledger = true →
      ∃ t, exec (.adoptionDone jet) s = .next t ∧ t.mem = s.mem ∧ t.jobs = s.jobs ∧ t.shards = s.shards ∧
        (t.jet jet).adopter = some k ∧ (t.jet jet).adoptBy = none ∧ t.boot = { s.boot with temperDue := true } ∧
        ∀ b, (Tab.get {} (t.jet jet).ledger b : Block) =
          let x : Block := Tab.get {} (s.jet jet).ledger b
          { x with opened := false, ragged := x.ragged || x.opened }

/-! ## The Warden (R382 to R390) -/

/-- KEYX_GO, KEY_AGREEMENT_DONE, CHUNK_FETCH, FW_SWAP and FWACTIVATE_TIMEOUT: a GO that R390 refuses changes only its
reason, which is 4h only where the partition may not ask; an agreement puts its key in force as the session's or the
partition's export key; a core gets the chunks it lacks that the Warden has; the swap makes the staged firmware the
running one; and an activation given up keeps it staged, which no time that an engine is halted counts towards. What is
drawn, and which cores run, are the model's (logs 12, 48, 79, 82 and 126). -/
def Obligations.KeysAndFirmwareChange : Prop :=
  ∀ s : State, s.Inv →
    let w := s.warden
    (∀ part value, s.portOpen part false = true → bit value.toNat 20 = true →
      let v := value.toNat
      let number := bits v 0 16
      let forExport := bit v 19
      let mine := part = 0 ∨ (forExport = true ∧ bits v 16 3 = part)
      let fits := number ≠ 0 ∧ (pointOf w.peer).isSome = true ∧
        (forExport = true ∨ ((∀ x ∈ w.sessions, x.number ≠ number) ∧ w.sessions.length < 4)) ∧
        mine ∧ w.busy = false
      ∃ t, exec (.keyxGo part value) s = .next t ∧
        (¬fits → s.OnlyRecords { t with warden := w, portReply := s.portReply } ∧ t.portReply = 0 ∧
          t.warden = { w with reason := t.warden.reason } ∧ t.warden.reason ≠ 0 ∧ (t.warden.reason = 4 ↔ ¬mine)) ∧
        (fits → t = { s with portReply := 0, warden := { w with
          number := number, keyPart := bits v 16 3, target := bits v 19 1, reason := 0, busy := true
          asked := w.peer, askedFor := (bits v 19 1, number, w.chip, bits v 16 3) } })) ∧
    (∀ target number chip part, s.open? = true → w.busy = true → s.wardenCopies.stopped = false →
      w.askedFor = (target, number, chip, part) → Tab.wf {} w.exports = true →
      ∃ t, exec .keyAgreementDone s = .next t ∧ s.OnlyRecords { t with warden := w } ∧
        t.warden = { w with
          busy := false, draws := w.draws + 3, keyOut := w.agree.out, keySig := w.agree.sig, keySalt := w.agree.salt, asked := []
          exports := t.warden.exports, sessions := t.warden.sessions } ∧
        (target = 1 → t.warden.sessions.length ≤ w.sessions.length ∧ Tab.Only {} w.exports t.warden.exports part
          { valid := true, keyId := number, key := w.agree.key, salt := w.agree.salt, seq := 0 }) ∧
        (target ≠ 1 → t.warden.exports = w.exports ∧
          t.warden.sessions.head? = some { number := number, chip := chip, key := w.agree.key } ∧
          ∀ x ∈ t.warden.sessions.tail, x ∈ w.sessions)) ∧
    (∀ core, s.live = true → core ∈ s.cores → w.manifestOk = true → s.coreReset core = none → Tab.wf 0 w.lacks = true →
      ∃ t, exec (.chunkFetch core) s = .next t ∧ s.OnlyRecords { t with warden := w } ∧
        t.warden = { w with lacks := t.warden.lacks } ∧ (∀ c, c ≠ core → Tab.get 0 t.warden.lacks c = Tab.get 0 w.lacks c) ∧
        ∀ k, bit (Tab.get 0 t.warden.lacks core) k =
          (bit (Tab.get 0 w.lacks core) k && (w.chunks ≤ k || bit (Tab.get 0 w.lacks 30) k))) ∧
    ∀ j since, s.live = true → s.activation = some (j, since) →
      let ends (t : State) (st : Status × Nat × Nat) : Prop :=
        ∃ k : Job, t.job j.ring j.seq = some k ∧ k.status = some st ∧ k.wait = .ready
      (s.maySwap j = true → s.wardenCopies.stopped = false → ∃ t, exec .fwSwap s = .next t ∧ t.mem = s.mem ∧ t.jets = s.jets ∧
        ends t (.ok, 0xFF, fieldAt j.desc 8 4) ∧ t.boot = { s.boot with image := t.warden.runImage, temperDue := true } ∧
        t.warden = { w with
          fwRun := w.fwStage, runHeader := (Tab.get [] w.manifest 0).take 256, runTable := tableOfChunks w.manifest
          runImage := (List.range w.chunks).flatMap fun k => Tab.get [] w.staged k
          fwStage := 0, manifest := [], manifestOk := false, staged := [], lacks := [], activating := false }) ∧
      (s.anyHalted (List.range 24) (List.range 6) = true → exec .fwactivateTimeout s = .next s) ∧
      (s.anyHalted (List.range 24) (List.range 6) = false →
        ∃ t, exec .fwactivateTimeout s = .next t ∧ t.mem = s.mem ∧ t.jets = s.jets ∧ t.boot = s.boot ∧
        ends t (.refusedState, 0xFF, 0xA) ∧ t.warden = { w with activating := false })

/-! ## The Garhal port (R405 to R411) -/

/-- The commands of the debug port (R405 to R408, R413, R415): none is taken unless GARHAL is selected and no command is
BUSY, and a scan while it is not selected passes through the bypass register; while GH_EN is 0 every one but STAT is
DENIED; a reserved field is REFUSED, as is a reserved operation; a register or memory command acts as an access of
partition 0, waiting where the register port holds it, and memory only where both enables allow it, and BUSY while the bank's
indication is low (R299); the TAP commands
change only the TAP's own registers. Which answer comes first, and how an address is aligned, are the model's readings
(logs 83, 84, 85, 87 and 104). -/
def Obligations.GarhalAnswers : Prop :=
  (∀ (s : State) (cmd : GarhalCmd) (op : BitVec 4), s.Inv →
    let g := s.garhal
    let asked : List (Nat × Instr) := [(1, .regRd cmd), (2, .regWr cmd), (3, .memRd cmd), (4, .memWr cmd), (5, .halt cmd), (6, .resume cmd),
      (7, .step cmd), (8, .brkSet cmd), (9, .brkClr cmd), (10, .stateRd cmd)]
    let bad := cmd.reserved ≠ 0 ∨ cmd.target = 0x1E
    let answer (code status data : Nat) (unsealed : Bool) : State := { s with garhal := { g with resp :=
      { data := data, status := status, unsealed := unsealed, target := cmd.target.toNat, op := code } } }
    let addr := cmd.addr.toNat / 4 * 4
    let passed : State := if g.ir = 8 then s
      else { s with garhal := { g with tap := .runTestIdle, bypass := cmd.reserved.getLsbD 4 } }
    (s.clocks.rst = true ∨ g.ir ≠ 8 ∨ g.resp.status = 1 →
      exec (.stat cmd) s = .next passed ∧ (11 ≤ op.toNat → exec (.garhalReservedOp op cmd) s = .next passed) ∧
      ∀ x ∈ asked, exec x.2 s = .next passed) ∧
    (s.clocks.rst = false → g.ir = 8 → g.resp.status ≠ 1 →
      (bad → exec (.stat cmd) s = .next (answer 0 3 0 false)) ∧
      (¬bad → exec (.stat cmd) s = .next (answer 0 0 s.clkStat false)) ∧
      (11 ≤ op.toNat → exec (.garhalReservedOp op cmd) s = .next (answer op.toNat (if g.enabled then 3 else 2) 0 false)) ∧
      (g.enabled = false → ∀ x ∈ asked, exec x.2 s = .next (answer x.1 2 0 false)) ∧
      (g.enabled = true → bad → ∀ x ∈ asked, exec x.2 s = .next (answer x.1 3 0 false)) ∧
      (g.enabled = true → ¬bad →
        (s.clocks.freeze ≠ .off ∨ s.range = none → ∃ t, exec (.regRd cmd) s = .next t ∧ t = { s with own := t.own, garhal := t.garhal } ∧
          (∀ p, p ≠ 0 → t.ownOf p = s.ownOf p) ∧ t.garhal = { g with resp := t.garhal.resp } ∧
          t.garhal.resp.op = 1 ∧ t.garhal.resp.status = 0) ∧
        (s.clocks.freeze = .off → s.range ≠ none →
          let waits (code : Nat) (data : Option Word) : State := { answer code 1 0 false with clocks := { s.clocks with
            waiting := s.clocks.waiting ++ [{ part := 8, addr := cmd.addr.toNat % 2 ^ 16, data := data }] } }
          exec (.regRd cmd) s = .next (waits 1 none) ∧ exec (.regWr cmd) s = .next (waits 2 (some cmd.data))) ∧
        (s.clocks.freeze ≠ .off → exec (.regWr cmd) s = .next (answer 2 3 0 false) ∧ exec (.memRd cmd) s = .next (answer 3 3 0 false) ∧
          exec (.memWr cmd) s = .next (answer 4 3 0 false)) ∧
        (s.clocks.freeze = .off →
          (s.range = none → ∃ t, exec (.registerWrite 0 (cmd.addr.toNat % 2 ^ 16) cmd.data) s = .next t ∧
            (t.range = none → exec (.regWr cmd) s = .next { t with
              portReply := s.portReply, garhal := { t.garhal with resp := { target := cmd.target.toNat, op := 2 } } }) ∧
            (t.range ≠ none → exec (.regWr cmd) s = .next { t with
              range := t.range.map fun w => { w with part := 8 }
              garhal := { t.garhal with resp := { target := cmd.target.toNat, op := 2, status := 1 } } })) ∧
          (g.memEnabled = false → exec (.memRd cmd) s = .next (answer 3 2 0 false) ∧ exec (.memWr cmd) s = .next (answer 4 2 0 false)) ∧
          (g.memEnabled = true → addr < doorbellBase → s.rangeHeld addr 4 = true → ∀ write : Bool,
            exec (if write then .memWr cmd else .memRd cmd) s = .next { s with garhal := { (answer (if write then 4 else 3) 1 0 false).garhal with
              waits := some (write, cmd) } }) ∧
          (g.memEnabled = true → addr < doorbellBase → s.rangeHeld addr 4 = false →
            (∃ t, exec (.memRd cmd) s = .next t ∧ t = { s with free := t.free, garhal := { g with resp := t.garhal.resp } } ∧
              t.garhal.resp.op = 3 ∧ t.garhal.resp.status = 0 ∧ (s.touches (addr, 4) = false →
                t.garhal.resp.data = ofLe (memRead s.mem addr 4) ∧ t.free = s.free)) ∧
            ∃ t, exec (.memWr cmd) s = .next t ∧
              (∃ u, s.Stores u [(addr, 4)] ∧ t = { u with garhal := (answer 4 0 0 false).garhal }) ∧
              (s.touches (addr, 4) = false → ofLe (memRead t.mem addr 4) = cmd.data.toNat)))))) ∧
  ∀ (s : State) (code : BitVec 4),
    (s.garhal.tap = .testLogicReset ∨ s.garhal.tap = .runTestIdle → exec (.instructionRegisterUpdate code) s = .next { s with
      garhal := { s.garhal with tap := .runTestIdle, ir := code.toNat, shift := code.toNat } }) ∧
    exec .ghTrst s = .next { s with garhal := { s.garhal with tap := .testLogicReset, ir := 15 } }

/-- HALT, ENGINE_HALTED, RESUME, STEP, BRK_SET, BRK_CLR, BREAKPOINT_HIT and STATE_RD (R407 to R411): a HALT is BUSY
until the engine or the basin controller has halted; a halted one goes on where it stopped; a step of a jet advances CYCLE, by 1
for one arithmetic cycle, and lets as many cycles of its other work run (log 7); a controller steps by instructions alone; a breakpoint of index DATA[1:0] that is set and enabled halts the engine; and the state of a jet is read only
while it is halted or the block is frozen. No byte of memory changes. The cycles of a core's step and what the manual
leaves open of the state are free, and the answer for an absent target is the model's reading (logs 15, 86 and 88). -/
def Obligations.EnginesHaltAndGoOn : Prop :=
  (∀ (s : State) (target : BitVec 5), s.Inv → s.clocks.rst = false → s.clocks.freeze = .off →
    let n := target.toNat
    n < 24 → s.present n = true → (s.jet (s.engine n)).halting = true →
    ∃ t, exec (.engineHalted target) s = .next t ∧ t.mem = s.mem ∧ t.jobs = s.jobs ∧
      (t.jet (s.engine n)).halted = true ∧ (t.jet (s.engine n)).halting = false ∧
      t.garhal = (if s.garhal.resp.status = 1 ∧ s.garhal.resp.target = n then
        { s.garhal with resp := { s.garhal.resp with status := 0 } } else s.garhal)) ∧
  (∀ (s : State) (target : BitVec 5), s.Inv → s.clocks.rst = false → s.clocks.freeze = .off →
    let n := target.toNat
    let b := n - 0x18
    0x18 ≤ n → n < 0x1E → (s.basin b).halting = true → ∃ t, exec (.engineHalted target) s = .next t ∧ t.mem = s.mem ∧ t.jobs = s.jobs ∧
      (t.basin b).halted = true ∧ (t.basin b).halting = false ∧
      t.garhal = (if s.garhal.resp.status = 1 ∧ s.garhal.resp.target = n then
        { s.garhal with resp := { s.garhal.resp with status := 0 } } else s.garhal)) ∧
  ∀ (s : State) (cmd : GarhalCmd), s.Inv → s.clocks.rst = false → s.garhal.ir = 8 → s.garhal.resp.status ≠ 1 →
    s.garhal.enabled = true → cmd.reserved = 0 → cmd.target ≠ 0x1E →
    let n := cmd.target.toNat
    let e := s.engine n
    let jet := n < 24 ∧ s.present n = true
    let answers (t : State) (code status : Nat) : Prop := t.mem = s.mem ∧ t.jobs.length = s.jobs.length ∧ t.regions = s.regions ∧
      t.shards = s.shards ∧ t.garhal.resp.op = code ∧ t.garhal.resp.status = status ∧ t.garhal.resp.target = n
    (s.clocks.freeze = .off → jet →
      ((s.jet e).halted = true → exec (.halt cmd) s = .next (s.respond 5 cmd 0)) ∧
      ((s.jet e).halted = false → (∃ t, exec (.halt cmd) s = .next t ∧ answers t 5 1 ∧ t.jobs = s.jobs ∧ (t.jet e).halting = true ∧
          (s.wellspring n = true → (t.basin (n / 4)).rfhOwn = false)) ∧
        exec (.resume cmd) s = .next (s.respond 6 cmd 3) ∧ exec (.step cmd) s = .next (s.respond 7 cmd 3)) ∧
      ((s.jet e).halted = true → (∃ t, exec (.resume cmd) s = .next t ∧ answers t 6 0 ∧ t.jobs = s.jobs ∧
          (t.jet e).halted = false ∧ (t.jet e).halting = false) ∧
        (cmd.unit ≠ 0 → ∃ t, exec (.step cmd) s = .next t ∧ answers t 7 0 ∧
          ∀ j, t.jet j = { s.jet j with
            cycle := if j < 24 ∧ s.engine j = e then ((s.jet j).cycle + 1) % 2 ^ 48 else (s.jet j).cycle
            steps := if j = e then (s.jet j).steps + 1 else (s.jet j).steps }) ∧
        (cmd.unit = 0 → ∃ t, exec (.step cmd) s = .next t ∧ answers t 7 0 ∧
          ∀ j, t.jet j = { s.jet j with cycle := (t.jet j).cycle, steps := (t.jet j).steps }))) ∧
    (jet → cmd.unit = 0 ∨ (cmd.unit = 1 ∧ cmd.data.toNat % 4 < 2) →
      let i := cmd.data.toNat % 4
      let named (x : Break) : Prop := x.target = e ∧ x.unit = cmd.unit.toNat ∧ x.index = i
      (∃ t, exec (.brkSet cmd) s = .next t ∧ answers t 8 0 ∧
        t = { s with garhal := { s.garhal with breaks := t.garhal.breaks, resp := t.garhal.resp } } ∧
        ∀ x, x ∈ t.garhal.breaks ↔ (x ∈ s.garhal.breaks ∧ ¬named x) ∨ x = ⟨e, cmd.unit.toNat, i, cmd.addr.toNat⟩) ∧
      ∃ t, exec (.brkClr cmd) s = .next t ∧ answers t 9 0 ∧
        t = { s with garhal := { s.garhal with breaks := t.garhal.breaks, resp := t.garhal.resp } } ∧
        ∀ x, x ∈ t.garhal.breaks ↔ x ∈ s.garhal.breaks ∧ ¬named x) ∧
    (∀ i, s.live = true → s.garhal.brkEnabled = true → jet → s.runs n = true →
      ((∃ x ∈ s.garhal.breaks, x.target = e ∧ x.unit = 0 ∧ x.index = i) →
        ∃ t, exec (.breakpointHit cmd.target 0 i) s = .next t ∧ t.mem = s.mem ∧ t.jobs = s.jobs ∧ (t.jet e).halted = true) ∧
      (∀ b, s.garhal.breaks.find? (fun x => x.target == e && x.unit == 1 && x.index == i) = some b → s.nozzleBreak e b ≠ none →
        ∃ t, exec (.breakpointHit cmd.target 1 i) s = .next t ∧ t.mem = s.mem ∧ t.jobs.length = s.jobs.length ∧
          (t.jet e).halted = true) ∧
      ∀ unit, (∀ x ∈ s.garhal.breaks, x.target = e → x.unit = unit → x.index ≠ i) →
        exec (.breakpointHit cmd.target unit i) s = .next s) ∧
    (s.clocks.freeze ≠ .frozen → jet → (s.jet e).halted = false → exec (.stateRd cmd) s = .next (s.respond 0xA cmd 3)) ∧
    (jet → s.clocks.freeze = .frozen ∨ (s.jet e).halted = true →
      (stateAddress n cmd.addr.toNat = true → ∃ data, exec (.stateRd cmd) s = .next (s.respond 0xA cmd 0 data)) ∧
      (stateAddress n cmd.addr.toNat = false → exec (.stateRd cmd) s = .next (s.respond 0xA cmd 2))) ∧
    (0x18 ≤ n → n < 0x1E →
      let b := n - 0x18
      let x := s.basin b
      (s.clocks.freeze = .off →
        (x.halted = true → exec (.halt cmd) s = .next (s.respond 5 cmd 0)) ∧
        (x.halted = false → (∃ t, exec (.halt cmd) s = .next t ∧ answers t 5 1 ∧ t.jobs = s.jobs ∧ (t.basin b).halting = true) ∧
          exec (.resume cmd) s = .next (s.respond 6 cmd 3) ∧ exec (.step cmd) s = .next (s.respond 7 cmd 3)) ∧
        (x.halted = true → (∃ t, exec (.resume cmd) s = .next t ∧ answers t 6 0 ∧ t.jobs = s.jobs ∧
            (t.basin b).halted = false ∧ (t.basin b).halting = false) ∧
          exec (.step cmd) s = .next (if cmd.unit = 0 then (s.draw 1).respond 7 cmd 0 else s.respond 7 cmd 3))) ∧
      (cmd.unit ≠ 0 → exec (.brkSet cmd) s = .next (s.respond 8 cmd 3) ∧ exec (.brkClr cmd) s = .next (s.respond 9 cmd 3)) ∧
      (cmd.unit = 0 →
        let i := cmd.data.toNat % 4
        let named (z : Break) : Prop := z.target = n ∧ z.unit = 0 ∧ z.index = i
        (∃ t, exec (.brkSet cmd) s = .next t ∧ answers t 8 0 ∧
          t = { s with garhal := { s.garhal with breaks := t.garhal.breaks, resp := t.garhal.resp } } ∧
          ∀ z, z ∈ t.garhal.breaks ↔ (z ∈ s.garhal.breaks ∧ ¬named z) ∨ z = ⟨n, 0, i, cmd.addr.toNat⟩) ∧
        ∃ t, exec (.brkClr cmd) s = .next t ∧ answers t 9 0 ∧
          t = { s with garhal := { s.garhal with breaks := t.garhal.breaks, resp := t.garhal.resp } } ∧
          ∀ z, z ∈ t.garhal.breaks ↔ z ∈ s.garhal.breaks ∧ ¬named z) ∧
      (∀ i, s.live = true → s.garhal.brkEnabled = true → s.basinRuns b = true →
        (∃ z ∈ s.garhal.breaks, z.target = n ∧ z.unit = 0 ∧ z.index = i) →
        ∃ t, exec (.breakpointHit cmd.target 0 i) s = .next t ∧ t.mem = s.mem ∧ t.jobs = s.jobs ∧ (t.basin b).halted = true) ∧
      (s.clocks.freeze ≠ .frozen → x.halted = false → exec (.stateRd cmd) s = .next (s.respond 0xA cmd 3)) ∧
      (s.clocks.freeze = .frozen ∨ x.halted = true →
        (stateAddress n cmd.addr.toNat = true → ∃ data, exec (.stateRd cmd) s = .next (s.respond 0xA cmd 0 data)) ∧
        (stateAddress n cmd.addr.toNat = false → exec (.stateRd cmd) s = .next (s.respond 0xA cmd 2))))
end

