-- ==== Sys2Proof/Laws/Bits.lean ====
section
/-! SUPPORT. Laws of bytes, fields and records: lengths, and a field read back from what was written. -/

namespace Sys2Proof.Machine

@[simp] theorem leBytes_length (n v : Nat) : (leBytes n v).length = n := by
  induction n generalizing v with
  | zero => rfl
  | succ n ih => simp [leBytes, ih]

@[simp] theorem beBytes_length (n v : Nat) : (beBytes n v).length = n := by
  simp [beBytes]

@[simp] theorem padTo_length (n : Nat) (l : List Byte) : (padTo n l).length = n := by
  simp [padTo]
  omega

theorem padTo_self (l : List Byte) : padTo l.length l = l := by
  simp [padTo]

@[simp] theorem sliceAt_length (l : List Byte) (a n : Nat) : (sliceAt l a n).length = n := by
  simp [sliceAt]

theorem ofLe_lt (l : List Byte) : ofLe l < 256 ^ l.length := by
  induction l with
  | nil => simp [ofLe]
  | cons b t ih =>
    have hb := b.isLt
    simp only [ofLe, List.length_cons, Nat.pow_succ]
    omega

theorem fieldAt_lt (l : List Byte) (a n : Nat) : fieldAt l a n < 256 ^ n := by
  have := ofLe_lt (sliceAt l a n)
  rwa [sliceAt_length] at this

/-- A number that fits in `n` bytes is read back from them. -/
theorem ofLe_leBytes (n v : Nat) : ofLe (leBytes n v) = v % 256 ^ n := by
  induction n generalizing v with
  | zero => simp [leBytes, ofLe, Nat.mod_one]
  | succ n ih =>
    have e : 256 ^ (n + 1) = 256 * 256 ^ n := by rw [Nat.pow_succ, Nat.mul_comm]
    rw [e, Nat.mod_mul]
    simp only [leBytes, ofLe, ih, BitVec.toNat_ofNat, Nat.reducePow]

/-- The slice of bytes that stand after `a`. -/
theorem sliceAt_append (a b c : List Byte) : sliceAt (a ++ (b ++ c)) a.length b.length = b := by
  simp [sliceAt, padTo]

theorem fieldAt_append (a c : List Byte) (n v : Nat) : fieldAt (a ++ (leBytes n v ++ c)) a.length n = v % 256 ^ n := by
  have := sliceAt_append a (leBytes n v) c
  rw [leBytes_length] at this
  rw [fieldAt, this, ofLe_leBytes]

theorem shaRound_length (v : List Nat) (k w : Nat) : (shaRound v k w).length = v.length := by
  unfold shaRound
  split
  · simp only [List.length_cons, List.length_nil]
  · rfl

@[simp] theorem shaBlock_length (hash : List Nat) (block : List Byte) (h : hash.length = 8) : (shaBlock hash block).length = 8 := by
  have key : ∀ (l : List (Nat × Nat)) (v : List Nat), (l.foldl (fun v x => shaRound v x.1 x.2) v).length = v.length := by
    intro l
    induction l with
    | nil => intro v; rfl
    | cons x l ih => intro v; exact (ih _).trans (shaRound_length v x.1 x.2)
  simp [shaBlock, key, h]

theorem shaBlocks_length (n : Nat) (hash : List Nat) (l : List Byte) (h : hash.length = 8) : (shaBlocks n hash l).length = 8 := by
  induction n generalizing hash l with
  | zero => exact h
  | succ n ih => exact ih _ _ (shaBlock_length _ _ h)

theorem flatMap_beBytes_length (n : Nat) (l : List Nat) : (l.flatMap (beBytes n)).length = n * l.length := by
  induction l with
  | nil => simp
  | cons x t ih => simp [ih, Nat.mul_succ, Nat.add_comm]

/-- A SHA-384 digest has 48 bytes. -/
@[simp] theorem sha384_length (l : List Byte) : (sha384 l).length = 48 := by
  unfold sha384
  rw [flatMap_beBytes_length, List.length_take, shaBlocks_length _ _ _ (by rfl)]
  rfl

@[simp] theorem hmac_length (key msg : List Byte) : (hmac key msg).length = 48 := sha384_length _

end Sys2Proof.Machine
end

