-- ==== Sys2Proof/Laws/Tab.lean ====
section
/-! SUPPORT. The laws of sparse tables: what a key reads after a write, and that every operation keeps the canonical form. -/

namespace Sys2Proof.Machine

variable {α : Type} [DecidableEq α] {d : α}

/-! ## The canonical form -/

@[simp] theorem Tab.wf_nil : Tab.wf d ([] : Tab α) = true := rfl

theorem Tab.wfFrom_mono {lo lo' : Option Nat} {t : Tab α} (h : Tab.wfFrom d lo t = true)
    (hl : ∀ l', lo' = some l' → ∃ l, lo = some l ∧ l' ≤ l) : Tab.wfFrom d lo' t = true := by
  cases t with
  | nil => rfl
  | cons x t =>
    obtain ⟨k, v⟩ := x
    simp only [Tab.wfFrom, Bool.and_eq_true] at h ⊢
    refine ⟨⟨?_, h.1.2⟩, h.2⟩
    cases lo' with
    | none => rfl
    | some l' =>
      obtain ⟨l, rfl, hle⟩ := hl l' rfl
      have := h.1.1
      simp only [decide_eq_true_eq] at this ⊢
      omega

theorem Tab.wf_of_wfFrom {lo : Option Nat} {t : Tab α} (h : Tab.wfFrom d lo t = true) : Tab.wf d t = true :=
  Tab.wfFrom_mono h (by simp)

theorem Tab.wf_cons {k : Nat} {v : α} {t : Tab α} :
    Tab.wf d ((k, v) :: t) = true ↔ v ≠ d ∧ Tab.wfFrom d (some k) t = true := by
  simp [Tab.wf, Tab.wfFrom]

/-- A key that no entry of a canonical table has reads as the default. -/
theorem Tab.get_of_lt {k : Nat} {t : Tab α} (h : Tab.wfFrom d (some k) t = true) {i : Nat} (hi : i ≤ k) :
    Tab.get d t i = d := by
  induction t generalizing k with
  | nil => rfl
  | cons x t ih =>
    obtain ⟨k', v⟩ := x
    simp only [Tab.wfFrom, Bool.and_eq_true, decide_eq_true_eq] at h
    have hk : k < k' := h.1.1
    have hne : ¬ k' = i := by omega
    simp only [Tab.get, hne, if_false]
    exact ih h.2 (by omega)

/-! ## Set -/

theorem Tab.wfFrom_set {lo : Option Nat} {t : Tab α} (h : Tab.wfFrom d lo t = true) {i : Nat} (v : α)
    (hi : ∀ l, lo = some l → l < i) : Tab.wfFrom d lo (Tab.set d t i v) = true := by
  induction t generalizing lo with
  | nil =>
    simp only [Tab.set]
    split
    · rfl
    · cases lo with
      | none => simp [Tab.wfFrom, *]
      | some l => simp [Tab.wfFrom, *, hi l rfl]
  | cons x t ih =>
    obtain ⟨k, w⟩ := x
    simp only [Tab.wfFrom, Bool.and_eq_true] at h
    simp only [Tab.set]
    split
    · rename_i hk
      simp only [Tab.wfFrom, Bool.and_eq_true]
      exact ⟨h.1, ih h.2 (by simpa using hk)⟩
    · rename_i hk
      by_cases hki : k = i
      · subst hki
        simp only [if_true]
        split
        · refine Tab.wfFrom_mono h.2 ?_
          intro l' hl'
          exact ⟨k, rfl, Nat.le_of_lt (hi l' hl')⟩
        · simp only [Tab.wfFrom, Bool.and_eq_true]
          exact ⟨⟨h.1.1, by simp [*]⟩, h.2⟩
      · simp only [hki, if_false]
        have hlt : i < k := by omega
        have hcons : Tab.wfFrom d (some i) ((k, w) :: t) = true := by
          simp only [Tab.wfFrom, Bool.and_eq_true, decide_eq_true_eq]
          exact ⟨⟨hlt, by simpa using h.1.2⟩, h.2⟩
        split
        · exact Tab.wfFrom_mono hcons fun l' hl' => ⟨i, rfl, Nat.le_of_lt (hi l' hl')⟩
        · unfold Tab.wfFrom
          simp only [Bool.and_eq_true]
          refine ⟨⟨?_, by simp [*]⟩, hcons⟩
          cases lo with
          | none => rfl
          | some l => simp [hi l rfl]

@[simp] theorem Tab.wf_set {t : Tab α} (h : Tab.wf d t = true) (i : Nat) (v : α) : Tab.wf d (Tab.set d t i v) = true :=
  Tab.wfFrom_set h v (by simp)

@[simp] theorem Tab.wf_upd {t : Tab α} (h : Tab.wf d t = true) (i : Nat) (f : α → α) :
    Tab.wf d (Tab.upd d t i f) = true :=
  Tab.wf_set h i _

@[simp] theorem Tab.wf_updAll {t : Tab α} (h : Tab.wf d t = true) (ks : List Nat) (f : Nat → α → α) :
    Tab.wf d (Tab.updAll d t ks f) = true := by
  unfold Tab.updAll
  induction ks generalizing t with
  | nil => exact h
  | cons k ks ih => exact ih (Tab.wf_upd h k _)

/-- Another key reads as before, in any table. -/
@[simp] theorem Tab.get_set_ne (t : Tab α) {i j : Nat} (v : α) (h : j ≠ i) :
    Tab.get d (Tab.set d t i v) j = Tab.get d t j := by
  have hij : ¬ i = j := fun e => h e.symm
  induction t with
  | nil => simp only [Tab.set]; split <;> simp [Tab.get, hij]
  | cons x t ih =>
    obtain ⟨k, w⟩ := x
    simp only [Tab.set]
    split
    · simp only [Tab.get, ih]
    · split <;> split <;> simp_all [Tab.get]

/-- The key reads as what was written. -/
@[simp] theorem Tab.get_set_self {t : Tab α} (h : Tab.wf d t = true) (i : Nat) (v : α) :
    Tab.get d (Tab.set d t i v) i = v := by
  unfold Tab.wf at h
  revert h
  generalize (none : Option Nat) = lo
  intro h
  induction t generalizing lo with
  | nil => simp only [Tab.set]; split <;> simp_all [Tab.get]
  | cons x t ih =>
    obtain ⟨k, w⟩ := x
    simp only [Tab.wfFrom, Bool.and_eq_true] at h
    simp only [Tab.set]
    split
    · rename_i hk
      have hne : ¬ k = i := by omega
      simp only [Tab.get, hne, if_false]
      exact ih _ h.2
    · rename_i hk
      by_cases hki : k = i
      · subst hki
        simp only [if_true]
        split
        · rename_i hv
          rw [hv]
          exact Tab.get_of_lt h.2 (Nat.le_refl _)
        · simp [Tab.get]
      · simp only [hki, if_false]
        split
        · rename_i hv
          rw [hv]
          refine Tab.get_of_lt (k := i) ?_ (Nat.le_refl _)
          simp only [Tab.wfFrom, Bool.and_eq_true, decide_eq_true_eq]
          exact ⟨⟨by omega, by simpa using h.1.2⟩, h.2⟩
        · simp [Tab.get]

@[simp] theorem Tab.get_upd_self {t : Tab α} (h : Tab.wf d t = true) (i : Nat) (f : α → α) :
    Tab.get d (Tab.upd d t i f) i = f (Tab.get d t i) :=
  Tab.get_set_self h i _

@[simp] theorem Tab.get_upd_ne (t : Tab α) {i j : Nat} (f : α → α) (h : j ≠ i) :
    Tab.get d (Tab.upd d t i f) j = Tab.get d t j :=
  Tab.get_set_ne t _ h

theorem Tab.get_upd {t : Tab α} (h : Tab.wf d t = true) (i j : Nat) (f : α → α) :
    Tab.get d (Tab.upd d t i f) j = if j = i then f (Tab.get d t j) else Tab.get d t j := by
  split
  · rename_i e; subst e; exact Tab.get_upd_self h _ f
  · rename_i e; exact Tab.get_upd_ne t f e

/-- A key that is not among those changed reads as before. -/
theorem Tab.get_updAll_ne (t : Tab α) (ks : List Nat) (f : Nat → α → α) {j : Nat} (h : j ∉ ks) :
    Tab.get d (Tab.updAll d t ks f) j = Tab.get d t j := by
  unfold Tab.updAll
  induction ks generalizing t with
  | nil => rfl
  | cons k ks ih =>
    simp only [List.mem_cons, not_or] at h
    rw [List.foldl_cons, ih _ h.2]
    exact Tab.get_upd_ne t _ h.1

/-- A key that is among those changed, once, reads as its function makes it. -/
theorem Tab.get_updAll {t : Tab α} (h : Tab.wf d t = true) {ks : List Nat} (hk : ks.Nodup) (f : Nat → α → α) (j : Nat) :
    Tab.get d (Tab.updAll d t ks f) j = if j ∈ ks then f j (Tab.get d t j) else Tab.get d t j := by
  induction ks generalizing t with
  | nil => rfl
  | cons k ks ih =>
    have hn := List.nodup_cons.1 hk
    show Tab.get d (Tab.updAll d (Tab.upd d t k (f k)) ks f) j = _
    rw [ih (Tab.wf_upd h k _) hn.2, Tab.get_upd h]
    by_cases e : j = k
    · subst e; simp [hn.1]
    · simp [e]

/-! ## Map and filter -/

theorem Tab.wfFrom_mapVals {lo : Option Nat} {t : Tab α} (h : Tab.wfFrom d lo t = true) (f : Nat → α → α) :
    Tab.wfFrom d lo (Tab.mapVals d f t) = true := by
  induction t generalizing lo with
  | nil => rfl
  | cons x t ih =>
    obtain ⟨k, v⟩ := x
    simp only [Tab.wfFrom, Bool.and_eq_true] at h
    simp only [Tab.mapVals]
    split
    · refine Tab.wfFrom_mono (ih h.2) ?_
      intro l hl
      have := h.1.1
      subst hl
      simp only [decide_eq_true_eq] at this
      exact ⟨k, rfl, Nat.le_of_lt this⟩
    · simp only [Tab.wfFrom, Bool.and_eq_true]
      exact ⟨⟨h.1.1, by simp [*]⟩, ih h.2⟩

@[simp] theorem Tab.wf_mapVals {t : Tab α} (h : Tab.wf d t = true) (f : Nat → α → α) :
    Tab.wf d (Tab.mapVals d f t) = true :=
  Tab.wfFrom_mapVals h f

theorem Tab.getFrom_mapVals {lo : Option Nat} {t : Tab α} (h : Tab.wfFrom d lo t = true) (f : Nat → α → α)
    (hd : ∀ k, f k d = d) (i : Nat) : Tab.get d (Tab.mapVals d f t) i = f i (Tab.get d t i) := by
  induction t generalizing lo with
  | nil => simp [Tab.mapVals, Tab.get, hd]
  | cons x t ih =>
    obtain ⟨k, v⟩ := x
    simp only [Tab.wfFrom, Bool.and_eq_true] at h
    by_cases hv : f k v = d
    · simp only [Tab.mapVals, hv, if_true, ih h.2]
      by_cases e : k = i
      · subst e
        rw [Tab.get_of_lt h.2 (Nat.le_refl _), hd]
        simp only [Tab.get, if_true, hv]
      · simp only [Tab.get, if_neg e]
    · simp only [Tab.mapVals, hv, if_false]
      by_cases e : k = i
      · subst e; simp [Tab.get]
      · simp only [Tab.get, if_neg e]; exact ih h.2

/-- A map over the listed values that leaves the default alone is a map over what every key reads. -/
theorem Tab.get_mapVals {t : Tab α} (h : Tab.wf d t = true) (f : Nat → α → α) (hd : ∀ k, f k d = d) (i : Nat) :
    Tab.get d (Tab.mapVals d f t) i = f i (Tab.get d t i) :=
  Tab.getFrom_mapVals h f hd i

theorem Tab.wfFrom_filter {lo : Option Nat} {t : Tab α} (h : Tab.wfFrom d lo t = true) (p : Nat × α → Bool) :
    Tab.wfFrom d lo (t.filter p) = true := by
  induction t generalizing lo with
  | nil => rfl
  | cons x t ih =>
    obtain ⟨k, v⟩ := x
    simp only [Tab.wfFrom, Bool.and_eq_true] at h
    rw [List.filter_cons]
    split
    · simp only [Tab.wfFrom, Bool.and_eq_true]
      exact ⟨h.1, ih h.2⟩
    · refine Tab.wfFrom_mono (ih h.2) ?_
      intro l hl
      have := h.1.1
      subst hl
      simp only [decide_eq_true_eq] at this
      exact ⟨k, rfl, Nat.le_of_lt this⟩

@[simp] theorem Tab.wf_filter {t : Tab α} (h : Tab.wf d t = true) (p : Nat × α → Bool) : Tab.wf d (t.filter p) = true :=
  Tab.wfFrom_filter h p

omit [DecidableEq α] in
/-- Filtering by keys leaves the keys that stay as they were. -/
theorem Tab.get_filter (t : Tab α) (p : Nat → Bool) (i : Nat) :
    Tab.get d (t.filter fun x => p x.1) i = if p i then Tab.get d t i else d := by
  induction t with
  | nil => simp [Tab.get]
  | cons x t ih =>
    obtain ⟨k, v⟩ := x
    rw [List.filter_cons]
    by_cases hp : p k = true
    · simp only [hp, if_true, Tab.get, ih]
      by_cases hk : k = i
      · subst hk; simp [hp]
      · simp [hk]
    · simp only [hp, Bool.false_eq_true, if_false, ih, Tab.get]
      by_cases hk : k = i
      · subst hk; simp [hp]
      · simp [hk]

/-- Concatenation of canonical tables whose keys are apart. -/
theorem Tab.wfFrom_append {lo : Option Nat} {t u : Tab α} (m : Nat) (ht : Tab.wfFrom d lo t = true)
    (hu : Tab.wfFrom d none u = true) (ht' : ∀ x ∈ t, x.1 < m) (hu' : ∀ x ∈ u, m ≤ x.1)
    (hlo : ∀ l, lo = some l → l < m) : Tab.wfFrom d lo (t ++ u) = true := by
  induction t generalizing lo with
  | nil =>
    cases u with
    | nil => rfl
    | cons x u =>
      obtain ⟨k, v⟩ := x
      simp only [List.nil_append, Tab.wfFrom, Bool.and_eq_true] at hu ⊢
      refine ⟨⟨?_, hu.1.2⟩, hu.2⟩
      cases lo with
      | none => rfl
      | some l =>
        have h1 := hlo l rfl
        have h2 : m ≤ k := hu' (k, v) (by simp)
        simp only [decide_eq_true_eq]
        omega
  | cons x t ih =>
    obtain ⟨k, v⟩ := x
    simp only [List.cons_append, Tab.wfFrom, Bool.and_eq_true] at ht ⊢
    refine ⟨ht.1, ih ht.2 (fun x hx => ht' x (by simp [hx])) ?_⟩
    intro l hl
    cases hl
    exact ht' (k, v) (by simp)

omit [DecidableEq α] in
theorem Tab.get_append (t u : Tab α) (i : Nat) (h : ∀ x ∈ u, x.1 ≠ i) :
    Tab.get d (t ++ u) i = Tab.get d t i := by
  induction t with
  | nil =>
    induction u with
    | nil => rfl
    | cons x u ih =>
      have hx := h x (by simp)
      simp only [List.nil_append, Tab.get] at ih ⊢
      simp only [hx, if_false]
      exact ih fun y hy => h y (by simp [hy])
  | cons x t ih => simp only [List.cons_append, Tab.get, ih]

omit [DecidableEq α] in
theorem Tab.get_append_right (t u : Tab α) (i : Nat) (h : ∀ x ∈ t, x.1 ≠ i) :
    Tab.get d (t ++ u) i = Tab.get d u i := by
  induction t with
  | nil => rfl
  | cons x t ih =>
    have hx := h x (by simp)
    simp only [List.cons_append, Tab.get, hx, if_false]
    exact ih fun y hy => h y (by simp [hy])

end Sys2Proof.Machine
end

