-- ==== Sys2Proof/Laws/Memory.lean ====
section
/-! SUPPORT. The laws of memory: reads after writes, bytes that a write leaves alone, and that every operation keeps the
canonical form. -/

namespace Sys2Proof.Machine

/-! ## The cells of a write -/

theorem cellsOf_bounds (a : Nat) (bs : List Byte) : ∀ c ∈ cellsOf a bs, a ≤ c.1 ∧ c.1 < a + bs.length := by
  induction bs generalizing a with
  | nil => simp [cellsOf]
  | cons b t ih =>
    intro c hc
    have key : c ∈ cellsOf (a + 1) t → a ≤ c.1 ∧ c.1 < a + (b :: t).length := fun h => by
      have := ih (a + 1) c h
      simp only [List.length_cons]
      omega
    simp only [cellsOf] at hc
    split at hc
    · exact key hc
    · rcases List.mem_cons.1 hc with rfl | h
      · simp
      · exact key h

theorem wfFrom_cellsOf {lo : Option Nat} (a : Nat) (bs : List Byte) (h : ∀ l, lo = some l → l < a) :
    Tab.wfFrom 0#8 lo (cellsOf a bs) = true := by
  induction bs generalizing lo a with
  | nil => rfl
  | cons b t ih =>
    simp only [cellsOf]
    split
    · exact ih _ fun l hl => by have := h l hl; omega
    · simp only [Tab.wfFrom, Bool.and_eq_true]
      refine ⟨⟨?_, by simp [*]⟩, ih _ fun l hl => by cases hl; omega⟩
      cases lo with
      | none => rfl
      | some l => simp [h l rfl]

theorem get_cellsOf (a : Nat) (bs : List Byte) (i : Nat) :
    Tab.get 0#8 (cellsOf a bs) (a + i) = bs.getD i 0#8 := by
  induction bs generalizing a i with
  | nil => simp [cellsOf, Tab.get]
  | cons b t ih =>
    have hrest (j : Nat) : Tab.get 0#8 (cellsOf (a + 1) t) (a + (j + 1)) = t.getD j 0#8 := by
      rw [show a + (j + 1) = a + 1 + j by omega]; exact ih _ _
    have hzero : Tab.get 0#8 (cellsOf (a + 1) t) a = 0#8 :=
      Tab.get_of_lt (k := a) (wfFrom_cellsOf _ _ fun l hl => by cases hl; omega) (Nat.le_refl _)
    simp only [cellsOf]
    split
    · cases i with
      | zero => simp [*]
      | succ j => simp [hrest j]
    · cases i with
      | zero => simp [Tab.get]
      | succ j =>
        have : ¬ a = a + (j + 1) := by omega
        simp only [Tab.get, this, if_false, hrest j, List.getD_cons_succ]

/-! ## Writes -/

/-- A write keeps the canonical form. -/
@[simp] theorem memWrite_wf {m : List Host.Cell} (h : Memory.wf m = true) (a : Nat) (bs : List Byte) :
    Memory.wf (memWrite m a bs) = true := by
  unfold Memory.wf memWrite Tab.wf at *
  refine Tab.wfFrom_append (a + bs.length) (Tab.wfFrom_append a (Tab.wfFrom_filter h _) (wfFrom_cellsOf a bs (by simp))
    ?_ ?_ (by simp)) (Tab.wfFrom_filter h _) ?_ ?_ (by simp)
  · intro x hx; simpa using (List.mem_filter.1 hx).2
  · intro x hx; exact (cellsOf_bounds a bs x hx).1
  · intro x hx
    rcases List.mem_append.1 hx with h' | h'
    · have : x.1 < a := by simpa using (List.mem_filter.1 h').2
      omega
    · exact (cellsOf_bounds a bs x h').2
  · intro x hx; simpa using (List.mem_filter.1 hx).2

/-- A byte that a write covers reads as written. -/
theorem memGet_memWrite_in (m : List Host.Cell) (a : Nat) (bs : List Byte) (i : Nat) (hi : i < bs.length) :
    memGet (memWrite m a bs) (a + i) = bs.getD i 0#8 := by
  unfold memGet memWrite
  rw [Tab.get_append _ _ _ (by
    intro x hx
    have : a + bs.length ≤ x.1 := by simpa using (List.mem_filter.1 hx).2
    omega), Tab.get_append_right _ _ _ (by
    intro x hx
    have : x.1 < a := by simpa using (List.mem_filter.1 hx).2
    omega)]
  exact get_cellsOf a bs i

/-- A byte outside a write reads as before. -/
theorem memGet_memWrite_out (m : List Host.Cell) (a : Nat) (bs : List Byte) (i : Nat) (hi : i < a ∨ a + bs.length ≤ i) :
    memGet (memWrite m a bs) i = memGet m i := by
  have hc : ∀ x ∈ cellsOf a bs, x.1 ≠ i := fun x hx => by have := cellsOf_bounds a bs x hx; omega
  unfold memGet memWrite
  rcases hi with hi | hi
  · rw [Tab.get_append _ _ _ (by
      intro x hx
      have : a + bs.length ≤ x.1 := by simpa using (List.mem_filter.1 hx).2
      omega), Tab.get_append _ _ _ hc]
    exact (Tab.get_filter m (fun k => decide (k < a)) i).trans (by simp [hi])
  · rw [Tab.get_append_right _ _ _ (by
      intro x hx
      rcases List.mem_append.1 hx with h' | h'
      · have : x.1 < a := by simpa using (List.mem_filter.1 h').2
        omega
      · exact hc x h')]
    exact (Tab.get_filter m (fun k => decide (a + bs.length ≤ k)) i).trans (by simp [hi])

/-- A read gives the bytes one by one. -/
theorem memRead_eq (m : List Host.Cell) (a n : Nat) :
    memRead m a n = (List.range n).map fun i => memGet m (a + i) := by
  unfold memRead memGet
  apply List.map_congr_left
  intro i hi
  have hi' := List.mem_range.1 hi
  refine (Tab.get_filter m (fun k => decide (a ≤ k) && decide (k < a + n)) (a + i)).trans ?_
  have h1 : a ≤ a + i := by omega
  have h2 : a + i < a + n := by omega
  simp [h1, h2]

/-- What a write stores is read back. -/
theorem memRead_memWrite_same (m : List Host.Cell) (a : Nat) (bs : List Byte) :
    memRead (memWrite m a bs) a bs.length = bs := by
  rw [memRead_eq]
  apply List.ext_getElem
  · simp
  · intro i h1 h2
    simp only [List.getElem_map, List.getElem_range]
    rw [memGet_memWrite_in m a bs i h2]
    simp [List.getD, h2]

/-- A write leaves a range apart from it alone. -/
theorem memRead_memWrite_apart (m : List Host.Cell) (a : Nat) (bs : List Byte) (b n : Nat)
    (h : b + n ≤ a ∨ a + bs.length ≤ b) : memRead (memWrite m a bs) b n = memRead m b n := by
  rw [memRead_eq, memRead_eq]
  apply List.map_congr_left
  intro i hi
  have hi' := List.mem_range.1 hi
  exact memGet_memWrite_out m a bs (b + i) (by omega)

/-! ## Single bytes -/

@[simp] theorem memPatch_wf {m : List Host.Cell} (h : Memory.wf m = true) (l : List Host.Cell) :
    Memory.wf (memPatch m l) = true := by
  unfold memPatch
  induction l generalizing m with
  | nil => exact h
  | cons c l ih => exact ih (memWrite_wf h _ _)

/-- A byte that no cell of a patch names reads as before. -/
theorem memGet_memPatch_out (m : List Host.Cell) (l : List Host.Cell) (i : Nat) (h : ∀ c ∈ l, c.1 ≠ i) :
    memGet (memPatch m l) i = memGet m i := by
  unfold memPatch
  induction l generalizing m with
  | nil => rfl
  | cons c l ih =>
    rw [List.foldl_cons, ih _ fun x hx => h x (by simp [hx])]
    have := h c (by simp)
    exact memGet_memWrite_out m c.1 [c.2] i (by simp only [List.length_singleton]; omega)

end Sys2Proof.Machine
end

