-- ==== Sys2Proof/Laws/State.lean ====
section
/-! SUPPORT. What each update of the state leaves alone: one lemma for each field. -/

namespace Sys2Proof.Machine

variable (s : State)

/-! ## State.write -/

@[simp] theorem State.write_pending (a : Nat) (bs : List Byte) : (s.write a bs).pending = s.pending := rfl
@[simp] theorem State.write_regions (a : Nat) (bs : List Byte) : (s.write a bs).regions = s.regions := rfl
@[simp] theorem State.write_rings (a : Nat) (bs : List Byte) : (s.write a bs).rings = s.rings := rfl
@[simp] theorem State.write_jobs (a : Nat) (bs : List Byte) : (s.write a bs).jobs = s.jobs := rfl
@[simp] theorem State.write_reqs (a : Nat) (bs : List Byte) : (s.write a bs).reqs = s.reqs := rfl
@[simp] theorem State.write_shards (a : Nat) (bs : List Byte) : (s.write a bs).shards = s.shards := rfl
@[simp] theorem State.write_groups (a : Nat) (bs : List Byte) : (s.write a bs).groups = s.groups := rfl
@[simp] theorem State.write_slots (a : Nat) (bs : List Byte) : (s.write a bs).slots = s.slots := rfl
@[simp] theorem State.write_quotas (a : Nat) (bs : List Byte) : (s.write a bs).quotas = s.quotas := rfl
@[simp] theorem State.write_jets (a : Nat) (bs : List Byte) : (s.write a bs).jets = s.jets := rfl
@[simp] theorem State.write_basins (a : Nat) (bs : List Byte) : (s.write a bs).basins = s.basins := rfl
@[simp] theorem State.write_boot (a : Nat) (bs : List Byte) : (s.write a bs).boot = s.boot := rfl
@[simp] theorem State.write_warden (a : Nat) (bs : List Byte) : (s.write a bs).warden = s.warden := rfl
@[simp] theorem State.write_wardenCopies (a : Nat) (bs : List Byte) : (s.write a bs).wardenCopies = s.wardenCopies := rfl
@[simp] theorem State.write_pourCopies (a : Nat) (bs : List Byte) : (s.write a bs).pourCopies = s.pourCopies := rfl
@[simp] theorem State.write_pourReady (a : Nat) (bs : List Byte) : (s.write a bs).pourReady = s.pourReady := rfl
@[simp] theorem State.write_own (a : Nat) (bs : List Byte) : (s.write a bs).own = s.own := rfl
@[simp] theorem State.write_range (a : Nat) (bs : List Byte) : (s.write a bs).range = s.range := rfl
@[simp] theorem State.write_ranges (a : Nat) (bs : List Byte) : (s.write a bs).ranges = s.ranges := rfl
@[simp] theorem State.write_tests (a : Nat) (bs : List Byte) : (s.write a bs).tests = s.tests := rfl
@[simp] theorem State.write_sluice (a : Nat) (bs : List Byte) : (s.write a bs).sluice = s.sluice := rfl
@[simp] theorem State.write_censusLogs (a : Nat) (bs : List Byte) : (s.write a bs).censusLogs = s.censusLogs := rfl
@[simp] theorem State.write_census (a : Nat) (bs : List Byte) : (s.write a bs).census = s.census := rfl
@[simp] theorem State.write_clocks (a : Nat) (bs : List Byte) : (s.write a bs).clocks = s.clocks := rfl
@[simp] theorem State.write_resets (a : Nat) (bs : List Byte) : (s.write a bs).resets = s.resets := rfl
@[simp] theorem State.write_garhal (a : Nat) (bs : List Byte) : (s.write a bs).garhal = s.garhal := rfl
@[simp] theorem State.write_port (a : Nat) (bs : List Byte) : (s.write a bs).port = s.port := rfl
@[simp] theorem State.write_pinReply (a : Nat) (bs : List Byte) : (s.write a bs).pinReply = s.pinReply := rfl
@[simp] theorem State.write_portReply (a : Nat) (bs : List Byte) : (s.write a bs).portReply = s.portReply := rfl
@[simp] theorem State.write_free (a : Nat) (bs : List Byte) : (s.write a bs).free = s.free := rfl
@[simp] theorem State.write_aon (a : Nat) (bs : List Byte) : (s.write a bs).aon = s.aon := rfl

/-! ## State.updRing -/

@[simp] theorem State.updRing_pending (r : Nat) (f : Ring → Ring) : (s.updRing r f).pending = s.pending := rfl
@[simp] theorem State.updRing_mem (r : Nat) (f : Ring → Ring) : (s.updRing r f).mem = s.mem := rfl
@[simp] theorem State.updRing_regions (r : Nat) (f : Ring → Ring) : (s.updRing r f).regions = s.regions := rfl
@[simp] theorem State.updRing_jobs (r : Nat) (f : Ring → Ring) : (s.updRing r f).jobs = s.jobs := rfl
@[simp] theorem State.updRing_reqs (r : Nat) (f : Ring → Ring) : (s.updRing r f).reqs = s.reqs := rfl
@[simp] theorem State.updRing_shards (r : Nat) (f : Ring → Ring) : (s.updRing r f).shards = s.shards := rfl
@[simp] theorem State.updRing_groups (r : Nat) (f : Ring → Ring) : (s.updRing r f).groups = s.groups := rfl
@[simp] theorem State.updRing_slots (r : Nat) (f : Ring → Ring) : (s.updRing r f).slots = s.slots := rfl
@[simp] theorem State.updRing_quotas (r : Nat) (f : Ring → Ring) : (s.updRing r f).quotas = s.quotas := rfl
@[simp] theorem State.updRing_jets (r : Nat) (f : Ring → Ring) : (s.updRing r f).jets = s.jets := rfl
@[simp] theorem State.updRing_basins (r : Nat) (f : Ring → Ring) : (s.updRing r f).basins = s.basins := rfl
@[simp] theorem State.updRing_boot (r : Nat) (f : Ring → Ring) : (s.updRing r f).boot = s.boot := rfl
@[simp] theorem State.updRing_warden (r : Nat) (f : Ring → Ring) : (s.updRing r f).warden = s.warden := rfl
@[simp] theorem State.updRing_wardenCopies (r : Nat) (f : Ring → Ring) : (s.updRing r f).wardenCopies = s.wardenCopies := rfl
@[simp] theorem State.updRing_pourCopies (r : Nat) (f : Ring → Ring) : (s.updRing r f).pourCopies = s.pourCopies := rfl
@[simp] theorem State.updRing_pourReady (r : Nat) (f : Ring → Ring) : (s.updRing r f).pourReady = s.pourReady := rfl
@[simp] theorem State.updRing_own (r : Nat) (f : Ring → Ring) : (s.updRing r f).own = s.own := rfl
@[simp] theorem State.updRing_range (r : Nat) (f : Ring → Ring) : (s.updRing r f).range = s.range := rfl
@[simp] theorem State.updRing_ranges (r : Nat) (f : Ring → Ring) : (s.updRing r f).ranges = s.ranges := rfl
@[simp] theorem State.updRing_tests (r : Nat) (f : Ring → Ring) : (s.updRing r f).tests = s.tests := rfl
@[simp] theorem State.updRing_sluice (r : Nat) (f : Ring → Ring) : (s.updRing r f).sluice = s.sluice := rfl
@[simp] theorem State.updRing_censusLogs (r : Nat) (f : Ring → Ring) : (s.updRing r f).censusLogs = s.censusLogs := rfl
@[simp] theorem State.updRing_census (r : Nat) (f : Ring → Ring) : (s.updRing r f).census = s.census := rfl
@[simp] theorem State.updRing_clocks (r : Nat) (f : Ring → Ring) : (s.updRing r f).clocks = s.clocks := rfl
@[simp] theorem State.updRing_resets (r : Nat) (f : Ring → Ring) : (s.updRing r f).resets = s.resets := rfl
@[simp] theorem State.updRing_garhal (r : Nat) (f : Ring → Ring) : (s.updRing r f).garhal = s.garhal := rfl
@[simp] theorem State.updRing_port (r : Nat) (f : Ring → Ring) : (s.updRing r f).port = s.port := rfl
@[simp] theorem State.updRing_pinReply (r : Nat) (f : Ring → Ring) : (s.updRing r f).pinReply = s.pinReply := rfl
@[simp] theorem State.updRing_portReply (r : Nat) (f : Ring → Ring) : (s.updRing r f).portReply = s.portReply := rfl
@[simp] theorem State.updRing_free (r : Nat) (f : Ring → Ring) : (s.updRing r f).free = s.free := rfl
@[simp] theorem State.updRing_aon (r : Nat) (f : Ring → Ring) : (s.updRing r f).aon = s.aon := rfl

/-! ## State.updShard -/

@[simp] theorem State.updShard_pending (h : Nat) (f : Shard → Shard) : (s.updShard h f).pending = s.pending := rfl
@[simp] theorem State.updShard_mem (h : Nat) (f : Shard → Shard) : (s.updShard h f).mem = s.mem := rfl
@[simp] theorem State.updShard_regions (h : Nat) (f : Shard → Shard) : (s.updShard h f).regions = s.regions := rfl
@[simp] theorem State.updShard_rings (h : Nat) (f : Shard → Shard) : (s.updShard h f).rings = s.rings := rfl
@[simp] theorem State.updShard_jobs (h : Nat) (f : Shard → Shard) : (s.updShard h f).jobs = s.jobs := rfl
@[simp] theorem State.updShard_reqs (h : Nat) (f : Shard → Shard) : (s.updShard h f).reqs = s.reqs := rfl
@[simp] theorem State.updShard_groups (h : Nat) (f : Shard → Shard) : (s.updShard h f).groups = s.groups := rfl
@[simp] theorem State.updShard_slots (h : Nat) (f : Shard → Shard) : (s.updShard h f).slots = s.slots := rfl
@[simp] theorem State.updShard_quotas (h : Nat) (f : Shard → Shard) : (s.updShard h f).quotas = s.quotas := rfl
@[simp] theorem State.updShard_jets (h : Nat) (f : Shard → Shard) : (s.updShard h f).jets = s.jets := rfl
@[simp] theorem State.updShard_basins (h : Nat) (f : Shard → Shard) : (s.updShard h f).basins = s.basins := rfl
@[simp] theorem State.updShard_boot (h : Nat) (f : Shard → Shard) : (s.updShard h f).boot = s.boot := rfl
@[simp] theorem State.updShard_warden (h : Nat) (f : Shard → Shard) : (s.updShard h f).warden = s.warden := rfl
@[simp] theorem State.updShard_wardenCopies (h : Nat) (f : Shard → Shard) : (s.updShard h f).wardenCopies = s.wardenCopies := rfl
@[simp] theorem State.updShard_pourCopies (h : Nat) (f : Shard → Shard) : (s.updShard h f).pourCopies = s.pourCopies := rfl
@[simp] theorem State.updShard_pourReady (h : Nat) (f : Shard → Shard) : (s.updShard h f).pourReady = s.pourReady := rfl
@[simp] theorem State.updShard_own (h : Nat) (f : Shard → Shard) : (s.updShard h f).own = s.own := rfl
@[simp] theorem State.updShard_range (h : Nat) (f : Shard → Shard) : (s.updShard h f).range = s.range := rfl
@[simp] theorem State.updShard_ranges (h : Nat) (f : Shard → Shard) : (s.updShard h f).ranges = s.ranges := rfl
@[simp] theorem State.updShard_tests (h : Nat) (f : Shard → Shard) : (s.updShard h f).tests = s.tests := rfl
@[simp] theorem State.updShard_sluice (h : Nat) (f : Shard → Shard) : (s.updShard h f).sluice = s.sluice := rfl
@[simp] theorem State.updShard_censusLogs (h : Nat) (f : Shard → Shard) : (s.updShard h f).censusLogs = s.censusLogs := rfl
@[simp] theorem State.updShard_census (h : Nat) (f : Shard → Shard) : (s.updShard h f).census = s.census := rfl
@[simp] theorem State.updShard_clocks (h : Nat) (f : Shard → Shard) : (s.updShard h f).clocks = s.clocks := rfl
@[simp] theorem State.updShard_resets (h : Nat) (f : Shard → Shard) : (s.updShard h f).resets = s.resets := rfl
@[simp] theorem State.updShard_garhal (h : Nat) (f : Shard → Shard) : (s.updShard h f).garhal = s.garhal := rfl
@[simp] theorem State.updShard_port (h : Nat) (f : Shard → Shard) : (s.updShard h f).port = s.port := rfl
@[simp] theorem State.updShard_pinReply (h : Nat) (f : Shard → Shard) : (s.updShard h f).pinReply = s.pinReply := rfl
@[simp] theorem State.updShard_portReply (h : Nat) (f : Shard → Shard) : (s.updShard h f).portReply = s.portReply := rfl
@[simp] theorem State.updShard_free (h : Nat) (f : Shard → Shard) : (s.updShard h f).free = s.free := rfl
@[simp] theorem State.updShard_aon (h : Nat) (f : Shard → Shard) : (s.updShard h f).aon = s.aon := rfl

/-! ## State.updGroup -/

@[simp] theorem State.updGroup_pending (g : Nat) (f : Group → Group) : (s.updGroup g f).pending = s.pending := rfl
@[simp] theorem State.updGroup_mem (g : Nat) (f : Group → Group) : (s.updGroup g f).mem = s.mem := rfl
@[simp] theorem State.updGroup_regions (g : Nat) (f : Group → Group) : (s.updGroup g f).regions = s.regions := rfl
@[simp] theorem State.updGroup_rings (g : Nat) (f : Group → Group) : (s.updGroup g f).rings = s.rings := rfl
@[simp] theorem State.updGroup_jobs (g : Nat) (f : Group → Group) : (s.updGroup g f).jobs = s.jobs := rfl
@[simp] theorem State.updGroup_reqs (g : Nat) (f : Group → Group) : (s.updGroup g f).reqs = s.reqs := rfl
@[simp] theorem State.updGroup_shards (g : Nat) (f : Group → Group) : (s.updGroup g f).shards = s.shards := rfl
@[simp] theorem State.updGroup_slots (g : Nat) (f : Group → Group) : (s.updGroup g f).slots = s.slots := rfl
@[simp] theorem State.updGroup_quotas (g : Nat) (f : Group → Group) : (s.updGroup g f).quotas = s.quotas := rfl
@[simp] theorem State.updGroup_jets (g : Nat) (f : Group → Group) : (s.updGroup g f).jets = s.jets := rfl
@[simp] theorem State.updGroup_basins (g : Nat) (f : Group → Group) : (s.updGroup g f).basins = s.basins := rfl
@[simp] theorem State.updGroup_boot (g : Nat) (f : Group → Group) : (s.updGroup g f).boot = s.boot := rfl
@[simp] theorem State.updGroup_warden (g : Nat) (f : Group → Group) : (s.updGroup g f).warden = s.warden := rfl
@[simp] theorem State.updGroup_wardenCopies (g : Nat) (f : Group → Group) : (s.updGroup g f).wardenCopies = s.wardenCopies := rfl
@[simp] theorem State.updGroup_pourCopies (g : Nat) (f : Group → Group) : (s.updGroup g f).pourCopies = s.pourCopies := rfl
@[simp] theorem State.updGroup_pourReady (g : Nat) (f : Group → Group) : (s.updGroup g f).pourReady = s.pourReady := rfl
@[simp] theorem State.updGroup_own (g : Nat) (f : Group → Group) : (s.updGroup g f).own = s.own := rfl
@[simp] theorem State.updGroup_range (g : Nat) (f : Group → Group) : (s.updGroup g f).range = s.range := rfl
@[simp] theorem State.updGroup_ranges (g : Nat) (f : Group → Group) : (s.updGroup g f).ranges = s.ranges := rfl
@[simp] theorem State.updGroup_tests (g : Nat) (f : Group → Group) : (s.updGroup g f).tests = s.tests := rfl
@[simp] theorem State.updGroup_sluice (g : Nat) (f : Group → Group) : (s.updGroup g f).sluice = s.sluice := rfl
@[simp] theorem State.updGroup_censusLogs (g : Nat) (f : Group → Group) : (s.updGroup g f).censusLogs = s.censusLogs := rfl
@[simp] theorem State.updGroup_census (g : Nat) (f : Group → Group) : (s.updGroup g f).census = s.census := rfl
@[simp] theorem State.updGroup_clocks (g : Nat) (f : Group → Group) : (s.updGroup g f).clocks = s.clocks := rfl
@[simp] theorem State.updGroup_resets (g : Nat) (f : Group → Group) : (s.updGroup g f).resets = s.resets := rfl
@[simp] theorem State.updGroup_garhal (g : Nat) (f : Group → Group) : (s.updGroup g f).garhal = s.garhal := rfl
@[simp] theorem State.updGroup_port (g : Nat) (f : Group → Group) : (s.updGroup g f).port = s.port := rfl
@[simp] theorem State.updGroup_pinReply (g : Nat) (f : Group → Group) : (s.updGroup g f).pinReply = s.pinReply := rfl
@[simp] theorem State.updGroup_portReply (g : Nat) (f : Group → Group) : (s.updGroup g f).portReply = s.portReply := rfl
@[simp] theorem State.updGroup_free (g : Nat) (f : Group → Group) : (s.updGroup g f).free = s.free := rfl
@[simp] theorem State.updGroup_aon (g : Nat) (f : Group → Group) : (s.updGroup g f).aon = s.aon := rfl

/-! ## State.updJet -/

@[simp] theorem State.updJet_pending (j : Nat) (f : Jet → Jet) : (s.updJet j f).pending = s.pending := rfl
@[simp] theorem State.updJet_mem (j : Nat) (f : Jet → Jet) : (s.updJet j f).mem = s.mem := rfl
@[simp] theorem State.updJet_regions (j : Nat) (f : Jet → Jet) : (s.updJet j f).regions = s.regions := rfl
@[simp] theorem State.updJet_rings (j : Nat) (f : Jet → Jet) : (s.updJet j f).rings = s.rings := rfl
@[simp] theorem State.updJet_jobs (j : Nat) (f : Jet → Jet) : (s.updJet j f).jobs = s.jobs := rfl
@[simp] theorem State.updJet_reqs (j : Nat) (f : Jet → Jet) : (s.updJet j f).reqs = s.reqs := rfl
@[simp] theorem State.updJet_shards (j : Nat) (f : Jet → Jet) : (s.updJet j f).shards = s.shards := rfl
@[simp] theorem State.updJet_groups (j : Nat) (f : Jet → Jet) : (s.updJet j f).groups = s.groups := rfl
@[simp] theorem State.updJet_slots (j : Nat) (f : Jet → Jet) : (s.updJet j f).slots = s.slots := rfl
@[simp] theorem State.updJet_quotas (j : Nat) (f : Jet → Jet) : (s.updJet j f).quotas = s.quotas := rfl
@[simp] theorem State.updJet_basins (j : Nat) (f : Jet → Jet) : (s.updJet j f).basins = s.basins := rfl
@[simp] theorem State.updJet_boot (j : Nat) (f : Jet → Jet) : (s.updJet j f).boot = s.boot := rfl
@[simp] theorem State.updJet_warden (j : Nat) (f : Jet → Jet) : (s.updJet j f).warden = s.warden := rfl
@[simp] theorem State.updJet_wardenCopies (j : Nat) (f : Jet → Jet) : (s.updJet j f).wardenCopies = s.wardenCopies := rfl
@[simp] theorem State.updJet_pourCopies (j : Nat) (f : Jet → Jet) : (s.updJet j f).pourCopies = s.pourCopies := rfl
@[simp] theorem State.updJet_pourReady (j : Nat) (f : Jet → Jet) : (s.updJet j f).pourReady = s.pourReady := rfl
@[simp] theorem State.updJet_own (j : Nat) (f : Jet → Jet) : (s.updJet j f).own = s.own := rfl
@[simp] theorem State.updJet_range (j : Nat) (f : Jet → Jet) : (s.updJet j f).range = s.range := rfl
@[simp] theorem State.updJet_ranges (j : Nat) (f : Jet → Jet) : (s.updJet j f).ranges = s.ranges := rfl
@[simp] theorem State.updJet_tests (j : Nat) (f : Jet → Jet) : (s.updJet j f).tests = s.tests := rfl
@[simp] theorem State.updJet_sluice (j : Nat) (f : Jet → Jet) : (s.updJet j f).sluice = s.sluice := rfl
@[simp] theorem State.updJet_censusLogs (j : Nat) (f : Jet → Jet) : (s.updJet j f).censusLogs = s.censusLogs := rfl
@[simp] theorem State.updJet_census (j : Nat) (f : Jet → Jet) : (s.updJet j f).census = s.census := rfl
@[simp] theorem State.updJet_clocks (j : Nat) (f : Jet → Jet) : (s.updJet j f).clocks = s.clocks := rfl
@[simp] theorem State.updJet_resets (j : Nat) (f : Jet → Jet) : (s.updJet j f).resets = s.resets := rfl
@[simp] theorem State.updJet_garhal (j : Nat) (f : Jet → Jet) : (s.updJet j f).garhal = s.garhal := rfl
@[simp] theorem State.updJet_port (j : Nat) (f : Jet → Jet) : (s.updJet j f).port = s.port := rfl
@[simp] theorem State.updJet_pinReply (j : Nat) (f : Jet → Jet) : (s.updJet j f).pinReply = s.pinReply := rfl
@[simp] theorem State.updJet_portReply (j : Nat) (f : Jet → Jet) : (s.updJet j f).portReply = s.portReply := rfl
@[simp] theorem State.updJet_free (j : Nat) (f : Jet → Jet) : (s.updJet j f).free = s.free := rfl
@[simp] theorem State.updJet_aon (j : Nat) (f : Jet → Jet) : (s.updJet j f).aon = s.aon := rfl

/-! ## State.updJets -/

@[simp] theorem State.updJets_pending (js : List Nat) (f : Nat → Jet → Jet) : (s.updJets js f).pending = s.pending := rfl
@[simp] theorem State.updJets_mem (js : List Nat) (f : Nat → Jet → Jet) : (s.updJets js f).mem = s.mem := rfl
@[simp] theorem State.updJets_regions (js : List Nat) (f : Nat → Jet → Jet) : (s.updJets js f).regions = s.regions := rfl
@[simp] theorem State.updJets_rings (js : List Nat) (f : Nat → Jet → Jet) : (s.updJets js f).rings = s.rings := rfl
@[simp] theorem State.updJets_jobs (js : List Nat) (f : Nat → Jet → Jet) : (s.updJets js f).jobs = s.jobs := rfl
@[simp] theorem State.updJets_reqs (js : List Nat) (f : Nat → Jet → Jet) : (s.updJets js f).reqs = s.reqs := rfl
@[simp] theorem State.updJets_shards (js : List Nat) (f : Nat → Jet → Jet) : (s.updJets js f).shards = s.shards := rfl
@[simp] theorem State.updJets_groups (js : List Nat) (f : Nat → Jet → Jet) : (s.updJets js f).groups = s.groups := rfl
@[simp] theorem State.updJets_slots (js : List Nat) (f : Nat → Jet → Jet) : (s.updJets js f).slots = s.slots := rfl
@[simp] theorem State.updJets_quotas (js : List Nat) (f : Nat → Jet → Jet) : (s.updJets js f).quotas = s.quotas := rfl
@[simp] theorem State.updJets_basins (js : List Nat) (f : Nat → Jet → Jet) : (s.updJets js f).basins = s.basins := rfl
@[simp] theorem State.updJets_boot (js : List Nat) (f : Nat → Jet → Jet) : (s.updJets js f).boot = s.boot := rfl
@[simp] theorem State.updJets_warden (js : List Nat) (f : Nat → Jet → Jet) : (s.updJets js f).warden = s.warden := rfl
@[simp] theorem State.updJets_wardenCopies (js : List Nat) (f : Nat → Jet → Jet) : (s.updJets js f).wardenCopies = s.wardenCopies := rfl
@[simp] theorem State.updJets_pourCopies (js : List Nat) (f : Nat → Jet → Jet) : (s.updJets js f).pourCopies = s.pourCopies := rfl
@[simp] theorem State.updJets_pourReady (js : List Nat) (f : Nat → Jet → Jet) : (s.updJets js f).pourReady = s.pourReady := rfl
@[simp] theorem State.updJets_own (js : List Nat) (f : Nat → Jet → Jet) : (s.updJets js f).own = s.own := rfl
@[simp] theorem State.updJets_range (js : List Nat) (f : Nat → Jet → Jet) : (s.updJets js f).range = s.range := rfl
@[simp] theorem State.updJets_ranges (js : List Nat) (f : Nat → Jet → Jet) : (s.updJets js f).ranges = s.ranges := rfl
@[simp] theorem State.updJets_tests (js : List Nat) (f : Nat → Jet → Jet) : (s.updJets js f).tests = s.tests := rfl
@[simp] theorem State.updJets_sluice (js : List Nat) (f : Nat → Jet → Jet) : (s.updJets js f).sluice = s.sluice := rfl
@[simp] theorem State.updJets_censusLogs (js : List Nat) (f : Nat → Jet → Jet) : (s.updJets js f).censusLogs = s.censusLogs := rfl
@[simp] theorem State.updJets_census (js : List Nat) (f : Nat → Jet → Jet) : (s.updJets js f).census = s.census := rfl
@[simp] theorem State.updJets_clocks (js : List Nat) (f : Nat → Jet → Jet) : (s.updJets js f).clocks = s.clocks := rfl
@[simp] theorem State.updJets_resets (js : List Nat) (f : Nat → Jet → Jet) : (s.updJets js f).resets = s.resets := rfl
@[simp] theorem State.updJets_garhal (js : List Nat) (f : Nat → Jet → Jet) : (s.updJets js f).garhal = s.garhal := rfl
@[simp] theorem State.updJets_port (js : List Nat) (f : Nat → Jet → Jet) : (s.updJets js f).port = s.port := rfl
@[simp] theorem State.updJets_pinReply (js : List Nat) (f : Nat → Jet → Jet) : (s.updJets js f).pinReply = s.pinReply := rfl
@[simp] theorem State.updJets_portReply (js : List Nat) (f : Nat → Jet → Jet) : (s.updJets js f).portReply = s.portReply := rfl
@[simp] theorem State.updJets_free (js : List Nat) (f : Nat → Jet → Jet) : (s.updJets js f).free = s.free := rfl
@[simp] theorem State.updJets_aon (js : List Nat) (f : Nat → Jet → Jet) : (s.updJets js f).aon = s.aon := rfl

/-! ## State.updWell -/

@[simp] theorem State.updWell_pending (j : Nat) (f : Well → Well) : (s.updWell j f).pending = s.pending := rfl
@[simp] theorem State.updWell_mem (j : Nat) (f : Well → Well) : (s.updWell j f).mem = s.mem := rfl
@[simp] theorem State.updWell_regions (j : Nat) (f : Well → Well) : (s.updWell j f).regions = s.regions := rfl
@[simp] theorem State.updWell_rings (j : Nat) (f : Well → Well) : (s.updWell j f).rings = s.rings := rfl
@[simp] theorem State.updWell_jobs (j : Nat) (f : Well → Well) : (s.updWell j f).jobs = s.jobs := rfl
@[simp] theorem State.updWell_reqs (j : Nat) (f : Well → Well) : (s.updWell j f).reqs = s.reqs := rfl
@[simp] theorem State.updWell_shards (j : Nat) (f : Well → Well) : (s.updWell j f).shards = s.shards := rfl
@[simp] theorem State.updWell_groups (j : Nat) (f : Well → Well) : (s.updWell j f).groups = s.groups := rfl
@[simp] theorem State.updWell_slots (j : Nat) (f : Well → Well) : (s.updWell j f).slots = s.slots := rfl
@[simp] theorem State.updWell_quotas (j : Nat) (f : Well → Well) : (s.updWell j f).quotas = s.quotas := rfl
@[simp] theorem State.updWell_basins (j : Nat) (f : Well → Well) : (s.updWell j f).basins = s.basins := rfl
@[simp] theorem State.updWell_boot (j : Nat) (f : Well → Well) : (s.updWell j f).boot = s.boot := rfl
@[simp] theorem State.updWell_warden (j : Nat) (f : Well → Well) : (s.updWell j f).warden = s.warden := rfl
@[simp] theorem State.updWell_wardenCopies (j : Nat) (f : Well → Well) : (s.updWell j f).wardenCopies = s.wardenCopies := rfl
@[simp] theorem State.updWell_pourCopies (j : Nat) (f : Well → Well) : (s.updWell j f).pourCopies = s.pourCopies := rfl
@[simp] theorem State.updWell_pourReady (j : Nat) (f : Well → Well) : (s.updWell j f).pourReady = s.pourReady := rfl
@[simp] theorem State.updWell_own (j : Nat) (f : Well → Well) : (s.updWell j f).own = s.own := rfl
@[simp] theorem State.updWell_range (j : Nat) (f : Well → Well) : (s.updWell j f).range = s.range := rfl
@[simp] theorem State.updWell_ranges (j : Nat) (f : Well → Well) : (s.updWell j f).ranges = s.ranges := rfl
@[simp] theorem State.updWell_tests (j : Nat) (f : Well → Well) : (s.updWell j f).tests = s.tests := rfl
@[simp] theorem State.updWell_sluice (j : Nat) (f : Well → Well) : (s.updWell j f).sluice = s.sluice := rfl
@[simp] theorem State.updWell_censusLogs (j : Nat) (f : Well → Well) : (s.updWell j f).censusLogs = s.censusLogs := rfl
@[simp] theorem State.updWell_census (j : Nat) (f : Well → Well) : (s.updWell j f).census = s.census := rfl
@[simp] theorem State.updWell_clocks (j : Nat) (f : Well → Well) : (s.updWell j f).clocks = s.clocks := rfl
@[simp] theorem State.updWell_resets (j : Nat) (f : Well → Well) : (s.updWell j f).resets = s.resets := rfl
@[simp] theorem State.updWell_garhal (j : Nat) (f : Well → Well) : (s.updWell j f).garhal = s.garhal := rfl
@[simp] theorem State.updWell_port (j : Nat) (f : Well → Well) : (s.updWell j f).port = s.port := rfl
@[simp] theorem State.updWell_pinReply (j : Nat) (f : Well → Well) : (s.updWell j f).pinReply = s.pinReply := rfl
@[simp] theorem State.updWell_portReply (j : Nat) (f : Well → Well) : (s.updWell j f).portReply = s.portReply := rfl
@[simp] theorem State.updWell_free (j : Nat) (f : Well → Well) : (s.updWell j f).free = s.free := rfl
@[simp] theorem State.updWell_aon (j : Nat) (f : Well → Well) : (s.updWell j f).aon = s.aon := rfl

/-! ## State.updBasin -/

@[simp] theorem State.updBasin_pending (b : Nat) (f : Basin → Basin) : (s.updBasin b f).pending = s.pending := rfl
@[simp] theorem State.updBasin_mem (b : Nat) (f : Basin → Basin) : (s.updBasin b f).mem = s.mem := rfl
@[simp] theorem State.updBasin_regions (b : Nat) (f : Basin → Basin) : (s.updBasin b f).regions = s.regions := rfl
@[simp] theorem State.updBasin_rings (b : Nat) (f : Basin → Basin) : (s.updBasin b f).rings = s.rings := rfl
@[simp] theorem State.updBasin_jobs (b : Nat) (f : Basin → Basin) : (s.updBasin b f).jobs = s.jobs := rfl
@[simp] theorem State.updBasin_reqs (b : Nat) (f : Basin → Basin) : (s.updBasin b f).reqs = s.reqs := rfl
@[simp] theorem State.updBasin_shards (b : Nat) (f : Basin → Basin) : (s.updBasin b f).shards = s.shards := rfl
@[simp] theorem State.updBasin_groups (b : Nat) (f : Basin → Basin) : (s.updBasin b f).groups = s.groups := rfl
@[simp] theorem State.updBasin_slots (b : Nat) (f : Basin → Basin) : (s.updBasin b f).slots = s.slots := rfl
@[simp] theorem State.updBasin_quotas (b : Nat) (f : Basin → Basin) : (s.updBasin b f).quotas = s.quotas := rfl
@[simp] theorem State.updBasin_jets (b : Nat) (f : Basin → Basin) : (s.updBasin b f).jets = s.jets := rfl
@[simp] theorem State.updBasin_boot (b : Nat) (f : Basin → Basin) : (s.updBasin b f).boot = s.boot := rfl
@[simp] theorem State.updBasin_warden (b : Nat) (f : Basin → Basin) : (s.updBasin b f).warden = s.warden := rfl
@[simp] theorem State.updBasin_wardenCopies (b : Nat) (f : Basin → Basin) : (s.updBasin b f).wardenCopies = s.wardenCopies := rfl
@[simp] theorem State.updBasin_pourCopies (b : Nat) (f : Basin → Basin) : (s.updBasin b f).pourCopies = s.pourCopies := rfl
@[simp] theorem State.updBasin_pourReady (b : Nat) (f : Basin → Basin) : (s.updBasin b f).pourReady = s.pourReady := rfl
@[simp] theorem State.updBasin_own (b : Nat) (f : Basin → Basin) : (s.updBasin b f).own = s.own := rfl
@[simp] theorem State.updBasin_range (b : Nat) (f : Basin → Basin) : (s.updBasin b f).range = s.range := rfl
@[simp] theorem State.updBasin_ranges (b : Nat) (f : Basin → Basin) : (s.updBasin b f).ranges = s.ranges := rfl
@[simp] theorem State.updBasin_tests (b : Nat) (f : Basin → Basin) : (s.updBasin b f).tests = s.tests := rfl
@[simp] theorem State.updBasin_sluice (b : Nat) (f : Basin → Basin) : (s.updBasin b f).sluice = s.sluice := rfl
@[simp] theorem State.updBasin_censusLogs (b : Nat) (f : Basin → Basin) : (s.updBasin b f).censusLogs = s.censusLogs := rfl
@[simp] theorem State.updBasin_census (b : Nat) (f : Basin → Basin) : (s.updBasin b f).census = s.census := rfl
@[simp] theorem State.updBasin_clocks (b : Nat) (f : Basin → Basin) : (s.updBasin b f).clocks = s.clocks := rfl
@[simp] theorem State.updBasin_resets (b : Nat) (f : Basin → Basin) : (s.updBasin b f).resets = s.resets := rfl
@[simp] theorem State.updBasin_garhal (b : Nat) (f : Basin → Basin) : (s.updBasin b f).garhal = s.garhal := rfl
@[simp] theorem State.updBasin_port (b : Nat) (f : Basin → Basin) : (s.updBasin b f).port = s.port := rfl
@[simp] theorem State.updBasin_pinReply (b : Nat) (f : Basin → Basin) : (s.updBasin b f).pinReply = s.pinReply := rfl
@[simp] theorem State.updBasin_portReply (b : Nat) (f : Basin → Basin) : (s.updBasin b f).portReply = s.portReply := rfl
@[simp] theorem State.updBasin_free (b : Nat) (f : Basin → Basin) : (s.updBasin b f).free = s.free := rfl
@[simp] theorem State.updBasin_aon (b : Nat) (f : Basin → Basin) : (s.updBasin b f).aon = s.aon := rfl

/-! ## State.updRegion -/

@[simp] theorem State.updRegion_pending (k : Nat) (f : RegionEntry → RegionEntry) : (s.updRegion k f).pending = s.pending := rfl
@[simp] theorem State.updRegion_mem (k : Nat) (f : RegionEntry → RegionEntry) : (s.updRegion k f).mem = s.mem := rfl
@[simp] theorem State.updRegion_rings (k : Nat) (f : RegionEntry → RegionEntry) : (s.updRegion k f).rings = s.rings := rfl
@[simp] theorem State.updRegion_jobs (k : Nat) (f : RegionEntry → RegionEntry) : (s.updRegion k f).jobs = s.jobs := rfl
@[simp] theorem State.updRegion_reqs (k : Nat) (f : RegionEntry → RegionEntry) : (s.updRegion k f).reqs = s.reqs := rfl
@[simp] theorem State.updRegion_shards (k : Nat) (f : RegionEntry → RegionEntry) : (s.updRegion k f).shards = s.shards := rfl
@[simp] theorem State.updRegion_groups (k : Nat) (f : RegionEntry → RegionEntry) : (s.updRegion k f).groups = s.groups := rfl
@[simp] theorem State.updRegion_slots (k : Nat) (f : RegionEntry → RegionEntry) : (s.updRegion k f).slots = s.slots := rfl
@[simp] theorem State.updRegion_quotas (k : Nat) (f : RegionEntry → RegionEntry) : (s.updRegion k f).quotas = s.quotas := rfl
@[simp] theorem State.updRegion_jets (k : Nat) (f : RegionEntry → RegionEntry) : (s.updRegion k f).jets = s.jets := rfl
@[simp] theorem State.updRegion_basins (k : Nat) (f : RegionEntry → RegionEntry) : (s.updRegion k f).basins = s.basins := rfl
@[simp] theorem State.updRegion_boot (k : Nat) (f : RegionEntry → RegionEntry) : (s.updRegion k f).boot = s.boot := rfl
@[simp] theorem State.updRegion_warden (k : Nat) (f : RegionEntry → RegionEntry) : (s.updRegion k f).warden = s.warden := rfl
@[simp] theorem State.updRegion_wardenCopies (k : Nat) (f : RegionEntry → RegionEntry) : (s.updRegion k f).wardenCopies = s.wardenCopies := rfl
@[simp] theorem State.updRegion_pourCopies (k : Nat) (f : RegionEntry → RegionEntry) : (s.updRegion k f).pourCopies = s.pourCopies := rfl
@[simp] theorem State.updRegion_pourReady (k : Nat) (f : RegionEntry → RegionEntry) : (s.updRegion k f).pourReady = s.pourReady := rfl
@[simp] theorem State.updRegion_own (k : Nat) (f : RegionEntry → RegionEntry) : (s.updRegion k f).own = s.own := rfl
@[simp] theorem State.updRegion_range (k : Nat) (f : RegionEntry → RegionEntry) : (s.updRegion k f).range = s.range := rfl
@[simp] theorem State.updRegion_ranges (k : Nat) (f : RegionEntry → RegionEntry) : (s.updRegion k f).ranges = s.ranges := rfl
@[simp] theorem State.updRegion_tests (k : Nat) (f : RegionEntry → RegionEntry) : (s.updRegion k f).tests = s.tests := rfl
@[simp] theorem State.updRegion_sluice (k : Nat) (f : RegionEntry → RegionEntry) : (s.updRegion k f).sluice = s.sluice := rfl
@[simp] theorem State.updRegion_censusLogs (k : Nat) (f : RegionEntry → RegionEntry) : (s.updRegion k f).censusLogs = s.censusLogs := rfl
@[simp] theorem State.updRegion_census (k : Nat) (f : RegionEntry → RegionEntry) : (s.updRegion k f).census = s.census := rfl
@[simp] theorem State.updRegion_clocks (k : Nat) (f : RegionEntry → RegionEntry) : (s.updRegion k f).clocks = s.clocks := rfl
@[simp] theorem State.updRegion_resets (k : Nat) (f : RegionEntry → RegionEntry) : (s.updRegion k f).resets = s.resets := rfl
@[simp] theorem State.updRegion_garhal (k : Nat) (f : RegionEntry → RegionEntry) : (s.updRegion k f).garhal = s.garhal := rfl
@[simp] theorem State.updRegion_port (k : Nat) (f : RegionEntry → RegionEntry) : (s.updRegion k f).port = s.port := rfl
@[simp] theorem State.updRegion_pinReply (k : Nat) (f : RegionEntry → RegionEntry) : (s.updRegion k f).pinReply = s.pinReply := rfl
@[simp] theorem State.updRegion_portReply (k : Nat) (f : RegionEntry → RegionEntry) : (s.updRegion k f).portReply = s.portReply := rfl
@[simp] theorem State.updRegion_free (k : Nat) (f : RegionEntry → RegionEntry) : (s.updRegion k f).free = s.free := rfl
@[simp] theorem State.updRegion_aon (k : Nat) (f : RegionEntry → RegionEntry) : (s.updRegion k f).aon = s.aon := rfl

/-! ## State.updOwn -/

@[simp] theorem State.updOwn_pending (p : Nat) (f : Own → Own) : (s.updOwn p f).pending = s.pending := rfl
@[simp] theorem State.updOwn_mem (p : Nat) (f : Own → Own) : (s.updOwn p f).mem = s.mem := rfl
@[simp] theorem State.updOwn_regions (p : Nat) (f : Own → Own) : (s.updOwn p f).regions = s.regions := rfl
@[simp] theorem State.updOwn_rings (p : Nat) (f : Own → Own) : (s.updOwn p f).rings = s.rings := rfl
@[simp] theorem State.updOwn_jobs (p : Nat) (f : Own → Own) : (s.updOwn p f).jobs = s.jobs := rfl
@[simp] theorem State.updOwn_reqs (p : Nat) (f : Own → Own) : (s.updOwn p f).reqs = s.reqs := rfl
@[simp] theorem State.updOwn_shards (p : Nat) (f : Own → Own) : (s.updOwn p f).shards = s.shards := rfl
@[simp] theorem State.updOwn_groups (p : Nat) (f : Own → Own) : (s.updOwn p f).groups = s.groups := rfl
@[simp] theorem State.updOwn_slots (p : Nat) (f : Own → Own) : (s.updOwn p f).slots = s.slots := rfl
@[simp] theorem State.updOwn_quotas (p : Nat) (f : Own → Own) : (s.updOwn p f).quotas = s.quotas := rfl
@[simp] theorem State.updOwn_jets (p : Nat) (f : Own → Own) : (s.updOwn p f).jets = s.jets := rfl
@[simp] theorem State.updOwn_basins (p : Nat) (f : Own → Own) : (s.updOwn p f).basins = s.basins := rfl
@[simp] theorem State.updOwn_boot (p : Nat) (f : Own → Own) : (s.updOwn p f).boot = s.boot := rfl
@[simp] theorem State.updOwn_warden (p : Nat) (f : Own → Own) : (s.updOwn p f).warden = s.warden := rfl
@[simp] theorem State.updOwn_wardenCopies (p : Nat) (f : Own → Own) : (s.updOwn p f).wardenCopies = s.wardenCopies := rfl
@[simp] theorem State.updOwn_pourCopies (p : Nat) (f : Own → Own) : (s.updOwn p f).pourCopies = s.pourCopies := rfl
@[simp] theorem State.updOwn_pourReady (p : Nat) (f : Own → Own) : (s.updOwn p f).pourReady = s.pourReady := rfl
@[simp] theorem State.updOwn_range (p : Nat) (f : Own → Own) : (s.updOwn p f).range = s.range := rfl
@[simp] theorem State.updOwn_ranges (p : Nat) (f : Own → Own) : (s.updOwn p f).ranges = s.ranges := rfl
@[simp] theorem State.updOwn_tests (p : Nat) (f : Own → Own) : (s.updOwn p f).tests = s.tests := rfl
@[simp] theorem State.updOwn_sluice (p : Nat) (f : Own → Own) : (s.updOwn p f).sluice = s.sluice := rfl
@[simp] theorem State.updOwn_censusLogs (p : Nat) (f : Own → Own) : (s.updOwn p f).censusLogs = s.censusLogs := rfl
@[simp] theorem State.updOwn_census (p : Nat) (f : Own → Own) : (s.updOwn p f).census = s.census := rfl
@[simp] theorem State.updOwn_clocks (p : Nat) (f : Own → Own) : (s.updOwn p f).clocks = s.clocks := rfl
@[simp] theorem State.updOwn_resets (p : Nat) (f : Own → Own) : (s.updOwn p f).resets = s.resets := rfl
@[simp] theorem State.updOwn_garhal (p : Nat) (f : Own → Own) : (s.updOwn p f).garhal = s.garhal := rfl
@[simp] theorem State.updOwn_port (p : Nat) (f : Own → Own) : (s.updOwn p f).port = s.port := rfl
@[simp] theorem State.updOwn_pinReply (p : Nat) (f : Own → Own) : (s.updOwn p f).pinReply = s.pinReply := rfl
@[simp] theorem State.updOwn_portReply (p : Nat) (f : Own → Own) : (s.updOwn p f).portReply = s.portReply := rfl
@[simp] theorem State.updOwn_free (p : Nat) (f : Own → Own) : (s.updOwn p f).free = s.free := rfl
@[simp] theorem State.updOwn_aon (p : Nat) (f : Own → Own) : (s.updOwn p f).aon = s.aon := rfl

/-! ## State.updJob -/

@[simp] theorem State.updJob_pending (r : Nat) (q : Word) (f : Job → Job) : (s.updJob r q f).pending = s.pending := rfl
@[simp] theorem State.updJob_mem (r : Nat) (q : Word) (f : Job → Job) : (s.updJob r q f).mem = s.mem := rfl
@[simp] theorem State.updJob_regions (r : Nat) (q : Word) (f : Job → Job) : (s.updJob r q f).regions = s.regions := rfl
@[simp] theorem State.updJob_rings (r : Nat) (q : Word) (f : Job → Job) : (s.updJob r q f).rings = s.rings := rfl
@[simp] theorem State.updJob_reqs (r : Nat) (q : Word) (f : Job → Job) : (s.updJob r q f).reqs = s.reqs := rfl
@[simp] theorem State.updJob_shards (r : Nat) (q : Word) (f : Job → Job) : (s.updJob r q f).shards = s.shards := rfl
@[simp] theorem State.updJob_groups (r : Nat) (q : Word) (f : Job → Job) : (s.updJob r q f).groups = s.groups := rfl
@[simp] theorem State.updJob_slots (r : Nat) (q : Word) (f : Job → Job) : (s.updJob r q f).slots = s.slots := rfl
@[simp] theorem State.updJob_quotas (r : Nat) (q : Word) (f : Job → Job) : (s.updJob r q f).quotas = s.quotas := rfl
@[simp] theorem State.updJob_jets (r : Nat) (q : Word) (f : Job → Job) : (s.updJob r q f).jets = s.jets := rfl
@[simp] theorem State.updJob_basins (r : Nat) (q : Word) (f : Job → Job) : (s.updJob r q f).basins = s.basins := rfl
@[simp] theorem State.updJob_boot (r : Nat) (q : Word) (f : Job → Job) : (s.updJob r q f).boot = s.boot := rfl
@[simp] theorem State.updJob_warden (r : Nat) (q : Word) (f : Job → Job) : (s.updJob r q f).warden = s.warden := rfl
@[simp] theorem State.updJob_wardenCopies (r : Nat) (q : Word) (f : Job → Job) : (s.updJob r q f).wardenCopies = s.wardenCopies := rfl
@[simp] theorem State.updJob_pourCopies (r : Nat) (q : Word) (f : Job → Job) : (s.updJob r q f).pourCopies = s.pourCopies := rfl
@[simp] theorem State.updJob_pourReady (r : Nat) (q : Word) (f : Job → Job) : (s.updJob r q f).pourReady = s.pourReady := rfl
@[simp] theorem State.updJob_own (r : Nat) (q : Word) (f : Job → Job) : (s.updJob r q f).own = s.own := rfl
@[simp] theorem State.updJob_range (r : Nat) (q : Word) (f : Job → Job) : (s.updJob r q f).range = s.range := rfl
@[simp] theorem State.updJob_ranges (r : Nat) (q : Word) (f : Job → Job) : (s.updJob r q f).ranges = s.ranges := rfl
@[simp] theorem State.updJob_tests (r : Nat) (q : Word) (f : Job → Job) : (s.updJob r q f).tests = s.tests := rfl
@[simp] theorem State.updJob_sluice (r : Nat) (q : Word) (f : Job → Job) : (s.updJob r q f).sluice = s.sluice := rfl
@[simp] theorem State.updJob_censusLogs (r : Nat) (q : Word) (f : Job → Job) : (s.updJob r q f).censusLogs = s.censusLogs := rfl
@[simp] theorem State.updJob_census (r : Nat) (q : Word) (f : Job → Job) : (s.updJob r q f).census = s.census := rfl
@[simp] theorem State.updJob_clocks (r : Nat) (q : Word) (f : Job → Job) : (s.updJob r q f).clocks = s.clocks := rfl
@[simp] theorem State.updJob_resets (r : Nat) (q : Word) (f : Job → Job) : (s.updJob r q f).resets = s.resets := rfl
@[simp] theorem State.updJob_garhal (r : Nat) (q : Word) (f : Job → Job) : (s.updJob r q f).garhal = s.garhal := rfl
@[simp] theorem State.updJob_port (r : Nat) (q : Word) (f : Job → Job) : (s.updJob r q f).port = s.port := rfl
@[simp] theorem State.updJob_pinReply (r : Nat) (q : Word) (f : Job → Job) : (s.updJob r q f).pinReply = s.pinReply := rfl
@[simp] theorem State.updJob_portReply (r : Nat) (q : Word) (f : Job → Job) : (s.updJob r q f).portReply = s.portReply := rfl
@[simp] theorem State.updJob_free (r : Nat) (q : Word) (f : Job → Job) : (s.updJob r q f).free = s.free := rfl
@[simp] theorem State.updJob_aon (r : Nat) (q : Word) (f : Job → Job) : (s.updJob r q f).aon = s.aon := rfl

/-! ## State.dropJob -/

@[simp] theorem State.dropJob_pending (r : Nat) (q : Word) : (s.dropJob r q).pending = s.pending := rfl
@[simp] theorem State.dropJob_mem (r : Nat) (q : Word) : (s.dropJob r q).mem = s.mem := rfl
@[simp] theorem State.dropJob_regions (r : Nat) (q : Word) : (s.dropJob r q).regions = s.regions := rfl
@[simp] theorem State.dropJob_rings (r : Nat) (q : Word) : (s.dropJob r q).rings = s.rings := rfl
@[simp] theorem State.dropJob_reqs (r : Nat) (q : Word) : (s.dropJob r q).reqs = s.reqs := rfl
@[simp] theorem State.dropJob_shards (r : Nat) (q : Word) : (s.dropJob r q).shards = s.shards := rfl
@[simp] theorem State.dropJob_groups (r : Nat) (q : Word) : (s.dropJob r q).groups = s.groups := rfl
@[simp] theorem State.dropJob_slots (r : Nat) (q : Word) : (s.dropJob r q).slots = s.slots := rfl
@[simp] theorem State.dropJob_quotas (r : Nat) (q : Word) : (s.dropJob r q).quotas = s.quotas := rfl
@[simp] theorem State.dropJob_jets (r : Nat) (q : Word) : (s.dropJob r q).jets = s.jets := rfl
@[simp] theorem State.dropJob_basins (r : Nat) (q : Word) : (s.dropJob r q).basins = s.basins := rfl
@[simp] theorem State.dropJob_boot (r : Nat) (q : Word) : (s.dropJob r q).boot = s.boot := rfl
@[simp] theorem State.dropJob_warden (r : Nat) (q : Word) : (s.dropJob r q).warden = s.warden := rfl
@[simp] theorem State.dropJob_wardenCopies (r : Nat) (q : Word) : (s.dropJob r q).wardenCopies = s.wardenCopies := rfl
@[simp] theorem State.dropJob_pourCopies (r : Nat) (q : Word) : (s.dropJob r q).pourCopies = s.pourCopies := rfl
@[simp] theorem State.dropJob_pourReady (r : Nat) (q : Word) : (s.dropJob r q).pourReady = s.pourReady := rfl
@[simp] theorem State.dropJob_own (r : Nat) (q : Word) : (s.dropJob r q).own = s.own := rfl
@[simp] theorem State.dropJob_range (r : Nat) (q : Word) : (s.dropJob r q).range = s.range := rfl
@[simp] theorem State.dropJob_ranges (r : Nat) (q : Word) : (s.dropJob r q).ranges = s.ranges := rfl
@[simp] theorem State.dropJob_tests (r : Nat) (q : Word) : (s.dropJob r q).tests = s.tests := rfl
@[simp] theorem State.dropJob_sluice (r : Nat) (q : Word) : (s.dropJob r q).sluice = s.sluice := rfl
@[simp] theorem State.dropJob_censusLogs (r : Nat) (q : Word) : (s.dropJob r q).censusLogs = s.censusLogs := rfl
@[simp] theorem State.dropJob_census (r : Nat) (q : Word) : (s.dropJob r q).census = s.census := rfl
@[simp] theorem State.dropJob_clocks (r : Nat) (q : Word) : (s.dropJob r q).clocks = s.clocks := rfl
@[simp] theorem State.dropJob_resets (r : Nat) (q : Word) : (s.dropJob r q).resets = s.resets := rfl
@[simp] theorem State.dropJob_garhal (r : Nat) (q : Word) : (s.dropJob r q).garhal = s.garhal := rfl
@[simp] theorem State.dropJob_port (r : Nat) (q : Word) : (s.dropJob r q).port = s.port := rfl
@[simp] theorem State.dropJob_pinReply (r : Nat) (q : Word) : (s.dropJob r q).pinReply = s.pinReply := rfl
@[simp] theorem State.dropJob_portReply (r : Nat) (q : Word) : (s.dropJob r q).portReply = s.portReply := rfl
@[simp] theorem State.dropJob_free (r : Nat) (q : Word) : (s.dropJob r q).free = s.free := rfl
@[simp] theorem State.dropJob_aon (r : Nat) (q : Word) : (s.dropJob r q).aon = s.aon := rfl

/-! ## State.draw -/

@[simp] theorem State.draw_pending (n : Nat) : (s.draw n).pending = s.pending := rfl
@[simp] theorem State.draw_mem (n : Nat) : (s.draw n).mem = s.mem := rfl
@[simp] theorem State.draw_regions (n : Nat) : (s.draw n).regions = s.regions := rfl
@[simp] theorem State.draw_rings (n : Nat) : (s.draw n).rings = s.rings := rfl
@[simp] theorem State.draw_jobs (n : Nat) : (s.draw n).jobs = s.jobs := rfl
@[simp] theorem State.draw_reqs (n : Nat) : (s.draw n).reqs = s.reqs := rfl
@[simp] theorem State.draw_shards (n : Nat) : (s.draw n).shards = s.shards := rfl
@[simp] theorem State.draw_groups (n : Nat) : (s.draw n).groups = s.groups := rfl
@[simp] theorem State.draw_slots (n : Nat) : (s.draw n).slots = s.slots := rfl
@[simp] theorem State.draw_quotas (n : Nat) : (s.draw n).quotas = s.quotas := rfl
@[simp] theorem State.draw_jets (n : Nat) : (s.draw n).jets = s.jets := rfl
@[simp] theorem State.draw_basins (n : Nat) : (s.draw n).basins = s.basins := rfl
@[simp] theorem State.draw_boot (n : Nat) : (s.draw n).boot = s.boot := rfl
@[simp] theorem State.draw_warden (n : Nat) : (s.draw n).warden = s.warden := rfl
@[simp] theorem State.draw_wardenCopies (n : Nat) : (s.draw n).wardenCopies = s.wardenCopies := rfl
@[simp] theorem State.draw_pourCopies (n : Nat) : (s.draw n).pourCopies = s.pourCopies := rfl
@[simp] theorem State.draw_pourReady (n : Nat) : (s.draw n).pourReady = s.pourReady := rfl
@[simp] theorem State.draw_own (n : Nat) : (s.draw n).own = s.own := rfl
@[simp] theorem State.draw_range (n : Nat) : (s.draw n).range = s.range := rfl
@[simp] theorem State.draw_ranges (n : Nat) : (s.draw n).ranges = s.ranges := rfl
@[simp] theorem State.draw_tests (n : Nat) : (s.draw n).tests = s.tests := rfl
@[simp] theorem State.draw_sluice (n : Nat) : (s.draw n).sluice = s.sluice := rfl
@[simp] theorem State.draw_censusLogs (n : Nat) : (s.draw n).censusLogs = s.censusLogs := rfl
@[simp] theorem State.draw_census (n : Nat) : (s.draw n).census = s.census := rfl
@[simp] theorem State.draw_clocks (n : Nat) : (s.draw n).clocks = s.clocks := rfl
@[simp] theorem State.draw_resets (n : Nat) : (s.draw n).resets = s.resets := rfl
@[simp] theorem State.draw_garhal (n : Nat) : (s.draw n).garhal = s.garhal := rfl
@[simp] theorem State.draw_port (n : Nat) : (s.draw n).port = s.port := rfl
@[simp] theorem State.draw_pinReply (n : Nat) : (s.draw n).pinReply = s.pinReply := rfl
@[simp] theorem State.draw_portReply (n : Nat) : (s.draw n).portReply = s.portReply := rfl
@[simp] theorem State.draw_aon (n : Nat) : (s.draw n).aon = s.aon := rfl

/-! ## State.request -/

@[simp] theorem State.request_pending (r : Request) : (s.request r).pending = s.pending := rfl
@[simp] theorem State.request_mem (r : Request) : (s.request r).mem = s.mem := rfl
@[simp] theorem State.request_regions (r : Request) : (s.request r).regions = s.regions := rfl
@[simp] theorem State.request_rings (r : Request) : (s.request r).rings = s.rings := rfl
@[simp] theorem State.request_jobs (r : Request) : (s.request r).jobs = s.jobs := rfl
@[simp] theorem State.request_shards (r : Request) : (s.request r).shards = s.shards := rfl
@[simp] theorem State.request_groups (r : Request) : (s.request r).groups = s.groups := rfl
@[simp] theorem State.request_slots (r : Request) : (s.request r).slots = s.slots := rfl
@[simp] theorem State.request_quotas (r : Request) : (s.request r).quotas = s.quotas := rfl
@[simp] theorem State.request_jets (r : Request) : (s.request r).jets = s.jets := rfl
@[simp] theorem State.request_basins (r : Request) : (s.request r).basins = s.basins := rfl
@[simp] theorem State.request_boot (r : Request) : (s.request r).boot = s.boot := rfl
@[simp] theorem State.request_warden (r : Request) : (s.request r).warden = s.warden := rfl
@[simp] theorem State.request_wardenCopies (r : Request) : (s.request r).wardenCopies = s.wardenCopies := rfl
@[simp] theorem State.request_pourCopies (r : Request) : (s.request r).pourCopies = s.pourCopies := rfl
@[simp] theorem State.request_pourReady (r : Request) : (s.request r).pourReady = s.pourReady := rfl
@[simp] theorem State.request_own (r : Request) : (s.request r).own = s.own := rfl
@[simp] theorem State.request_range (r : Request) : (s.request r).range = s.range := rfl
@[simp] theorem State.request_ranges (r : Request) : (s.request r).ranges = s.ranges := rfl
@[simp] theorem State.request_tests (r : Request) : (s.request r).tests = s.tests := rfl
@[simp] theorem State.request_sluice (r : Request) : (s.request r).sluice = s.sluice := rfl
@[simp] theorem State.request_censusLogs (r : Request) : (s.request r).censusLogs = s.censusLogs := rfl
@[simp] theorem State.request_census (r : Request) : (s.request r).census = s.census := rfl
@[simp] theorem State.request_clocks (r : Request) : (s.request r).clocks = s.clocks := rfl
@[simp] theorem State.request_resets (r : Request) : (s.request r).resets = s.resets := rfl
@[simp] theorem State.request_garhal (r : Request) : (s.request r).garhal = s.garhal := rfl
@[simp] theorem State.request_port (r : Request) : (s.request r).port = s.port := rfl
@[simp] theorem State.request_pinReply (r : Request) : (s.request r).pinReply = s.pinReply := rfl
@[simp] theorem State.request_portReply (r : Request) : (s.request r).portReply = s.portReply := rfl
@[simp] theorem State.request_free (r : Request) : (s.request r).free = s.free := rfl
@[simp] theorem State.request_aon (r : Request) : (s.request r).aon = s.aon := rfl

/-! ## State.countDrop -/

@[simp] theorem State.countDrop_pending (k : Nat) : (s.countDrop k).pending = s.pending := rfl
@[simp] theorem State.countDrop_mem (k : Nat) : (s.countDrop k).mem = s.mem := rfl
@[simp] theorem State.countDrop_regions (k : Nat) : (s.countDrop k).regions = s.regions := rfl
@[simp] theorem State.countDrop_rings (k : Nat) : (s.countDrop k).rings = s.rings := rfl
@[simp] theorem State.countDrop_jobs (k : Nat) : (s.countDrop k).jobs = s.jobs := rfl
@[simp] theorem State.countDrop_reqs (k : Nat) : (s.countDrop k).reqs = s.reqs := rfl
@[simp] theorem State.countDrop_shards (k : Nat) : (s.countDrop k).shards = s.shards := rfl
@[simp] theorem State.countDrop_groups (k : Nat) : (s.countDrop k).groups = s.groups := rfl
@[simp] theorem State.countDrop_slots (k : Nat) : (s.countDrop k).slots = s.slots := rfl
@[simp] theorem State.countDrop_quotas (k : Nat) : (s.countDrop k).quotas = s.quotas := rfl
@[simp] theorem State.countDrop_jets (k : Nat) : (s.countDrop k).jets = s.jets := rfl
@[simp] theorem State.countDrop_basins (k : Nat) : (s.countDrop k).basins = s.basins := rfl
@[simp] theorem State.countDrop_boot (k : Nat) : (s.countDrop k).boot = s.boot := rfl
@[simp] theorem State.countDrop_warden (k : Nat) : (s.countDrop k).warden = s.warden := rfl
@[simp] theorem State.countDrop_wardenCopies (k : Nat) : (s.countDrop k).wardenCopies = s.wardenCopies := rfl
@[simp] theorem State.countDrop_pourCopies (k : Nat) : (s.countDrop k).pourCopies = s.pourCopies := rfl
@[simp] theorem State.countDrop_pourReady (k : Nat) : (s.countDrop k).pourReady = s.pourReady := rfl
@[simp] theorem State.countDrop_own (k : Nat) : (s.countDrop k).own = s.own := rfl
@[simp] theorem State.countDrop_range (k : Nat) : (s.countDrop k).range = s.range := rfl
@[simp] theorem State.countDrop_ranges (k : Nat) : (s.countDrop k).ranges = s.ranges := rfl
@[simp] theorem State.countDrop_tests (k : Nat) : (s.countDrop k).tests = s.tests := rfl
@[simp] theorem State.countDrop_censusLogs (k : Nat) : (s.countDrop k).censusLogs = s.censusLogs := rfl
@[simp] theorem State.countDrop_census (k : Nat) : (s.countDrop k).census = s.census := rfl
@[simp] theorem State.countDrop_clocks (k : Nat) : (s.countDrop k).clocks = s.clocks := rfl
@[simp] theorem State.countDrop_resets (k : Nat) : (s.countDrop k).resets = s.resets := rfl
@[simp] theorem State.countDrop_garhal (k : Nat) : (s.countDrop k).garhal = s.garhal := rfl
@[simp] theorem State.countDrop_port (k : Nat) : (s.countDrop k).port = s.port := rfl
@[simp] theorem State.countDrop_pinReply (k : Nat) : (s.countDrop k).pinReply = s.pinReply := rfl
@[simp] theorem State.countDrop_portReply (k : Nat) : (s.countDrop k).portReply = s.portReply := rfl
@[simp] theorem State.countDrop_free (k : Nat) : (s.countDrop k).free = s.free := rfl
@[simp] theorem State.countDrop_aon (k : Nat) : (s.countDrop k).aon = s.aon := rfl

end Sys2Proof.Machine
end

