-- ==== Sys2Proof/Laws/Invariant.lean ====
section
/-! SUPPORT. The invariant of the block and the updates of one table: what keeps it, and what each key then reads as. -/

namespace Sys2Proof.Machine

variable {s : State}

/-! ## The tables -/

@[simp] theorem regionsWf_nil : regionsWf [] := rfl
@[simp] theorem regionsWf_set {t : Tab RegionEntry} (h : regionsWf t) (i : Nat) (v : RegionEntry) : regionsWf (Tab.set {} t i v) := Tab.wf_set h i v
@[simp] theorem regionsWf_upd {t : Tab RegionEntry} (h : regionsWf t) (i : Nat) (f : RegionEntry → RegionEntry) : regionsWf (Tab.upd {} t i f) :=
  Tab.wf_upd h i f
@[simp] theorem regionsWf_updAll {t : Tab RegionEntry} (h : regionsWf t) (ks : List Nat) (f : Nat → RegionEntry → RegionEntry) :
    regionsWf (Tab.updAll {} t ks f) := Tab.wf_updAll h ks f
@[simp] theorem regionsWf_mapVals {t : Tab RegionEntry} (h : regionsWf t) (f : Nat → RegionEntry → RegionEntry) :
    regionsWf (Tab.mapVals {} f t) := Tab.wf_mapVals h f
@[simp] theorem regionsWf_filter {t : Tab RegionEntry} (h : regionsWf t) (p : Nat × RegionEntry → Bool) : regionsWf (t.filter p) := Tab.wf_filter h p

@[simp] theorem ringsWf_nil : ringsWf [] := rfl
@[simp] theorem ringsWf_set {t : Tab Ring} (h : ringsWf t) (i : Nat) (v : Ring) : ringsWf (Tab.set {} t i v) := Tab.wf_set h i v
@[simp] theorem ringsWf_upd {t : Tab Ring} (h : ringsWf t) (i : Nat) (f : Ring → Ring) : ringsWf (Tab.upd {} t i f) :=
  Tab.wf_upd h i f
@[simp] theorem ringsWf_updAll {t : Tab Ring} (h : ringsWf t) (ks : List Nat) (f : Nat → Ring → Ring) :
    ringsWf (Tab.updAll {} t ks f) := Tab.wf_updAll h ks f
@[simp] theorem ringsWf_mapVals {t : Tab Ring} (h : ringsWf t) (f : Nat → Ring → Ring) :
    ringsWf (Tab.mapVals {} f t) := Tab.wf_mapVals h f
@[simp] theorem ringsWf_filter {t : Tab Ring} (h : ringsWf t) (p : Nat × Ring → Bool) : ringsWf (t.filter p) := Tab.wf_filter h p

@[simp] theorem shardsWf_nil : shardsWf [] := rfl
@[simp] theorem shardsWf_set {t : Tab Shard} (h : shardsWf t) (i : Nat) (v : Shard) : shardsWf (Tab.set {} t i v) := Tab.wf_set h i v
@[simp] theorem shardsWf_upd {t : Tab Shard} (h : shardsWf t) (i : Nat) (f : Shard → Shard) : shardsWf (Tab.upd {} t i f) :=
  Tab.wf_upd h i f
@[simp] theorem shardsWf_updAll {t : Tab Shard} (h : shardsWf t) (ks : List Nat) (f : Nat → Shard → Shard) :
    shardsWf (Tab.updAll {} t ks f) := Tab.wf_updAll h ks f
@[simp] theorem shardsWf_mapVals {t : Tab Shard} (h : shardsWf t) (f : Nat → Shard → Shard) :
    shardsWf (Tab.mapVals {} f t) := Tab.wf_mapVals h f
@[simp] theorem shardsWf_filter {t : Tab Shard} (h : shardsWf t) (p : Nat × Shard → Bool) : shardsWf (t.filter p) := Tab.wf_filter h p

@[simp] theorem groupsWf_nil : groupsWf [] := rfl
@[simp] theorem groupsWf_set {t : Tab Group} (h : groupsWf t) (i : Nat) (v : Group) : groupsWf (Tab.set {} t i v) := Tab.wf_set h i v
@[simp] theorem groupsWf_upd {t : Tab Group} (h : groupsWf t) (i : Nat) (f : Group → Group) : groupsWf (Tab.upd {} t i f) :=
  Tab.wf_upd h i f
@[simp] theorem groupsWf_updAll {t : Tab Group} (h : groupsWf t) (ks : List Nat) (f : Nat → Group → Group) :
    groupsWf (Tab.updAll {} t ks f) := Tab.wf_updAll h ks f
@[simp] theorem groupsWf_mapVals {t : Tab Group} (h : groupsWf t) (f : Nat → Group → Group) :
    groupsWf (Tab.mapVals {} f t) := Tab.wf_mapVals h f
@[simp] theorem groupsWf_filter {t : Tab Group} (h : groupsWf t) (p : Nat × Group → Bool) : groupsWf (t.filter p) := Tab.wf_filter h p

@[simp] theorem slotsWf_nil : slotsWf [] := rfl
@[simp] theorem slotsWf_set {t : Tab Slot} (h : slotsWf t) (i : Nat) (v : Slot) : slotsWf (Tab.set {} t i v) := Tab.wf_set h i v
@[simp] theorem slotsWf_upd {t : Tab Slot} (h : slotsWf t) (i : Nat) (f : Slot → Slot) : slotsWf (Tab.upd {} t i f) :=
  Tab.wf_upd h i f
@[simp] theorem slotsWf_updAll {t : Tab Slot} (h : slotsWf t) (ks : List Nat) (f : Nat → Slot → Slot) :
    slotsWf (Tab.updAll {} t ks f) := Tab.wf_updAll h ks f
@[simp] theorem slotsWf_mapVals {t : Tab Slot} (h : slotsWf t) (f : Nat → Slot → Slot) :
    slotsWf (Tab.mapVals {} f t) := Tab.wf_mapVals h f
@[simp] theorem slotsWf_filter {t : Tab Slot} (h : slotsWf t) (p : Nat × Slot → Bool) : slotsWf (t.filter p) := Tab.wf_filter h p

@[simp] theorem jetsWf_nil : jetsWf [] := rfl
@[simp] theorem jetsWf_set {t : Tab Jet} (h : jetsWf t) (i : Nat) (v : Jet) : jetsWf (Tab.set {} t i v) := Tab.wf_set h i v
@[simp] theorem jetsWf_upd {t : Tab Jet} (h : jetsWf t) (i : Nat) (f : Jet → Jet) : jetsWf (Tab.upd {} t i f) :=
  Tab.wf_upd h i f
@[simp] theorem jetsWf_updAll {t : Tab Jet} (h : jetsWf t) (ks : List Nat) (f : Nat → Jet → Jet) :
    jetsWf (Tab.updAll {} t ks f) := Tab.wf_updAll h ks f
@[simp] theorem jetsWf_mapVals {t : Tab Jet} (h : jetsWf t) (f : Nat → Jet → Jet) :
    jetsWf (Tab.mapVals {} f t) := Tab.wf_mapVals h f
@[simp] theorem jetsWf_filter {t : Tab Jet} (h : jetsWf t) (p : Nat × Jet → Bool) : jetsWf (t.filter p) := Tab.wf_filter h p

@[simp] theorem basinsWf_nil : basinsWf [] := rfl
@[simp] theorem basinsWf_set {t : Tab Basin} (h : basinsWf t) (i : Nat) (v : Basin) : basinsWf (Tab.set {} t i v) := Tab.wf_set h i v
@[simp] theorem basinsWf_upd {t : Tab Basin} (h : basinsWf t) (i : Nat) (f : Basin → Basin) : basinsWf (Tab.upd {} t i f) :=
  Tab.wf_upd h i f
@[simp] theorem basinsWf_updAll {t : Tab Basin} (h : basinsWf t) (ks : List Nat) (f : Nat → Basin → Basin) :
    basinsWf (Tab.updAll {} t ks f) := Tab.wf_updAll h ks f
@[simp] theorem basinsWf_mapVals {t : Tab Basin} (h : basinsWf t) (f : Nat → Basin → Basin) :
    basinsWf (Tab.mapVals {} f t) := Tab.wf_mapVals h f
@[simp] theorem basinsWf_filter {t : Tab Basin} (h : basinsWf t) (p : Nat × Basin → Bool) : basinsWf (t.filter p) := Tab.wf_filter h p

@[simp] theorem ownWf_nil : ownWf [] := rfl
@[simp] theorem ownWf_set {t : Tab Own} (h : ownWf t) (i : Nat) (v : Own) : ownWf (Tab.set {} t i v) := Tab.wf_set h i v
@[simp] theorem ownWf_upd {t : Tab Own} (h : ownWf t) (i : Nat) (f : Own → Own) : ownWf (Tab.upd {} t i f) :=
  Tab.wf_upd h i f
@[simp] theorem ownWf_updAll {t : Tab Own} (h : ownWf t) (ks : List Nat) (f : Nat → Own → Own) :
    ownWf (Tab.updAll {} t ks f) := Tab.wf_updAll h ks f
@[simp] theorem ownWf_mapVals {t : Tab Own} (h : ownWf t) (f : Nat → Own → Own) :
    ownWf (Tab.mapVals {} f t) := Tab.wf_mapVals h f
@[simp] theorem ownWf_filter {t : Tab Own} (h : ownWf t) (p : Nat × Own → Bool) : ownWf (t.filter p) := Tab.wf_filter h p

@[simp] theorem logsWf_nil : logsWf [] := rfl
@[simp] theorem logsWf_set {t : Tab Log} (h : logsWf t) (i : Nat) (v : Log) : logsWf (Tab.set {} t i v) := Tab.wf_set h i v
@[simp] theorem logsWf_upd {t : Tab Log} (h : logsWf t) (i : Nat) (f : Log → Log) : logsWf (Tab.upd {} t i f) :=
  Tab.wf_upd h i f
@[simp] theorem logsWf_updAll {t : Tab Log} (h : logsWf t) (ks : List Nat) (f : Nat → Log → Log) :
    logsWf (Tab.updAll {} t ks f) := Tab.wf_updAll h ks f
@[simp] theorem logsWf_mapVals {t : Tab Log} (h : logsWf t) (f : Nat → Log → Log) :
    logsWf (Tab.mapVals {} f t) := Tab.wf_mapVals h f
@[simp] theorem logsWf_filter {t : Tab Log} (h : logsWf t) (p : Nat × Log → Bool) : logsWf (t.filter p) := Tab.wf_filter h p

@[simp] theorem exportsWf_nil : exportsWf [] := rfl
@[simp] theorem exportsWf_set {t : Tab ExportKey} (h : exportsWf t) (i : Nat) (v : ExportKey) : exportsWf (Tab.set {} t i v) := Tab.wf_set h i v
@[simp] theorem exportsWf_upd {t : Tab ExportKey} (h : exportsWf t) (i : Nat) (f : ExportKey → ExportKey) : exportsWf (Tab.upd {} t i f) :=
  Tab.wf_upd h i f
@[simp] theorem exportsWf_updAll {t : Tab ExportKey} (h : exportsWf t) (ks : List Nat) (f : Nat → ExportKey → ExportKey) :
    exportsWf (Tab.updAll {} t ks f) := Tab.wf_updAll h ks f
@[simp] theorem exportsWf_mapVals {t : Tab ExportKey} (h : exportsWf t) (f : Nat → ExportKey → ExportKey) :
    exportsWf (Tab.mapVals {} f t) := Tab.wf_mapVals h f
@[simp] theorem exportsWf_filter {t : Tab ExportKey} (h : exportsWf t) (p : Nat × ExportKey → Bool) : exportsWf (t.filter p) := Tab.wf_filter h p

/-! ## The parts of the invariant, as facts that simp can use -/

@[simp] theorem State.Inv.mem_wf (h : s.Inv) : Memory.wf s.mem = true := h.mem
@[simp] theorem State.Inv.regions_wf (h : s.Inv) : regionsWf s.regions := h.tables.regions
@[simp] theorem State.Inv.rings_wf (h : s.Inv) : ringsWf s.rings := h.tables.rings
@[simp] theorem State.Inv.shards_wf (h : s.Inv) : shardsWf s.shards := h.tables.shards
@[simp] theorem State.Inv.groups_wf (h : s.Inv) : groupsWf s.groups := h.tables.groups
@[simp] theorem State.Inv.slots_wf (h : s.Inv) : slotsWf s.slots := h.tables.slots
@[simp] theorem State.Inv.quotas_wf (h : s.Inv) : Tab.wf 0x100 s.quotas = true := h.tables.quotas
@[simp] theorem State.Inv.jets_wf (h : s.Inv) : jetsWf s.jets := h.tables.jets
@[simp] theorem State.Inv.basins_wf (h : s.Inv) : basinsWf s.basins := h.tables.basins
@[simp] theorem State.Inv.own_wf (h : s.Inv) : ownWf s.own := h.tables.own
@[simp] theorem State.Inv.censusLogs_wf (h : s.Inv) : logsWf s.censusLogs := h.tables.censusLogs
@[simp] theorem State.Inv.totals_wf (h : s.Inv) : Tab.wf [] s.census.totals = true := h.tables.totals
@[simp] theorem State.Inv.attempts_wf (h : s.Inv) : Tab.wf none s.census.attempts = true := h.tables.attempts
@[simp] theorem State.Inv.firsts_wf (h : s.Inv) : Tab.wf [] s.census.firsts = true := h.tables.firsts
@[simp] theorem State.Inv.resetParts_wf (h : s.Inv) : Tab.wf none s.resets.parts = true := h.tables.resetParts
@[simp] theorem State.Inv.exports_wf (h : s.Inv) : exportsWf s.warden.exports := h.tables.exports
@[simp] theorem State.Inv.temperJets_wf (h : s.Inv) : jetsWf s.boot.temper.jets := h.tables.temperJets
@[simp] theorem State.Inv.alarms_fit (h : s.Inv) : alarmsFit s.sluice.alarms := h.alarms
@[simp] theorem State.Inv.queues_fit (h : s.Inv) : queuesFit s.basins := h.queues

/-- The invariant, one part after the other. -/
theorem State.Inv.mk' (h1 : Memory.wf s.mem = true) (h2 : regionsWf s.regions) (h3 : ringsWf s.rings)
    (h4 : shardsWf s.shards) (h5 : groupsWf s.groups) (h6 : slotsWf s.slots)
    (h7 : Tab.wf 0x100 s.quotas = true) (h8 : jetsWf s.jets) (h9 : basinsWf s.basins)
    (h10 : ownWf s.own) (h11 : logsWf s.censusLogs) (h12 : Tab.wf [] s.census.totals = true)
    (h13 : Tab.wf none s.census.attempts = true) (h14 : Tab.wf none s.resets.parts = true)
    (h15 : exportsWf s.warden.exports) (h16 : jetsWf s.boot.temper.jets)
    (h17 : alarmsFit s.sluice.alarms) (h18 : queuesFit s.basins) (h19 : Tab.wf [] s.census.firsts = true) : s.Inv :=
  ⟨h1, ⟨h2, h3, h4, h5, h6, h7, h8, h9, h10, h11, h12, h13, h19, h14, h15, h16⟩, h17, h18⟩

/-- The Sluice changes and its alarm buffer still fits. -/
theorem State.Inv.sluice (h : s.Inv) (x : Sluice) (hx : alarmsFit x.alarms) : ({ s with sluice := x } : State).Inv :=
  State.Inv.mk' h.mem_wf h.regions_wf h.rings_wf h.shards_wf h.groups_wf h.slots_wf h.quotas_wf h.jets_wf h.basins_wf
    h.own_wf h.censusLogs_wf h.totals_wf h.attempts_wf h.resetParts_wf h.exports_wf h.temperJets_wf hx h.queues h.firsts_wf

/-! Fields that the invariant says little or nothing of. -/

theorem State.Inv.jobs (h : s.Inv) (x : List Job) : ({ s with jobs := x } : State).Inv := by
  apply State.Inv.mk' <;> simp [h]
theorem State.Inv.reqs (h : s.Inv) (x : List Request) : ({ s with reqs := x } : State).Inv := by
  apply State.Inv.mk' <;> simp [h]
theorem State.Inv.wardenCopies (h : s.Inv) (x : Copies) : ({ s with wardenCopies := x } : State).Inv := by
  apply State.Inv.mk' <;> simp [h]
theorem State.Inv.pourCopies (h : s.Inv) (x : Copies) : ({ s with pourCopies := x } : State).Inv := by
  apply State.Inv.mk' <;> simp [h]
theorem State.Inv.pourReady (h : s.Inv) (x : Nat) : ({ s with pourReady := x } : State).Inv := by
  apply State.Inv.mk' <;> simp [h]
theorem State.Inv.ranges (h : s.Inv) (x : List Range) : ({ s with ranges := x } : State).Inv := by
  apply State.Inv.mk' <;> simp [h]
theorem State.Inv.range (h : s.Inv) (x : Option RangeWait) : ({ s with range := x } : State).Inv := by
  apply State.Inv.mk' <;> simp [h]
theorem State.Inv.tests (h : s.Inv) (x : List Test) : ({ s with tests := x } : State).Inv := by
  apply State.Inv.mk' <;> simp [h]
theorem State.Inv.clocks (h : s.Inv) (x : Clocks) : ({ s with clocks := x } : State).Inv := by
  apply State.Inv.mk' <;> simp [h]
theorem State.Inv.garhal (h : s.Inv) (x : Garhal) : ({ s with garhal := x } : State).Inv := by
  apply State.Inv.mk' <;> simp [h]
theorem State.Inv.port (h : s.Inv) (x : Collective) : ({ s with port := x } : State).Inv := by
  apply State.Inv.mk' <;> simp [h]
theorem State.Inv.pinReply (h : s.Inv) (x : Nat) : ({ s with pinReply := x } : State).Inv := by
  apply State.Inv.mk' <;> simp [h]
theorem State.Inv.portReply (h : s.Inv) (x : Nat) : ({ s with portReply := x } : State).Inv := by
  apply State.Inv.mk' <;> simp [h]
theorem State.Inv.free (h : s.Inv) (x : Nat) : ({ s with free := x } : State).Inv := by
  apply State.Inv.mk' <;> simp [h]
theorem State.Inv.aon (h : s.Inv) (x : Nat) : ({ s with aon := x } : State).Inv := by
  apply State.Inv.mk' <;> simp [h]
theorem State.Inv.boot (h : s.Inv) (x : Boot) (hx : jetsWf x.temper.jets) : ({ s with boot := x } : State).Inv := by
  apply State.Inv.mk' <;> simp [h, hx]
theorem State.Inv.warden (h : s.Inv) (x : Warden) (hx : exportsWf x.exports) : ({ s with warden := x } : State).Inv := by
  apply State.Inv.mk' <;> simp [h, hx]
theorem State.Inv.resets (h : s.Inv) (x : ResetRegs) (hx : Tab.wf none x.parts = true) :
    ({ s with resets := x } : State).Inv := by
  apply State.Inv.mk' <;> simp [h, hx]
theorem State.Inv.census (h : s.Inv) (x : Census) (hx : Tab.wf [] x.totals = true) (hy : Tab.wf none x.attempts = true)
    (hz : Tab.wf [] x.firsts = true) : ({ s with census := x } : State).Inv := by
  apply State.Inv.mk' <;> simp [h, hx, hy, hz]

/-! ## Folds and choices -/

theorem ite_inv {c : Prop} [Decidable c] {a b : State} (ha : a.Inv) (hb : b.Inv) : (if c then a else b).Inv := by
  split
  · exact ha
  · exact hb

theorem State.Inv.basins (h : s.Inv) (x : Tab Basin) (hx : basinsWf x) (hq : queuesFit x) :
    ({ s with basins := x } : State).Inv := by
  apply State.Inv.mk' <;> simp [h, hx, hq]

theorem State.Inv.jets (h : s.Inv) (x : Tab Jet) (hx : jetsWf x) : ({ s with jets := x } : State).Inv := by
  apply State.Inv.mk' <;> simp [h, hx]

theorem ite_pending {c : Prop} [Decidable c] {a b : State} {p : List Instr} (ha : a.pending = p) (hb : b.pending = p) :
    (if c then a else b).pending = p := by
  split
  · exact ha
  · exact hb

theorem foldl_inv {β : Type} {l : List β} {f : State → β → State} (h : s.Inv) (hf : ∀ t x, State.Inv t → (f t x).Inv) :
    (l.foldl f s).Inv := by
  induction l generalizing s with
  | nil => exact h
  | cons x l ih => exact ih (hf s x h)

theorem foldl_pending {β : Type} {l : List β} {f : State → β → State} (hf : ∀ t x, (f t x).pending = t.pending) :
    (l.foldl f s).pending = s.pending := by
  induction l generalizing s with
  | nil => rfl
  | cons x l ih => exact (ih (s := f s x)).trans (hf s x)

/-- A fold over a state beside another value. -/
theorem foldl_fst_inv {β γ : Type} {l : List β} {f : State × γ → β → State × γ} {x : State × γ} (h : x.1.Inv)
    (hf : ∀ t y, State.Inv t.1 → (f t y).1.Inv) : (l.foldl f x).1.Inv := by
  induction l generalizing x with
  | nil => exact h
  | cons y l ih => exact ih (hf x y h)

theorem foldl_fst_pending {β γ : Type} {l : List β} {f : State × γ → β → State × γ} {x : State × γ}
    (hf : ∀ t y, (f t y).1.pending = t.1.pending) : (l.foldl f x).1.pending = x.1.pending := by
  induction l generalizing x with
  | nil => rfl
  | cons y l ih => exact (ih (x := f x y)).trans (hf x y)

/-! ## Queues -/

theorem Tab.mem_set {α : Type} [DecidableEq α] {d : α} {t : Tab α} {i : Nat} {v : α} {x : Nat × α}
    (h : x ∈ Tab.set d t i v) : x ∈ t ∨ x = (i, v) := by
  induction t with
  | nil =>
    simp only [Tab.set] at h
    split at h
    · simp at h
    · exact .inr (by simpa using h)
  | cons y t ih =>
    obtain ⟨k, w⟩ := y
    simp only [Tab.set] at h
    split at h
    · rcases List.mem_cons.1 h with rfl | h
      · simp
      · rcases ih h with h | h
        · exact .inl (by simp [h])
        · exact .inr h
    · split at h <;> split at h <;> simp only [List.mem_cons] at h ⊢ <;> grind

theorem Tab.get_mem {α : Type} (d : α) (t : Tab α) (i : Nat) : (i, Tab.get d t i) ∈ t ∨ Tab.get d t i = d := by
  induction t with
  | nil => exact .inr rfl
  | cons x t ih =>
    obtain ⟨k, v⟩ := x
    simp only [Tab.get]
    split
    · rename_i h; subst h; simp
    · rcases ih with h | h
      · exact .inl (by simp [h])
      · exact .inr h

theorem queue_fits {t : Tab Basin} (h : queuesFit t) (b : Nat) : (Tab.get {} t b : Basin).queue.length ≤ 64 := by
  rcases Tab.get_mem ({} : Basin) t b with h' | h'
  · exact h _ h'
  · rw [h']; simp

theorem queuesFit_upd {t : Tab Basin} (h : queuesFit t) (b : Nat) (f : Basin → Basin)
    (hf : ∀ x : Basin, x.queue.length ≤ 64 → (f x).queue.length ≤ 64) : queuesFit (Tab.upd {} t b f) := by
  intro x hx
  rcases Tab.mem_set hx with h' | rfl
  · exact h x h'
  · exact hf _ (queue_fits h b)

theorem queuesFit_set {t : Tab Basin} (h : queuesFit t) (b : Nat) (v : Basin) (hv : v.queue.length ≤ 64) :
    queuesFit (Tab.set {} t b v) := by
  intro x hx
  rcases Tab.mem_set hx with h' | rfl
  · exact h x h'
  · exact hv

theorem queuesFit_updAll {t : Tab Basin} (h : queuesFit t) (ks : List Nat) (f : Nat → Basin → Basin)
    (hf : ∀ k (x : Basin), x.queue.length ≤ 64 → (f k x).queue.length ≤ 64) : queuesFit (Tab.updAll {} t ks f) := by
  unfold Tab.updAll
  induction ks generalizing t with
  | nil => exact h
  | cons k ks ih => exact ih (queuesFit_upd h k (f k) (hf k))

theorem queuesFit_mapVals {t : Tab Basin} (h : queuesFit t) (f : Nat → Basin → Basin)
    (hf : ∀ k (x : Basin), x.queue.length ≤ 64 → (f k x).queue.length ≤ 64) : queuesFit (Tab.mapVals {} f t) := by
  induction t with
  | nil => intro x hx; simp [Tab.mapVals] at hx
  | cons y t ih =>
    obtain ⟨k, v⟩ := y
    have ht : queuesFit t := fun x hx => h x (by simp [hx])
    simp only [Tab.mapVals]
    split
    · exact ih ht
    · intro x hx
      rcases List.mem_cons.1 hx with rfl | hx
      · exact hf k v (h (k, v) (by simp))
      · exact ih ht x hx

/-! ## The updates of one table -/

@[simp] theorem State.write_inv (h : s.Inv) (a : Nat) (bs : List Byte) : (s.write a bs).Inv := by
  apply State.Inv.mk' <;> first | (dsimp only [State.write]; split <;> simp [h]) | simp [State.write, *]
@[simp] theorem State.updRing_inv (h : s.Inv) (r : Nat) (f : Ring → Ring) : (s.updRing r f).Inv := by
  apply State.Inv.mk' <;> first | exact ringsWf_upd h.rings_wf _ _ | simp [State.updRing, *]
@[simp] theorem State.updShard_inv (h : s.Inv) (n : Nat) (f : Shard → Shard) : (s.updShard n f).Inv := by
  apply State.Inv.mk' <;> first | exact shardsWf_upd h.shards_wf _ _ | simp [State.updShard, *]
@[simp] theorem State.updGroup_inv (h : s.Inv) (g : Nat) (f : Group → Group) : (s.updGroup g f).Inv := by
  apply State.Inv.mk' <;> first | exact groupsWf_upd h.groups_wf _ _ | simp [State.updGroup, *]
@[simp] theorem State.updJet_inv (h : s.Inv) (j : Nat) (f : Jet → Jet) : (s.updJet j f).Inv := by
  apply State.Inv.mk' <;> first | exact jetsWf_upd h.jets_wf _ _ | simp [State.updJet, *]
@[simp] theorem State.updJets_inv (h : s.Inv) (js : List Nat) (f : Nat → Jet → Jet) : (s.updJets js f).Inv := by
  apply State.Inv.mk' <;> first | exact jetsWf_updAll h.jets_wf _ _ | simp [State.updJets, *]
@[simp] theorem State.updWell_inv (h : s.Inv) (j : Nat) (f : Well → Well) : (s.updWell j f).Inv :=
  State.updJet_inv h _ _
@[simp] theorem State.updRegion_inv (h : s.Inv) (k : Nat) (f : RegionEntry → RegionEntry) : (s.updRegion k f).Inv := by
  apply State.Inv.mk' <;> first | exact regionsWf_upd h.regions_wf _ _ | simp [State.updRegion, *]
@[simp] theorem State.updOwn_inv (h : s.Inv) (p : Nat) (f : Own → Own) : (s.updOwn p f).Inv := by
  apply State.Inv.mk' <;> first | exact ownWf_upd h.own_wf _ _ | simp [State.updOwn, *]
@[simp] theorem State.updJob_inv (h : s.Inv) (r : Nat) (q : Word) (f : Job → Job) : (s.updJob r q f).Inv := by
  apply State.Inv.mk' <;> simp [State.updJob, *]
@[simp] theorem State.dropJob_inv (h : s.Inv) (r : Nat) (q : Word) : (s.dropJob r q).Inv := by
  apply State.Inv.mk' <;> simp [State.dropJob, *]
@[simp] theorem State.draw_inv (h : s.Inv) (n : Nat) : (s.draw n).Inv := by
  apply State.Inv.mk' <;> simp [State.draw, *]
@[simp] theorem State.overHoles_inv (h : s.Inv) (l : List (Nat × Nat)) : (s.overHoles l).Inv := by
  unfold State.overHoles; split <;> simp [h]
@[simp] theorem State.overHoles_pending (l : List (Nat × Nat)) : (s.overHoles l).pending = s.pending := by
  unfold State.overHoles; split <;> rfl
@[simp] theorem State.request_inv (h : s.Inv) (r : Request) : (s.request r).Inv := by
  apply State.Inv.mk' <;> simp [State.request, *]
@[simp] theorem State.countDrop_inv (h : s.Inv) (k : Nat) : (s.countDrop k).Inv := by
  apply State.Inv.mk' <;> simp [State.countDrop, *]
/-- A basin changes and its queue still fits. -/
theorem State.updBasin_inv' (h : s.Inv) (b : Nat) (f : Basin → Basin)
    (hf : ∀ x : Basin, x.queue.length ≤ 64 → (f x).queue.length ≤ 64) : (s.updBasin b f).Inv := by
  apply State.Inv.mk' <;> first
    | exact basinsWf_upd h.basins_wf _ _
    | exact queuesFit_upd h.queues b f hf
    | simp [State.updBasin, *]
/-- A basin changes and its queue does not. -/
@[simp] theorem State.updBasin_inv (h : s.Inv) (b : Nat) (f : Basin → Basin) (hf : ∀ x, (f x).queue = x.queue) :
    (s.updBasin b f).Inv :=
  State.updBasin_inv' h b f fun x hx => by rw [hf x]; exact hx

/-! ## Reads after an update -/

theorem State.ring_updRing (h : s.Inv) (r k : Nat) (f : Ring → Ring) :
    (s.updRing r f).ring k = if k = r then f (s.ring k) else s.ring k := Tab.get_upd h.rings_wf r k f
theorem State.shard_updShard (h : s.Inv) (n k : Nat) (f : Shard → Shard) :
    (s.updShard n f).shard k = if k = n then f (s.shard k) else s.shard k := Tab.get_upd h.shards_wf n k f
theorem State.group_updGroup (h : s.Inv) (g k : Nat) (f : Group → Group) :
    (s.updGroup g f).group k = if k = g then f (s.group k) else s.group k := Tab.get_upd h.groups_wf g k f
theorem State.jet_updJet (h : s.Inv) (j k : Nat) (f : Jet → Jet) :
    (s.updJet j f).jet k = if k = j then f (s.jet k) else s.jet k := Tab.get_upd h.jets_wf j k f
theorem State.well_updWell (h : s.Inv) (j k : Nat) (f : Well → Well) :
    (s.updWell j f).well k = if k = j then f (s.well k) else s.well k := by
  show ((s.updJet j _).jet k).well = _
  rw [State.jet_updJet h]
  split <;> rfl
theorem State.jet_updJets (h : s.Inv) {js : List Nat} (hj : js.Nodup) (k : Nat) (f : Nat → Jet → Jet) :
    (s.updJets js f).jet k = if k ∈ js then f k (s.jet k) else s.jet k := Tab.get_updAll h.jets_wf hj f k
theorem State.basin_updBasin (h : s.Inv) (b k : Nat) (f : Basin → Basin) :
    (s.updBasin b f).basin k = if k = b then f (s.basin k) else s.basin k := Tab.get_upd h.basins_wf b k f
theorem State.ownOf_updOwn (h : s.Inv) (p k : Nat) (f : Own → Own) :
    (s.updOwn p f).ownOf k = if k = p then f (s.ownOf k) else s.ownOf k := Tab.get_upd h.own_wf p k f

end Sys2Proof.Machine
end

