-- ==== Sys2Proof/Laws/Ops.lean ====
section
/-! SUPPORT. What the shared operations over the state do: they keep the invariant of the block and its queue of commands. -/

namespace Sys2Proof.Machine

variable {s : State}

/-! ## The Sluice's queues (R328) -/

@[simp] theorem State.queueDrop_pending (b rank : Nat) : (s.queueDrop b rank).pending = s.pending := rfl

@[simp] theorem State.queueDrop_inv (h : s.Inv) (b rank : Nat) : (s.queueDrop b rank).Inv := by
  unfold State.queueDrop
  exact State.updBasin_inv (State.countDrop_inv h rank) b _ fun _ => rfl

theorem dropYoungest_length (rank : Nat) (q : List Queued) (h : (q.any fun x => x.rank == rank) = true) :
    (dropYoungest rank q).length = q.length - 1 := by
  unfold dropYoungest
  obtain ⟨x, hx, hp⟩ := List.any_eq_true.1 h
  rw [List.length_reverse, List.length_eraseP_of_mem (a := x) (by simpa using hx) hp, List.length_reverse]

/-- The lowest rank of a queue is that of one of its records. -/
theorem lowestRank_mem (q : List Queued) (h : 0 < lowestRank q) : (q.any fun x => x.rank == lowestRank q) = true := by
  have key : ∀ (l : List Queued) (m : Nat), l.foldl (fun m x => max m x.rank) m = m ∨
      (l.any fun x => x.rank == l.foldl (fun m x => max m x.rank) m) = true := by
    intro l
    induction l with
    | nil => intro m; exact .inl rfl
    | cons y l ih =>
      intro m
      rcases ih (max m y.rank) with e | e
      · simp only [List.foldl_cons, e, List.any_cons, Bool.or_eq_true, beq_iff_eq]
        omega
      · right
        simp only [List.foldl_cons, List.any_cons, e, Bool.or_true]
  rcases key q 0 with e | e
  · unfold lowestRank at h; omega
  · exact e

@[simp] theorem State.enqueue_pending (b : Nat) (r : Queued) : (s.enqueue b r).pending = s.pending := by
  unfold State.enqueue; dsimp only; split <;> (try split) <;> rfl

@[simp] theorem State.enqueue_inv (h : s.Inv) (b : Nat) (r : Queued) : (s.enqueue b r).Inv := by
  unfold State.enqueue
  dsimp only
  have hq := queue_fits h.queues b
  split
  · rename_i hl
    refine State.updBasin_inv' h b _ fun x _ => ?_
    simp only [List.length_append, List.length_singleton]
    omega
  · split
    · rename_i hl hr
      refine State.updBasin_inv' (State.queueDrop_inv h b _) b _ fun x _ => ?_
      have hd := dropYoungest_length _ _ (lowestRank_mem (s.basin b).queue (by omega))
      simp only [List.length_append, List.length_singleton, hd]
      have : (s.basin b).queue.length ≤ 64 := hq
      omega
    · exact State.queueDrop_inv h b _

/-! ## The alarm buffer (R333) -/

theorem fieldAt_bumpRepeat (r : List Byte) : fieldAt (bumpRepeat r) 1 1 = fieldAt r 1 1 := by
  unfold bumpRepeat
  generalize min (fieldAt r 14 2 + 1) 0xFFFF = v
  unfold putField putBytes fieldAt sliceAt
  rcases r with _ | ⟨a, _ | ⟨b, t⟩⟩ <;> simp [List.take_append, padTo]

theorem alarmsFit_bump {buf : List (List Byte)} (h : alarmsFit buf) (p : List Byte → Bool) :
    alarmsFit (buf.map fun x => if p x then bumpRepeat x else x) := by
  have hc : ∀ x, fieldAt (if p x then bumpRepeat x else x) 1 1 = fieldAt x 1 1 := fun x => by
    split
    · exact fieldAt_bumpRepeat x
    · rfl
  unfold alarmsFit at *
  simp only [List.length_map, List.any_map, Function.comp_def, hc]
  exact h

theorem alarmsFit_arrives {buf : List (List Byte)} (h : alarmsFit buf) (r lost : List Byte)
    (ho : fieldAt lost 1 1 = 0x25) : alarmsFit (alarmArrives buf r lost) := by
  unfold alarmArrives
  split
  · exact alarmsFit_bump h _
  · split
    · split
      · exact alarmsFit_bump h _
      · rename_i hlen hany
        rcases h with h | ⟨_, h⟩
        · right
          refine ⟨by simp only [List.length_append, List.length_singleton]; omega, ?_⟩
          simp [ho]
        · simp [h] at hany
    · rename_i hlen
      left
      simp only [List.length_append, List.length_singleton]
      omega

theorem alarmsFit_tail {buf : List (List Byte)} (h : alarmsFit buf) : alarmsFit buf.tail := by
  left
  rcases h with h | ⟨h, _⟩ <;> simp only [List.length_tail] <;> omega

theorem fieldAt_eventBytes_code (e : Event') (q : Nat) : fieldAt (s.eventBytes e q) 1 1 = e.code % 256 := by
  unfold State.eventBytes fieldAt sliceAt
  simp [leBytes, padTo, ofLe]

@[simp] theorem State.raise_pending (e : Event') : (s.raise e).pending = s.pending := by
  unfold State.raise; split <;> rfl

@[simp] theorem State.raise_inv (h : s.Inv) (e : Event') : (s.raise e).Inv := by
  unfold State.raise
  split
  · exact State.Inv.sluice h _ (alarmsFit_arrives h.alarms _ _ (fieldAt_eventBytes_code _ _))
  · exact h

/-! ## Events -/

@[simp] theorem State.unlogged_pending (rank : Nat) : (s.unlogged rank).pending = s.pending := by
  unfold State.unlogged; split <;> rfl
@[simp] theorem State.unlogged_inv (h : s.Inv) (rank : Nat) : (s.unlogged rank).Inv := by
  unfold State.unlogged; split <;> simp [h]

@[simp] theorem State.emit_pending (e : Event') : (s.emit e).pending = s.pending := by
  unfold State.emit; dsimp only; generalize (if e.jet = 255 then e.basin else e.jet / 4) = b; split
  · rfl
  · split
    · simp
    · split
      · exact (State.enqueue_pending _ _).trans (State.raise_pending e)
      · exact State.raise_pending e

@[simp] theorem State.emit_inv (h : s.Inv) (e : Event') : (s.emit e).Inv := by
  unfold State.emit
  dsimp only
  generalize (if e.jet = 255 then e.basin else e.jet / 4) = b
  split
  · exact h
  · split
    · exact State.unlogged_inv (State.raise_inv h e) _
    · split
      · exact State.Inv.sluice (State.enqueue_inv (State.raise_inv h e) b _) _
          (State.enqueue_inv (State.raise_inv h e) b _).alarms
      · exact State.queueDrop_inv (State.raise_inv h e) _ _

@[simp] theorem State.emitIf_pending (c : Bool) (e : Event') : (s.emitIf c e).pending = s.pending := by
  unfold State.emitIf; split <;> simp
@[simp] theorem State.emitIf_inv (h : s.Inv) (c : Bool) (e : Event') : (s.emitIf c e).Inv := by
  unfold State.emitIf; split <;> simp [h]
@[simp] theorem State.emitAll_pending (es : List Event') : (s.emitAll es).pending = s.pending :=
  foldl_pending fun _ _ => State.emit_pending _
@[simp] theorem State.emitAll_inv (h : s.Inv) (es : List Event') : (s.emitAll es).Inv :=
  foldl_inv h fun _ _ k => State.emit_inv k _

/-! ## Station codes and pins -/

@[simp] theorem State.traceCodes_pending (t : State) : (s.traceCodes t).pending = t.pending := by
  unfold State.traceCodes; simp
@[simp] theorem State.traceCodes_inv {t : State} (h : t.Inv) : (s.traceCodes t).Inv := by
  unfold State.traceCodes; simp [h]
@[simp] theorem State.setCode_pending (e station code : Nat) : (s.setCode e station code).pending = s.pending := by
  unfold State.setCode; simp
@[simp] theorem State.setCode_inv (h : s.Inv) (e station code : Nat) : (s.setCode e station code).Inv := by
  unfold State.setCode; simp [h]
@[simp] theorem State.setCodes_pending (e : Nat) (l : List Nat) (code : Nat) : (s.setCodes e l code).pending = s.pending :=
  foldl_pending fun _ _ => by split <;> simp
@[simp] theorem State.setCodes_inv (h : s.Inv) (e : Nat) (l : List Nat) (code : Nat) : (s.setCodes e l code).Inv :=
  foldl_inv h fun _ _ k => by split <;> simp [k]
@[simp] theorem State.takePins_pending (l : List Nat) : (s.takePins l).pending = s.pending :=
  foldl_pending fun _ _ => by simp
@[simp] theorem State.takePins_inv (h : s.Inv) (l : List Nat) : (s.takePins l).Inv :=
  foldl_inv h fun _ _ k => by simp [k]
@[simp] theorem State.releasePins_pending (l : List (Nat × Nat)) : (s.releasePins l).pending = s.pending :=
  foldl_pending fun _ _ => by simp
@[simp] theorem State.releasePins_inv (h : s.Inv) (l : List (Nat × Nat)) : (s.releasePins l).Inv :=
  foldl_inv h fun _ _ k => by simp [k]

end Sys2Proof.Machine
end

