-- ==== Sys2Proof/Laws/Flags.lean ====
section
/-! SUPPORT. What the operations of Machine/Flags.lean keep: the invariant of the block, and its queue of commands. -/

namespace Sys2Proof.Machine

@[simp] theorem State.countTotal_pending (s : State) (jet group : Nat) (c : Counts) : (s.countTotal jet group c).pending = s.pending := rfl

@[simp] theorem State.countTotal_inv {s : State} (hi : s.Inv) (jet group : Nat) (c : Counts) : (s.countTotal jet group c).Inv := by
  unfold State.countTotal; apply State.Inv.mk' <;> simp [hi]

@[simp] theorem State.openSets_pending (s : State) (jets : List Nat) (shard group : Nat) : (s.openSets jets shard group).pending = s.pending := by
  unfold State.openSets; (try dsimp only); repeat' split
  all_goals first
    | rfl
    | (simp; done)
    | (refine (foldl_pending fun _ _ => ?_).trans ?_ <;> (try dsimp only) <;> (repeat' split) <;> first | rfl | simp)

@[simp] theorem State.openSets_inv {s : State} (hi : s.Inv) (jets : List Nat) (shard group : Nat) : (s.openSets jets shard group).Inv := by
  unfold State.openSets; (try dsimp only); repeat' split
  all_goals first
    | exact hi
    | (simp [hi]; done)
    | (refine foldl_inv ?_ fun _ _ k => ?_ <;> (try dsimp only) <;> (repeat' split) <;> first
        | assumption
        | (simp [*]; done)
        | (apply State.Inv.mk' <;> simp [*]))
    | (apply State.Inv.mk' <;> simp [hi])

@[simp] theorem State.countAttempt_pending (s : State) (first inSet : Bool) (jet shard group : Nat) (c : Counts) : (s.countAttempt first inSet jet shard group c).pending = s.pending := by
  unfold State.countAttempt; (try dsimp only); repeat' split
  all_goals first
    | rfl
    | (simp; done)
    | (refine (foldl_pending fun _ _ => ?_).trans ?_ <;> (try dsimp only) <;> (repeat' split) <;> first | rfl | simp)

@[simp] theorem State.countAttempt_inv {s : State} (hi : s.Inv) (first inSet : Bool) (jet shard group : Nat) (c : Counts) : (s.countAttempt first inSet jet shard group c).Inv := by
  unfold State.countAttempt; dsimp only; repeat' split
  all_goals first
    | (simp [hi]; done)
    | (apply State.Inv.mk' <;> simp [hi])

@[simp] theorem State.endSets_pending (s : State) (shard : Nat) (keep : Bool) : (s.endSets shard keep).pending = s.pending := by
  unfold State.endSets; (try dsimp only); repeat' split
  all_goals first
    | rfl
    | (simp; done)
    | (refine (foldl_pending fun _ _ => ?_).trans ?_ <;> (try dsimp only) <;> (repeat' split) <;> first | rfl | simp)

@[simp] theorem State.endSets_inv {s : State} (hi : s.Inv) (shard : Nat) (keep : Bool) : (s.endSets shard keep).Inv := by
  unfold State.endSets
  have k (l : List (Nat × Counts)) : (if keep = true then
      l.foldl (fun t x => t.countTotal (x.1 / 4096 / 64) (x.1 % 4096) x.2) s else s).Inv := by
    split
    · exact foldl_inv hi fun _ _ k => by simp [k]
    · exact hi
  exact State.Inv.census (k _) _ (k _).totals_wf (Tab.wf_filter (k _).attempts_wf _) (Tab.wf_filter (k _).firsts_wf _)

@[simp] theorem State.clearFirsts_pending (s : State) (shard : Nat) (gone : Nat → Bool) : (s.clearFirsts shard gone).pending = s.pending := by
  unfold State.clearFirsts; (try dsimp only); repeat' split
  all_goals first
    | rfl
    | (simp; done)
    | (refine (foldl_pending fun _ _ => ?_).trans ?_ <;> (try dsimp only) <;> (repeat' split) <;> first | rfl | simp)

@[simp] theorem State.clearFirsts_inv {s : State} (hi : s.Inv) (shard : Nat) (gone : Nat → Bool) : (s.clearFirsts shard gone).Inv := by
  unfold State.clearFirsts; (try dsimp only); repeat' split
  all_goals first
    | exact hi
    | (simp (maxDischargeDepth := 12) [hi]; done)
    | (refine foldl_inv ?_ fun _ _ k => ?_ <;> (try dsimp only) <;> (repeat' split) <;> first
        | assumption
        | (simp (maxDischargeDepth := 12) [*]; done))
    | (apply State.Inv.mk' <;> simp [hi])

end Sys2Proof.Machine
end

