-- ==== Sys2Proof/Laws/Regions.lean ====
section
/-! SUPPORT. What the operations of Machine/Regions.lean keep: the invariant of the block, and its queue of commands. -/

namespace Sys2Proof.Machine

@[simp] theorem State.cutPart_pending (s : State) (ring : Nat) (seq : Word) (jet : Nat) (v : Verdict') : (s.cutPart ring seq jet v).pending = s.pending := rfl

@[simp] theorem State.cutPart_inv {s : State} (hi : s.Inv) (ring : Nat) (seq : Word) (jet : Nat) (v : Verdict') : (s.cutPart ring seq jet v).Inv := by
  simp [State.cutPart, hi]

@[simp] theorem State.stopRills_pending (s : State) (ring : Nat) (seq : Word) : (s.stopRills ring seq).pending = s.pending := by
  unfold State.stopRills
  split
  · split
    · exact foldl_pending fun _ _ => rfl
    · rfl
  · rfl

@[simp] theorem State.stopRills_inv {s : State} (hi : s.Inv) (ring : Nat) (seq : Word) : (s.stopRills ring seq).Inv := by
  unfold State.stopRills
  split
  · split
    · exact foldl_inv hi fun _ _ k => State.updWell_inv k _ _
    · exact hi
  · exact hi

@[simp] theorem State.endPart_pending (s : State) (ring : Nat) (seq : Word) (jet : Nat) (v : Verdict') : (s.endPart ring seq jet v).pending = s.pending := by
  simp [State.endPart]

@[simp] theorem State.endPart_inv {s : State} (hi : s.Inv) (ring : Nat) (seq : Word) (jet : Nat) (v : Verdict') : (s.endPart ring seq jet v).Inv := by
  simp [State.endPart, hi]

@[simp] theorem State.breakSlot_pending (s : State) (key slot : Nat) : (s.breakSlot key slot).pending = s.pending := by
  unfold State.breakSlot
  exact (foldl_pending fun _ _ => foldl_pending fun _ _ => State.endPart_pending _ _ _ _ _).trans (State.updRegion_pending _ _ _)

@[simp] theorem State.breakSlot_inv {s : State} (hi : s.Inv) (key slot : Nat) : (s.breakSlot key slot).Inv := by
  unfold State.breakSlot
  exact foldl_inv (State.updRegion_inv hi _ _) fun _ _ k => foldl_inv k fun _ _ q => State.endPart_inv q _ _ _ _

end Sys2Proof.Machine
end

