-- ==== Sys2Proof/Laws/Tap.lean ====
section
/-! SUPPORT. What the operations of Machine/Tap.lean keep: the invariant of the block, and its queue of commands. -/

namespace Sys2Proof.Machine

@[simp] theorem State.updBlock_pending (s : State) (j region block : Nat) (f : Block → Block) : (s.updBlock j region block f).pending = s.pending := rfl

@[simp] theorem State.updBlock_inv {s : State} (hi : s.Inv) (j region block : Nat) (f : Block → Block) : (s.updBlock j region block f).Inv := by
  simp [State.updBlock, hi]

@[simp] theorem State.countStray_pending (s : State) (h j : Nat) : (s.countStray h j).pending = s.pending := by
  unfold State.countStray; (try dsimp only); (repeat' split) <;> simp

@[simp] theorem State.countStray_inv {s : State} (hi : s.Inv) (h j : Nat) : (s.countStray h j).Inv := by
  unfold State.countStray; (try dsimp only); (repeat' split) <;> simp (maxDischargeDepth := 12) [hi]

@[simp] theorem State.stray_pending (s : State) (h j part offset : Nat) : (s.stray h j part offset).pending = s.pending := by
  unfold State.stray; dsimp only; repeat' split
  all_goals simp

@[simp] theorem State.stray_inv {s : State} (hi : s.Inv) (h j part offset : Nat) : (s.stray h j part offset).Inv := by
  unfold State.stray; (try dsimp only); (repeat' split) <;> simp (maxDischargeDepth := 12) [hi]

@[simp] theorem State.reckon_pending (s : State) (j key : Nat) (e : RegionEntry) (offset : Nat) (enables : BitVec 64) (data : List Byte) (tag : Nat) : (s.reckon j key e offset enables data tag).pending = s.pending := by
  unfold State.reckon; split <;> simp

@[simp] theorem State.reckon_inv {s : State} (hi : s.Inv) (j key : Nat) (e : RegionEntry) (offset : Nat) (enables : BitVec 64) (data : List Byte) (tag : Nat) : (s.reckon j key e offset enables data tag).Inv := by
  unfold State.reckon; (try dsimp only); (repeat' split) <;> simp (maxDischargeDepth := 12) [hi]

@[simp] theorem State.tapLost_pending (s : State) (j key : Nat) (e : RegionEntry) (offset : Nat) : (s.tapLost j key e offset).pending = s.pending := by
  unfold State.tapLost; (repeat' split) <;> simp

@[simp] theorem State.tapLost_inv {s : State} (hi : s.Inv) (j key : Nat) (e : RegionEntry) (offset : Nat) : (s.tapLost j key e offset).Inv := by
  unfold State.tapLost; (repeat' split) <;> simp [hi]

@[simp] theorem State.tapBeat_pending (s : State) (jet key : Nat) (e : RegionEntry) (offset : Nat) (enables : BitVec 64) (data : List Byte) (tag : Nat) : (s.tapBeat jet key e offset enables data tag).pending = s.pending := by
  unfold State.tapBeat; dsimp only; (repeat' split) <;> simp

@[simp] theorem State.tapBeat_inv {s : State} (hi : s.Inv) (jet key : Nat) (e : RegionEntry) (offset : Nat) (enables : BitVec 64) (data : List Byte) (tag : Nat) : (s.tapBeat jet key e offset enables data tag).Inv := by
  unfold State.tapBeat; dsimp only; (repeat' split) <;> simp [hi]

@[simp] theorem State.tapBytes_pending (s : State) (jet key : Nat) (e : RegionEntry) (off : Nat) (bs : List Byte) (tag : Nat) : (s.tapBytes jet key e off bs tag).pending = s.pending := by
  unfold State.tapBytes; (try dsimp only); repeat' split
  all_goals first
    | rfl
    | (simp; done)
    | (refine (foldl_pending fun _ _ => ?_).trans ?_ <;> (try dsimp only) <;> (repeat' split) <;> first | rfl | simp)

@[simp] theorem State.tapBytes_inv {s : State} (hi : s.Inv) (jet key : Nat) (e : RegionEntry) (off : Nat) (bs : List Byte) (tag : Nat) : (s.tapBytes jet key e off bs tag).Inv := by
  unfold State.tapBytes; (try dsimp only); repeat' split
  all_goals first
    | exact hi
    | (simp [hi]; done)
    | (refine foldl_inv ?_ fun _ _ k => ?_ <;> (try dsimp only) <;> (repeat' split) <;> first
        | assumption
        | (simp [*]; done)
        | (apply State.Inv.mk' <;> simp [*]))
    | (apply State.Inv.mk' <;> simp [hi])

@[simp] theorem State.showWeir_pending (s : State) (a : Nat) (bs : List Byte) (tag : Nat) : (s.showWeir a bs tag).pending = s.pending := by
  unfold State.showWeir; exact foldl_pending fun _ _ => by simp

@[simp] theorem State.showWeir_inv {s : State} (hi : s.Inv) (a : Nat) (bs : List Byte) (tag : Nat) : (s.showWeir a bs tag).Inv := by
  unfold State.showWeir; exact foldl_inv hi fun _ _ k => by simp [k]

@[simp] theorem State.sealReported_pending (s : State) (x : Nat × Nat × RegionEntry × Nat) : (s.sealReported x).pending = s.pending := by
  unfold State.sealReported; dsimp only; (repeat' split) <;> simp

@[simp] theorem State.sealReported_inv {s : State} (hi : s.Inv) (x : Nat × Nat × RegionEntry × Nat) : (s.sealReported x).Inv := by
  unfold State.sealReported; dsimp only; (repeat' split) <;> simp [hi]

@[simp] theorem State.put_pending (s : State) (fabric : Bool) (a : Nat) (bs : List Byte) (tag : Nat) : (s.put fabric a bs tag).pending = s.pending := by
  unfold State.put; (try dsimp only); repeat' split
  all_goals first
    | rfl
    | (simp; done)
    | (refine (foldl_pending fun _ _ => ?_).trans ?_ <;> (try dsimp only) <;> (repeat' split) <;> first | rfl | simp)

@[simp] theorem State.put_inv {s : State} (hi : s.Inv) (fabric : Bool) (a : Nat) (bs : List Byte) (tag : Nat) : (s.put fabric a bs tag).Inv := by
  unfold State.put; (try dsimp only); repeat' split
  all_goals first
    | exact hi
    | (simp (maxDischargeDepth := 12) [hi]; done)
    | (refine foldl_inv ?_ fun _ _ k => ?_ <;> (try dsimp only) <;> (repeat' split) <;> first
        | assumption
        | (simp (maxDischargeDepth := 12) [*]; done))
    | (apply State.Inv.mk' <;> simp [hi])

@[simp] theorem State.portWrite_pending (s : State) (r : Request) (a : Nat) (bs : List Byte) : (s.portWrite r a bs).pending = s.pending := by
  simp [State.portWrite]

@[simp] theorem State.portWrite_inv {s : State} (hi : s.Inv) (r : Request) (a : Nat) (bs : List Byte) : (s.portWrite r a bs).Inv := by
  simp [State.portWrite, hi]

@[simp] theorem State.writeRegion_pending (s : State) (e : RegionEntry) (slot off : Nat) (bs : List Byte) (tag : Nat) : (s.writeRegion e slot off bs tag).pending = s.pending := by
  unfold State.writeRegion; exact foldl_fst_pending fun _ _ => by (try dsimp only); (repeat' split) <;> simp

@[simp] theorem State.writeRegion_inv {s : State} (hi : s.Inv) (e : RegionEntry) (slot off : Nat) (bs : List Byte) (tag : Nat) : (s.writeRegion e slot off bs tag).Inv := by
  unfold State.writeRegion; exact foldl_fst_inv hi fun _ _ k => by (try dsimp only); (repeat' split) <;> simp (maxDischargeDepth := 12) [k]

end Sys2Proof.Machine
end

