-- ==== Sys2Proof/Laws/Operands.lean ====
section
/-! SUPPORT. What the operations of Machine/Operands.lean keep: the invariant of the block, and its queue of commands. -/

namespace Sys2Proof.Machine

@[simp] theorem State.unhold_pending (s : State) (r : Nat) : (s.unhold r).pending = s.pending := rfl

@[simp] theorem State.unhold_inv {s : State} (hi : s.Inv) (r : Nat) : (s.unhold r).Inv := by
  simp [State.unhold, hi]

@[simp] theorem State.endDraining_pending (s : State) (r : Nat) : (s.endDraining r).pending = s.pending := by
  unfold State.endDraining; split <;> simp

@[simp] theorem State.endDraining_inv {s : State} (hi : s.Inv) (r : Nat) : (s.endDraining r).Inv := by
  unfold State.endDraining; (try dsimp only); (repeat' split) <;> simp (maxDischargeDepth := 12) [hi]

@[simp] theorem State.dropFetches_pending (s : State) (r : Nat) : (s.dropFetches r).pending = s.pending := rfl

@[simp] theorem State.dropFetches_inv {s : State} (hi : s.Inv) (r : Nat) : (s.dropFetches r).Inv := by
  unfold State.dropFetches; apply State.Inv.mk' <;> simp [hi]

@[simp] theorem State.writeRecord_pending (s : State) (r : Nat) (seq : Word) (v : Verdict') (op jet tag : Nat) (fenced : Bool) : (s.writeRecord r seq v op jet tag fenced).pending = s.pending := by
  unfold State.writeRecord; dsimp only; repeat' split
  all_goals simp

@[simp] theorem State.writeRecord_inv {s : State} (hi : s.Inv) (r : Nat) (seq : Word) (v : Verdict') (op jet tag : Nat) (fenced : Bool) : (s.writeRecord r seq v op jet tag fenced).Inv := by
  unfold State.writeRecord; (try dsimp only); (repeat' split) <;> simp (maxDischargeDepth := 12) [hi]

@[simp] theorem State.refuse_pending (s : State) (r : Nat) (h : Held) (v : Verdict') : (s.refuse r h v).pending = s.pending := by
  simp [State.refuse]

@[simp] theorem State.refuse_inv {s : State} (hi : s.Inv) (r : Nat) (h : Held) (v : Verdict') : (s.refuse r h v).Inv := by
  simp [State.refuse, hi]

@[simp] theorem State.wake_pending (s : State) (js bs : List Nat) : (s.wake js bs).pending = s.pending := by
  unfold State.wake; split <;> simp

@[simp] theorem State.wake_inv {s : State} (hi : s.Inv) (js bs : List Nat) : (s.wake js bs).Inv := by
  unfold State.wake
  split
  · apply State.Inv.mk' <;> first
      | exact jetsWf_updAll (by simp [hi]) _ _
      | exact basinsWf_updAll (by simp [hi]) _ _
      | exact queuesFit_updAll hi.queues _ _ fun _ x hx => by split <;> exact hx
      | simp [hi]
  · exact hi

@[simp] theorem State.takeUp_pending (s : State) (r : Nat) (j : Job) : (s.takeUp r j).pending = s.pending := by
  simp [State.takeUp]

@[simp] theorem State.takeUp_inv {s : State} (hi : s.Inv) (r : Nat) (j : Job) : (s.takeUp r j).Inv := by
  unfold State.takeUp
  dsimp only
  exact State.Inv.jobs (State.wake_inv (State.takePins_inv (State.unhold_inv hi _) _) _ _) _

@[simp] theorem State.readDue_pending (s : State) (ring : Nat) (seq : Word) (e : RegionEntry) (off n : Nat) : (s.readDue ring seq e off n).pending = s.pending := by
  unfold State.readDue
  split
  · simp
  · exact foldl_pending fun _ _ => by simp

@[simp] theorem State.readDue_inv {s : State} (hi : s.Inv) (ring : Nat) (seq : Word) (e : RegionEntry) (off n : Nat) : (s.readDue ring seq e off n).Inv := by
  unfold State.readDue
  split
  · simp [hi]
  · exact foldl_inv hi fun _ _ k => by simp [k]

@[simp] theorem State.dropReads_pending (s : State) (ring : Nat) (seq : Word) : (s.dropReads ring seq).pending = s.pending := rfl

@[simp] theorem State.dropReads_inv {s : State} (hi : s.Inv) (ring : Nat) (seq : Word) : (s.dropReads ring seq).Inv := by
  exact State.Inv.reqs hi _

@[simp] theorem State.sweepJobs_pending (s : State) : (s.sweepJobs).pending = s.pending := rfl

@[simp] theorem State.sweepJobs_inv {s : State} (hi : s.Inv) : (s.sweepJobs).Inv := by
  unfold State.sweepJobs; apply State.Inv.mk' <;> simp [hi]

@[simp] theorem State.complete_pending (s : State) (j : Job) (v : Verdict') (jet : Nat) : (s.complete j v jet).pending = s.pending := by
  simp [State.complete]

@[simp] theorem State.complete_inv {s : State} (hi : s.Inv) (j : Job) (v : Verdict') (jet : Nat) : (s.complete j v jet).Inv := by
  unfold State.complete; (try dsimp only); (repeat' split) <;> simp (maxDischargeDepth := 12) [hi]

@[simp] theorem State.holdAccess_pending (s : State) (a : Access) : (s.holdAccess a).pending = s.pending := rfl

@[simp] theorem State.holdAccess_inv {s : State} (hi : s.Inv) (a : Access) : (s.holdAccess a).Inv := by
  unfold State.holdAccess; apply State.Inv.mk' <;> simp [hi]

@[simp] theorem State.reply_pending (s : State) (v : Nat) : (s.reply v).pending = s.pending := rfl

@[simp] theorem State.reply_inv {s : State} (hi : s.Inv) (v : Nat) : (s.reply v).Inv := by
  unfold State.reply; apply State.Inv.mk' <;> simp [hi]

theorem State.pending_regWrite (s : State) (part addr : Nat) (value : Word) (act : State → State)
    (h : (act s).pending = s.pending) : (s.regWrite part addr value act).pending = s.pending := by
  unfold State.regWrite; dsimp only; (repeat' split) <;> simp [h]

theorem State.inv_regWrite {s : State} (hi : s.Inv) (part addr : Nat) (value : Word) (act : State → State)
    (h : (act s).Inv) : (s.regWrite part addr value act).Inv := by
  unfold State.regWrite; dsimp only; (repeat' split) <;> simp [hi, h]

theorem State.pending_regReadAt (s : State) (part addr : Nat) (act : State → State) (h : (act s).pending = s.pending) :
    (s.regReadAt part addr act).pending = s.pending := by
  unfold State.regReadAt; (repeat' split) <;> simp [h]

theorem State.inv_regReadAt {s : State} (hi : s.Inv) (part addr : Nat) (act : State → State) (h : (act s).Inv) :
    (s.regReadAt part addr act).Inv := by
  unfold State.regReadAt; (repeat' split) <;> simp [hi, h]

end Sys2Proof.Machine
end

