-- ==== Sys2Proof/Laws/Rings.lean ====
section
/-! SUPPORT. What the operations of Machine/Rings.lean keep: the invariant of the block, and its queue of commands. -/

namespace Sys2Proof.Machine

@[simp] theorem State.badAccess_pending (s : State) (part offset : Nat) (write : Bool) : (s.badAccess part offset write).pending = s.pending := by
  simp [State.badAccess]

@[simp] theorem State.badAccess_inv {s : State} (hi : s.Inv) (part offset : Nat) (write : Bool) : (s.badAccess part offset write).Inv := by
  simp [State.badAccess, hi]

@[simp] theorem State.ringStat_pending (s : State) (part ring reason : Nat) : (s.ringStat part ring reason).pending = s.pending := rfl

@[simp] theorem State.ringStat_inv {s : State} (hi : s.Inv) (part ring reason : Nat) : (s.ringStat part ring reason).Inv := by
  simp [State.ringStat, hi]

@[simp] theorem State.ringEnable_pending (s : State) (part : Nat) (value : Word) : (s.ringEnable part value).pending = s.pending := by
  unfold State.ringEnable; dsimp only; (repeat' split) <;> simp

@[simp] theorem State.ringEnable_inv {s : State} (hi : s.Inv) (part : Nat) (value : Word) : (s.ringEnable part value).Inv := by
  unfold State.ringEnable; dsimp only; (repeat' split) <;> simp [hi]

@[simp] theorem State.skipHeld_pending (s : State) (r : Nat) : (s.skipHeld r).pending = s.pending := by
  unfold State.skipHeld; exact foldl_pending fun _ _ => by simp

@[simp] theorem State.skipHeld_inv {s : State} (hi : s.Inv) (r : Nat) : (s.skipHeld r).Inv := by
  exact State.dropFetches_inv (foldl_inv hi fun _ _ k => by simp [k]) r

@[simp] theorem State.disableRing_pending (s : State) (r : Nat) : (s.disableRing r).pending = s.pending := by
  simp [State.disableRing]

@[simp] theorem State.disableRing_inv {s : State} (hi : s.Inv) (r : Nat) : (s.disableRing r).Inv := by
  exact State.endDraining_inv (State.updRing_inv (State.skipHeld_inv (State.Inv.jobs hi _) _) _ _) _

@[simp] theorem State.ringDisable_pending (s : State) (part : Nat) (value : Word) : (s.ringDisable part value).pending = s.pending := by
  unfold State.ringDisable; dsimp only; (repeat' split) <;> simp

@[simp] theorem State.ringDisable_inv {s : State} (hi : s.Inv) (part : Nat) (value : Word) : (s.ringDisable part value).Inv := by
  unfold State.ringDisable; dsimp only; (repeat' split) <;> simp [hi]

end Sys2Proof.Machine
end

