-- ==== Sys2Proof/Laws/Landing.lean ====
section
/-! SUPPORT. What the operations of Machine/Landing.lean keep: the invariant of the block, and its queue of commands. -/

namespace Sys2Proof.Machine

@[simp] theorem State.enter_pending (s : State) (h new : Nat) : (s.enter h new).pending = s.pending := by
  simp [State.enter]

@[simp] theorem State.enter_inv {s : State} (hi : s.Inv) (h new : Nat) : (s.enter h new).Inv := by
  simp [State.enter, hi]

@[simp] theorem State.releaseLedger_pending (s : State) (h : Nat) : (s.releaseLedger h).pending = s.pending := rfl

@[simp] theorem State.releaseLedger_inv {s : State} (hi : s.Inv) (h : Nat) : (s.releaseLedger h).Inv := by
  unfold State.releaseLedger; (try dsimp only); repeat' split
  all_goals first
    | (simp [hi]; done)
    | (apply State.Inv.mk' <;> first
        | exact jetsWf_mapVals (by simp [hi]) _
        | simp [hi])

@[simp] theorem State.forgetNaps_pending (s : State) (h : Nat) : (s.forgetNaps h).pending = s.pending := rfl

@[simp] theorem State.forgetNaps_inv {s : State} (hi : s.Inv) (h : Nat) : (s.forgetNaps h).Inv := by
  unfold State.forgetNaps
  apply State.Inv.mk' <;> first
    | exact jetsWf_mapVals (by simp [hi]) _
    | simp [hi]

@[simp] theorem State.allocate_pending (s : State) (h : Nat) : (s.allocate h).pending = s.pending := rfl

@[simp] theorem State.allocate_inv {s : State} (hi : s.Inv) (h : Nat) : (s.allocate h).Inv := by
  simp [State.allocate, hi]

@[simp] theorem State.landEffect_pending (s : State) (n : Nat) (epoch : Word) : (s.landEffect n epoch).pending = s.pending := by
  simp [State.landEffect]

@[simp] theorem State.landEffect_inv {s : State} (hi : s.Inv) (n : Nat) (epoch : Word) : (s.landEffect n epoch).Inv := by
  unfold State.landEffect; (try dsimp only); (repeat' split) <;> simp (maxDischargeDepth := 12) [hi]

@[simp] theorem State.meterShard_pending (s : State) (n : Nat) (epoch : Word) : (s.meterShard n epoch).pending = s.pending := rfl

@[simp] theorem State.meterShard_inv {s : State} (hi : s.Inv) (n : Nat) (epoch : Word) : (s.meterShard n epoch).Inv := by
  simp [State.meterShard, hi]

end Sys2Proof.Machine
end

