-- ==== Sys2Proof/Laws/Groups.lean ====
section
/-! SUPPORT. What the operations of Machine/Groups.lean keep: the invariant of the block, and its queue of commands. -/

namespace Sys2Proof.Machine

@[simp] theorem State.putStamp_pending (s : State) (g : Group) (slot p stamp : Nat) : (s.putStamp g slot p stamp).pending = s.pending := by
  unfold State.putStamp; split <;> simp

@[simp] theorem State.putStamp_inv {s : State} (hi : s.Inv) (g : Group) (slot p stamp : Nat) : (s.putStamp g slot p stamp).Inv := by
  unfold State.putStamp; split <;> simp [hi]

end Sys2Proof.Machine
end

