-- ==== Sys2Proof/Laws/Pour.lean ====
section
/-! SUPPORT. What the operations of Machine/Pour.lean keep: the invariant of the block, and its queue of commands. -/

namespace Sys2Proof.Machine

@[simp] theorem State.finish_pending (s : State) (j : Job) (v : Verdict') (jet : Nat) : (s.finish j v jet).pending = s.pending := by
  unfold State.finish; split <;> simp

@[simp] theorem State.finish_inv {s : State} (hi : s.Inv) (j : Job) (v : Verdict') (jet : Nat) : (s.finish j v jet).Inv := by
  unfold State.finish; (try dsimp only); (repeat' split) <;> simp (maxDischargeDepth := 12) [hi]

@[simp] theorem State.sendVote_pending (s : State) (ring : Nat) (seq : Word) (n : Nat) : (s.sendVote ring seq n).pending = s.pending := by
  unfold State.sendVote; dsimp only; repeat' split
  all_goals simp

@[simp] theorem State.sendVote_inv {s : State} (hi : s.Inv) (ring : Nat) (seq : Word) (n : Nat) : (s.sendVote ring seq n).Inv := by
  unfold State.sendVote
  dsimp only
  split
  · exact State.Inv.port hi _
  · split
    · exact hi
    · exact State.enter_inv (State.updShard_inv (State.Inv.port hi _) _ _) _ _

@[simp] theorem State.retireKeys_pending (s : State) : (s.retireKeys).pending = s.pending := by
  unfold State.retireKeys; split <;> simp

@[simp] theorem State.retireKeys_inv {s : State} (hi : s.Inv) : (s.retireKeys).Inv := by
  unfold State.retireKeys; dsimp only; repeat' split
  all_goals first
    | (simp [hi]; done)
    | (apply State.Inv.mk' <;> simp [hi])

@[simp] theorem State.discard_pending (s : State) (n step : Nat) (v : List Byte) (count : Bool) : (s.discard n step v count).pending = s.pending := by
  unfold State.discard; split <;> simp

@[simp] theorem State.discard_inv {s : State} (hi : s.Inv) (n step : Nat) (v : List Byte) (count : Bool) : (s.discard n step v count).Inv := by
  unfold State.discard; (try dsimp only); (repeat' split) <;> simp (maxDischargeDepth := 12) [hi]

@[simp] theorem State.discardAlarm_pending (s : State) (n code arg0 arg1 : Nat) : (s.discardAlarm n code arg0 arg1).pending = s.pending := by
  simp [State.discardAlarm]

@[simp] theorem State.discardAlarm_inv {s : State} (hi : s.Inv) (n code arg0 arg1 : Nat) : (s.discardAlarm n code arg0 arg1).Inv := by
  simp [State.discardAlarm, hi]

@[simp] theorem State.settleRestill_pending (s : State) (n : Nat) (but : Nat × Word) : (s.settleRestill n but).pending = s.pending := rfl

@[simp] theorem State.settleRestill_inv {s : State} (hi : s.Inv) (n : Nat) (but : Nat × Word) : (s.settleRestill n but).Inv := by
  simp [State.settleRestill, hi]

@[simp] theorem State.holdVerdict_pending (s : State) (n : Nat) (v : List Byte) : (s.holdVerdict n v).pending = s.pending := by
  simp [State.holdVerdict]

@[simp] theorem State.holdVerdict_inv {s : State} (hi : s.Inv) (n : Nat) (v : List Byte) : (s.holdVerdict n v).Inv := by
  unfold State.holdVerdict; (try dsimp only); (repeat' split) <;> simp (maxDischargeDepth := 12) [hi]

@[simp] theorem State.matchVerdict_pending (s : State) (n : Nat) (v : List Byte) : (s.matchVerdict n v).pending = s.pending := by
  unfold State.matchVerdict; dsimp only; repeat' split
  all_goals simp

@[simp] theorem State.matchVerdict_inv {s : State} (hi : s.Inv) (n : Nat) (v : List Byte) : (s.matchVerdict n v).Inv := by
  unfold State.matchVerdict; (try dsimp only); (repeat' split) <;> simp (maxDischargeDepth := 12) [hi]

@[simp] theorem State.takeVerdict_pending (s : State) (v : List Byte) (whole : Bool) : (s.takeVerdict v whole).pending = s.pending := by
  unfold State.takeVerdict; dsimp only; repeat' split
  all_goals simp

@[simp] theorem State.takeVerdict_inv {s : State} (hi : s.Inv) (v : List Byte) (whole : Bool) : (s.takeVerdict v whole).Inv := by
  unfold State.takeVerdict; (try dsimp only); (repeat' split) <;> simp (maxDischargeDepth := 12) [hi]

@[simp] theorem State.censusRecord_pending (s : State) (part basin : Nat) (bytes : List Byte) (waiter : Option (Nat × Word)) : (s.censusRecord part basin bytes waiter).pending = s.pending := by
  unfold State.censusRecord; dsimp only; repeat' split
  all_goals simp

@[simp] theorem State.censusRecord_inv {s : State} (hi : s.Inv) (part basin : Nat) (bytes : List Byte) (waiter : Option (Nat × Word)) : (s.censusRecord part basin bytes waiter).Inv := by
  unfold State.censusRecord
  dsimp only
  have k : ∀ v : Log, ({ s with censusLogs := Tab.set {} s.censusLogs part v } : State).Inv := fun v => by
    apply State.Inv.mk' <;> first
      | exact logsWf_set hi.censusLogs_wf _ _
      | simp [hi]
  split
  · exact State.enqueue_inv (k _) _ _
  · exact k _

@[simp] theorem State.censusOut_pending (s : State) (n : Nat) (h : Shard) (outcome gsumsq : Nat) (waiter : Nat × Word) : (s.censusOut n h outcome gsumsq waiter).pending = s.pending := by
  unfold State.censusOut
  simp only [State.endSets_pending]
  exact (foldl_pending fun _ _ => State.censusRecord_pending _ _ _ _ _).trans (State.censusRecord_pending _ _ _ _ _)

@[simp] theorem State.censusOut_inv {s : State} (hi : s.Inv) (n : Nat) (h : Shard) (outcome gsumsq : Nat) (waiter : Nat × Word) : (s.censusOut n h outcome gsumsq waiter).Inv := by
  unfold State.censusOut
  exact State.endSets_inv (foldl_inv (State.censusRecord_inv hi _ _ _ _) fun _ _ k => State.censusRecord_inv k _ _ _ _) _ _

@[simp] theorem State.releaseShard_pending (s : State) (n : Nat) : (s.releaseShard n).pending = s.pending := by
  unfold State.releaseShard; dsimp only; repeat' split
  all_goals simp

@[simp] theorem State.releaseShard_inv {s : State} (hi : s.Inv) (n : Nat) : (s.releaseShard n).Inv := by
  unfold State.releaseShard; (try dsimp only); (repeat' split) <;> simp (maxDischargeDepth := 12) [hi]

@[simp] theorem State.endAttempt_pending (s : State) (n outcome : Nat) : (s.endAttempt n outcome).pending = s.pending := by
  simp [State.endAttempt]

@[simp] theorem State.endAttempt_inv {s : State} (hi : s.Inv) (n outcome : Nat) : (s.endAttempt n outcome).Inv := by
  unfold State.endAttempt; (try dsimp only); (repeat' split) <;> simp (maxDischargeDepth := 12) [hi]

@[simp] theorem State.catchUpWrite_pending (s : State) (n group c : Nat) (e : RegionEntry) (off v : Nat) : (s.catchUpWrite n group c e off v).pending = s.pending := by
  unfold State.catchUpWrite; exact foldl_fst_pending fun _ _ => by simp

@[simp] theorem State.catchUpWrite_inv {s : State} (hi : s.Inv) (n group c : Nat) (e : RegionEntry) (off v : Nat) : (s.catchUpWrite n group c e off v).Inv := by
  unfold State.catchUpWrite; exact foldl_fst_inv hi fun _ _ k => by simp [k]

@[simp] theorem State.pourPrefix_pending (s : State) (n : Nat) (k : Kept) (step : Nat) : (s.pourPrefix n k step).pending = s.pending := by
  unfold State.pourPrefix; (try dsimp only); repeat' split
  all_goals first
    | rfl
    | (simp; done)
    | (refine (foldl_pending fun _ _ => ?_).trans ?_ <;> (try dsimp only) <;> (repeat' split) <;> first | rfl | simp)

@[simp] theorem State.pourPrefix_inv {s : State} (hi : s.Inv) (n : Nat) (k : Kept) (step : Nat) : (s.pourPrefix n k step).Inv := by
  unfold State.pourPrefix
  dsimp only
  split
  · refine State.updGroup_inv (foldl_inv hi fun t x k => ?_) _ _
    split <;> simp [k]
  · simp [hi]

@[simp] theorem State.pourPrefixes_pending (s : State) (n : Nat) (ks : List Kept) (step : Nat) : (s.pourPrefixes n ks step).pending = s.pending := by
  unfold State.pourPrefixes; exact foldl_pending fun _ _ => by simp

@[simp] theorem State.pourPrefixes_inv {s : State} (hi : s.Inv) (n : Nat) (ks : List Kept) (step : Nat) : (s.pourPrefixes n ks step).Inv := by
  unfold State.pourPrefixes; exact foldl_inv hi fun _ _ k => by simp [k]

@[simp] theorem State.pourEffect_pending (s : State) (n : Nat) (abort : Bool) (waiter : Nat × Word) : (s.pourEffect n abort waiter).pending = s.pending := by
  unfold State.pourEffect; dsimp only; repeat' split
  all_goals simp

@[simp] theorem State.pourEffect_inv {s : State} (hi : s.Inv) (n : Nat) (abort : Bool) (waiter : Nat × Word) : (s.pourEffect n abort waiter).Inv := by
  unfold State.pourEffect; (try dsimp only); (repeat' split) <;> simp (maxDischargeDepth := 12) [hi]

@[simp] theorem State.stepWrite_pending (s : State) (part shard : Nat) (value : Word) : (s.stepWrite part shard value).pending = s.pending := by
  unfold State.stepWrite; dsimp only; (repeat' split) <;> simp

@[simp] theorem State.stepWrite_inv {s : State} (hi : s.Inv) (part shard : Nat) (value : Word) : (s.stepWrite part shard value).Inv := by
  unfold State.stepWrite; dsimp only; (repeat' split) <;> simp [hi]

@[simp] theorem State.retire_pending (s : State) (part shard : Nat) (value : Word) : (s.retire part shard value).pending = s.pending := by
  unfold State.retire; dsimp only; (repeat' split) <;> simp

@[simp] theorem State.retire_inv {s : State} (hi : s.Inv) (part shard : Nat) (value : Word) : (s.retire part shard value).Inv := by
  unfold State.retire; (try dsimp only); (repeat' split) <;> simp (maxDischargeDepth := 12) [hi]

@[simp] theorem State.stillEnds_pending (s : State) (j : Job) (st : Status) : (s.stillEnds j st).pending = s.pending := by
  unfold State.stillEnds; dsimp only; repeat' split
  all_goals simp

@[simp] theorem State.stillEnds_inv {s : State} (hi : s.Inv) (j : Job) (st : Status) : (s.stillEnds j st).Inv := by
  unfold State.stillEnds; (try dsimp only); (repeat' split) <;> simp (maxDischargeDepth := 12) [hi]

end Sys2Proof.Machine
end

