-- ==== Sys2Proof/Laws/Streams.lean ====
section
/-! SUPPORT. What the operations of Machine/Streams.lean keep: the invariant of the block, and its queue of commands. -/

namespace Sys2Proof.Machine

@[simp] theorem State.writeElems_pending (s : State) (e : RegionEntry) (slot first : Nat) (codes : List Nat) (tag : Nat) : (s.writeElems e slot first codes tag).pending = s.pending := by
  unfold State.writeElems; (repeat' split) <;> simp

@[simp] theorem State.writeElems_inv {s : State} (hi : s.Inv) (e : RegionEntry) (slot first : Nat) (codes : List Nat) (tag : Nat) : (s.writeElems e slot first codes tag).Inv := by
  unfold State.writeElems; (repeat' split) <;> simp [hi]

@[simp] theorem State.putMould_pending (s : State) (e : RegionEntry) (slot a code : Nat) : (s.putMould e slot a code).pending = s.pending := by
  simp [State.putMould]

@[simp] theorem State.putMould_inv {s : State} (hi : s.Inv) (e : RegionEntry) (slot a code : Nat) : (s.putMould e slot a code).Inv := by
  simp [State.putMould, hi]

@[simp] theorem State.writeStream_pending (s : State) (e : RegionEntry) (slot first : Nat) (codes : List Nat) (tag : Nat) : (s.writeStream e slot first codes tag).pending = s.pending := by
  unfold State.writeStream
  split
  · exact foldl_pending fun _ _ => State.putMould_pending _ _ _ _ _
  · simp

@[simp] theorem State.writeStream_inv {s : State} (hi : s.Inv) (e : RegionEntry) (slot first : Nat) (codes : List Nat) (tag : Nat) : (s.writeStream e slot first codes tag).Inv := by
  unfold State.writeStream
  split
  · exact foldl_inv hi fun _ _ k => State.putMould_inv k _ _ _ _
  · simp [hi]

@[simp] theorem State.writePieces_pending (s : State) (j : Nat) (l : List (Nat × Nat)) (bs : List Byte) : (s.writePieces j l bs).pending = s.pending := by
  unfold State.writePieces; exact foldl_fst_pending fun _ _ => by (try dsimp only); (repeat' split) <;> simp

@[simp] theorem State.writePieces_inv {s : State} (hi : s.Inv) (j : Nat) (l : List (Nat × Nat)) (bs : List Byte) : (s.writePieces j l bs).Inv := by
  unfold State.writePieces; exact foldl_fst_inv hi fun _ _ k => by (try dsimp only); (repeat' split) <;> simp (maxDischargeDepth := 12) [k]

@[simp] theorem State.writeRecordAt_pending (s : State) (e : RegionEntry) (slot a : Nat) (l : List (Nat × List Byte)) : (s.writeRecordAt e slot a l).pending = s.pending := by
  unfold State.writeRecordAt; exact foldl_pending fun _ _ => by simp

@[simp] theorem State.writeRecordAt_inv {s : State} (hi : s.Inv) (e : RegionEntry) (slot a : Nat) (l : List (Nat × List Byte)) : (s.writeRecordAt e slot a l).Inv := by
  unfold State.writeRecordAt; exact foldl_inv hi fun _ _ k => by simp [k]

@[simp] theorem State.copyRecord_pending (s : State) (e : RegionEntry) (src dst a : Nat) : (s.copyRecord e src dst a).pending = s.pending := by
  simp [State.copyRecord]

@[simp] theorem State.copyRecord_inv {s : State} (hi : s.Inv) (e : RegionEntry) (src dst a : Nat) : (s.copyRecord e src dst a).Inv := by
  simp [State.copyRecord, hi]

@[simp] theorem State.copyBlock_pending (s : State) (records : Bool) (e : RegionEntry) (src dst a n : Nat) : (s.copyBlock records e src dst a n).pending = s.pending := by
  unfold State.copyBlock; split <;> simp

@[simp] theorem State.copyBlock_inv {s : State} (hi : s.Inv) (records : Bool) (e : RegionEntry) (src dst a n : Nat) : (s.copyBlock records e src dst a n).Inv := by
  unfold State.copyBlock; (try dsimp only); (repeat' split) <;> simp (maxDischargeDepth := 12) [hi]

end Sys2Proof.Machine
end

