-- ==== Sys2Proof/Laws/Casting.lean ====
section
/-! SUPPORT. What the operations of Machine/Casting.lean keep: the invariant of the block, and its queue of commands. -/

namespace Sys2Proof.Machine

@[simp] theorem State.castAt_pending (s : State) (j : Job) (a : Nat) (ci : CastIn) : (s.castAt j a ci).1.pending = s.pending := by
  unfold State.castAt; dsimp only; repeat' split
  all_goals simp

@[simp] theorem State.castAt_inv {s : State} (hi : s.Inv) (j : Job) (a : Nat) (ci : CastIn) : (s.castAt j a ci).1.Inv := by
  unfold State.castAt; (try dsimp only); (repeat' split) <;> simp (maxDischargeDepth := 12) [hi]

@[simp] theorem State.castBegins_pending (s : State) (n group : Nat) (jets : List Nat) : (s.castBegins n group jets).pending = s.pending := by
  simp [State.castBegins]

@[simp] theorem State.castBegins_inv {s : State} (hi : s.Inv) (n group : Nat) (jets : List Nat) : (s.castBegins n group jets).Inv := by
  simp [State.castBegins, hi]

end Sys2Proof.Machine
end

