-- ==== Sys2Proof/Laws/Still.lean ====
section
/-! SUPPORT. What the operations of Machine/Still.lean keep: the invariant of the block, and its queue of commands. -/

namespace Sys2Proof.Machine

@[simp] theorem State.stillBegins_pending (s : State) (v : StillView) (mode : StillMode) (ks : List Nat) : (s.stillBegins v mode ks).pending = s.pending := by
  unfold State.stillBegins; dsimp only; repeat' split
  all_goals simp

@[simp] theorem State.stillBegins_inv {s : State} (hi : s.Inv) (v : StillView) (mode : StillMode) (ks : List Nat) : (s.stillBegins v mode ks).Inv := by
  unfold State.stillBegins; (try dsimp only); (repeat' split) <;> simp (maxDischargeDepth := 12) [hi]

end Sys2Proof.Machine
end

