-- ==== Sys2Proof/Laws/StillTile.lean ====
section
/-! SUPPORT. What the operations of Machine/StillTile.lean keep: the invariant of the block, and its queue of commands. -/

namespace Sys2Proof.Machine

@[simp] theorem State.leaveWorkspace_pending (s : State) (j : Job) (first : Nat) (o : MatrixOut) : (s.leaveWorkspace j first o).pending = s.pending := by
  unfold State.leaveWorkspace; dsimp only; repeat' split
  all_goals simp

@[simp] theorem State.leaveWorkspace_inv {s : State} (hi : s.Inv) (j : Job) (first : Nat) (o : MatrixOut) : (s.leaveWorkspace j first o).Inv := by
  unfold State.leaveWorkspace; (try dsimp only); (repeat' split) <;> simp (maxDischargeDepth := 12) [hi]

@[simp] theorem State.withMatrix_pending (s : State) (j : Job) (a : Nat) : (s.withMatrix j a).1.pending = s.pending := by
  unfold State.withMatrix; dsimp only; repeat' split
  all_goals simp

@[simp] theorem State.withMatrix_inv {s : State} (hi : s.Inv) (j : Job) (a : Nat) : (s.withMatrix j a).1.Inv := by
  unfold State.withMatrix; (try dsimp only); (repeat' split) <;> simp (maxDischargeDepth := 12) [hi]

@[simp] theorem State.startStill_pending (s : State) (j : Job) (p : Part) : (s.startStill j p).pending = s.pending := by
  simp [State.startStill]

@[simp] theorem State.startStill_inv {s : State} (hi : s.Inv) (j : Job) (p : Part) : (s.startStill j p).Inv := by
  simp [State.startStill, hi]

@[simp] theorem State.writeOuts_pending (s : State) (j : Job) (a : Nat) (outs : List (List Nat)) : (s.writeOuts j a outs).pending = s.pending := by
  unfold State.writeOuts; (try dsimp only); repeat' split
  all_goals first
    | rfl
    | (simp; done)
    | (refine (foldl_pending fun _ _ => ?_).trans ?_ <;> (try dsimp only) <;> (repeat' split) <;> first | rfl | simp)

@[simp] theorem State.writeOuts_inv {s : State} (hi : s.Inv) (j : Job) (a : Nat) (outs : List (List Nat)) : (s.writeOuts j a outs).Inv := by
  unfold State.writeOuts; (try dsimp only); repeat' split
  all_goals first
    | exact hi
    | (simp [hi]; done)
    | (refine foldl_inv ?_ fun _ _ k => ?_ <;> (try dsimp only) <;> (repeat' split) <;> first
        | assumption
        | (simp [*]; done)
        | (apply State.Inv.mk' <;> simp [*]))
    | (apply State.Inv.mk' <;> simp [hi])

@[simp] theorem State.castOuts_pending (s : State) (j : Job) (a : Nat) (codes : List Nat) : (s.castOuts j a codes).1.pending = s.pending := by
  unfold State.castOuts; split <;> simp

@[simp] theorem State.castOuts_inv {s : State} (hi : s.Inv) (j : Job) (a : Nat) (codes : List Nat) : (s.castOuts j a codes).1.Inv := by
  unfold State.castOuts; (try dsimp only); (repeat' split) <;> simp (maxDischargeDepth := 12) [hi]

@[simp] theorem State.markBlock_pending (s : State) (j : Job) (a : Nat) : (s.markBlock j a).pending = s.pending := by
  unfold State.markBlock; dsimp only; repeat' split
  all_goals simp

@[simp] theorem State.markBlock_inv {s : State} (hi : s.Inv) (j : Job) (a : Nat) : (s.markBlock j a).Inv := by
  unfold State.markBlock; (try dsimp only); (repeat' split) <;> simp (maxDischargeDepth := 12) [hi]

@[simp] theorem State.stampBlock_pending (s : State) (j : Job) (a : Nat) (t : Treatment) : (s.stampBlock j a t).pending = s.pending := by
  unfold State.stampBlock; dsimp only; repeat' split
  all_goals simp

@[simp] theorem State.stampBlock_inv {s : State} (hi : s.Inv) (j : Job) (a : Nat) (t : Treatment) : (s.stampBlock j a t).Inv := by
  unfold State.stampBlock; (try dsimp only); (repeat' split) <;> simp (maxDischargeDepth := 12) [hi]

@[simp] theorem State.skipBlock_pending (s : State) (j : Job) (a n : Nat) : (s.skipBlock j a n).pending = s.pending := by
  unfold State.skipBlock; dsimp only; repeat' split
  · rw [State.putStamp_pending]; exact foldl_pending fun _ _ => State.copyBlock_pending _ _ _ _ _ _ _
  all_goals simp

@[simp] theorem State.skipBlock_inv {s : State} (hi : s.Inv) (j : Job) (a n : Nat) : (s.skipBlock j a n).Inv := by
  unfold State.skipBlock; dsimp only; repeat' split
  · exact State.putStamp_inv (foldl_inv hi fun _ _ k => State.copyBlock_inv k _ _ _ _ _ _) _ _ _ _
  all_goals simp [hi]

@[simp] theorem State.writeWindows_pending (s : State) (j : Job) (jet : Nat) (c : Cistern) : (s.writeWindows j jet c).pending = s.pending := by
  unfold State.writeWindows; exact foldl_pending fun _ _ => by simp

@[simp] theorem State.writeWindows_inv {s : State} (hi : s.Inv) (j : Job) (jet : Nat) (c : Cistern) : (s.writeWindows j jet c).Inv := by
  unfold State.writeWindows; exact foldl_inv hi fun _ _ k => by simp [k]

@[simp] theorem State.countTile_pending (s : State) (j : Job) (jet : Nat) (c : Counts) : (s.countTile j jet c).pending = s.pending := by
  unfold State.countTile; dsimp only; (repeat' split) <;> simp

@[simp] theorem State.countTile_inv {s : State} (hi : s.Inv) (j : Job) (jet : Nat) (c : Counts) : (s.countTile j jet c).Inv := by
  unfold State.countTile; dsimp only; (repeat' split) <;> simp [hi]

@[simp] theorem State.storeDue_pending (s : State) (j : Job) (jet : Nat) (stack : Bool) : (s.storeDue j jet stack).pending = s.pending := rfl

@[simp] theorem State.storeDue_inv {s : State} (hi : s.Inv) (j : Job) (jet : Nat) (stack : Bool) : (s.storeDue j jet stack).Inv := by
  simp [State.storeDue, hi]

@[simp] theorem State.stillStores_pending (s : State) (j : Job) (jet : Nat) (block windows : Bool) : (s.stillStores j jet block windows).pending = s.pending := by
  unfold State.stillStores; (try dsimp only); (repeat' split) <;> simp

@[simp] theorem State.stillStores_inv {s : State} (hi : s.Inv) (j : Job) (jet : Nat) (block windows : Bool) : (s.stillStores j jet block windows).Inv := by
  unfold State.stillStores; (try dsimp only); (repeat' split) <;> simp (maxDischargeDepth := 12) [hi]

@[simp] theorem State.stillTile_pending (s : State) (j : Job) (p : Part) (t : Tile) : (s.stillTile j p t).pending = s.pending := by
  unfold State.stillTile; dsimp only; repeat' split
  all_goals simp

@[simp] theorem State.stillTile_inv {s : State} (hi : s.Inv) (j : Job) (p : Part) (t : Tile) : (s.stillTile j p t).Inv := by
  unfold State.stillTile; (try dsimp only); (repeat' split) <;> simp (maxDischargeDepth := 12) [hi]

@[simp] theorem State.commitStill_pending (s : State) (j : Job) (p0 : Part) (last : Bool) : (s.commitStill j p0 last).pending = s.pending := by
  unfold State.commitStill; dsimp only; repeat' split
  all_goals simp

@[simp] theorem State.commitStill_inv {s : State} (hi : s.Inv) (j : Job) (p0 : Part) (last : Bool) : (s.commitStill j p0 last).Inv := by
  unfold State.commitStill; (try dsimp only); (repeat' split) <;> simp (maxDischargeDepth := 12) [hi]

@[simp] theorem State.startCast_pending (s : State) (j : Job) (p : Part) : (s.startCast j p).pending = s.pending := rfl

@[simp] theorem State.startCast_inv {s : State} (hi : s.Inv) (j : Job) (p : Part) : (s.startCast j p).Inv := by
  simp [State.startCast, hi]

@[simp] theorem State.commitCast_pending (s : State) (j : Job) (p : Part) (t : Tile) : (s.commitCast j p t).pending = s.pending := by
  unfold State.commitCast; split <;> simp

@[simp] theorem State.commitCast_inv {s : State} (hi : s.Inv) (j : Job) (p : Part) (t : Tile) : (s.commitCast j p t).Inv := by
  unfold State.commitCast; (try dsimp only); (repeat' split) <;> simp (maxDischargeDepth := 12) [hi]

end Sys2Proof.Machine
end

