-- ==== Sys2Proof/Laws/Moves.lean ====
section
/-! SUPPORT. What the operations of Machine/Moves.lean keep: the invariant of the block, and its queue of commands. -/

namespace Sys2Proof.Machine

@[simp] theorem State.moveDue_pending (s : State) (j : Job) (jet : Nat) (e : RegionEntry) : (s.moveDue j jet e).pending = s.pending := by
  unfold State.moveDue; split <;> simp

@[simp] theorem State.moveDue_inv {s : State} (hi : s.Inv) (j : Job) (jet : Nat) (e : RegionEntry) : (s.moveDue j jet e).Inv := by
  unfold State.moveDue; (try dsimp only); (repeat' split) <;> simp (maxDischargeDepth := 12) [hi]

@[simp] theorem State.tileIn_pending (s : State) (j : Job) (p : Part) (data : List (List Nat)) (c : Counts) : (s.tileIn j p data c).pending = s.pending := rfl

@[simp] theorem State.tileIn_inv {s : State} (hi : s.Inv) (j : Job) (p : Part) (data : List (List Nat)) (c : Counts) : (s.tileIn j p data c).Inv := by
  simp [State.tileIn, hi]

@[simp] theorem State.tileOut_pending (s : State) (j : Job) (p : Part) : (s.tileOut j p).pending = s.pending := rfl

@[simp] theorem State.tileOut_inv {s : State} (hi : s.Inv) (j : Job) (p : Part) : (s.tileOut j p).Inv := by
  simp [State.tileOut, hi]

@[simp] theorem State.startCopy_pending (s : State) (j : Job) (p : Part) : (s.startCopy j p).pending = s.pending := by
  unfold State.startCopy; dsimp only; repeat' split
  all_goals simp

@[simp] theorem State.startCopy_inv {s : State} (hi : s.Inv) (j : Job) (p : Part) : (s.startCopy j p).Inv := by
  unfold State.startCopy; (try dsimp only); (repeat' split) <;> simp (maxDischargeDepth := 12) [hi]

@[simp] theorem State.writeCopy_pending (s : State) (j : Job) (slot a : Nat) (data : List Nat) : (s.writeCopy j slot a data).pending = s.pending := by
  unfold State.writeCopy; dsimp only; (repeat' split) <;> simp

@[simp] theorem State.writeCopy_inv {s : State} (hi : s.Inv) (j : Job) (slot a : Nat) (data : List Nat) : (s.writeCopy j slot a data).Inv := by
  unfold State.writeCopy; dsimp only; (repeat' split) <;> simp [hi]

@[simp] theorem State.commitCopy_pending (s : State) (j : Job) (p : Part) (t : Tile) : (s.commitCopy j p t).pending = s.pending := by
  unfold State.commitCopy; (try dsimp only); (repeat' split) <;> simp [foldl_pending]

@[simp] theorem State.commitCopy_inv {s : State} (hi : s.Inv) (j : Job) (p : Part) (t : Tile) : (s.commitCopy j p t).Inv := by
  unfold State.commitCopy; (try dsimp only); (repeat' split) <;> simp +contextual (maxDischargeDepth := 12) [foldl_inv, hi]

@[simp] theorem State.commitFill_pending (s : State) (j : Job) (p : Part) (t : Tile) : (s.commitFill j p t).pending = s.pending := by
  unfold State.commitFill; (try dsimp only); (repeat' split) <;> simp [foldl_pending]

@[simp] theorem State.commitFill_inv {s : State} (hi : s.Inv) (j : Job) (p : Part) (t : Tile) : (s.commitFill j p t).Inv := by
  unfold State.commitFill; (try dsimp only); (repeat' split) <;> simp +contextual (maxDischargeDepth := 12) [foldl_inv, hi]

@[simp] theorem State.startCrucible_pending (s : State) (j : Job) (p : Part) : (s.startCrucible j p).pending = s.pending := rfl

@[simp] theorem State.startCrucible_inv {s : State} (hi : s.Inv) (j : Job) (p : Part) : (s.startCrucible j p).Inv := by
  simp [State.startCrucible, hi]

@[simp] theorem State.outBytes_pending (s : State) (c : RegionEntry) (f : Fmt) (codes : List Nat) : (s.outBytes c f codes).1.pending = s.pending := by
  unfold State.outBytes; split <;> simp

@[simp] theorem State.outBytes_inv {s : State} (hi : s.Inv) (c : RegionEntry) (f : Fmt) (codes : List Nat) : (s.outBytes c f codes).1.Inv := by
  unfold State.outBytes; (try dsimp only); (repeat' split) <;> simp (maxDischargeDepth := 12) [hi]

@[simp] theorem State.commitCrucible_pending (s : State) (j : Job) (p : Part) (t : Tile) : (s.commitCrucible j p t).pending = s.pending := by
  simp [State.commitCrucible]

@[simp] theorem State.commitCrucible_inv {s : State} (hi : s.Inv) (j : Job) (p : Part) (t : Tile) : (s.commitCrucible j p t).Inv := by
  unfold State.commitCrucible; (try dsimp only); (repeat' split) <;> simp (maxDischargeDepth := 12) [hi]

@[simp] theorem State.startExport_pending (s : State) (j : Job) (p : Part) : (s.startExport j p).pending = s.pending := rfl

@[simp] theorem State.startExport_inv {s : State} (hi : s.Inv) (j : Job) (p : Part) : (s.startExport j p).Inv := by
  simp [State.startExport, hi]

@[simp] theorem State.commitExport_pending (s : State) (j : Job) (p : Part) (t : Tile) : (s.commitExport j p t).pending = s.pending := by
  simp [State.commitExport]

@[simp] theorem State.commitExport_inv {s : State} (hi : s.Inv) (j : Job) (p : Part) (t : Tile) : (s.commitExport j p t).Inv := by
  unfold State.commitExport; (try dsimp only); (repeat' split) <;> simp (maxDischargeDepth := 12) [hi]

@[simp] theorem State.endExport_pending (s : State) (j : Job) : (s.endExport j).pending = s.pending := by
  simp [State.endExport]

@[simp] theorem State.endExport_inv {s : State} (hi : s.Inv) (j : Job) : (s.endExport j).Inv := by
  unfold State.endExport; apply State.Inv.mk' <;> simp [hi]

end Sys2Proof.Machine
end

