-- ==== Sys2Proof/Laws/Lane.lean ====
section
/-! SUPPORT. What the operations of Machine/Lane.lean keep: the invariant of the block, and its queue of commands. -/

namespace Sys2Proof.Machine

@[simp] theorem State.freeTally_pending (s : State) (jet bank : Nat) : (s.freeTally jet bank).pending = s.pending := rfl

@[simp] theorem State.freeTally_inv {s : State} (hi : s.Inv) (jet bank : Nat) : (s.freeTally jet bank).Inv := by
  simp [State.freeTally, hi]

@[simp] theorem State.freeTallies_pending (s : State) (jet : Nat) : (s.freeTallies jet).pending = s.pending := by
  unfold State.freeTallies; exact foldl_pending fun _ _ => by simp

@[simp] theorem State.freeTallies_inv {s : State} (hi : s.Inv) (jet : Nat) : (s.freeTallies jet).Inv := by
  unfold State.freeTallies; exact foldl_inv hi fun _ _ k => by simp [k]

@[simp] theorem State.freeAfter_pending (s : State) (jet : Nat) (w : Well) : (s.freeAfter jet w).pending = s.pending := by
  unfold State.freeAfter; (repeat' split) <;> simp

@[simp] theorem State.freeAfter_inv {s : State} (hi : s.Inv) (jet : Nat) (w : Well) : (s.freeAfter jet w).Inv := by
  unfold State.freeAfter; (repeat' split) <;> simp [hi]

@[simp] theorem State.handBack_pending (s : State) (b : Nat) : (s.handBack b).pending = s.pending := by
  unfold State.handBack; exact (foldl_pending fun _ _ => State.freeAfter_pending _ _ _).trans rfl

@[simp] theorem State.handBack_inv {s : State} (hi : s.Inv) (b : Nat) : (s.handBack b).Inv := by
  unfold State.handBack; exact foldl_inv (by simp [hi]) fun _ _ k => State.freeAfter_inv k _ _

@[simp] theorem State.takeBack_pending (s : State) (b : Nat) : (s.takeBack b).pending = s.pending := rfl

@[simp] theorem State.takeBack_inv {s : State} (hi : s.Inv) (b : Nat) : (s.takeBack b).Inv := by
  simp [State.takeBack, hi]

@[simp] theorem State.settleOwn_pending (s : State) (b : Nat) : (s.settleOwn b).pending = s.pending := by
  unfold State.settleOwn; (try dsimp only); repeat' split
  all_goals first
    | rfl
    | (simp; done)
    | (refine (foldl_pending fun _ _ => ?_).trans ?_ <;> (try dsimp only) <;> (repeat' split) <;> first | rfl | simp)

@[simp] theorem State.settleOwn_inv {s : State} (hi : s.Inv) (b : Nat) : (s.settleOwn b).Inv := by
  unfold State.settleOwn; (try dsimp only); (repeat' split) <;> simp (maxDischargeDepth := 12) [hi]

@[simp] theorem State.settleOwners_pending (s : State) : (s.settleOwners).pending = s.pending := by
  unfold State.settleOwners; exact foldl_pending fun _ _ => by simp

@[simp] theorem State.settleOwners_inv {s : State} (hi : s.Inv) : (s.settleOwners).Inv := by
  unfold State.settleOwners; exact foldl_inv hi fun _ _ k => by simp [k]

@[simp] theorem State.settleBasin_pending (s : State) (b : Nat) : (s.settleBasin b).pending = s.pending := by
  unfold State.settleBasin; (repeat' split) <;> simp

@[simp] theorem State.settleBasin_inv {s : State} (hi : s.Inv) (b : Nat) : (s.settleBasin b).Inv := by
  unfold State.settleBasin; (repeat' split) <;> simp [hi]

@[simp] theorem State.settleBasins_pending (s : State) : (s.settleBasins).pending = s.pending := by
  unfold State.settleBasins; exact foldl_pending fun _ _ => by simp

@[simp] theorem State.settleBasins_inv {s : State} (hi : s.Inv) : (s.settleBasins).Inv := by
  unfold State.settleBasins; exact foldl_inv hi fun _ _ k => by simp [k]

@[simp] theorem State.jetResetOver_pending (s : State) (jet since : Nat) : (s.jetResetOver jet since).pending = s.pending := by
  simp [State.jetResetOver]

@[simp] theorem State.jetResetOver_inv {s : State} (hi : s.Inv) (jet since : Nat) : (s.jetResetOver jet since).Inv := by
  simp [State.jetResetOver, hi]

@[simp] theorem State.levelOver_pending (s : State) (e : Nat) (r : Reset) : (s.levelOver e r).pending = s.pending := by
  unfold State.levelOver; (try dsimp only); (repeat' split) <;> simp

@[simp] theorem State.levelOver_inv {s : State} (hi : s.Inv) (e : Nat) (r : Reset) : (s.levelOver e r).Inv := by
  unfold State.levelOver; (try dsimp only); (repeat' split) <;> simp (maxDischargeDepth := 12) [hi]

@[simp] theorem State.resetOver_pending (s : State) (e : Nat) (r : Reset) : (s.resetOver e r).pending = s.pending := by
  unfold State.resetOver; rw [State.levelOver_pending]; exact foldl_pending fun _ _ => State.jetResetOver_pending _ _ _

@[simp] theorem State.resetOver_inv {s : State} (hi : s.Inv) (e : Nat) (r : Reset) : (s.resetOver e r).Inv := by
  unfold State.resetOver; exact State.levelOver_inv (foldl_inv hi fun _ _ k => State.jetResetOver_inv k _ _) _ _

@[simp] theorem State.clearTallies_pending (s : State) (js : List Nat) : (s.clearTallies js).pending = s.pending := rfl

@[simp] theorem State.clearTallies_inv {s : State} (hi : s.Inv) (js : List Nat) : (s.clearTallies js).Inv := by
  simp [State.clearTallies, hi]

@[simp] theorem State.settleReset_pending (s : State) (e : Nat) : (s.settleReset e).pending = s.pending := by
  unfold State.settleReset; (try dsimp only); repeat' split
  all_goals first
    | rfl
    | (simp; done)
    | (refine (foldl_pending fun _ _ => ?_).trans ?_ <;> (try dsimp only) <;> (repeat' split) <;> first | rfl | simp)

@[simp] theorem State.settleReset_inv {s : State} (hi : s.Inv) (e : Nat) : (s.settleReset e).Inv := by
  unfold State.settleReset; (try dsimp only); (repeat' split) <;> simp (maxDischargeDepth := 12) [hi]

@[simp] theorem State.wellTaken_pending (s : State) (j : Nat) : (s.wellTaken j).pending = s.pending := by
  unfold State.wellTaken; dsimp only; repeat' split
  all_goals simp

@[simp] theorem State.wellTaken_inv {s : State} (hi : s.Inv) (j : Nat) : (s.wellTaken j).Inv := by
  unfold State.wellTaken; (try dsimp only); (repeat' split) <;> simp (maxDischargeDepth := 12) [hi]

end Sys2Proof.Machine
end

