-- ==== Sys2Proof/Laws/Faults.lean ====
section
/-! SUPPORT. What the operations of Machine/Faults.lean keep: the invariant of the block, and its queue of commands. -/

namespace Sys2Proof.Machine

@[simp] theorem Basin.setLink_queue (b : Basin) (d : Nat) (l : Link) : (b.setLink d l).queue = b.queue := by
  unfold Basin.setLink; split <;> rfl

/-- The boot state changes but for its temper record. -/

theorem State.Inv.boot_due {s : State} (hi : s.Inv) (b : Bool) :
    ({ s with boot := { s.boot with temperDue := b } } : State).Inv :=
  State.Inv.boot hi _ hi.temperJets_wf

@[simp] theorem State.faultRecord_pending (s : State) (c : FaultClass) (place index code arg0 arg1 : Nat) (alarm : Bool) : (s.faultRecord c place index code arg0 arg1 alarm).pending = s.pending := by
  simp [State.faultRecord]

@[simp] theorem State.faultRecord_inv {s : State} (hi : s.Inv) (c : FaultClass) (place index code arg0 arg1 : Nat) (alarm : Bool) : (s.faultRecord c place index code arg0 arg1 alarm).Inv := by
  simp [State.faultRecord, hi]

theorem Warden.unstage_exports (w : Warden) (j : Job) : (w.unstage j).exports = w.exports := by
  unfold Warden.unstage; dsimp only; (repeat' split) <;> rfl

@[simp] theorem State.workLost_pending (s : State) (j : Job) (jet cls : Nat) : (s.workLost j jet cls).pending = s.pending := by
  unfold State.workLost; dsimp only; (repeat' split) <;> simp

@[simp] theorem State.workLost_inv {s : State} (hi : s.Inv) (j : Job) (jet cls : Nat) : (s.workLost j jet cls).Inv := by
  unfold State.workLost
  dsimp only
  refine State.updJob_inv ?_ _ _ _
  repeat' split
  · exact State.updGroup_inv hi _ _
  · exact hi
  · exact State.Inv.warden hi _ (by rw [Warden.unstage_exports]; exact hi.exports_wf)
  · exact hi

@[simp] theorem State.detected_pending (s : State) (c : FaultClass) (place index : Nat) (work : Option (Nat × Word)) : (s.detected c place index work).pending = s.pending := by
  unfold State.detected
  extract_lets seq part t u
  have ht : t.pending = s.pending := State.emit_pending _
  have hu : u.pending = s.pending := by
    unfold u
    split
    · split
      · exact ht
      · split
        · rw [State.workLost_pending]; exact ht
        · exact (foldl_pending fun _ _ => State.endPart_pending _ _ _ _ _).trans ht
    · exact ht
  split <;> exact hu

@[simp] theorem State.detected_inv {s : State} (hi : s.Inv) (c : FaultClass) (place index : Nat) (work : Option (Nat × Word)) : (s.detected c place index work).Inv := by
  unfold State.detected
  extract_lets seq part t u
  have ht : t.Inv := State.emit_inv hi _
  have hu : u.Inv := by
    unfold u
    split
    · split
      · exact ht
      · split
        · exact State.workLost_inv ht _ _ _
        · exact foldl_inv ht fun _ _ k => State.endPart_inv k _ _ _ _
    · exact ht
  split
  · exact State.Inv.tests hu _
  · exact hu

@[simp] theorem State.failStations_pending (s : State) (e : Nat) (stations : List Nat) : (s.failStations e stations).pending = s.pending := by
  simp [State.failStations]

@[simp] theorem State.failStations_inv {s : State} (hi : s.Inv) (e : Nat) (stations : List Nat) : (s.failStations e stations).Inv := by
  simp [State.failStations, hi]

@[simp] theorem State.endParts_pending (s : State) (j cls : Nat) : (s.endParts j cls).pending = s.pending := by
  unfold State.endParts; exact foldl_pending fun _ _ => by split <;> simp

@[simp] theorem State.endParts_inv {s : State} (hi : s.Inv) (j cls : Nat) : (s.endParts j cls).Inv := by
  unfold State.endParts; exact foldl_inv hi fun _ _ k => by split <;> simp [k]

@[simp] theorem State.temperDue_pending (s : State) : (s.temperDue).pending = s.pending := rfl

@[simp] theorem State.temperDue_inv {s : State} (hi : s.Inv) : (s.temperDue).Inv := by
  unfold State.temperDue; apply State.Inv.mk' <;> simp [hi]

@[simp] theorem State.failJet_pending (s : State) (e : Nat) (c : FaultClass) : (s.failJet e c).pending = s.pending := by
  unfold State.failJet
  extract_lets js t fails u
  have ht : t.pending = s.pending := by unfold t; simp
  have hu : u.pending = s.pending :=
    (foldl_pending fun v j => by unfold fails; rw [State.endParts_pending, State.updJet_pending]; split <;> simp).trans ht
  split
  · rw [State.settleOwners_pending]
    exact (foldl_pending fun _ _ => State.failStations_pending _ _ _).trans hu
  · exact hu

@[simp] theorem State.failJet_inv {s : State} (hi : s.Inv) (e : Nat) (c : FaultClass) : (s.failJet e c).Inv := by
  unfold State.failJet
  extract_lets js t fails u
  have ht : t.Inv := State.temperDue_inv (State.emit_inv (State.failStations_inv (State.updJet_inv hi _ _) _ _) _)
  have hu : u.Inv := foldl_inv ht fun v j k => State.endParts_inv (State.updJet_inv (by split <;> simp [k]) _ _) _ _
  split
  · exact State.settleOwners_inv (foldl_inv hu fun _ _ k => State.failStations_inv k _ _)
  · exact hu

@[simp] theorem State.condemn_pending (s : State) (e : Nat) (c : FaultClass) : (s.condemn e c).pending = s.pending := by
  unfold State.condemn; (repeat' split) <;> simp

@[simp] theorem State.condemn_inv {s : State} (hi : s.Inv) (e : Nat) (c : FaultClass) : (s.condemn e c).Inv := by
  unfold State.condemn; (try dsimp only); (repeat' split) <;> simp (maxDischargeDepth := 12) [hi]

@[simp] theorem State.spareIn_pending (s : State) (c : FaultClass) (place index left : Nat) : (s.spareIn c place index left).pending = s.pending := by
  simp [State.spareIn]

@[simp] theorem State.spareIn_inv {s : State} (hi : s.Inv) (c : FaultClass) (place index left : Nat) : (s.spareIn c place index left).Inv := by
  simp [State.spareIn, hi]

@[simp] theorem State.withdraw_pending (s : State) (basin direction : Nat) : (s.withdraw basin direction).pending = s.pending := rfl

@[simp] theorem State.withdraw_inv {s : State} (hi : s.Inv) (basin direction : Nat) : (s.withdraw basin direction).Inv := by
  unfold State.withdraw
  extract_lets other
  exact State.updBasin_inv (State.updBasin_inv hi _ _ fun _ => by simp) _ _ fun _ => by simp

@[simp] theorem State.laneLost_pending (s : State) (basin index : Nat) : (s.laneLost basin index).pending = s.pending := by
  unfold State.laneLost; dsimp only; repeat' split
  all_goals simp

@[simp] theorem State.laneLost_inv {s : State} (hi : s.Inv) (basin index : Nat) : (s.laneLost basin index).Inv := by
  unfold State.laneLost; (try dsimp only); (repeat' split) <;> simp (maxDischargeDepth := 12) [hi]

@[simp] theorem State.bankRetired_pending (s : State) (basin index : Nat) : (s.bankRetired basin index).pending = s.pending := by
  unfold State.bankRetired
  extract_lets n t u
  split
  · rw [State.faultRecord_pending]
    exact foldl_pending fun _ _ => State.failStations_pending _ _ _
  · rfl

@[simp] theorem State.bankRetired_inv {s : State} (hi : s.Inv) (basin index : Nat) : (s.bankRetired basin index).Inv := by
  unfold State.bankRetired
  dsimp only
  have hu := State.Inv.boot_due (State.updBasin_inv hi basin (fun b => { b with banks := (s.basin basin).banks - 1 }) fun _ => rfl) true
  split
  · exact State.faultRecord_inv (foldl_inv hu fun _ _ k => State.failStations_inv k _ _) _ _ _ _ _ _ _
  · exact hu

@[simp] theorem State.wellBankLost_pending (s : State) (j bank : Nat) : (s.wellBankLost j bank).pending = s.pending := by
  unfold State.wellBankLost
  extract_lets t
  have ht : t.pending = s.pending := foldl_pending fun _ _ => State.endPart_pending _ _ _ _ _
  split
  · rw [State.updWell_pending]; split <;> simp [ht]
  · simp [ht]

@[simp] theorem State.wellBankLost_inv {s : State} (hi : s.Inv) (j bank : Nat) : (s.wellBankLost j bank).Inv := by
  unfold State.wellBankLost; (try dsimp only); (repeat' split) <;> simp +contextual (maxDischargeDepth := 12) [foldl_inv, hi]

@[simp] theorem State.remedy_pending (s : State) (c : FaultClass) (place index e : Nat) : (s.remedy c place index e).pending = s.pending := by
  unfold State.remedy; dsimp only; repeat' split
  all_goals simp

@[simp] theorem State.remedy_inv {s : State} (hi : s.Inv) (c : FaultClass) (place index e : Nat) : (s.remedy c place index e).Inv := by
  unfold State.remedy; (try dsimp only); (repeat' split) <;> simp (maxDischargeDepth := 12) [hi]

@[simp] theorem State.putCopies_pending (s : State) (ofWarden : Bool) (c : Copies) : (s.putCopies ofWarden c).pending = s.pending := by
  unfold State.putCopies; split <;> rfl

@[simp] theorem State.putCopies_inv {s : State} (hi : s.Inv) (ofWarden : Bool) (c : Copies) : (s.putCopies ofWarden c).Inv := by
  unfold State.putCopies; split
  · exact State.Inv.wardenCopies hi _
  · exact State.Inv.pourCopies hi _

@[simp] theorem State.copyError_pending (s : State) (ofWarden : Bool) (copy : Nat) : (s.copyError ofWarden copy).pending = s.pending := by
  unfold State.copyError; dsimp only; split <;> simp

@[simp] theorem State.copyError_inv {s : State} (hi : s.Inv) (ofWarden : Bool) (copy : Nat) : (s.copyError ofWarden copy).Inv := by
  unfold State.copyError
  dsimp only
  have hu := State.putCopies_inv (State.emitIf_inv (State.emit_inv hi
    { cls := 1, code := 0x80, arg0 := classCode (copyOf ofWarden), arg1 := 0xFFFFFFFF }) (!ofWarden)
    { cls := 0, code := 0x23, arg0 := copy }) ofWarden ((s.copies ofWarden).disagree copy)
  split
  · exact hu
  · exact State.Inv.tests hu _

@[simp] theorem State.corrected_pending (s : State) (c : FaultClass) (place index : Nat) : (s.corrected c place index).pending = s.pending := by
  unfold State.corrected; dsimp only; repeat' split
  all_goals simp

@[simp] theorem State.corrected_inv {s : State} (hi : s.Inv) (c : FaultClass) (place index : Nat) : (s.corrected c place index).Inv := by
  unfold State.corrected; (try dsimp only); (repeat' split) <;> simp (maxDischargeDepth := 12) [hi]

@[simp] theorem State.faultCntClear_pending (s : State) (part jet : Nat) (_value : Word) : (s.faultCntClear part jet _value).pending = s.pending := by
  unfold State.faultCntClear; (repeat' split) <;> simp

@[simp] theorem State.faultCntClear_inv {s : State} (hi : s.Inv) (part jet : Nat) (_value : Word) : (s.faultCntClear part jet _value).Inv := by
  unfold State.faultCntClear; (repeat' split) <;> simp [hi]

@[simp] theorem State.replanBasin_pending (s : State) (b : Nat) (gauges : List (List Nat)) (eye : Nat) : (s.replanBasin b gauges eye).pending = s.pending := by
  unfold State.replanBasin; dsimp only; repeat' split
  all_goals simp

@[simp] theorem State.replanBasin_inv {s : State} (hi : s.Inv) (b : Nat) (gauges : List (List Nat)) (eye : Nat) : (s.replanBasin b gauges eye).Inv := by
  unfold State.replanBasin
  extract_lets js m t low v v' fresh u w
  split
  · exact hi
  · have ht : t.Inv := State.updJets_inv hi _ _
    have hu : u.Inv := State.updJets_inv (State.updBasin_inv ht _ _ (by intro _; rfl)) _ _
    have hw : w.Inv := State.emitAll_inv (State.emit_inv hu _) _
    split
    · exact State.Inv.boot hw _ hw.temperJets_wf
    · exact hw

end Sys2Proof.Machine
end

