-- ==== Sys2Proof/Laws/Tiles.lean ====
section
/-! SUPPORT. What the operations of Machine/Tiles.lean keep: the invariant of the block, and its queue of commands. -/

namespace Sys2Proof.Machine

theorem State.pending_answered {s t : State} {f : Request → Bool} {r : Request} (h : s.answered f = some (r, t)) :
    t.pending = s.pending := by
  unfold State.answered at h
  simp only [Option.map_eq_some_iff, Prod.mk.injEq] at h
  obtain ⟨x, _, _, rfl⟩ := h
  rfl

theorem State.inv_answered {s t : State} (hi : s.Inv) {f : Request → Bool} {r : Request} (h : s.answered f = some (r, t)) :
    t.Inv := by
  unfold State.answered at h
  simp only [Option.map_eq_some_iff, Prod.mk.injEq] at h
  obtain ⟨x, _, _, rfl⟩ := h
  exact State.Inv.reqs hi _

@[simp] theorem State.tileBegins_pending (s : State) (j : Job) (p : Part) : (s.tileBegins j p).pending = s.pending := by
  unfold State.tileBegins; (repeat' split) <;> simp

@[simp] theorem State.tileBegins_inv {s : State} (hi : s.Inv) (j : Job) (p : Part) : (s.tileBegins j p).Inv := by
  unfold State.tileBegins; (repeat' split) <;> simp [hi]

@[simp] theorem State.tileEnds_pending (s : State) (j : Job) (p : Part) (t : Tile) : (s.tileEnds j p t).pending = s.pending := by
  unfold State.tileEnds; (repeat' split) <;> simp

@[simp] theorem State.tileEnds_inv {s : State} (hi : s.Inv) (j : Job) (p : Part) (t : Tile) : (s.tileEnds j p t).Inv := by
  unfold State.tileEnds; (repeat' split) <;> simp [hi]

/-- The state without an answered request keeps the queue of commands and the invariant. -/

theorem State.answered_keeps {s : State} {f : Request → Bool} {x : Request × State} (h : s.answered f = some x) :
    x.2.pending = s.pending ∧ (s.Inv → x.2.Inv) := by
  unfold State.answered at h
  obtain ⟨y, _, rfl⟩ := Option.map_eq_some_iff.1 h
  exact ⟨rfl, fun hi => State.Inv.reqs hi _⟩

@[simp] theorem State.useStep_pending (s : State) (jet : Nat) : (s.useStep jet).pending = s.pending := by
  unfold State.useStep; (try dsimp only); (repeat' split) <;> simp

@[simp] theorem State.useStep_inv {s : State} (hi : s.Inv) (jet : Nat) : (s.useStep jet).Inv := by
  unfold State.useStep; (try dsimp only); (repeat' split) <;> simp (maxDischargeDepth := 12) [hi]

@[simp] theorem State.undo_pending (s : State) (r : Request) : (s.undo r).pending = s.pending := rfl

@[simp] theorem State.undo_inv {s : State} (hi : s.Inv) (r : Request) : (s.undo r).Inv := by
  unfold State.undo; apply State.Inv.mk' <;> simp [hi]

@[simp] theorem State.operandLost_pending (s : State) (j : Job) (jet : Option Nat) (place : Nat) : (s.operandLost j jet place).pending = s.pending := by
  simp [State.operandLost]

@[simp] theorem State.operandLost_inv {s : State} (hi : s.Inv) (j : Job) (jet : Option Nat) (place : Nat) : (s.operandLost j jet place).Inv := by
  simp [State.operandLost, hi]

@[simp] theorem State.fabricFault_pending (s : State) (ring : Nat) (seq : Word) (basin jet : Nat) : (s.fabricFault ring seq basin jet).pending = s.pending := by
  simp [State.fabricFault]

@[simp] theorem State.fabricFault_inv {s : State} (hi : s.Inv) (ring : Nat) (seq : Word) (basin jet : Nat) : (s.fabricFault ring seq basin jet).Inv := by
  simp [State.fabricFault, hi]

@[simp] theorem State.readLost_pending (s : State) (j : Job) (stack : Bool) (place : Nat) : (s.readLost j stack place).pending = s.pending := by
  unfold State.readLost; (try dsimp only); (repeat' split) <;> simp

@[simp] theorem State.readLost_inv {s : State} (hi : s.Inv) (j : Job) (stack : Bool) (place : Nat) : (s.readLost j stack place).Inv := by
  unfold State.readLost; (try dsimp only); (repeat' split) <;> simp (maxDischargeDepth := 12) [hi]

@[simp] theorem State.operandAnswer_pending (s : State) (stack : Bool) (place ring : Nat) (seq : Word) (bad : Bool) : (s.operandAnswer stack place ring seq bad).pending = s.pending := by
  unfold State.operandAnswer
  split
  · rfl
  · split
    · rfl
    · split
      · rename_i h
        split
        · rw [State.readLost_pending]; exact State.pending_answered h
        · exact State.pending_answered h
      · repeat' split
        all_goals simp

@[simp] theorem State.operandAnswer_inv {s : State} (hi : s.Inv) (stack : Bool) (place ring : Nat) (seq : Word) (bad : Bool) : (s.operandAnswer stack place ring seq bad).Inv := by
  unfold State.operandAnswer
  split
  · exact hi
  · split
    · exact hi
    · split
      · rename_i h
        split
        · exact State.readLost_inv (State.inv_answered hi h) _ _ _
        · exact State.inv_answered hi h
      · repeat' split
        all_goals simp [hi]

@[simp] theorem State.storeLost_pending (s : State) (ring : Nat) (seq : Word) (jet : Nat) : (s.storeLost ring seq jet).pending = s.pending := by
  simp [State.storeLost]

@[simp] theorem State.storeLost_inv {s : State} (hi : s.Inv) (ring : Nat) (seq : Word) (jet : Nat) : (s.storeLost ring seq jet).Inv := by
  simp [State.storeLost, hi]

@[simp] theorem State.storeAnswer_pending (s : State) (stack : Bool) (place ring : Nat) (seq : Word) (bad : Bool) : (s.storeAnswer stack place ring seq bad).pending = s.pending := by
  unfold State.storeAnswer
  split
  · rfl
  · rename_i h
    have k := (State.answered_keeps h).1
    dsimp only at k ⊢
    rw [State.sweepJobs_pending]
    repeat' split
    all_goals simp [k]

@[simp] theorem State.storeAnswer_inv {s : State} (hi : s.Inv) (stack : Bool) (place ring : Nat) (seq : Word) (bad : Bool) : (s.storeAnswer stack place ring seq bad).Inv := by
  unfold State.storeAnswer
  split
  · exact hi
  · rename_i h
    have k := (State.answered_keeps h).2 hi
    dsimp only at k ⊢
    refine State.sweepJobs_inv ?_
    repeat' split
    all_goals simp [k]

@[simp] theorem State.catchUpLost_pending (s : State) (r : Request) (shard group channel : Nat) : (s.catchUpLost r shard group channel).pending = s.pending := by
  simp [State.catchUpLost]

@[simp] theorem State.catchUpLost_inv {s : State} (hi : s.Inv) (r : Request) (shard group channel : Nat) : (s.catchUpLost r shard group channel).Inv := by
  unfold State.catchUpLost; (try dsimp only); (repeat' split) <;> simp (maxDischargeDepth := 12) [hi]

@[simp] theorem State.stackAnswer_pending (s : State) (jet : Nat) (request : RequestFor) (bad : Bool) : (s.stackAnswer jet request bad).pending = s.pending := by
  unfold State.stackAnswer
  repeat' split
  all_goals first
    | rfl
    | (simp; done)
    | (rename_i h _; simp [State.pending_answered h]; done)
    | (rename_i h; simp [State.pending_answered h]; done)
    | (rename_i h _; exact State.pending_answered h)

@[simp] theorem State.stackAnswer_inv {s : State} (hi : s.Inv) (jet : Nat) (request : RequestFor) (bad : Bool) : (s.stackAnswer jet request bad).Inv := by
  unfold State.stackAnswer
  repeat' split
  all_goals first
    | exact hi
    | (simp [hi]; done)
    | (rename_i h _; exact State.catchUpLost_inv (State.inv_answered hi h) _ _ _ _)
    | (rename_i h _; exact State.inv_answered hi h)

@[simp] theorem State.fabricAnswer_pending (s : State) (basin : Nat) (request : RequestFor) (bad : Bool) : (s.fabricAnswer basin request bad).pending = s.pending := by
  unfold State.fabricAnswer
  dsimp only
  repeat' split
  all_goals first
    | rfl
    | (simp; done)
    | (rename_i h _; simp [State.pending_answered h]; done)

@[simp] theorem State.fabricAnswer_inv {s : State} (hi : s.Inv) (basin : Nat) (request : RequestFor) (bad : Bool) : (s.fabricAnswer basin request bad).Inv := by
  unfold State.fabricAnswer
  dsimp only
  repeat' split
  all_goals first
    | exact hi
    | (simp [hi]; done)
    | (rename_i h _; have k := State.inv_answered hi h; simp [k]; done)

@[simp] theorem State.lateAnswer_pending (s : State) (stack : Bool) (place : Nat) (request : RequestFor) : (s.lateAnswer stack place request).pending = s.pending := by
  unfold State.lateAnswer; (repeat' split) <;> simp

@[simp] theorem State.lateAnswer_inv {s : State} (hi : s.Inv) (stack : Bool) (place : Nat) (request : RequestFor) : (s.lateAnswer stack place request).Inv := by
  unfold State.lateAnswer; (try dsimp only); repeat' split
  all_goals first
    | exact hi
    | (simp (maxDischargeDepth := 12) [hi]; done)
    | (refine foldl_inv ?_ fun _ _ k => ?_ <;> (try dsimp only) <;> (repeat' split) <;> first
        | assumption
        | (simp (maxDischargeDepth := 12) [*]; done))
    | (apply State.Inv.mk' <;> simp [hi])

@[simp] theorem State.starve_pending (s : State) (j : Job) (p : Part) : (s.starve j p).pending = s.pending := by
  unfold State.starve; (try dsimp only); (repeat' split) <;> simp

@[simp] theorem State.starve_inv {s : State} (hi : s.Inv) (j : Job) (p : Part) : (s.starve j p).Inv := by
  unfold State.starve; (try dsimp only); (repeat' split) <;> simp (maxDischargeDepth := 12) [hi]

@[simp] theorem State.loseAnswers_pending (s : State) : (s.loseAnswers).pending = s.pending := by
  unfold State.loseAnswers
  exact (foldl_pending fun _ _ => State.starve_pending _ _ _).trans ((foldl_pending fun _ _ => by split <;> simp).trans
    (foldl_pending fun _ _ => by split <;> simp))

@[simp] theorem State.loseAnswers_inv {s : State} (hi : s.Inv) : (s.loseAnswers).Inv := by
  unfold State.loseAnswers
  exact foldl_inv (foldl_inv (foldl_inv (State.Inv.clocks hi _) fun _ _ k => by split <;> simp [k]) fun _ _ k => by
    split <;> simp [k]) fun _ _ k => State.starve_inv k _ _

end Sys2Proof.Machine
end

