-- ==== Sys2Proof/Laws/Wellspring.lean ====
section
/-! SUPPORT. What the operations of Machine/Wellspring.lean keep: the invariant of the block, and its queue of commands. -/

namespace Sys2Proof.Machine

@[simp] theorem State.putRow_pending (s : State) (jet bank row o : Nat) (bs : List Byte) : (s.putRow jet bank row o bs).pending = s.pending := rfl

@[simp] theorem State.putRow_inv {s : State} (hi : s.Inv) (jet bank row o : Nat) (bs : List Byte) : (s.putRow jet bank row o bs).Inv := by
  simp [State.putRow, hi]

@[simp] theorem State.wordOn_pending (s : State) (jet w bank : Nat) : (s.wordOn jet w bank).pending = s.pending := by
  unfold State.wordOn; (try dsimp only); repeat' split
  all_goals first
    | rfl
    | (simp; done)
    | (refine (foldl_pending fun _ _ => ?_).trans ?_ <;> (try dsimp only) <;> (repeat' split) <;> first | rfl | simp)

@[simp] theorem State.wordOn_inv {s : State} (hi : s.Inv) (jet w bank : Nat) : (s.wordOn jet w bank).Inv := by
  unfold State.wordOn
  dsimp only
  split <;> first
    | exact State.putRow_inv hi _ _ _ _ _
    | exact State.updWell_inv hi _ _
    | exact hi

@[simp] theorem State.rillWord_pending (s : State) (jet w : Nat) (banks : List Nat) : (s.rillWord jet w banks).pending = s.pending := by
  unfold State.rillWord; (try dsimp only); repeat' split
  all_goals first
    | rfl
    | (simp; done)
    | (refine (foldl_pending fun _ _ => ?_).trans ?_ <;> (try dsimp only) <;> (repeat' split) <;> first | rfl | simp)

@[simp] theorem State.rillWord_inv {s : State} (hi : s.Inv) (jet w : Nat) (banks : List Nat) : (s.rillWord jet w banks).Inv := by
  unfold State.rillWord
  split
  · exact State.updWell_inv hi _ _
  · exact foldl_inv hi fun _ _ k => State.wordOn_inv k _ _ _

@[simp] theorem State.writeReplica_pending (s : State) (j : Job) (jet row vec phase plane : Nat) : (s.writeReplica j jet row vec phase plane).pending = s.pending := rfl

@[simp] theorem State.writeReplica_inv {s : State} (hi : s.Inv) (j : Job) (jet row vec phase plane : Nat) : (s.writeReplica j jet row vec phase plane).Inv := by
  unfold State.writeReplica
  exact State.putRow_inv hi _ _ _ _ _

@[simp] theorem State.productWord_pending (s : State) (j : Job) (jet : Nat) (groups k b c : Nat) : (s.productWord j jet groups k b c).pending = s.pending := by
  unfold State.productWord
  refine foldl_pending fun t x => ?_
  dsimp only
  split <;> rfl

@[simp] theorem State.productWord_inv {s : State} (hi : s.Inv) (j : Job) (jet : Nat) (groups k b c : Nat) : (s.productWord j jet groups k b c).Inv := by
  unfold State.productWord
  refine foldl_inv hi fun t x k => ?_
  dsimp only
  split
  · exact State.updWell_inv k _ _
  · exact k

@[simp] theorem State.wordEffect_pending (s : State) (j : Job) (jet : Nat) (r : Rill) (o : RillOp) : (s.wordEffect j jet r o).pending = s.pending := by
  unfold State.wordEffect
  split
  · split
    · exact State.rillWord_pending _ _ _ _
    · rfl
  · exact State.writeReplica_pending _ _ _ _ _ _ _
  · exact State.productWord_pending _ _ _ _ _ _ _

@[simp] theorem State.wordEffect_inv {s : State} (hi : s.Inv) (j : Job) (jet : Nat) (r : Rill) (o : RillOp) : (s.wordEffect j jet r o).Inv := by
  unfold State.wordEffect
  split
  · split
    · exact State.rillWord_inv hi _ _ _
    · exact hi
  · exact State.writeReplica_inv hi _ _ _ _ _ _
  · exact State.productWord_inv hi _ _ _ _ _ _

@[simp] theorem State.countWord_pending (s : State) (r : Rill) (jet : Nat) (o : RillOp) : (s.countWord r jet o).pending = s.pending := by
  unfold State.countWord; (try dsimp only); repeat' split
  all_goals first
    | rfl
    | (simp; done)
    | (refine (foldl_pending fun _ _ => ?_).trans ?_ <;> (try dsimp only) <;> (repeat' split) <;> first | rfl | simp)

@[simp] theorem State.countWord_inv {s : State} (hi : s.Inv) (r : Rill) (jet : Nat) (o : RillOp) : (s.countWord r jet o).Inv := by
  unfold State.countWord; (try dsimp only); (repeat' split) <;> simp (maxDischargeDepth := 12) [hi]

@[simp] theorem State.rillStep_pending (s : State) (jet : Nat) : (s.rillStep jet).pending = s.pending := by
  unfold State.rillStep
  dsimp only
  (repeat' split) <;> simp

@[simp] theorem State.rillStep_inv {s : State} (hi : s.Inv) (jet : Nat) : (s.rillStep jet).Inv := by
  unfold State.rillStep
  dsimp only
  (repeat' split) <;> simp (maxDischargeDepth := 12) [hi]

@[simp] theorem State.checkFails_pending (s : State) (jet key : Nat) (e : RegionEntry) (slot bank row : Nat) : (s.checkFails jet key e slot bank row).pending = s.pending := by
  simp [State.checkFails]

@[simp] theorem State.checkFails_inv {s : State} (hi : s.Inv) (jet key : Nat) (e : RegionEntry) (slot bank row : Nat) : (s.checkFails jet key e slot bank row).Inv := by
  unfold State.checkFails; (try dsimp only); repeat' split
  all_goals first
    | (simp [hi]; done)
    | (refine State.Inv.tests ?_ _ <;> simp [hi])
    | (refine State.Inv.tests ?_ _ ?_ <;> simp [hi])

@[simp] theorem State.writeOutputs_pending (s : State) (j : Job) (g : GemvSetup) (p : Part) (vec : Nat) (rows : List Nat) : (s.writeOutputs j g p vec rows).pending = s.pending := by
  unfold State.writeOutputs; exact foldl_pending fun _ _ => by simp

@[simp] theorem State.writeOutputs_inv {s : State} (hi : s.Inv) (j : Job) (g : GemvSetup) (p : Part) (vec : Nat) (rows : List Nat) : (s.writeOutputs j g p vec rows).Inv := by
  unfold State.writeOutputs; exact foldl_inv hi fun _ _ k => by simp [k]

@[simp] theorem State.epilogue_pending (s : State) (j : Job) (g : GemvSetup) (p : Part) (dr : Drain) : (s.epilogue j g p dr).pending = s.pending := by
  unfold State.epilogue; dsimp only; (repeat' split) <;> simp

@[simp] theorem State.epilogue_inv {s : State} (hi : s.Inv) (j : Job) (g : GemvSetup) (p : Part) (dr : Drain) : (s.epilogue j g p dr).Inv := by
  unfold State.epilogue; (try dsimp only); (repeat' split) <;> simp (maxDischargeDepth := 12) [hi]

@[simp] theorem State.drainStep_pending (s : State) (jet : Nat) : (s.drainStep jet).pending = s.pending := by
  unfold State.drainStep
  split
  · rfl
  · split
    · rfl
    · split
      · rfl
      · split
        · rfl
        · dsimp only
          rw [State.epilogue_pending]
          split
          · rfl
          · rw [State.freeTallies_pending]; rfl

@[simp] theorem State.drainStep_inv {s : State} (hi : s.Inv) (jet : Nat) : (s.drainStep jet).Inv := by
  unfold State.drainStep
  split
  · exact hi
  · split
    · exact hi
    · split
      · exact hi
      · split
        · exact hi
        · dsimp only
          refine State.epilogue_inv ?_ _ _ _ _
          split
          · exact State.updJob_inv (State.updWell_inv hi _ _) _ _ _
          · exact State.freeTallies_inv (State.updJob_inv (State.updWell_inv hi _ _) _ _ _) _

@[simp] theorem State.finishStep_pending (s : State) (jet : Nat) : (s.finishStep jet).pending = s.pending := by
  unfold State.finishStep; split <;> simp

@[simp] theorem State.finishStep_inv {s : State} (hi : s.Inv) (jet : Nat) : (s.finishStep jet).Inv := by
  unfold State.finishStep; split <;> simp [hi]

theorem State.finishSteps_pending (jet n : Nat) (s : State) : (State.finishSteps jet n s).pending = s.pending := by
  induction n generalizing s with
  | zero => rfl
  | succ n ih => rw [State.finishSteps, ih, State.finishStep_pending]

theorem State.finishSteps_inv (jet n : Nat) {s : State} (hi : s.Inv) : (State.finishSteps jet n s).Inv := by
  induction n generalizing s with
  | zero => exact hi
  | succ n ih => exact ih (State.finishStep_inv hi jet)

@[simp] theorem State.finishRill_pending (s : State) (jet : Nat) : (s.finishRill jet).pending = s.pending := by
  unfold State.finishRill
  exact State.finishSteps_pending _ _ _

@[simp] theorem State.finishRill_inv {s : State} (hi : s.Inv) (jet : Nat) : (s.finishRill jet).Inv := by
  unfold State.finishRill
  exact State.finishSteps_inv _ _ (State.updWell_inv hi _ _)

@[simp] theorem State.patrolSlot_pending (s : State) (jet row : Nat) (x : Nat × RegionEntry × Nat) : (s.patrolSlot jet row x).pending = s.pending := by
  unfold State.patrolSlot; (try dsimp only); repeat' split
  all_goals first
    | rfl
    | (simp; done)
    | (refine (foldl_pending fun _ _ => ?_).trans ?_ <;> (try dsimp only) <;> (repeat' split) <;> first | rfl | simp)

@[simp] theorem State.patrolSlot_inv {s : State} (hi : s.Inv) (jet row : Nat) (x : Nat × RegionEntry × Nat) : (s.patrolSlot jet row x).Inv := by
  unfold State.patrolSlot; (try dsimp only); (repeat' split) <;> simp (maxDischargeDepth := 12) [hi]

@[simp] theorem State.loseParts_pending (s : State) (jet : Nat) (l : List (Nat × Nat)) : (s.loseParts jet l).pending = s.pending := by
  unfold State.loseParts
  exact foldl_pending fun _ _ => rfl

@[simp] theorem State.loseParts_inv {s : State} (hi : s.Inv) (jet : Nat) (l : List (Nat × Nat)) : (s.loseParts jet l).Inv := by
  unfold State.loseParts
  exact foldl_inv hi fun _ _ k => State.draw_inv (State.write_inv k _ _) _

@[simp] theorem State.loseRows_pending (s : State) (jet bank : Nat) : (s.loseRows jet bank).pending = s.pending := by
  unfold State.loseRows
  refine foldl_pending fun t x => ?_
  refine foldl_pending fun u k => ?_
  rw [State.loseParts_pending]

@[simp] theorem State.loseRows_inv {s : State} (hi : s.Inv) (jet bank : Nat) : (s.loseRows jet bank).Inv := by
  unfold State.loseRows
  exact foldl_inv hi fun _ _ k => foldl_inv k fun _ _ q => State.loseParts_inv q _ _

end Sys2Proof.Machine
end

