-- ==== Sys2Proof/Laws/Complete.lean ====
section
/-! SUPPORT. What the operations of Machine/Complete.lean keep: the invariant of the block, and its queue of commands. -/

namespace Sys2Proof.Machine

@[simp] theorem State.homeStore_pending (s : State) (j : Job) : (s.homeStore j).pending = s.pending := rfl

@[simp] theorem State.homeStore_inv {s : State} (hi : s.Inv) (j : Job) : (s.homeStore j).Inv := by
  simp [State.homeStore, hi]

@[simp] theorem State.writeReductions_pending (s : State) (j : Job) : (s.writeReductions j).pending = s.pending := by
  unfold State.writeReductions; (try dsimp only); repeat' split
  all_goals first
    | rfl
    | (simp; done)
    | (refine (foldl_pending fun _ _ => ?_).trans ?_ <;> (try dsimp only) <;> (repeat' split) <;> first | rfl | simp)

@[simp] theorem State.writeReductions_inv {s : State} (hi : s.Inv) (j : Job) : (s.writeReductions j).Inv := by
  unfold State.writeReductions
  extract_lets rs ps
  split
  · exact hi
  · refine State.homeStore_inv (foldl_inv hi fun t x k => ?_) _
    dsimp only
    split
    · exact State.writeRegion_inv k _ _ _ _ _
    · exact k

@[simp] theorem State.mendPlane_pending (s : State) (j : Job) : (s.mendPlane j).pending = s.pending := by
  unfold State.mendPlane; split <;> simp

@[simp] theorem State.mendPlane_inv {s : State} (hi : s.Inv) (j : Job) : (s.mendPlane j).Inv := by
  unfold State.mendPlane; (try dsimp only); (repeat' split) <;> simp (maxDischargeDepth := 12) [hi]

@[simp] theorem State.partsLeave_pending (s : State) (j : Job) (st : Status) : (s.partsLeave j st).pending = s.pending := by
  unfold State.partsLeave; dsimp only; (repeat' split) <;> simp

@[simp] theorem State.partsLeave_inv {s : State} (hi : s.Inv) (j : Job) (st : Status) : (s.partsLeave j st).Inv := by
  unfold State.partsLeave; (try dsimp only); (repeat' split) <;> simp (maxDischargeDepth := 12) [hi]

@[simp] theorem State.finishJob_pending (s : State) (j : Job) (x : Status × Nat × Nat) : (s.finishJob j x).pending = s.pending := by
  unfold State.finishJob; split <;> simp

@[simp] theorem State.finishJob_inv {s : State} (hi : s.Inv) (j : Job) (x : Status × Nat × Nat) : (s.finishJob j x).Inv := by
  unfold State.finishJob; (try dsimp only); (repeat' split) <;> simp (maxDischargeDepth := 12) [hi]

end Sys2Proof.Machine
end

