-- ==== Sys2Proof/Laws/Reports.lean ====
section
/-! SUPPORT. What the operations of Machine/Reports.lean keep: the invariant of the block, and its queue of commands. -/

namespace Sys2Proof.Machine

@[simp] theorem State.endEpisode_pending (s : State) (b : Nat) : (s.endEpisode b).pending = s.pending := by
  unfold State.endEpisode; dsimp only; repeat' split
  all_goals simp

@[simp] theorem State.endEpisode_inv {s : State} (hi : s.Inv) (b : Nat) : (s.endEpisode b).Inv := by
  unfold State.endEpisode; (try dsimp only); (repeat' split) <;> simp (maxDischargeDepth := 12) [hi]

@[simp] theorem State.writeLog_pending (s : State) (b : Nat) (r : Queued) : (s.writeLog b r).pending = s.pending := by
  unfold State.writeLog; dsimp only; repeat' split
  all_goals simp

@[simp] theorem State.writeLog_inv {s : State} (hi : s.Inv) (b : Nat) (r : Queued) : (s.writeLog b r).Inv := by
  unfold State.writeLog; (try dsimp only); (repeat' split) <;> simp (maxDischargeDepth := 12) [hi]

@[simp] theorem State.censusLogWrite_pending (s : State) (part log : Nat) (value : Word) : (s.censusLogWrite part log value).pending = s.pending := by
  unfold State.censusLogWrite; (repeat' split) <;> simp

@[simp] theorem State.censusLogWrite_inv {s : State} (hi : s.Inv) (part log : Nat) (value : Word) : (s.censusLogWrite part log value).Inv := by
  unfold State.censusLogWrite
  split
  · exact hi
  · have h := logsWf_upd hi.censusLogs_wf log (·.withWord value.toNat)
    apply State.Inv.mk'
    case h11 => exact h
    all_goals simp [hi]

@[simp] theorem State.sluiceLogWrite_pending (s : State) (part : Nat) (value : Word) : (s.sluiceLogWrite part value).pending = s.pending := by
  unfold State.sluiceLogWrite; (repeat' split) <;> simp

@[simp] theorem State.sluiceLogWrite_inv {s : State} (hi : s.Inv) (part : Nat) (value : Word) : (s.sluiceLogWrite part value).Inv := by
  unfold State.sluiceLogWrite; (try dsimp only); repeat' split
  all_goals first
    | exact hi
    | (simp (maxDischargeDepth := 12) [hi]; done)
    | (refine foldl_inv ?_ fun _ _ k => ?_ <;> (try dsimp only) <;> (repeat' split) <;> first
        | assumption
        | (simp (maxDischargeDepth := 12) [*]; done))
    | (apply State.Inv.mk' <;> simp [hi])

@[simp] theorem State.clrDrops_pending (s : State) (part : Nat) (value : Word) : (s.clrDrops part value).pending = s.pending := by
  unfold State.clrDrops; (repeat' split) <;> simp

@[simp] theorem State.clrDrops_inv {s : State} (hi : s.Inv) (part : Nat) (value : Word) : (s.clrDrops part value).Inv := by
  unfold State.clrDrops; (try dsimp only); repeat' split
  all_goals first
    | exact hi
    | (simp (maxDischargeDepth := 12) [hi]; done)
    | (refine foldl_inv ?_ fun _ _ k => ?_ <;> (try dsimp only) <;> (repeat' split) <;> first
        | assumption
        | (simp (maxDischargeDepth := 12) [*]; done))
    | (apply State.Inv.mk' <;> simp [hi])

@[simp] theorem State.alarmPop_pending (s : State) (part : Nat) (value : Word) : (s.alarmPop part value).pending = s.pending := by
  unfold State.alarmPop; (repeat' split) <;> simp

@[simp] theorem State.alarmPop_inv {s : State} (hi : s.Inv) (part : Nat) (value : Word) : (s.alarmPop part value).Inv := by
  unfold State.alarmPop
  split
  · exact hi
  · exact State.updOwn_inv (State.Inv.sluice hi _ (alarmsFit_tail hi.alarms)) ..

end Sys2Proof.Machine
end

