-- ==== Sys2Proof/Laws/Registers.lean ====
section
/-! SUPPORT. What the operations of Machine/Registers.lean keep: the invariant of the block, and its queue of commands. -/

namespace Sys2Proof.Machine

@[simp] theorem State.ranged_pending (s : State) (m : RangeMsg) : (s.ranged m).pending = s.pending := rfl

@[simp] theorem State.ranged_inv {s : State} (hi : s.Inv) (m : RangeMsg) : (s.ranged m).Inv := by
  unfold State.ranged; apply State.Inv.mk' <;> simp [hi]

@[simp] theorem State.install_pending (s : State) (key : Nat) (e : RegionEntry) : (s.install key e).pending = s.pending := by
  unfold State.install; dsimp only; repeat' split
  all_goals simp

@[simp] theorem State.install_inv {s : State} (hi : s.Inv) (key : Nat) (e : RegionEntry) : (s.install key e).Inv := by
  unfold State.install; (try dsimp only); (repeat' split) <;> simp (maxDischargeDepth := 12) [hi]

@[simp] theorem State.regionStat_pending (s : State) (part entry reason : Nat) : (s.regionStat part entry reason).pending = s.pending := rfl

@[simp] theorem State.regionStat_inv {s : State} (hi : s.Inv) (part entry reason : Nat) : (s.regionStat part entry reason).Inv := by
  simp [State.regionStat, hi]

@[simp] theorem State.placeEntry_pending (s : State) (part table entry : Nat) (e : RegionEntry) : (s.placeEntry part table entry e).pending = s.pending := by
  unfold State.placeEntry; dsimp only; repeat' split
  all_goals simp

@[simp] theorem State.placeEntry_inv {s : State} (hi : s.Inv) (part table entry : Nat) (e : RegionEntry) : (s.placeEntry part table entry e).Inv := by
  unfold State.placeEntry; dsimp only; repeat' split
  all_goals first
    | (simp [hi]; done)
    | (apply State.Inv.mk' <;> simp [hi])

@[simp] theorem State.regionCommit_pending (s : State) (part : Nat) (value : Word) : (s.regionCommit part value).pending = s.pending := by
  unfold State.regionCommit; dsimp only; (repeat' split) <;> simp

@[simp] theorem State.regionCommit_inv {s : State} (hi : s.Inv) (part : Nat) (value : Word) : (s.regionCommit part value).Inv := by
  unfold State.regionCommit; dsimp only; (repeat' split) <;> simp [hi]

@[simp] theorem State.regionClear_pending (s : State) (part : Nat) (value : Word) : (s.regionClear part value).pending = s.pending := by
  unfold State.regionClear; dsimp only; (repeat' split) <;> simp

@[simp] theorem State.regionClear_inv {s : State} (hi : s.Inv) (part : Nat) (value : Word) : (s.regionClear part value).Inv := by
  unfold State.regionClear; dsimp only; (repeat' split) <;> simp [hi]

@[simp] theorem State.progCtl_pending (s : State) (part v : Nat) : (s.progCtl part v).pending = s.pending := by
  unfold State.progCtl; dsimp only; repeat' split
  all_goals simp

@[simp] theorem State.progCtl_inv {s : State} (hi : s.Inv) (part v : Nat) : (s.progCtl part v).Inv := by
  unfold State.progCtl; dsimp only; repeat' split
  all_goals first
    | (simp [hi]; done)
    | (apply State.Inv.mk' <;> simp [hi])

@[simp] theorem State.programCommit_pending (s : State) (part : Nat) (value : Word) : (s.programCommit part value).pending = s.pending := by
  unfold State.programCommit; (repeat' split) <;> simp

@[simp] theorem State.programCommit_inv {s : State} (hi : s.Inv) (part : Nat) (value : Word) : (s.programCommit part value).Inv := by
  unfold State.programCommit; (repeat' split) <;> simp [hi]

@[simp] theorem State.programClear_pending (s : State) (part : Nat) (value : Word) : (s.programClear part value).pending = s.pending := by
  unfold State.programClear; (repeat' split) <;> simp

@[simp] theorem State.programClear_inv {s : State} (hi : s.Inv) (part : Nat) (value : Word) : (s.programClear part value).Inv := by
  unfold State.programClear; (repeat' split) <;> simp [hi]

@[simp] theorem State.jetMove_pending (s : State) (part jet : Nat) (value : Word) : (s.jetMove part jet value).pending = s.pending := by
  unfold State.jetMove; dsimp only; (repeat' split) <;> simp

@[simp] theorem State.jetMove_inv {s : State} (hi : s.Inv) (part jet : Nat) (value : Word) : (s.jetMove part jet value).Inv := by
  have h (x : ResetRegs) (hx : x.parts = s.resets.parts) : ({ s with resets := x } : State).Inv :=
    State.Inv.resets hi x (hx ▸ hi.resetParts_wf)
  unfold State.jetMove
  dsimp only
  repeat' split
  · exact hi
  · exact h _ rfl
  · exact State.updJet_inv (h _ (by rfl)) ..
  · exact h _ rfl

@[simp] theorem State.clkHoldWrite_pending (s : State) (part : Nat) (value : Word) : (s.clkHoldWrite part value).pending = s.pending := by
  unfold State.clkHoldWrite; (repeat' split) <;> simp

@[simp] theorem State.clkHoldWrite_inv {s : State} (hi : s.Inv) (part : Nat) (value : Word) : (s.clkHoldWrite part value).Inv := by
  unfold State.clkHoldWrite
  dsimp only
  split
  · exact hi
  · exact State.wake_inv (State.Inv.clocks hi _) ..

@[simp] theorem State.dbgCtlWrite_pending (s : State) (part : Nat) (value : Word) : (s.dbgCtlWrite part value).pending = s.pending := by
  unfold State.dbgCtlWrite; (repeat' split) <;> simp

@[simp] theorem State.dbgCtlWrite_inv {s : State} (hi : s.Inv) (part : Nat) (value : Word) : (s.dbgCtlWrite part value).Inv := by
  unfold State.dbgCtlWrite
  dsimp only
  split
  · exact hi
  · exact State.emitIf_inv (State.Inv.garhal hi _) ..

@[simp] theorem State.regRead_pending (s : State) (part a : Nat) : (s.regRead part a).1.pending = s.pending := by
  unfold State.regRead; (try dsimp only); repeat' split
  all_goals first
    | rfl
    | (simp; done)
    | (refine (foldl_pending fun _ _ => ?_).trans ?_ <;> (try dsimp only) <;> (repeat' split) <;> first | rfl | simp)

@[simp] theorem State.regRead_inv {s : State} (hi : s.Inv) (part a : Nat) : (s.regRead part a).1.Inv := by
  unfold State.regRead; (try dsimp only); (repeat' split) <;> simp (maxDischargeDepth := 12) [hi]

@[simp] theorem State.portRead_pending (s : State) (part a : Nat) : (s.portRead part a).pending = s.pending := by
  unfold State.portRead; split <;> simp

@[simp] theorem State.portRead_inv {s : State} (hi : s.Inv) (part a : Nat) : (s.portRead part a).Inv := by
  unfold State.portRead; dsimp only; repeat' split
  all_goals first
    | (simp [hi]; done)
    | (apply State.Inv.mk' <;> simp [hi])

@[simp] theorem State.ringSetup_pending (s : State) (part : Nat) (f : Ring → Ring) : (s.ringSetup part f).pending = s.pending := by
  unfold State.ringSetup; dsimp only; repeat' split
  all_goals simp

@[simp] theorem State.ringSetup_inv {s : State} (hi : s.Inv) (part : Nat) (f : Ring → Ring) : (s.ringSetup part f).Inv := by
  unfold State.ringSetup; (try dsimp only); (repeat' split) <;> simp (maxDischargeDepth := 12) [hi]

@[simp] theorem State.keyWrite_pending (s : State) (part a v : Nat) : (s.keyWrite part a v).pending = s.pending := by
  unfold State.keyWrite; dsimp only; repeat' split
  all_goals simp

@[simp] theorem State.keyWrite_inv {s : State} (hi : s.Inv) (part a v : Nat) : (s.keyWrite part a v).Inv := by
  unfold State.keyWrite; dsimp only; repeat' split
  all_goals first
    | (simp [hi]; done)
    | (apply State.Inv.mk' <;> simp [hi])

@[simp] theorem State.resetModes_pending (s : State) (v : Nat) : (s.resetModes v).pending = s.pending := rfl

@[simp] theorem State.resetModes_inv {s : State} (hi : s.Inv) (v : Nat) : (s.resetModes v).Inv := by
  unfold State.resetModes; apply State.Inv.mk' <;> simp [hi]

@[simp] theorem State.plainWrite_pending (s : State) (part a v : Nat) : (s.plainWrite part a v).pending = s.pending := by
  unfold State.plainWrite
  dsimp only
  repeat' apply ite_pending
  all_goals first
    | rfl
    | exact State.keyWrite_pending _ _ _ _
    | exact State.ringSetup_pending _ _ _
    | exact State.progCtl_pending _ _ _

@[simp] theorem State.plainWrite_inv {s : State} (hi : s.Inv) (part a v : Nat) : (s.plainWrite part a v).Inv := by
  unfold State.plainWrite
  dsimp only
  repeat' apply ite_inv
  all_goals first
    | exact hi
    | exact State.Inv.boot hi _ hi.temperJets_wf
    | exact State.Inv.clocks hi _
    | exact State.Inv.resets hi _ hi.resetParts_wf
    | exact State.keyWrite_inv hi _ _ _
    | exact State.updOwn_inv hi _ _
    | exact State.ringSetup_inv hi _ _
    | exact State.progCtl_inv hi _ _
    | (apply State.Inv.mk' <;> first | exact Tab.wf_set hi.quotas_wf _ _ | simp [hi])

end Sys2Proof.Machine
end

