-- ==== Sys2Proof/Laws/Soak.lean ====
section
/-! SUPPORT. What the operations of Machine/Soak.lean keep: the invariant of the block, and its queue of commands. -/

namespace Sys2Proof.Machine

@[simp] theorem State.soakInit_pending (s : State) (base p seed : Nat) : (s.soakInit base p seed).pending = s.pending := rfl

@[simp] theorem State.soakInit_inv {s : State} (hi : s.Inv) (base p seed : Nat) : (s.soakInit base p seed).Inv := by
  unfold State.soakInit; exact foldl_inv hi fun _ _ k => by simp [k]

@[simp] theorem State.soakTileAt_pending (s : State) (base p seed epoch k t : Nat) : (s.soakTileAt base p seed epoch k t).pending = s.pending := by
  unfold State.soakTileAt; exact foldl_pending fun _ _ => by simp

@[simp] theorem State.soakTileAt_inv {s : State} (hi : s.Inv) (base p seed epoch k t : Nat) : (s.soakTileAt base p seed epoch k t).Inv := by
  unfold State.soakTileAt
  exact foldl_inv (foldl_inv (State.write_inv hi _ _) fun _ _ k => State.write_inv k _ _) fun _ _ k => State.write_inv k _ _

@[simp] theorem State.soakSweep_pending (s : State) (base p seed epoch k : Nat) : (s.soakSweep base p seed epoch k).pending = s.pending := by
  have key (l : List Nat) : (l.foldl (fun u t => State.soakTileAt u base p seed epoch k t) s).pending = s.pending := by
    induction l generalizing s with
    | nil => rfl
    | cons x l ih => rw [List.foldl_cons, ih, State.soakTileAt_pending]
  unfold State.soakSweep
  exact ite_pending (State.soakInit_pending _ _ _ _) (key _)

@[simp] theorem State.soakSweep_inv {s : State} (hi : s.Inv) (base p seed epoch k : Nat) : (s.soakSweep base p seed epoch k).Inv := by
  unfold State.soakSweep
  split
  · exact State.soakInit_inv hi _ _ _
  · exact foldl_inv hi fun _ _ k => State.soakTileAt_inv k _ _ _ _ _ _

end Sys2Proof.Machine
end

