-- ==== Sys2Proof/Laws/Boot.lean ====
section
/-! SUPPORT. What the operations of Machine/Boot.lean keep: the invariant of the block, and its queue of commands. -/

namespace Sys2Proof.Machine

@[simp] theorem State.haltBoot_pending (s : State) (reason : Nat) : (s.haltBoot reason).pending = s.pending := by
  simp [State.haltBoot]

@[simp] theorem State.haltBoot_inv {s : State} (hi : s.Inv) (reason : Nat) : (s.haltBoot reason).Inv := by
  unfold State.haltBoot
  extract_lets f t
  have ht : t.Inv := State.emit_inv (State.draw_inv hi _) _
  refine State.settleOwners_inv ?_
  apply State.Inv.mk' <;> first
    | exact jetsWf_mapVals ht.jets_wf _
    | exact basinsWf_mapVals ht.basins_wf _
    | exact queuesFit_mapVals ht.queues _ fun _ _ h => h
    | exact ht.temperJets_wf
    | simp [ht]

@[simp] theorem State.startBoot_pending (s : State) : (s.startBoot).pending = s.pending := rfl

@[simp] theorem State.startBoot_inv {s : State} (hi : s.Inv) : (s.startBoot).Inv := by
  have k := State.updBasin_inv hi 0 (fun x => { x with awake := true }) fun _ => rfl
  refine State.Inv.boot k _ ?_
  dsimp only
  split <;> exact k.temperJets_wf

@[simp] theorem State.bootGo_pending (s : State) (part : Nat) (value : Word) : (s.bootGo part value).pending = s.pending := by
  unfold State.bootGo; dsimp only; (repeat' split) <;> simp

@[simp] theorem State.bootGo_inv {s : State} (hi : s.Inv) (part : Nat) (value : Word) : (s.bootGo part value).Inv := by
  unfold State.bootGo; (try dsimp only); repeat' split
  all_goals first
    | exact hi
    | (simp (maxDischargeDepth := 12) [hi]; done)
    | (refine foldl_inv ?_ fun _ _ k => ?_ <;> (try dsimp only) <;> (repeat' split) <;> first
        | assumption
        | (simp (maxDischargeDepth := 12) [*]; done))
    | (apply State.Inv.mk' <;> simp [hi])

@[simp] theorem State.identify_pending (s : State) : (s.identify).pending = s.pending := rfl

@[simp] theorem State.identify_inv {s : State} (hi : s.Inv) : (s.identify).Inv := by
  unfold State.identify; apply State.Inv.mk' <;> simp [hi]

@[simp] theorem State.acceptBoot_pending (s : State) (r : BootReads) (warm : Bool) : (s.acceptBoot r warm).pending = s.pending := rfl

@[simp] theorem State.acceptBoot_inv {s : State} (hi : s.Inv) (r : BootReads) (warm : Bool) : (s.acceptBoot r warm).Inv := by
  unfold State.acceptBoot; apply State.Inv.mk' <;> simp [hi]

@[simp] theorem State.mapJets_pending (s : State) (fs : List Flaw) : (s.mapJets fs).pending = s.pending := by
  unfold State.mapJets; exact foldl_pending fun _ _ => by split <;> simp

@[simp] theorem State.mapJets_inv {s : State} (hi : s.Inv) (fs : List Flaw) : (s.mapJets fs).Inv := by
  unfold State.mapJets; (try dsimp only); repeat' split
  all_goals first
    | exact hi
    | (simp [hi]; done)
    | (refine foldl_inv ?_ fun _ _ k => ?_ <;> (try dsimp only) <;> (repeat' split) <;> first
        | assumption
        | (simp [*]; done)
        | (apply State.Inv.mk' <;> simp [*]))
    | (apply State.Inv.mk' <;> simp [hi])

@[simp] theorem State.mapBasins_pending (s : State) (f : Nat → Basin → Basin) : (s.mapBasins f).pending = s.pending := rfl

@[simp] theorem State.mapBasins_inv {s : State} (hi : s.Inv) (f : Nat → Basin → Basin)
    (hf : ∀ b x, (f b x).queue = x.queue) : (s.mapBasins f).Inv := by
  unfold State.mapBasins
  exact State.draw_inv (State.Inv.basins hi _ (basinsWf_updAll hi.basins_wf _ _)
    (queuesFit_updAll hi.queues _ _ fun b x h => by rw [← hf b x] at h; exact h)) _

@[simp] theorem State.mapFull_pending (s : State) (fs : List Flaw) (bad : List (Nat × Nat × Nat)) : (s.mapFull fs bad).pending = s.pending := by
  simp [State.mapFull]

@[simp] theorem State.mapFull_inv {s : State} (hi : s.Inv) (fs : List Flaw) (bad : List (Nat × Nat × Nat)) : (s.mapFull fs bad).Inv := by
  simp [State.mapFull, hi]

@[simp] theorem State.mapWarm_pending (s : State) : (s.mapWarm).pending = s.pending := rfl

@[simp] theorem State.mapWarm_inv {s : State} (hi : s.Inv) : (s.mapWarm).Inv := by
  simp [State.mapWarm, hi]

@[simp] theorem State.updAllBasins_pending (s : State) (f : Basin → Basin) : (s.updAllBasins f).pending = s.pending := rfl

@[simp] theorem State.updAllBasins_inv {s : State} (hi : s.Inv) (f : Basin → Basin)
    (hf : ∀ x, (f x).queue = x.queue) : (s.updAllBasins f).Inv := by
  unfold State.updAllBasins
  exact State.Inv.basins hi _ (basinsWf_updAll hi.basins_wf _ _)
    (queuesFit_updAll hi.queues _ _ fun b x h => by rw [← hf x] at h; exact h)

@[simp] theorem State.loseSpares_pending (s : State) (jet : Nat) (st : Station) (mask : Nat) : (s.loseSpares jet st mask).pending = s.pending := by
  unfold State.loseSpares; (repeat' split) <;> simp

@[simp] theorem State.loseSpares_inv {s : State} (hi : s.Inv) (jet : Nat) (st : Station) (mask : Nat) : (s.loseSpares jet st mask).Inv := by
  unfold State.loseSpares; (repeat' split) <;> simp [hi]

@[simp] theorem State.passes_pending (s : State) (e : Nat) (st : Station) : (s.passes e st).pending = s.pending := by
  unfold State.passes; (try dsimp only); repeat' split
  all_goals first
    | rfl
    | (simp; done)
    | (refine (foldl_pending fun _ _ => ?_).trans ?_ <;> (try dsimp only) <;> (repeat' split) <;> first | rfl | simp)

@[simp] theorem State.passes_inv {s : State} (hi : s.Inv) (e : Nat) (st : Station) : (s.passes e st).Inv := by
  unfold State.passes; (try dsimp only); repeat' split
  all_goals first
    | exact hi
    | (simp [hi]; done)
    | (refine foldl_inv ?_ fun _ _ k => ?_ <;> (try dsimp only) <;> (repeat' split) <;> first
        | assumption
        | (simp [*]; done)
        | (apply State.Inv.mk' <;> simp [*]))
    | (apply State.Inv.mk' <;> simp [hi])

@[simp] theorem State.engineFails_pending (s : State) (e : Nat) (c : FaultClass) : (s.engineFails e c).pending = s.pending := by
  unfold State.engineFails; dsimp only; repeat' split
  all_goals simp

@[simp] theorem State.engineFails_inv {s : State} (hi : s.Inv) (e : Nat) (c : FaultClass) : (s.engineFails e c).Inv := by
  unfold State.engineFails; (try dsimp only); (repeat' split) <;> simp (maxDischargeDepth := 12) [hi]

@[simp] theorem State.beginSoak_pending (s : State) : (s.beginSoak).pending = s.pending := by
  simp [State.beginSoak]

@[simp] theorem State.beginSoak_inv {s : State} (hi : s.Inv) : (s.beginSoak).Inv := by
  unfold State.beginSoak; (try dsimp only); repeat' split
  all_goals first
    | exact hi
    | (simp [hi]; done)
    | (refine foldl_inv ?_ fun _ _ k => ?_ <;> (try dsimp only) <;> (repeat' split) <;> first
        | assumption
        | (simp [*]; done)
        | (apply State.Inv.mk' <;> simp [*]))
    | (apply State.Inv.mk' <;> simp [hi])

@[simp] theorem State.endSoak_pending (s : State) : (s.endSoak).pending = s.pending := by
  unfold State.endSoak; (repeat' split) <;> simp

@[simp] theorem State.endSoak_inv {s : State} (hi : s.Inv) : (s.endSoak).Inv := by
  unfold State.endSoak
  split
  · exact State.traceCodes_inv (State.Inv.boot hi _ hi.temperJets_wf)
  · exact hi

@[simp] theorem State.soakFail_pending (s : State) (jet e : Nat) : (s.soakFail jet e).pending = s.pending := by
  unfold State.soakFail; split <;> simp

@[simp] theorem State.soakFail_inv {s : State} (hi : s.Inv) (jet e : Nat) : (s.soakFail jet e).Inv := by
  unfold State.soakFail; split <;> simp (maxDischargeDepth := 12) [hi]

@[simp] theorem State.soakFails_pending (s : State) (js : List Nat) : (s.soakFails js).pending = s.pending := by
  unfold State.soakFails
  exact (foldl_pending fun _ _ => State.soakFail_pending _ _ _).trans (by simp)

@[simp] theorem State.soakFails_inv {s : State} (hi : s.Inv) (js : List Nat) : (s.soakFails js).Inv := by
  unfold State.soakFails
  exact foldl_inv (State.updJets_inv hi _ _) fun _ _ k => State.soakFail_inv k _ _

end Sys2Proof.Machine
end

