-- ==== Sys2Proof/Laws/Resets.lean ====
section
/-! SUPPORT. What the operations of Machine/Resets.lean keep: the invariant of the block, and its queue of commands. -/

namespace Sys2Proof.Machine

@[simp] theorem State.stopPart_pending (s : State) (level : Nat) (absorb : Bool) (rill : RillEnd) (j : Job) (p : Part) : (s.stopPart level absorb rill j p).pending = s.pending := by
  unfold State.stopPart
  dsimp only
  (repeat' split) <;> simp

@[simp] theorem State.stopPart_inv {s : State} (hi : s.Inv) (level : Nat) (absorb : Bool) (rill : RillEnd) (j : Job) (p : Part) : (s.stopPart level absorb rill j p).Inv := by
  unfold State.stopPart
  dsimp only
  (repeat' split) <;> simp (maxDischargeDepth := 12) [hi]

@[simp] theorem State.stopParts_pending (s : State) (level : Nat) (absorb : Bool) (rill : Nat → RillEnd) (l : List (Job × Part)) : (s.stopParts level absorb rill l).pending = s.pending := by
  unfold State.stopParts
  exact (foldl_pending fun _ _ => State.stopRills_pending _ _ _).trans (foldl_pending fun _ _ => State.stopPart_pending ..)

@[simp] theorem State.stopParts_inv {s : State} (hi : s.Inv) (level : Nat) (absorb : Bool) (rill : Nat → RillEnd) (l : List (Job × Part)) : (s.stopParts level absorb rill l).Inv := by
  unfold State.stopParts
  exact foldl_inv (foldl_inv hi fun _ _ k => State.stopPart_inv k ..) fun _ _ k => State.stopRills_inv k _ _

@[simp] theorem State.endWork_pending (s : State) (level index : Nat) (absorb : Bool) (pin : Bool) : (s.endWork level index absorb pin).pending = s.pending := by
  simp [State.endWork]

@[simp] theorem State.endWork_inv {s : State} (hi : s.Inv) (level index : Nat) (absorb : Bool) (pin : Bool) : (s.endWork level index absorb pin).Inv := by
  simp [State.endWork, hi]

@[simp] theorem State.unhalt_pending (s : State) (targets : List Nat) : (s.unhalt targets).pending = s.pending := rfl

@[simp] theorem State.unhalt_inv {s : State} (hi : s.Inv) (targets : List Nat) : (s.unhalt targets).Inv := by
  unfold State.unhalt; apply State.Inv.mk' <;> simp [hi]

@[simp] theorem State.dropTests_pending (s : State) (es : List Nat) : (s.dropTests es).pending = s.pending := rfl

@[simp] theorem State.dropTests_inv {s : State} (hi : s.Inv) (es : List Nat) : (s.dropTests es).Inv := by
  exact State.Inv.tests hi _

@[simp] theorem State.resetEngine_pending (s : State) (r : Reset) (e : Nat) : (s.resetEngine r e).pending = s.pending := by
  unfold State.resetEngine; (repeat' split) <;> simp

@[simp] theorem State.resetEngine_inv {s : State} (hi : s.Inv) (r : Reset) (e : Nat) : (s.resetEngine r e).Inv := by
  unfold State.resetEngine
  split
  · exact hi
  · extract_lets js t u v
    have ht : t.Inv := State.unhalt_inv (State.dropTests_inv hi _) _
    have hv : v.Inv := State.setCodes_inv (State.updJet_inv (State.updJets_inv ht _ _) _ _) _ _ _
    repeat' split
    · exact State.levelOver_inv hv _ _
    · exact hv
    · exact hv

@[simp] theorem State.endReset_pending (s : State) (e : Nat) : (s.endReset e).pending = s.pending := by
  unfold State.endReset; (repeat' split) <;> simp

@[simp] theorem State.endReset_inv {s : State} (hi : s.Inv) (e : Nat) : (s.endReset e).Inv := by
  unfold State.endReset; (repeat' split) <;> simp [hi]

@[simp] theorem State.resetJet_pending (s : State) (jet : Nat) (pin : Bool) : (s.resetJet jet pin).pending = s.pending := by
  unfold State.resetJet
  dsimp only
  (repeat' split) <;> simp

@[simp] theorem State.resetJet_inv {s : State} (hi : s.Inv) (jet : Nat) (pin : Bool) : (s.resetJet jet pin).Inv := by
  unfold State.resetJet
  dsimp only
  (repeat' split) <;> simp (maxDischargeDepth := 12) [hi]

@[simp] theorem State.resetShared_pending (s : State) (part jet : Nat) : (s.resetShared part jet).pending = s.pending := by
  simp [State.resetShared]

@[simp] theorem State.resetShared_inv {s : State} (hi : s.Inv) (part jet : Nat) : (s.resetShared part jet).Inv := by
  unfold State.resetShared
  exact State.jetResetOver_inv (State.clearTallies_inv (State.stopParts_inv (State.emit_inv hi _) _ _ _ _) _) _ _

@[simp] theorem State.jetResetEnds_pending (s : State) (jet : Nat) : (s.jetResetEnds jet).pending = s.pending := by
  unfold State.jetResetEnds; dsimp only; (repeat' split) <;> simp

@[simp] theorem State.jetResetEnds_inv {s : State} (hi : s.Inv) (jet : Nat) : (s.jetResetEnds jet).Inv := by
  unfold State.jetResetEnds; dsimp only; (repeat' split) <;> simp [hi]

@[simp] theorem State.dropBasinTests_pending (s : State) (b : Nat) : (s.dropBasinTests b).pending = s.pending := rfl

@[simp] theorem State.dropBasinTests_inv {s : State} (hi : s.Inv) (b : Nat) : (s.dropBasinTests b).Inv := by
  unfold State.dropBasinTests; apply State.Inv.mk' <;> simp [hi]

@[simp] theorem State.resetBasin_pending (s : State) (b : Nat) : (s.resetBasin b).pending = s.pending := by
  unfold State.resetBasin
  extract_lets r t u
  have hu : u.pending = s.pending := by unfold u t; simp
  rw [State.settleOwners_pending, State.clearTallies_pending, foldl_pending fun _ _ => State.resetEngine_pending _ _ _]
  exact hu

@[simp] theorem State.resetBasin_inv {s : State} (hi : s.Inv) (b : Nat) : (s.resetBasin b).Inv := by
  unfold State.resetBasin; (try dsimp only); (repeat' split) <;> simp +contextual (maxDischargeDepth := 12) [foldl_inv, hi]

@[simp] theorem State.endUnlessHeld_pending (s : State) (e : Nat) : (s.endUnlessHeld e).pending = s.pending := by
  unfold State.endUnlessHeld; (try dsimp only); (repeat' split) <;> simp

@[simp] theorem State.endUnlessHeld_inv {s : State} (hi : s.Inv) (e : Nat) : (s.endUnlessHeld e).Inv := by
  unfold State.endUnlessHeld; (try dsimp only); (repeat' split) <;> simp (maxDischargeDepth := 12) [hi]

@[simp] theorem State.basinResetEnds_pending (s : State) (b : Nat) : (s.basinResetEnds b).pending = s.pending := by
  unfold State.basinResetEnds
  split
  · rfl
  · dsimp only
    (repeat' split) <;> simp [foldl_pending]

@[simp] theorem State.basinResetEnds_inv {s : State} (hi : s.Inv) (b : Nat) : (s.basinResetEnds b).Inv := by
  unfold State.basinResetEnds
  split
  · exact hi
  · extract_lets es t
    have ht : t.Inv := foldl_inv (State.updBasin_inv hi _ _ fun _ => rfl) fun _ _ k => State.endUnlessHeld_inv k _
    split
    · exact State.settleBasin_inv ht _
    · exact ht

@[simp] theorem State.endWaits_pending (s : State) (level : Nat) (scope : Job → Bool) : (s.endWaits level scope).pending = s.pending := rfl

@[simp] theorem State.endWaits_inv {s : State} (hi : s.Inv) (level : Nat) (scope : Job → Bool) : (s.endWaits level scope).Inv := by
  unfold State.endWaits; apply State.Inv.mk' <;> simp [hi]

@[simp] theorem State.resetPartition_pending (s : State) (p : Nat) (absorb : Bool) : (s.resetPartition p absorb).pending = s.pending := by
  unfold State.resetPartition; (try dsimp only); (repeat' split) <;> simp [foldl_pending]

@[simp] theorem State.resetPartition_inv {s : State} (hi : s.Inv) (p : Nat) (absorb : Bool) : (s.resetPartition p absorb).Inv := by
  unfold State.resetPartition
  extract_lets r t u v
  have ht : t.Inv := State.emit_inv hi _
  split
  · exact ht
  · have hu : State.Inv { t with resets := { t.resets with parts := Tab.set none t.resets.parts p (some r) } } :=
      State.Inv.resets ht _ (Tab.wf_set ht.resetParts_wf _ _)
    exact State.settleOwners_inv (State.settleBasins_inv (foldl_inv
      (State.endWaits_inv (State.endWork_inv (State.dropTests_inv hu _) _ _ _ _) _ _) fun _ _ k => State.resetEngine_inv k _ _))

@[simp] theorem State.resetCtl_pending (s : State) (part v : Nat) : (s.resetCtl part v).pending = s.pending := by
  unfold State.resetCtl; dsimp only; repeat' split
  all_goals simp

@[simp] theorem State.resetCtl_inv {s : State} (hi : s.Inv) (part v : Nat) : (s.resetCtl part v).Inv := by
  unfold State.resetCtl; (try dsimp only); (repeat' split) <;> simp (maxDischargeDepth := 12) [hi]

@[simp] theorem State.partGo_pending (s : State) (part : Nat) (value : Word) : (s.partGo part value).pending = s.pending := by
  unfold State.partGo; (repeat' split) <;> simp

@[simp] theorem State.partGo_inv {s : State} (hi : s.Inv) (part : Nat) (value : Word) : (s.partGo part value).Inv := by
  unfold State.partGo; (repeat' split) <;> simp [hi]

@[simp] theorem State.jetRst_pending (s : State) (part : Nat) (value : Word) : (s.jetRst part value).pending = s.pending := by
  unfold State.jetRst; (repeat' split) <;> simp

@[simp] theorem State.jetRst_inv {s : State} (hi : s.Inv) (part : Nat) (value : Word) : (s.jetRst part value).Inv := by
  unfold State.jetRst; (repeat' split) <;> simp [hi]

@[simp] theorem State.disableRings_pending (s : State) (p : Nat) : (s.disableRings p).pending = s.pending := by
  unfold State.disableRings; exact foldl_pending fun _ _ => by simp

@[simp] theorem State.disableRings_inv {s : State} (hi : s.Inv) (p : Nat) : (s.disableRings p).Inv := by
  unfold State.disableRings; exact foldl_inv hi fun _ _ k => by simp [k]

@[simp] theorem State.resetShards_pending (s : State) (p : Nat) : (s.resetShards p).pending = s.pending := by
  unfold State.resetShards
  rw [State.retireKeys_pending, foldl_pending]
  intro t n
  dsimp only
  rw [State.updShard_pending, State.forgetNaps_pending, State.releaseLedger_pending]
  split <;> simp

@[simp] theorem State.resetShards_inv {s : State} (hi : s.Inv) (p : Nat) : (s.resetShards p).Inv := by
  unfold State.resetShards
  refine State.retireKeys_inv (foldl_inv hi fun t n k =>
    State.updShard_inv (State.forgetNaps_inv (State.releaseLedger_inv ?_ _) _) _ _)
  split
  · exact State.endSets_inv (State.endAttempt_inv k _ _) _ _
  · exact k

@[simp] theorem State.resetTenancy_pending (s : State) (p : Nat) : (s.resetTenancy p).pending = s.pending := rfl

@[simp] theorem State.resetTenancy_inv {s : State} (hi : s.Inv) (p : Nat) : (s.resetTenancy p).Inv := by
  unfold State.resetTenancy; apply State.Inv.mk' <;> simp [hi]

@[simp] theorem State.endAll_pending (s : State) (absorb : Bool) : (s.endAll absorb).pending = s.pending := by
  simp [State.endAll]

@[simp] theorem State.endAll_inv {s : State} (hi : s.Inv) (absorb : Bool) : (s.endAll absorb).Inv := by
  unfold State.endAll; apply State.Inv.mk' <;> simp [hi]

@[simp] theorem State.wholeEnd_pending (s : State) : (s.wholeEnd).pending = s.pending := by
  simp [State.wholeEnd]

@[simp] theorem State.wholeEnd_inv {s : State} (hi : s.Inv) : (s.wholeEnd).Inv := by
  unfold State.wholeEnd
  apply State.Inv.mk' <;> first
    | exact hi.mem_wf
    | rfl
    | exact jetsWf_mapVals hi.jets_wf _
    | exact basinsWf_mapVals hi.basins_wf _
    | exact hi.temperJets_wf
    | exact Or.inl (Nat.zero_le _)
    | exact queuesFit_mapVals hi.queues _ fun _ _ _ => Nat.zero_le _

@[simp] theorem State.unhaltAll_pending (s : State) : (s.unhaltAll).pending = s.pending := rfl

@[simp] theorem State.unhaltAll_inv {s : State} (hi : s.Inv) : (s.unhaltAll).Inv := by
  unfold State.unhaltAll
  apply State.Inv.mk' <;> first
    | exact jetsWf_mapVals hi.jets_wf _
    | exact basinsWf_mapVals hi.basins_wf _
    | exact queuesFit_mapVals hi.queues _ fun _ _ h => h
    | simp [hi]

@[simp] theorem State.drainOver_pending (s : State) (level e : Nat) : (s.drainOver level e).pending = s.pending := rfl

@[simp] theorem State.drainOver_inv {s : State} (hi : s.Inv) (level e : Nat) : (s.drainOver level e).Inv := by
  simp [State.drainOver, hi]

@[simp] theorem State.absorbTiles_pending (s : State) (e : Nat) : (s.absorbTiles e).pending = s.pending := by
  unfold State.absorbTiles
  exact foldl_pending fun _ _ => foldl_pending fun _ _ => State.endPart_pending ..

@[simp] theorem State.absorbTiles_inv {s : State} (hi : s.Inv) (e : Nat) : (s.absorbTiles e).Inv := by
  unfold State.absorbTiles; (try dsimp only); (repeat' split) <;> simp +contextual (maxDischargeDepth := 12) [foldl_inv, hi]

@[simp] theorem State.absorbEnded_pending (s : State) (e : Nat) : (s.absorbEnded e).pending = s.pending := by
  unfold State.absorbEnded
  exact foldl_pending fun _ _ => foldl_pending fun _ _ => State.endPart_pending ..

@[simp] theorem State.absorbEnded_inv {s : State} (hi : s.Inv) (e : Nat) : (s.absorbEnded e).Inv := by
  unfold State.absorbEnded
  exact foldl_inv hi fun _ _ k => foldl_inv k fun _ _ q => State.endPart_inv q _ _ _ _

@[simp] theorem State.drainJet_pending (s : State) (jet : Nat) : (s.drainJet jet).pending = s.pending := by
  unfold State.drainJet; (try dsimp only); (repeat' split) <;> simp

@[simp] theorem State.drainJet_inv {s : State} (hi : s.Inv) (jet : Nat) : (s.drainJet jet).Inv := by
  unfold State.drainJet; (try dsimp only); (repeat' split) <;> simp (maxDischargeDepth := 12) [hi]

@[simp] theorem State.drainBasin_pending (s : State) (b : Nat) : (s.drainBasin b).pending = s.pending := by
  unfold State.drainBasin; (try dsimp only); (repeat' split) <;> simp [foldl_pending]

@[simp] theorem State.drainBasin_inv {s : State} (hi : s.Inv) (b : Nat) : (s.drainBasin b).Inv := by
  unfold State.drainBasin; (try dsimp only); (repeat' split) <;> simp +contextual (maxDischargeDepth := 12) [foldl_inv, hi]

@[simp] theorem State.drainPartition_pending (s : State) (p : Nat) : (s.drainPartition p).pending = s.pending := by
  unfold State.drainPartition
  dsimp only
  (repeat' split) <;> first
    | rfl
    | (rw [State.settleOwners_pending, foldl_pending fun _ _ => State.drainOver_pending ..]
       exact State.endWork_pending ..)

@[simp] theorem State.drainPartition_inv {s : State} (hi : s.Inv) (p : Nat) : (s.drainPartition p).Inv := by
  unfold State.drainPartition
  dsimp only
  (repeat' split) <;> first
    | exact hi
    | (have k := State.endWork_inv hi 2 p true false
       exact State.settleOwners_inv (foldl_inv (State.Inv.resets k _ (Tab.wf_set k.resetParts_wf _ _))
         fun _ _ q => State.drainOver_inv q _ _))

end Sys2Proof.Machine
end

