-- ==== Sys2Proof/Laws/Security.lean ====
section
/-! SUPPORT. What the operations of Machine/Security.lean keep: the invariant of the block, and its queue of commands. -/

namespace Sys2Proof.Machine

@[simp] theorem State.keyxGo_pending (s : State) (part : Nat) (value : Word) : (s.keyxGo part value).pending = s.pending := by
  unfold State.keyxGo; dsimp only; (repeat' split) <;> simp

@[simp] theorem State.keyxGo_inv {s : State} (hi : s.Inv) (part : Nat) (value : Word) : (s.keyxGo part value).Inv := by
  have h (x : Warden) (hx : x.exports = s.warden.exports) : ({ s with warden := x } : State).Inv :=
    State.Inv.warden hi x (hx ▸ hi.exports_wf)
  unfold State.keyxGo
  dsimp only
  split
  · exact hi
  · split
    · exact State.Inv.warden (State.keyWrite_inv hi ..) _ (State.keyWrite_inv hi ..).exports_wf
    · exact State.emit_inv (h _ (by rfl)) _

@[simp] theorem Warden.withChunk_exports (w : Warden) (version k : Nat) (bs : List Byte) :
    (w.withChunk version k bs).exports = w.exports := by
  unfold Warden.withChunk
  split <;> rfl

@[simp] theorem State.stageManifest_pending (s : State) (version k : Nat) (bs : List Byte) : (s.stageManifest version k bs).pending = s.pending := by
  simp [State.stageManifest]

@[simp] theorem State.stageManifest_inv {s : State} (hi : s.Inv) (version k : Nat) (bs : List Byte) : (s.stageManifest version k bs).Inv := by
  unfold State.stageManifest
  dsimp only
  refine State.emitIf_inv (State.Inv.warden hi _ ?_) _ _
  simp [hi]

@[simp] theorem State.stageChunk_pending (s : State) (k : Nat) (bs : List Byte) : (s.stageChunk k bs).pending = s.pending := rfl

@[simp] theorem State.stageChunk_inv {s : State} (hi : s.Inv) (k : Nat) (bs : List Byte) : (s.stageChunk k bs).Inv := by
  unfold State.stageChunk; apply State.Inv.mk' <;> simp [hi]

@[simp] theorem State.repair_pending (s : State) (c : Nat) : (s.repair c).pending = s.pending := by
  unfold State.repair; dsimp only; repeat' split
  all_goals simp

@[simp] theorem State.repair_inv {s : State} (hi : s.Inv) (c : Nat) : (s.repair c).Inv := by
  unfold State.repair
  extract_lets
  split
  · exact hi
  · refine State.emit_inv (State.Inv.warden hi _ ?_) _
    exact hi.exports_wf

end Sys2Proof.Machine
end

