-- ==== Sys2Proof/Laws/Clocks.lean ====
section
/-! SUPPORT. What the operations of Machine/Clocks.lean keep: the invariant of the block, and its queue of commands. -/

namespace Sys2Proof.Machine

@[simp] theorem State.clearDue_pending (s : State) : (s.clearDue).pending = s.pending := rfl

@[simp] theorem State.clearDue_inv {s : State} (hi : s.Inv) : (s.clearDue).Inv := by
  unfold State.clearDue
  apply State.Inv.mk' <;> first
    | exact jetsWf_mapVals hi.jets_wf _
    | exact basinsWf_mapVals hi.basins_wf _
    | exact queuesFit_mapVals hi.queues _ fun _ _ h => h
    | simp [hi]

@[simp] theorem State.settleAll_pending (s : State) : (s.settleAll).pending = s.pending := by
  unfold State.settleAll; (try dsimp only); (repeat' split) <;> simp [foldl_pending]

@[simp] theorem State.settleAll_inv {s : State} (hi : s.Inv) : (s.settleAll).Inv := by
  unfold State.settleAll; (try dsimp only); (repeat' split) <;> simp +contextual (maxDischargeDepth := 12) [foldl_inv, hi]

@[simp] theorem State.heldResets_pending (s : State) : (s.heldResets).pending = s.pending := by
  unfold State.heldResets; (try dsimp only); (repeat' split) <;> simp [foldl_pending]

@[simp] theorem State.heldResets_inv {s : State} (hi : s.Inv) : (s.heldResets).Inv := by
  unfold State.heldResets; (try dsimp only); (repeat' split) <;> simp +contextual (maxDischargeDepth := 12) [foldl_inv, hi]

end Sys2Proof.Machine
end

