-- ==== Sys2Proof/Laws/Ports.lean ====
section
/-! SUPPORT. What the operations of Machine/Ports.lean keep: the invariant of the block, and its queue of commands. -/

namespace Sys2Proof.Machine

@[simp] theorem State.writeReg_pending (s : State) (part addr : Nat) (value : Word) : (s.writeReg part addr value).pending = s.pending := by
  unfold State.writeReg
  dsimp only
  iterate 16 refine ite_pending (by (try split) <;> simp) ?_
  split <;> simp

@[simp] theorem State.writeReg_inv {s : State} (hi : s.Inv) (part addr : Nat) (value : Word) : (s.writeReg part addr value).Inv := by
  unfold State.writeReg
  dsimp only
  iterate 16 refine ite_inv (by (try split) <;> simp [hi]) ?_
  split <;> simp [hi]

@[simp] theorem State.debugRead_pending (s : State) (a : Nat) : (s.debugRead a).1.pending = s.pending := by
  unfold State.debugRead; (try dsimp only); repeat' split
  all_goals first
    | rfl
    | (simp; done)
    | (refine (foldl_pending fun _ _ => ?_).trans ?_ <;> (try dsimp only) <;> (repeat' split) <;> first | rfl | simp)

@[simp] theorem State.debugRead_inv {s : State} (hi : s.Inv) (a : Nat) : (s.debugRead a).1.Inv := by
  unfold State.debugRead; (try dsimp only); (repeat' split) <;> simp (maxDischargeDepth := 12) [hi]

@[simp] theorem State.garhalDone_pending (s : State) (data : Nat) : (s.garhalDone data).pending = s.pending := rfl

@[simp] theorem State.garhalDone_inv {s : State} (hi : s.Inv) (data : Nat) : (s.garhalDone data).Inv := by
  unfold State.garhalDone; apply State.Inv.mk' <;> simp [hi]

@[simp] theorem State.serveDebug_pending (s : State) (addr : Nat) (data : Option Word) : (s.serveDebug addr data).pending = s.pending := by
  unfold State.serveDebug; dsimp only; (repeat' split) <;> simp

@[simp] theorem State.serveDebug_inv {s : State} (hi : s.Inv) (addr : Nat) (data : Option Word) : (s.serveDebug addr data).Inv := by
  unfold State.serveDebug; (try dsimp only); repeat' split
  all_goals first
    | exact hi
    | (simp (maxDischargeDepth := 12) [hi]; done)
    | (refine foldl_inv ?_ fun _ _ k => ?_ <;> (try dsimp only) <;> (repeat' split) <;> first
        | assumption
        | (simp (maxDischargeDepth := 12) [*]; done))
    | (apply State.Inv.mk' <;> simp [hi])

@[simp] theorem State.serveAccess_pending (s : State) (a : Access) : (s.serveAccess a).pending = s.pending := by
  unfold State.serveAccess
  refine ite_pending (State.serveDebug_pending ..) ?_
  split
  · exact State.portRead_pending ..
  · exact State.pending_regWrite s _ _ _ _ (State.writeReg_pending ..)

@[simp] theorem State.serveAccess_inv {s : State} (hi : s.Inv) (a : Access) : (s.serveAccess a).Inv := by
  unfold State.serveAccess
  refine ite_inv (State.serveDebug_inv hi ..) ?_
  split
  · exact State.portRead_inv hi ..
  · exact State.inv_regWrite hi _ _ _ _ (State.writeReg_inv hi ..)

@[simp] theorem State.serveWaiting_pending (s : State) : (s.serveWaiting).pending = s.pending := by
  unfold State.serveWaiting
  exact foldl_pending fun _ _ => by split <;> simp

@[simp] theorem State.serveWaiting_inv {s : State} (hi : s.Inv) : (s.serveWaiting).Inv := by
  unfold State.serveWaiting
  exact foldl_inv (State.Inv.clocks hi _) fun _ _ k => by split <;> simp [k]

@[simp] theorem State.rangeDone_pending (s : State) (w : RangeWait) : (s.rangeDone w).pending = s.pending := by
  unfold State.rangeDone; dsimp only; (repeat' split) <;> simp

@[simp] theorem State.rangeDone_inv {s : State} (hi : s.Inv) (w : RangeWait) : (s.rangeDone w).Inv := by
  unfold State.rangeDone
  extract_lets t u
  have hu : u.Inv := by
    have ht : t.Inv := State.install_inv (State.Inv.range hi _) _ _
    unfold u
    split <;> simp [ht]
  split
  · exact hu
  · exact State.serveWaiting_inv hu

end Sys2Proof.Machine
end

