-- ==== Sys2Proof/Laws/Garhal.lean ====
section
/-! SUPPORT. What the operations of Machine/Garhal.lean keep: the invariant of the block, and its queue of commands. -/

namespace Sys2Proof.Machine

@[simp] theorem State.respond_pending (s : State) (op : Nat) (c : GarhalCmd) (status : Nat) (data : Nat) (unsealed : Bool) : (s.respond op c status data unsealed).pending = s.pending := rfl

@[simp] theorem State.respond_inv {s : State} (hi : s.Inv) (op : Nat) (c : GarhalCmd) (status : Nat) (data : Nat) (unsealed : Bool) : (s.respond op c status data unsealed).Inv := State.Inv.garhal hi _

@[simp] theorem State.bypassScan_pending (s : State) (c : GarhalCmd) : (s.bypassScan c).pending = s.pending := by
  unfold State.bypassScan; (repeat' split) <;> simp

@[simp] theorem State.bypassScan_inv {s : State} (hi : s.Inv) (c : GarhalCmd) : (s.bypassScan c).Inv := by
  unfold State.bypassScan; (try dsimp only); repeat' split
  all_goals first
    | exact hi
    | (simp (maxDischargeDepth := 12) [hi]; done)
    | (refine foldl_inv ?_ fun _ _ k => ?_ <;> (try dsimp only) <;> (repeat' split) <;> first
        | assumption
        | (simp (maxDischargeDepth := 12) [*]; done))
    | (apply State.Inv.mk' <;> simp [hi])

@[simp] theorem State.debugWaits_pending (s : State) (op : Nat) (cmd : GarhalCmd) (data : Option Word) : (s.debugWaits op cmd data).pending = s.pending := rfl

@[simp] theorem State.debugWaits_inv {s : State} (hi : s.Inv) (op : Nat) (cmd : GarhalCmd) (data : Option Word) : (s.debugWaits op cmd data).Inv := by
  simp [State.debugWaits, hi]

@[simp] theorem State.windowAccess_pending (s : State) (a : Nat) (write : Bool) : (s.windowAccess a write).pending = s.pending := by
  delta State.windowAccess
  exact ite_pending (State.badAccess_pending _ _ _ _) rfl

@[simp] theorem State.windowAccess_inv {s : State} (hi : s.Inv) (a : Nat) (write : Bool) : (s.windowAccess a write).Inv := by
  unfold State.windowAccess; (try dsimp only); (repeat' split) <;> simp (maxDischargeDepth := 12) [hi]

@[simp] theorem State.memAccess_pending (s : State) (write : Bool) (cmd : GarhalCmd) : (s.memAccess write cmd).pending = s.pending := by
  unfold State.memAccess; dsimp only; split <;> simp

@[simp] theorem State.memAccess_inv {s : State} (hi : s.Inv) (write : Bool) (cmd : GarhalCmd) : (s.memAccess write cmd).Inv := by
  unfold State.memAccess; dsimp only; split <;> simp [hi]

@[simp] theorem State.memServe_pending (s : State) (write : Bool) (cmd : GarhalCmd) : (s.memServe write cmd).pending = s.pending := by
  unfold State.memServe; dsimp only; split <;> simp

@[simp] theorem State.memServe_inv {s : State} (hi : s.Inv) (write : Bool) (cmd : GarhalCmd) : (s.memServe write cmd).Inv := by
  unfold State.memServe
  dsimp only
  split
  · exact State.Inv.garhal (State.respond_inv hi _ _ _ _ _) _
  · simp [hi]

@[simp] theorem State.memWaits_pending (s : State) : (s.memWaits).pending = s.pending := by
  unfold State.memWaits; (repeat' split) <;> simp

@[simp] theorem State.memWaits_inv {s : State} (hi : s.Inv) : (s.memWaits).Inv := by
  unfold State.memWaits
  repeat' split
  · exact hi
  · exact State.memAccess_inv (State.Inv.garhal hi _) _ _
  · exact hi

@[simp] theorem State.setHalt_pending (s : State) (target : Nat) (halting halted : Bool) : (s.setHalt target halting halted).pending = s.pending := by
  unfold State.setHalt; split <;> simp

@[simp] theorem State.setHalt_inv {s : State} (hi : s.Inv) (target : Nat) (halting halted : Bool) : (s.setHalt target halting halted).Inv := by
  unfold State.setHalt; (try dsimp only); (repeat' split) <;> simp (maxDischargeDepth := 12) [hi]

@[simp] theorem State.runCycles_pending (s : State) (e n : Nat) : (s.runCycles e n).pending = s.pending := rfl

@[simp] theorem State.runCycles_inv {s : State} (hi : s.Inv) (e n : Nat) : (s.runCycles e n).Inv := by
  unfold State.runCycles; (try dsimp only); repeat' split
  all_goals first
    | (simp [hi]; done)
    | (apply State.Inv.mk' <;> first
        | exact jetsWf_updAll (by simp [hi]) _ _
        | simp [hi])

@[simp] theorem State.addSteps_pending (s : State) (e n : Nat) : (s.addSteps e n).pending = s.pending := by
  simp [State.addSteps]

@[simp] theorem State.addSteps_inv {s : State} (hi : s.Inv) (e n : Nat) : (s.addSteps e n).Inv := by
  simp [State.addSteps, hi]

@[simp] theorem State.setBreaks_pending (s : State) (l : List Break) : (s.setBreaks l).pending = s.pending := rfl

@[simp] theorem State.setBreaks_inv {s : State} (hi : s.Inv) (l : List Break) : (s.setBreaks l).Inv := by
  unfold State.setBreaks; apply State.Inv.mk' <;> simp [hi]

@[simp] theorem State.breakHalt_pending (s : State) (target unit index : Nat) : (s.breakHalt target unit index).pending = s.pending := by
  unfold State.breakHalt; split <;> simp

@[simp] theorem State.breakHalt_inv {s : State} (hi : s.Inv) (target unit index : Nat) : (s.breakHalt target unit index).Inv := by
  unfold State.breakHalt; (try dsimp only); (repeat' split) <;> simp (maxDischargeDepth := 12) [hi]

theorem State.pending_garhalRun (s : State) (op : Nat) (c : GarhalCmd) (run : State) (h : run.pending = s.pending) :
    (s.garhalRun op c run).pending = s.pending := by
  unfold State.garhalRun; (repeat' split) <;> simp [h]

theorem State.inv_garhalRun {s : State} (hi : s.Inv) (op : Nat) (c : GarhalCmd) (run : State) (h : run.Inv) :
    (s.garhalRun op c run).Inv := by
  unfold State.garhalRun; (repeat' split) <;> simp [hi, h]

end Sys2Proof.Machine
end

