-- ==== Sys2Proof/Laws/Tick.lean ====
section
/-! SUPPORT. What the operations of Machine/Tick.lean keep: the invariant of the block, and its queue of commands. -/

namespace Sys2Proof.Machine

/-- The jets and the basins change, and the cycle count with them. -/

theorem State.Inv.cycles {s : State} (hi : s.Inv) (j : Tab Jet) (b : Tab Basin) (n : Nat) (hj : jetsWf j) (hb : basinsWf b)
    (hq : queuesFit b) : ({ s with aon := n, basins := b, jets := j } : State).Inv :=
  State.Inv.mk' hi.mem_wf hi.regions_wf hi.rings_wf hi.shards_wf hi.groups_wf hi.slots_wf hi.quotas_wf hj hb hi.own_wf
    hi.censusLogs_wf hi.totals_wf hi.attempts_wf hi.resetParts_wf hi.exports_wf hi.temperJets_wf hi.alarms hq hi.firsts_wf

@[simp] theorem tick_pending (s : State) : (tick s).pending = s.pending := by
  unfold tick
  split
  · rw [State.memWaits_pending]
  · rfl

@[simp] theorem tick_inv {s : State} (hi : s.Inv) : (tick s).Inv := by
  unfold tick
  apply ite_inv
  · exact State.memWaits_inv (State.Inv.cycles hi _ _ _ (jetsWf_updAll hi.jets_wf _ _) (basinsWf_updAll hi.basins_wf _ _)
      (queuesFit_updAll hi.queues _ _ fun _ _ h => h))
  · exact hi

end Sys2Proof.Machine
end

