-- ==== Sys2Proof/Laws/Exec.lean ====
section
/-! SUPPORT. What the meaning of each command keeps: the queue of commands that wait, and the invariant of the block. -/

namespace Sys2Proof.Machine

/-- A command's outcome keeps the queue and the invariant wherever it is a next state. -/
def State.Keeps (s : State) (o : Host.Outcome State Fault Refusal) : Prop :=
  ∀ t, o = .next t → t.pending = s.pending ∧ (s.Inv → t.Inv)

theorem keeps_next {s t : State} (hp : t.pending = s.pending) (hi : s.Inv → t.Inv) : s.Keeps (.next t) := by
  rintro _ ⟨⟩
  exact ⟨hp, hi⟩

theorem State.Inv.withMem {s : State} (h : s.Inv) {x : List Host.Cell} (hx : Memory.wf x = true) : ({ s with mem := x } : State).Inv := by
  apply State.Inv.mk' <;> simp [h, hx]

theorem State.Inv.withRegions {s : State} (h : s.Inv) {x : Tab RegionEntry} (hx : regionsWf x) : ({ s with regions := x } : State).Inv := by
  apply State.Inv.mk' <;> simp [h, hx]

theorem State.temperNow_jets {s : State} : jetsWf s.temperNow.jets := by
  have k (l : List Nat) (t : Tab Jet) (ht : jetsWf t) (f : Nat → Jet) : jetsWf (l.foldl (fun t j => Tab.set {} t j (f j)) t) := by
    induction l generalizing t with
    | nil => exact ht
    | cons j l ih => exact ih _ (jetsWf_set ht ..)
  exact k _ [] jetsWf_nil _


/-- The state that a settled descriptor's end leaves. -/
theorem State.settleJob_keeps {s t : State} {j : Job} {x : Status × Nat × Nat} (h : s.settleJob j = some (t, x)) :
    t.pending = s.pending ∧ (s.Inv → t.Inv) := by
  unfold State.settleJob at h
  split at h
  · split at h
    · cases h
    · cases h; exact ⟨rfl, id⟩
  · split at h
    · dsimp only at h
      split at h
      · cases h
      · cases h; exact ⟨by simp, fun hi => by simp [hi]⟩
    · split at h
      · cases h
      · cases hw : s.waitStatus j with
        | none => rw [hw] at h; cases h
        | some y => rw [hw] at h; cases h; exact ⟨rfl, id⟩

theorem execLand_keeps (s : State) (ring : Nat) : s.Keeps (execLand ring s) := by
  refine keeps_next ?_ fun hi => ?_
  · (repeat' split) <;> simp
  · (repeat' split) <;> simp [hi]

theorem execMeter_keeps (s : State) (ring : Nat) : s.Keeps (execMeter ring s) := by
  unfold execMeter
  refine keeps_next ?_ fun hi => ?_
  · (try dsimp only); (repeat' split) <;> first | rfl | (simp; done)
  · (try dsimp only); (repeat' split) <;> first | exact hi | (simp [hi]; done) | (simp (maxDischargeDepth := 12) [hi]; done) | (apply State.Inv.mk' <;> simp [hi])

theorem execStill_keeps (s : State) (ring : Nat) : s.Keeps (execStill ring s) := by
  unfold execStill
  refine keeps_next ?_ fun hi => ?_
  · (try dsimp only); (repeat' split) <;> first | rfl | (simp; done)
  · (try dsimp only); (repeat' split) <;> first | exact hi | (simp [hi]; done) | (simp (maxDischargeDepth := 12) [hi]; done) | (apply State.Inv.mk' <;> simp [hi])

theorem execCast_keeps (s : State) (ring : Nat) : s.Keeps (execCast ring s) := by
  unfold execCast
  refine keeps_next ?_ fun hi => ?_
  · (try dsimp only); (repeat' split) <;> first | rfl | (simp; done)
  · (try dsimp only); (repeat' split) <;> first | exact hi | (simp [hi]; done) | (simp (maxDischargeDepth := 12) [hi]; done) | (apply State.Inv.mk' <;> simp [hi])

theorem execVote_keeps (s : State) (ring : Nat) : s.Keeps (execVote ring s) := by
  refine keeps_next ?_ fun hi => ?_
  · (repeat' split) <;> simp
  · (repeat' split) <;> simp [hi]

theorem execPour_keeps (s : State) (ring : Nat) : s.Keeps (execPour ring s) := by
  unfold execPour
  refine keeps_next ?_ fun hi => ?_
  · (try dsimp only); (repeat' split) <;> first | rfl | (simp; done)
  · (try dsimp only); (repeat' split) <;> first | exact hi | (simp [hi]; done) | (simp (maxDischargeDepth := 12) [hi]; done) | (apply State.Inv.mk' <;> simp [hi])

theorem execRewind_keeps (s : State) (ring : Nat) : s.Keeps (execRewind ring s) := by
  refine keeps_next ?_ fun hi => ?_
  · (repeat' split) <;> simp
  · (repeat' split) <;> simp [hi]

theorem execCrucible_keeps (s : State) (ring : Nat) : s.Keeps (execCrucible ring s) := by
  unfold execCrucible
  refine keeps_next ?_ fun hi => ?_
  · (try dsimp only); (repeat' split) <;> first | rfl | (simp; done)
  · (try dsimp only); (repeat' split) <;> first | exact hi | (simp [hi]; done) | (simp (maxDischargeDepth := 12) [hi]; done) | (apply State.Inv.mk' <;> simp [hi])

theorem execGemv_keeps (s : State) (ring : Nat) : s.Keeps (execGemv ring s) := by
  unfold execGemv
  refine keeps_next ?_ fun hi => ?_
  · split
    · rfl
    · dsimp only
      split
      · exact State.refuse_pending ..
      · exact (State.overHoles_pending ..).trans ((State.readDue_pending ..).trans
          ((foldl_pending fun t p => State.updWell_pending ..).trans (State.takeUp_pending ..)))
  · split
    · exact hi
    · dsimp only
      split
      · exact State.refuse_inv hi ..
      · exact State.overHoles_inv (State.readDue_inv
          (foldl_inv (State.takeUp_inv hi ..) fun t p ht => State.updWell_inv ht ..) ..) _

theorem execRill_keeps (s : State) (ring : Nat) : s.Keeps (execRill ring s) := by
  unfold execRill
  refine keeps_next ?_ fun hi => ?_
  · split
    · rfl
    · dsimp only
      split
      · exact State.refuse_pending ..
      · split
        · exact State.refuse_pending ..
        · exact (State.overHoles_pending ..).trans ((State.readDue_pending ..).trans
            ((State.updWell_pending ..).trans (State.takeUp_pending ..)))
  · split
    · exact hi
    · dsimp only
      split
      · exact State.refuse_inv hi ..
      · split
        · exact State.refuse_inv hi ..
        · exact State.overHoles_inv (State.readDue_inv (State.updWell_inv (State.takeUp_inv hi ..) ..) ..) _

theorem execCopy_keeps (s : State) (ring : Nat) : s.Keeps (execCopy ring s) := by
  unfold execCopy
  refine keeps_next ?_ fun hi => ?_
  · (try dsimp only); (repeat' split) <;> first | rfl | (simp; done)
  · (try dsimp only); (repeat' split) <;> first | exact hi | (simp [hi]; done) | (simp (maxDischargeDepth := 12) [hi]; done) | (apply State.Inv.mk' <;> simp [hi])

theorem execFill_keeps (s : State) (ring : Nat) : s.Keeps (execFill ring s) := by
  unfold execFill
  refine keeps_next ?_ fun hi => ?_
  · (try dsimp only); (repeat' split) <;> first | rfl | (simp; done)
  · (try dsimp only); (repeat' split) <;> first | exact hi | (simp [hi]; done) | (simp (maxDischargeDepth := 12) [hi]; done) | (apply State.Inv.mk' <;> simp [hi])

theorem execSched_keeps (s : State) (ring : Nat) : s.Keeps (execSched ring s) := by
  unfold execSched
  refine keeps_next ?_ fun hi => ?_
  · (try dsimp only); (repeat' split) <;> first | rfl | (simp; done)
  · (try dsimp only); (repeat' split) <;> first | exact hi | (simp [hi]; done) | (simp (maxDischargeDepth := 12) [hi]; done) | (apply State.Inv.mk' <;> simp [hi])

theorem execFence_keeps (s : State) (ring : Nat) : s.Keeps (execFence ring s) := by
  refine keeps_next ?_ fun hi => ?_
  · (repeat' split) <;> simp
  · (repeat' split) <;> simp [hi]

theorem execCensus_keeps (s : State) (ring : Nat) : s.Keeps (execCensus ring s) := by
  unfold execCensus
  refine keeps_next ?_ fun hi => ?_
  · (try dsimp only); (repeat' split) <;> first | rfl | (simp; done)
  · (try dsimp only); (repeat' split) <;> first | exact hi | (simp [hi]; done) | (simp (maxDischargeDepth := 12) [hi]; done) | (apply State.Inv.mk' <;> simp [hi])

theorem execFwchunk_keeps (s : State) (ring : Nat) : s.Keeps (execFwchunk ring s) := by
  unfold execFwchunk
  refine keeps_next ?_ fun hi => ?_
  · (try dsimp only); (repeat' split) <;> first | rfl | (simp; done)
  · (try dsimp only); (repeat' split) <;> first | exact hi | (simp [hi]; done) | (simp (maxDischargeDepth := 12) [hi]; done) | (apply State.Inv.mk' <;> simp [hi])

theorem execFwactivate_keeps (s : State) (ring : Nat) : s.Keeps (execFwactivate ring s) := by
  unfold execFwactivate
  refine keeps_next ?_ fun hi => ?_
  · have k (l : List Nat) : (l.foldl State.repair s).pending = s.pending := foldl_pending fun t c => State.repair_pending ..
    have k2 {t : State} (ht : t.pending = s.pending) (r : Nat) (j : Job) :
        (({ t with warden := { t.warden with activating := true } } : State).takeUp r j).pending = s.pending :=
      (State.takeUp_pending ..).trans ht
    split
    · rfl
    · split
      · rfl
      · split
        · simp
        · exact ite_pending (State.refuse_pending ..) (ite_pending ((State.refuse_pending ..).trans (k _)) (k2 (k _) ..))
  · have hf (l : List Nat) : (l.foldl State.repair s).Inv := foldl_inv hi fun t c ht => State.repair_inv ht c
    have hg {t : State} (ht : t.Inv) (r : Nat) (j : Job) :
        (({ t with warden := { t.warden with activating := true } } : State).takeUp r j).Inv :=
      State.takeUp_inv (State.Inv.warden ht _ (by exact ht.exports_wf)) ..
    split
    · exact hi
    · split
      · exact hi
      · split
        · exact State.refuse_inv hi ..
        · exact ite_inv (State.refuse_inv hi ..) (ite_inv (State.refuse_inv (hf _) ..) (hg (hf _) ..))

theorem execAttest_keeps (s : State) (ring : Nat) : s.Keeps (execAttest ring s) := by
  unfold execAttest
  have k {u : State} (hu : u.Inv) (w : Warden) (hw : w.exports = u.warden.exports) (j : Job) (d : RegionEntry) :
      ((({ u with warden := w } : State).takeUp ring j).moveDue j 255 d).Inv :=
    State.moveDue_inv (State.takeUp_inv (State.Inv.warden hu w (hw ▸ hu.exports_wf)) ..) ..
  refine keeps_next ?_ fun hi => ?_
  · split
    · rfl
    · dsimp only
      split
      · rfl
      · split <;> simp
  · split
    · exact hi
    · dsimp only
      split
      · exact hi
      · split
        · exact State.refuse_inv hi ..
        · exact k (State.writeRegion_inv hi ..) _ (by rfl) ..

theorem execExportStream_keeps (s : State) (ring : Nat) : s.Keeps (execExportStream ring s) := by
  unfold execExportStream
  have k {t : State} (ht : t.Inv) (part : Nat) (f : ExportKey → ExportKey) :
      ({ t with warden := { t.warden with exports := Tab.upd {} t.warden.exports part f } } : State).Inv :=
    State.Inv.warden ht _ (by exact exportsWf_upd ht.exports_wf ..)
  refine keeps_next ?_ fun hi => ?_
  · (repeat' split) <;> first | rfl | (simp; done) | (dsimp only; (repeat' split) <;> simp)
  · split
    · exact hi
    · dsimp only
      split
      · exact hi
      · split
        · exact State.refuse_inv hi ..
        · exact ite_inv (State.refuse_inv hi ..) (State.takeUp_inv (k (State.writeRegion_inv hi ..) ..) ..)

theorem execDescriptorFetch_keeps (s : State) (basin : Nat) : s.Keeps (execDescriptorFetch basin s) := by
  unfold execDescriptorFetch
  refine keeps_next ?_ fun hi => ?_
  · (try dsimp only); (repeat' split) <;> first | rfl | (simp; done)
  · (try dsimp only); (repeat' split) <;> first | exact hi | (simp [hi]; done) | (simp (maxDischargeDepth := 12) [hi]; done) | (apply State.Inv.mk' <;> simp [hi])

theorem execTileStart_keeps (s : State) (ring : Nat) (seq : Word) (jet : Nat) : s.Keeps (execTileStart ring seq jet s) := by
  refine keeps_next ?_ fun hi => ?_
  · split
    · rfl
    · split
      · rfl
      · exact ite_pending ((State.overHoles_pending ..).trans ((State.useStep_pending ..).trans (State.tileBegins_pending ..))) rfl
  · split
    · exact hi
    · split
      · exact hi
      · exact ite_inv (State.overHoles_inv (State.useStep_inv (State.tileBegins_inv hi ..) _) _) hi

theorem execTileCommit_keeps (s : State) (ring : Nat) (seq : Word) (jet : Nat) : s.Keeps (execTileCommit ring seq jet s) := by
  refine keeps_next ?_ fun hi => ?_
  · (repeat' split) <;> simp
  · (repeat' split) <;> simp [hi]

theorem execDescriptorComplete_keeps (s : State) (ring : Nat) (seq : Word) : s.Keeps (execDescriptorComplete ring seq s) := by
  unfold execDescriptorComplete
  refine keeps_next ?_ fun hi => ?_
  · split
    · rfl
    · split
      · rfl
      · split
        · rfl
        · rename_i h
          have k := fun j x => (State.finishJob_pending _ j x).trans (State.settleJob_keeps h).1
          exact ite_pending (k _ _) (ite_pending rfl (ite_pending (State.wake_pending ..) (k _ _)))
  · split
    · exact hi
    · split
      · exact hi
      · split
        · exact hi
        · rename_i h
          have k := fun j x => State.finishJob_inv ((State.settleJob_keeps h).2 hi) j x
          exact ite_inv (k _ _) (ite_inv hi (ite_inv (State.wake_inv hi ..) (k _ _)))

theorem execMeterComplete_keeps (s : State) (ring : Nat) (seq : Word) : s.Keeps (execMeterComplete ring seq s) := by
  unfold execMeterComplete
  refine keeps_next ?_ fun hi => ?_
  · (try dsimp only); (repeat' split) <;> first | rfl | (simp; done)
  · (try dsimp only); (repeat' split) <;> first | exact hi | (simp [hi]; done) | (simp (maxDischargeDepth := 12) [hi]; done) | (apply State.Inv.mk' <;> simp [hi])

theorem execVoteTaken_keeps (s : State) : s.Keeps (execVoteTaken s) := by
  unfold execVoteTaken
  refine keeps_next ?_ fun hi => ?_
  · (try dsimp only); (repeat' split) <;> first | rfl | (simp; done)
  · dsimp only
    repeat' split
    · exact hi
    · exact hi
    · exact State.Inv.port hi _
    · exact State.finish_inv (State.Inv.port hi _) ..
    · exact State.Inv.port hi _

theorem execVerdict_keeps (s : State) (record : List Byte) (whole : Bool) : s.Keeps (execVerdict record whole s) := by
  unfold execVerdict
  refine keeps_next ?_ fun hi => ?_
  · (try dsimp only); (repeat' split) <;> first | rfl | (simp; done)
  · (try dsimp only); (repeat' split) <;> first | exact hi | (simp [hi]; done) | (simp (maxDischargeDepth := 12) [hi]; done) | (apply State.Inv.mk' <;> simp [hi])

theorem execDoorbellWrite_keeps (s : State) (part ring : Nat) (value : Word64) : s.Keeps (execDoorbellWrite part ring value s) := by
  refine keeps_next ?_ fun hi => ?_
  · (repeat' split) <;> simp
  · (repeat' split) <;> simp [hi]

theorem execRingResume_keeps (s : State) (part ring : Nat) (value : Word64) : s.Keeps (execRingResume part ring value s) := by
  refine keeps_next ?_ fun hi => ?_
  · (repeat' split) <;> simp
  · (repeat' split) <;> simp [hi]

theorem execPin_keeps (s : State) (part shard : Nat) : s.Keeps (execPin part shard s) := by
  unfold execPin
  refine keeps_next ?_ fun hi => ?_
  · (try dsimp only); (repeat' split) <;> first | rfl | (simp; done)
  · (try dsimp only); (repeat' split) <;> first | exact hi | (simp [hi]; done) | (simp (maxDischargeDepth := 12) [hi]; done) | (apply State.Inv.mk' <;> simp [hi])

theorem execUnpin_keeps (s : State) (part shard : Nat) (value : Word64) : s.Keeps (execUnpin part shard value s) := by
  refine keeps_next ?_ fun hi => ?_
  · (repeat' split) <;> simp
  · (repeat' split) <;> simp [hi]

theorem execDoorbellPageBadAccess_keeps (s : State) (part offset size : Nat) (write : Bool) : s.Keeps (execDoorbellPageBadAccess part offset size write s) := by
  unfold execDoorbellPageBadAccess
  refine keeps_next ?_ fun hi => ?_
  · (try dsimp only); (repeat' split) <;> first | rfl | (simp; done)
  · (try dsimp only); (repeat' split) <;> first | exact hi | (simp [hi]; done) | (simp (maxDischargeDepth := 12) [hi]; done) | (apply State.Inv.mk' <;> simp [hi])

theorem execRegionCommit_keeps (s : State) (part : Nat) (value : Word) : s.Keeps (execRegionCommit part value s) := keeps_next (State.pending_regWrite _ _ _ _ _ (by simp)) fun hi => State.inv_regWrite hi _ _ _ _ (by simp [hi])

theorem execRegionClear_keeps (s : State) (part : Nat) (value : Word) : s.Keeps (execRegionClear part value s) := keeps_next (State.pending_regWrite _ _ _ _ _ (by simp)) fun hi => State.inv_regWrite hi _ _ _ _ (by simp [hi])

theorem execRangeAck_keeps (s : State) (jet : Nat) : s.Keeps (execRangeAck jet s) := by
  unfold execRangeAck
  refine keeps_next ?_ fun hi => ?_
  · (try dsimp only); (repeat' split) <;> first | rfl | (simp; done)
  · (try dsimp only); (repeat' split) <;> first | exact hi | (simp [hi]; done) | (simp (maxDischargeDepth := 12) [hi]; done) | (apply State.Inv.mk' <;> simp [hi])

theorem execRingEnable_keeps (s : State) (part : Nat) (value : Word) : s.Keeps (execRingEnable part value s) := keeps_next (State.pending_regWrite _ _ _ _ _ (by simp)) fun hi => State.inv_regWrite hi _ _ _ _ (by simp [hi])

theorem execRingDisable_keeps (s : State) (part : Nat) (value : Word) : s.Keeps (execRingDisable part value s) := keeps_next (State.pending_regWrite _ _ _ _ _ (by simp)) fun hi => State.inv_regWrite hi _ _ _ _ (by simp [hi])

theorem execProgramCommit_keeps (s : State) (part : Nat) (value : Word) : s.Keeps (execProgramCommit part value s) := keeps_next (State.pending_regWrite _ _ _ _ _ (by simp)) fun hi => State.inv_regWrite hi _ _ _ _ (by simp [hi])

theorem execProgramClear_keeps (s : State) (part : Nat) (value : Word) : s.Keeps (execProgramClear part value s) := keeps_next (State.pending_regWrite _ _ _ _ _ (by simp)) fun hi => State.inv_regWrite hi _ _ _ _ (by simp [hi])

theorem execJetMove_keeps (s : State) (part jet : Nat) (value : Word) : s.Keeps (execJetMove part jet value s) := keeps_next (State.pending_regWrite _ _ _ _ _ (by simp)) fun hi => State.inv_regWrite hi _ _ _ _ (by simp [hi])

theorem execStepWrite_keeps (s : State) (part shard : Nat) (value : Word) : s.Keeps (execStepWrite part shard value s) := keeps_next (State.pending_regWrite _ _ _ _ _ (by simp)) fun hi => State.inv_regWrite hi _ _ _ _ (by simp [hi])

theorem execRetire_keeps (s : State) (part shard : Nat) (value : Word) : s.Keeps (execRetire part shard value s) := keeps_next (State.pending_regWrite _ _ _ _ _ (by simp)) fun hi => State.inv_regWrite hi _ _ _ _ (by simp [hi])

theorem execPartGo_keeps (s : State) (part : Nat) (value : Word) : s.Keeps (execPartGo part value s) := keeps_next (State.pending_regWrite _ _ _ _ _ (by simp)) fun hi => State.inv_regWrite hi _ _ _ _ (by simp [hi])

theorem execPartitionResetDone_keeps (s : State) (part : Nat) : s.Keeps (execPartitionResetDone part s) := by
  unfold execPartitionResetDone
  refine keeps_next ?_ fun hi => ?_
  · split
    · rfl
    · split
      · rfl
      · dsimp only
        refine (State.settleOwners_pending _).trans (ite_pending ?_ ((foldl_pending fun t e => State.endUnlessHeld_pending ..).trans ?_)) <;> simp
  · split
    · exact hi
    · split
      · exact hi
      · have h := State.clearTallies_inv (State.resetTenancy_inv (State.resetShards_inv (State.disableRings_inv hi part) part) part) (s.jetsOf part)
        have h2 := State.Inv.resets h { (((((s.disableRings part).resetShards part).resetTenancy part).clearTallies (s.jetsOf part)).resets) with
          parts := Tab.set none (((((s.disableRings part).resetShards part).resetTenancy part).clearTallies (s.jetsOf part)).resets).parts part none }
            (Tab.wf_set h.resetParts_wf ..)
        dsimp only
        refine State.settleOwners_inv (ite_inv (State.emit_inv h2 _) (foldl_inv h2 fun t e ht => State.endUnlessHeld_inv ht e))

theorem execJetRst_keeps (s : State) (part : Nat) (value : Word) : s.Keeps (execJetRst part value s) := keeps_next (State.pending_regWrite _ _ _ _ _ (by simp)) fun hi => State.inv_regWrite hi _ _ _ _ (by simp [hi])

theorem execCensusLogWrite_keeps (s : State) (part log : Nat) (value : Word) : s.Keeps (execCensusLogWrite part log value s) := keeps_next (State.pending_regWrite _ _ _ _ _ (by simp)) fun hi => State.inv_regWrite hi _ _ _ _ (by simp [hi])

theorem execSluiceLogWrite_keeps (s : State) (part : Nat) (value : Word) : s.Keeps (execSluiceLogWrite part value s) := keeps_next (State.pending_regWrite _ _ _ _ _ (by simp)) fun hi => State.inv_regWrite hi _ _ _ _ (by simp [hi])

theorem execClrDrops_keeps (s : State) (part : Nat) (value : Word) : s.Keeps (execClrDrops part value s) := keeps_next (State.pending_regWrite _ _ _ _ _ (by simp)) fun hi => State.inv_regWrite hi _ _ _ _ (by simp [hi])

theorem execAlarmPop_keeps (s : State) (part : Nat) (value : Word) : s.Keeps (execAlarmPop part value s) := keeps_next (State.pending_regWrite _ _ _ _ _ (by simp)) fun hi => State.inv_regWrite hi _ _ _ _ (by simp [hi])

theorem execAlarmHeadRead_keeps (s : State) (part : Nat) : s.Keeps (execAlarmHeadRead part s) := keeps_next (State.pending_regReadAt _ _ _ _ (by simp)) fun hi => State.inv_regReadAt hi _ _ _ (by simp [hi])

theorem execCounterLowRead_keeps (s : State) (part addr : Nat) : s.Keeps (execCounterLowRead part addr s) := keeps_next (State.pending_regReadAt _ _ _ _ (by simp)) fun hi => State.inv_regReadAt hi _ _ _ (by simp [hi])

theorem execFaultCntClear_keeps (s : State) (part jet : Nat) (value : Word) : s.Keeps (execFaultCntClear part jet value s) := keeps_next (State.pending_regWrite _ _ _ _ _ (by simp)) fun hi => State.inv_regWrite hi _ _ _ _ (by simp [hi])

theorem execClkHoldWrite_keeps (s : State) (part : Nat) (value : Word) : s.Keeps (execClkHoldWrite part value s) := keeps_next (State.pending_regWrite _ _ _ _ _ (by simp)) fun hi => State.inv_regWrite hi _ _ _ _ (by simp [hi])

theorem execDbgCtlWrite_keeps (s : State) (part : Nat) (value : Word) : s.Keeps (execDbgCtlWrite part value s) := keeps_next (State.pending_regWrite _ _ _ _ _ (by simp)) fun hi => State.inv_regWrite hi _ _ _ _ (by simp [hi])

theorem execKeyxGo_keeps (s : State) (part : Nat) (value : Word) : s.Keeps (execKeyxGo part value s) := keeps_next (State.pending_regWrite _ _ _ _ _ (by simp)) fun hi => State.inv_regWrite hi _ _ _ _ (by simp [hi])

theorem execKeyAgreementDone_keeps (s : State) : s.Keeps (execKeyAgreementDone s) := by
  unfold execKeyAgreementDone
  refine keeps_next ?_ fun hi => ?_
  · (try dsimp only); (repeat' split) <;> first | rfl | (simp; done)
  · have h : exportsWf s.warden.keyed.exports := by
      unfold Warden.keyed
      dsimp only
      split
      · exact exportsWf_set hi.exports_wf ..
      · exact hi.exports_wf
    split
    · exact hi
    · exact State.emit_inv (State.retireKeys_inv (State.Inv.warden hi _ h)) _

theorem execRegisterWrite_keeps (s : State) (part addr : Nat) (value : Word) : s.Keeps (execRegisterWrite part addr value s) := keeps_next (State.pending_regWrite _ _ _ _ _ (by simp)) fun hi => State.inv_regWrite hi _ _ _ _ (by simp [hi])

theorem execBootGo_keeps (s : State) (part : Nat) (value : Word) : s.Keeps (execBootGo part value s) := keeps_next (State.pending_regWrite _ _ _ _ _ (by simp)) fun hi => State.inv_regWrite hi _ _ _ _ (by simp [hi])

theorem execRomDone_keeps (s : State) (pufOk : Bool) : s.Keeps (execRomDone pufOk s) := by
  unfold execRomDone
  refine keeps_next ?_ fun hi => ?_
  · (try dsimp only); (repeat' split) <;> first | rfl | (simp; done)
  · have h := State.Inv.boot (State.identify_inv hi) ({ s.boot with phase := .waitGo }) hi.temperJets_wf
    dsimp only
    repeat' split
    · exact hi
    · exact State.haltBoot_inv hi _
    · exact State.startBoot_inv h
    · exact h

theorem execBootVerify_keeps (s : State) (readOk : Bool) : s.Keeps (execBootVerify readOk s) := by
  unfold execBootVerify
  have k (t : State) (hp : t.pending = s.pending) (ht : s.Inv → t.Inv) (r : BootReads) (w : Bool) (n : Nat) :
      s.Keeps (.next (match n with | 0 => t.acceptBoot r w | k => t.haltBoot k)) := by
    refine keeps_next ?_ fun hi => ?_
    · split <;> simp [hp]
    · split <;> simp [ht hi]
  split
  · exact keeps_next rfl id
  · refine k _ ?_ ?_ _ _ _
    · split <;> rfl
    · intro hi
      split
      · exact hi
      · exact State.Inv.boot hi _ (by exact hi.temperJets_wf)

theorem execBootMap_keeps (s : State) (badLanes : List (Nat × Nat × Nat)) : s.Keeps (execBootMap badLanes s) := by
  unfold execBootMap
  refine keeps_next ?_ fun hi => ?_
  · (try dsimp only); (repeat' split) <;> first | rfl | (simp; done)
  · have h := State.Inv.boot hi ({ s.boot with phase := .load }) hi.temperJets_wf
    dsimp only
    repeat' split
    · exact hi
    · exact State.mapWarm_inv h
    · exact State.mapFull_inv h ..
    · exact State.haltBoot_inv hi _

theorem execBootLoad_keeps (s : State) (gauges : List (List Nat)) : s.Keeps (execBootLoad gauges s) := by
  unfold execBootLoad
  refine keeps_next ?_ fun hi => ?_
  · (try dsimp only); (repeat' split) <;> first | rfl | (simp; done)
  · have h (x : Boot) (hx : x.temper = s.boot.temper) (y : Sluice) (hy : y.alarms = s.sluice.alarms) (r : Nat) :
        ({ s with boot := x, pourReady := r, sluice := y } : State).Inv :=
      State.Inv.sluice (State.Inv.pourReady (State.Inv.boot hi x (hx ▸ hi.temperJets_wf)) r) y (hy ▸ hi.alarms)
    dsimp only
    split
    · exact hi
    · refine State.settleOwners_inv (State.emitAll_inv (State.updJets_inv (State.updAllBasins_inv (h _ (by rfl) _ (by rfl) _) _ ?_) ..) _)
      intro _; rfl

theorem execStationSelfTestDone_keeps (s : State) (jet : Nat) (station : Station) (pass inBanks : Bool) (spares : Nat) : s.Keeps (execStationSelfTestDone jet station pass inBanks spares s) := by
  unfold execStationSelfTestDone
  refine keeps_next ?_ fun hi => ?_
  · (try dsimp only); (repeat' split) <;> first | rfl | (simp; done)
  · (try dsimp only); (repeat' split) <;> first | exact hi | (simp [hi]; done) | (simp (maxDischargeDepth := 12) [hi]; done) | (apply State.Inv.mk' <;> simp [hi])

theorem execTestEnd_keeps (s : State) : s.Keeps (execTestEnd s) := by
  unfold execTestEnd
  refine keeps_next ?_ fun hi => ?_
  · (try dsimp only); (repeat' split) <;> first | rfl | (simp; done)
  · have h (x : Boot) (hx : x.temper = s.boot.temper) : ({ s with boot := x } : State).Inv :=
      State.Inv.boot hi x (hx ▸ hi.temperJets_wf)
    dsimp only
    repeat' split
    · exact hi
    · exact h _ rfl
    · exact h _ rfl
    · exact State.beginSoak_inv (h _ (by rfl))

theorem execSoakSweepDone_keeps (s : State) : s.Keeps (execSoakSweepDone s) := by
  unfold execSoakSweepDone
  refine keeps_next ?_ fun hi => ?_
  · dsimp only
    split
    · rfl
    · exact (foldl_pending fun t x => State.soakSweep_pending ..).trans (State.draw_pending ..)
  · dsimp only
    split
    · exact hi
    · have h (l : List Nat) (f : State → Nat → State) (hf : ∀ t x, State.Inv t → (f t x).Inv) :
          (l.foldl f (s.draw 1)).Inv := foldl_inv (State.draw_inv hi 1) hf
      exact State.Inv.boot (h _ _ fun t x ht => State.soakSweep_inv ht ..) _ (h _ _ fun t x ht => State.soakSweep_inv ht ..).temperJets_wf

theorem execSoakEnd_keeps (s : State) : s.Keeps (execSoakEnd s) := by
  unfold execSoakEnd
  have k {x : Boot} (hx : x.temper = s.boot.temper) (l : List Nat) : s.Keeps (.next (({ s with boot := x } : State).soakFails l)) :=
    keeps_next (State.soakFails_pending ..) fun hi => State.soakFails_inv (State.Inv.boot hi x (hx ▸ hi.temperJets_wf)) _
  split
  · exact keeps_next rfl id
  · exact k (by rfl) _

theorem execTemperWrite_keeps (s : State) : s.Keeps (execTemperWrite s) := by
  unfold execTemperWrite
  have k {x : Boot} (hx : jetsWf x.temper.jets) (a : Nat) (bs : List Byte) (c n : Nat) :
      s.Keeps (.next ((({ s with boot := x } : State).put true a bs c).draw n)) :=
    keeps_next (by simp) fun hi => State.draw_inv (State.put_inv (State.Inv.boot hi x hx) ..) _
  split
  · exact keeps_next rfl id
  · exact k (by exact State.temperNow_jets) _ _ _ _

theorem execTemperWriteDone_keeps (s : State) : s.Keeps (execTemperWriteDone s) := by
  unfold execTemperWriteDone
  have k {x : Boot} (hx : x.temper = s.boot.temper) : s.Keeps (.next ({ s with boot := x } : State).endSoak) :=
    keeps_next (State.endSoak_pending ..) fun hi => State.endSoak_inv (State.Inv.boot hi x (hx ▸ hi.temperJets_wf))
  split
  · exact keeps_next rfl id
  · exact k (by rfl)

theorem execMzRstAssert_keeps (s : State) : s.Keeps (execMzRstAssert s) := by
  unfold execMzRstAssert
  refine keeps_next ?_ fun hi => ?_
  · split
    · rfl
    · exact (State.settleOwners_pending ..).trans ((State.endAll_pending ..).trans (State.unhaltAll_pending _))
  · exact ite_inv hi (State.settleOwners_inv (State.Inv.clocks (State.endAll_inv (State.unhaltAll_inv hi) _) _))

theorem execMzRstDeassert_keeps (s : State) : s.Keeps (execMzRstDeassert s) := by
  unfold execMzRstDeassert
  refine keeps_next ?_ fun hi => ?_
  · (try dsimp only); (repeat' split) <;> first | rfl | (simp; done)
  · (try dsimp only); (repeat' split) <;> first | exact hi | (simp [hi]; done) | (simp (maxDischargeDepth := 12) [hi]; done) | (apply State.Inv.mk' <;> simp [hi])

theorem execAonPowerLoss_keeps (s : State) : s.Keeps (execAonPowerLoss s) := keeps_next rfl fun hi => State.Inv.boot hi _ (by exact hi.temperJets_wf)

theorem execJetResetAssert_keeps (s : State) (jet : Nat) : s.Keeps (execJetResetAssert jet s) := by
  refine keeps_next ?_ fun hi => ?_
  · (repeat' split) <;> simp
  · (repeat' split) <;> simp [hi]

theorem execJetResetEnd_keeps (s : State) (jet : Nat) : s.Keeps (execJetResetEnd jet s) := by
  unfold execJetResetEnd
  refine keeps_next ?_ fun hi => ?_
  · (try dsimp only); (repeat' split) <;> first | rfl | (simp; done)
  · (try dsimp only); (repeat' split) <;> first | exact hi | (simp [hi]; done) | (simp (maxDischargeDepth := 12) [hi]; done) | (apply State.Inv.mk' <;> simp [hi])

theorem execBasinResetAssert_keeps (s : State) (basin : Nat) : s.Keeps (execBasinResetAssert basin s) := by
  refine keeps_next ?_ fun hi => ?_
  · (repeat' split) <;> simp
  · (repeat' split) <;> simp [hi]

theorem execBasinResetDeassert_keeps (s : State) (basin : Nat) : s.Keeps (execBasinResetDeassert basin s) := by
  unfold execBasinResetDeassert
  refine keeps_next ?_ fun hi => ?_
  · (try dsimp only); (repeat' split) <;> first | rfl | (simp; done)
  · (try dsimp only); (repeat' split) <;> first | exact hi | (simp [hi]; done) | (simp (maxDischargeDepth := 12) [hi]; done) | (apply State.Inv.mk' <;> simp [hi])

theorem execDrainTimeout_keeps (s : State) (level : ResetLevel) (index : Nat) : s.Keeps (execDrainTimeout level index s) := by
  refine keeps_next ?_ fun hi => ?_
  · (repeat' split) <;> simp
  · (repeat' split) <;> simp [hi]

theorem execJetSleep_keeps (s : State) (jet : Nat) : s.Keeps (execJetSleep jet s) := by
  unfold execJetSleep
  refine keeps_next ?_ fun hi => ?_
  · (try dsimp only); (repeat' split) <;> first | rfl | (simp; done)
  · (try dsimp only); (repeat' split) <;> first | exact hi | (simp [hi]; done) | (simp (maxDischargeDepth := 12) [hi]; done) | (apply State.Inv.mk' <;> simp [hi])

theorem execBasinSleep_keeps (s : State) (basin : Nat) : s.Keeps (execBasinSleep basin s) := by
  unfold execBasinSleep
  refine keeps_next ?_ fun hi => ?_
  · (try dsimp only); (repeat' split) <;> first | rfl | (simp; done)
  · (try dsimp only); (repeat' split) <;> first | exact hi | (simp [hi]; done) | (simp (maxDischargeDepth := 12) [hi]; done) | (apply State.Inv.mk' <;> simp [hi])

theorem execMzWake_keeps (s : State) : s.Keeps (execMzWake s) := by
  unfold execMzWake
  have k (hi : s.Inv) : ({ s with clocks := { s.clocks with wake := !s.clocks.wake } } : State).Inv := State.Inv.clocks hi _
  refine keeps_next ?_ fun hi => ?_
  · dsimp only
    split
    · rfl
    · exact State.wake_pending ..
  · exact ite_inv (k hi) (State.wake_inv (k hi) ..)

theorem execWakeDone_keeps (s : State) (ofBasin : Bool) (index : Nat) : s.Keeps (execWakeDone ofBasin index s) := by
  unfold execWakeDone
  refine keeps_next ?_ fun hi => ?_
  · (try dsimp only); (repeat' split) <;> first | rfl | (simp; done)
  · (try dsimp only); (repeat' split) <;> first | exact hi | (simp [hi]; done) | (simp (maxDischargeDepth := 12) [hi]; done) | (apply State.Inv.mk' <;> simp [hi])

theorem execFreeze_keeps (s : State) : s.Keeps (execFreeze s) := by
  unfold execFreeze
  refine keeps_next ?_ fun hi => ?_
  · split <;> simp
  · exact ite_inv hi (State.settleOwners_inv (State.Inv.clocks hi _))

theorem execFreezeClocksStop_keeps (s : State) : s.Keeps (execFreezeClocksStop s) := by
  unfold execFreezeClocksStop
  refine keeps_next ?_ fun hi => ?_
  · (try dsimp only); (repeat' split) <;> first | rfl | (simp; done)
  · (try dsimp only); (repeat' split) <;> first | exact hi | (simp [hi]; done) | (simp (maxDischargeDepth := 12) [hi]; done) | (apply State.Inv.mk' <;> simp [hi])

theorem execThaw_keeps (s : State) : s.Keeps (execThaw s) := by
  unfold execThaw
  have k (t : State) : ((if s.clocks.freeze = .frozen then t.loseAnswers else t).heldResets).settleOwners.pending = t.pending := by
    split <;> simp
  have ki {t : State} (ht : t.Inv) : ((if s.clocks.freeze = .frozen then t.loseAnswers else t).heldResets).settleOwners.Inv :=
    State.settleOwners_inv (State.heldResets_inv (ite_inv (State.loseAnswers_inv ht) ht))
  have k2 (u : State) : (let v := if u.clocks.wake then u.wake u.jetsPresent (List.range 6) else u
      if v.portHeld then v else v.serveWaiting).pending = u.pending := by
    have h : (if u.clocks.wake then u.wake u.jetsPresent (List.range 6) else u).pending = u.pending := by split <;> simp
    exact ite_pending h ((State.serveWaiting_pending ..).trans h)
  have ki2 {u : State} (hu : u.Inv) : (let v := if u.clocks.wake then u.wake u.jetsPresent (List.range 6) else u
      if v.portHeld then v else v.serveWaiting).Inv := by
    have h : (if u.clocks.wake then u.wake u.jetsPresent (List.range 6) else u).Inv := ite_inv (State.wake_inv hu ..) hu
    exact ite_inv h (State.serveWaiting_inv h)
  split
  · exact keeps_next rfl id
  · exact keeps_next ((k2 _).trans (k _)) fun hi => ki2 (ki (State.Inv.clocks hi _))

theorem execTakeAck_keeps (s : State) (basin : Nat) : s.Keeps (execTakeAck basin s) := by
  refine keeps_next ?_ fun hi => ?_
  · (repeat' split) <;> simp
  · (repeat' split) <;> simp [hi]

theorem execRefreshTick_keeps (s : State) (jet bank : Nat) : s.Keeps (execRefreshTick jet bank s) := by
  refine keeps_next ?_ fun hi => ?_
  · (repeat' split) <;> simp
  · (repeat' split) <;> simp [hi]

theorem execRefreshIssue_keeps (s : State) (jet bank : Nat) : s.Keeps (execRefreshIssue jet bank s) := by
  unfold execRefreshIssue
  refine keeps_next ?_ fun hi => ?_
  · (try dsimp only); (repeat' split) <;> first | rfl | (simp; done)
  · (try dsimp only); (repeat' split) <;> first | exact hi | (simp [hi]; done) | (simp (maxDischargeDepth := 12) [hi]; done) | (apply State.Inv.mk' <;> simp [hi])

theorem execRillStart_keeps (s : State) (jet : Nat) : s.Keeps (execRillStart jet s) := by
  unfold execRillStart
  refine keeps_next ?_ fun hi => ?_
  · (try dsimp only); (repeat' split) <;> first | rfl | (simp; done)
  · (try dsimp only); (repeat' split) <;> first | exact hi | (simp [hi]; done) | (simp (maxDischargeDepth := 12) [hi]; done) | (apply State.Inv.mk' <;> simp [hi])

theorem execRillWord_keeps (s : State) (jet : Nat) : s.Keeps (execRillWord jet s) := by
  unfold execRillWord
  refine keeps_next ?_ fun hi => ?_
  · (try dsimp only); (repeat' split) <;> first | rfl | (simp; done)
  · (try dsimp only); (repeat' split) <;> first | exact hi | (simp [hi]; done) | (simp (maxDischargeDepth := 12) [hi]; done) | (apply State.Inv.mk' <;> simp [hi])

theorem execOpack_keeps (s : State) (jet number : Nat) (late : Bool) : s.Keeps (execOpack jet number late s) := by
  unfold execOpack
  refine keeps_next ?_ fun hi => ?_
  · (try dsimp only); (repeat' split) <;> first | rfl | (simp; done)
  · (try dsimp only); (repeat' split) <;> first | exact hi | (simp [hi]; done) | (simp (maxDischargeDepth := 12) [hi]; done) | (apply State.Inv.mk' <;> simp [hi])

theorem execBankIdle_keeps (s : State) (jet channel : Nat) (mask : BitVec 16) : s.Keeps (execBankIdle jet channel mask s) := by
  refine keeps_next ?_ fun hi => ?_
  · (repeat' split) <;> simp
  · (repeat' split) <;> simp [hi]

theorem execPend_keeps (s : State) (jet bank : Nat) : s.Keeps (execPend jet bank s) := by
  unfold execPend
  refine keeps_next ?_ fun hi => ?_
  · (try dsimp only); (repeat' split) <;> first | rfl | (simp; done)
  · (try dsimp only); (repeat' split) <;> first | exact hi | (simp [hi]; done) | (simp (maxDischargeDepth := 12) [hi]; done) | (apply State.Inv.mk' <;> simp [hi])

theorem execGemvDrainDone_keeps (s : State) (jet : Nat) : s.Keeps (execGemvDrainDone jet s) := by
  unfold execGemvDrainDone
  refine keeps_next ?_ fun hi => ?_
  · (try dsimp only); (repeat' split) <;> first | rfl | (simp; done)
  · (try dsimp only); (repeat' split) <;> first | exact hi | (simp [hi]; done) | (simp (maxDischargeDepth := 12) [hi]; done) | (apply State.Inv.mk' <;> simp [hi])

theorem execPatrolRead_keeps (s : State) (jet : Nat) : s.Keeps (execPatrolRead jet s) := by
  unfold execPatrolRead
  refine keeps_next ?_ fun hi => ?_
  · (try dsimp only); (repeat' split) <;> first | rfl | (simp [foldl_pending]; done)
  · (try dsimp only); (repeat' split) <;> first | exact hi | (simp (maxDischargeDepth := 12) [hi]; done) | (simp +contextual (maxDischargeDepth := 12) [foldl_inv, hi]; done) | (apply State.Inv.mk' <;> simp [hi])

theorem execSealReport_keeps (s : State) (jet offset : Nat) (enables : BitVec 64) : s.Keeps (execSealReport jet offset enables s) := by
  unfold execSealReport
  refine keeps_next ?_ fun hi => ?_
  · dsimp only
    split
    · rfl
    · exact (foldl_pending fun t x => State.sealReported_pending ..).trans (State.draw_pending ..)
  · dsimp only
    split
    · exact hi
    · exact foldl_inv (State.draw_inv (State.Inv.withMem hi (memPatch_wf hi.mem _)) 64) fun t x ht => State.sealReported_inv ht x

theorem execLandingWrite_keeps (s : State) (jet offset : Nat) (enables : BitVec 64) (data : List Byte) (tag : Nat) : s.Keeps (execLandingWrite jet offset enables data tag s) := by
  unfold execLandingWrite
  refine keeps_next ?_ fun hi => ?_
  · dsimp only
    split
    · rfl
    · exact State.tapBeat_pending ..
  · dsimp only
    split
    · exact hi
    · exact State.tapBeat_inv (State.Inv.withMem hi (memPatch_wf hi.mem _)) ..

theorem execFlushAck_keeps (s : State) (jet : Nat) : s.Keeps (execFlushAck jet s) := by
  refine keeps_next ?_ fun hi => ?_
  · (repeat' split) <;> simp
  · (repeat' split) <;> simp [hi]

theorem execStackResponse_keeps (s : State) (jet : Nat) (request : RequestFor) (status : PortStatus) : s.Keeps (execStackResponse jet request status s) := by
  refine keeps_next ?_ fun hi => ?_
  · (repeat' split) <;> simp
  · (repeat' split) <;> simp [hi]

theorem execFabricResponse_keeps (s : State) (basin : Nat) (request : RequestFor) (status : PortStatus) : s.Keeps (execFabricResponse basin request status s) := by
  refine keeps_next ?_ fun hi => ?_
  · (repeat' split) <;> simp
  · (repeat' split) <;> simp [hi]

theorem execFlit_keeps (s : State) (basin direction lane : Nat) (arrival : Arrival) : s.Keeps (execFlit basin direction lane arrival s) := by
  unfold execFlit
  refine keeps_next ?_ fun hi => ?_
  · (try dsimp only); (repeat' split) <;> first | rfl | (simp; done)
  · (try dsimp only); (repeat' split) <;> first | exact hi | (simp [hi]; done) | (simp (maxDischargeDepth := 12) [hi]; done) | (apply State.Inv.mk' <;> simp [hi])

theorem execLaneRetrain_keeps (s : State) (basin direction lane margin : Nat) : s.Keeps (execLaneRetrain basin direction lane margin s) := by
  refine keeps_next ?_ fun hi => ?_
  · (repeat' split) <;> simp
  · (repeat' split) <;> simp [hi]

theorem execSluiceWrite_keeps (s : State) (basin : Nat) : s.Keeps (execSluiceWrite basin s) := by
  unfold execSluiceWrite
  refine keeps_next ?_ fun hi => ?_
  · (repeat' split) <;> simp
  · split
    · exact hi
    · rename_i r rest hq
      refine ite_inv hi (ite_inv (ite_inv hi (State.wake_inv hi ..)) (ite_inv hi ?_))
      have hl : (s.basin basin).queue.length ≤ 64 := queue_fits hi.queues basin
      rw [hq] at hl
      refine State.endEpisode_inv (State.writeLog_inv (State.updBasin_inv' hi basin _ fun x _ => ?_) ..) _
      exact Nat.le_of_succ_le hl

theorem execDetectedError_keeps (s : State) (cls : FaultClass) (place index : Nat) (work : Option (Nat × Word)) : s.Keeps (execDetectedError cls place index work s) := by
  refine keeps_next ?_ fun hi => ?_
  · (repeat' split) <;> simp
  · (repeat' split) <;> simp [hi]

theorem execCorrection_keeps (s : State) (cls : FaultClass) (place index : Nat) : s.Keeps (execCorrection cls place index s) := by
  refine keeps_next ?_ fun hi => ?_
  · (repeat' split) <;> simp
  · (repeat' split) <;> simp [hi]

theorem execSelfTestResult_keeps (s : State) (cls : FaultClass) (place index : Nat) (pass : Bool) : s.Keeps (execSelfTestResult cls place index pass s) := by
  unfold execSelfTestResult
  refine keeps_next ?_ fun hi => ?_
  · (try dsimp only); (repeat' split) <;> first | rfl | (simp; done)
  · split
    · exact hi
    · have ht (l : List Test) := State.Inv.tests hi l
      dsimp only
      repeat' split
      · exact hi
      · exact State.faultRecord_inv (State.updJet_inv (ht _) ..) ..
      · exact State.remedy_inv (State.faultRecord_inv (ht _) ..) ..

theorem execAdoptionDone_keeps (s : State) (jet : Nat) : s.Keeps (execAdoptionDone jet s) := by
  unfold execAdoptionDone
  refine keeps_next ?_ fun hi => ?_
  · (try dsimp only); (repeat' split) <;> first | rfl | (simp; done)
  · (try dsimp only); (repeat' split) <;> first | exact hi | (simp [hi]; done) | (simp (maxDischargeDepth := 12) [hi]; done) | (apply State.Inv.mk' <;> simp [hi])

theorem execBankCopyDone_keeps (s : State) (jet : Nat) : s.Keeps (execBankCopyDone jet s) := by
  unfold execBankCopyDone
  have h2 {t : State} (h : t.Inv) (f : Nat → RegionEntry → RegionEntry) :
      ({ t with regions := Tab.mapVals {} f t.regions } : State).Inv := State.Inv.withRegions h (regionsWf_mapVals h.regions_wf f)
  refine keeps_next ?_ fun hi => ?_
  · split
    · rfl
    · dsimp only
      (repeat' split) <;> first | rfl | (simp; done)
  · split
    · exact hi
    · dsimp only
      split
      · exact hi
      · refine ite_inv (State.spareIn_inv (h2 ?_ _) ..) (State.setCode_inv (State.spareIn_inv (h2 ?_ _) ..) ..)
        all_goals exact State.loseRows_inv (State.freeTally_inv (State.updWell_inv hi ..) ..) ..

theorem execCopyReload_keeps (s : State) (ofWarden : Bool) (copy : Nat) (pass : Bool) : s.Keeps (execCopyReload ofWarden copy pass s) := by
  unfold execCopyReload
  refine keeps_next ?_ fun hi => ?_
  · dsimp only
    split
    · rfl
    · split <;> simp
  · have k := fun c => State.putCopies_inv (State.Inv.tests hi s.tests.tail) ofWarden c
    exact ite_inv hi (ite_inv (State.faultRecord_inv (k _) ..) (State.emit_inv (State.faultRecord_inv (k _) ..) _))

theorem execReplan_keeps (s : State) (gauges : List (List Nat)) (eyes : List Nat) : s.Keeps (execReplan gauges eyes s) := by
  unfold execReplan
  refine keeps_next ?_ fun hi => ?_
  · (try dsimp only); (repeat' split) <;> first | rfl | (simp [foldl_pending]; done)
  · (try dsimp only); (repeat' split) <;> first | exact hi | (simp (maxDischargeDepth := 12) [hi]; done) | (simp +contextual (maxDischargeDepth := 12) [foldl_inv, hi]; done) | (apply State.Inv.mk' <;> simp [hi])

theorem execChunkFetch_keeps (s : State) (core : Nat) : s.Keeps (execChunkFetch core s) := by
  refine keeps_next ?_ fun hi => ?_
  · (repeat' split) <;> simp
  · (repeat' split) <;> simp [hi]

theorem execFwSwap_keeps (s : State) : s.Keeps (execFwSwap s) := by
  unfold execFwSwap
  refine keeps_next ?_ fun hi => ?_
  · (try dsimp only); (repeat' split) <;> first | rfl | (simp; done)
  · have h (x : Warden) (hx : x.exports = s.warden.exports) (y : Boot) (hy : y.temper = s.boot.temper) :
        ({ s with warden := x, boot := y } : State).Inv :=
      State.Inv.boot (State.Inv.warden hi x (hx ▸ hi.exports_wf)) y (hy ▸ hi.temperJets_wf)
    split
    · exact hi
    · dsimp only
      split
      · exact hi
      · exact State.emit_inv (State.updJob_inv (h _ (by rfl) _ (by rfl)) ..) _

theorem execFwactivateTimeout_keeps (s : State) : s.Keeps (execFwactivateTimeout s) := by
  unfold execFwactivateTimeout
  refine keeps_next ?_ fun hi => ?_
  · (try dsimp only); (repeat' split) <;> first | rfl | (simp; done)
  · have h := State.Inv.warden hi ({ s.warden with activating := false }) hi.exports_wf
    split
    · exact hi
    · split
      · exact hi
      · exact State.emit_inv (State.updJob_inv h ..) _

theorem execStat_keeps (s : State) (cmd : GarhalCmd) : s.Keeps (execStat cmd s) := by
  refine keeps_next ?_ fun hi => ?_
  · (repeat' split) <;> simp
  · (repeat' split) <;> simp [hi]

theorem execRegRd_keeps (s : State) (cmd : GarhalCmd) : s.Keeps (execRegRd cmd s) := by
  refine keeps_next (State.pending_garhalRun _ _ _ _ ?_) fun hi => State.inv_garhalRun hi _ _ _ ?_
  · (repeat' split) <;> simp
  · (repeat' split) <;> simp [hi]

theorem execRegWr_keeps (s : State) (cmd : GarhalCmd) : s.Keeps (execRegWr cmd s) := by
  refine keeps_next (State.pending_garhalRun _ _ _ _ ?_) fun hi => State.inv_garhalRun hi _ _ _ ?_
  · (repeat' split) <;> simp
  · (repeat' split) <;> simp [hi]

theorem execMemRd_keeps (s : State) (cmd : GarhalCmd) : s.Keeps (execMemRd cmd s) := by
  refine keeps_next (State.pending_garhalRun _ _ _ _ ?_) fun hi => State.inv_garhalRun hi _ _ _ ?_
  · (try dsimp only); (repeat' split) <;> first | rfl | (simp; done)
  · (try dsimp only); (repeat' split) <;> first | exact hi | (simp (maxDischargeDepth := 12) [hi]; done) | (apply State.Inv.mk' <;> simp [hi])

theorem execMemWr_keeps (s : State) (cmd : GarhalCmd) : s.Keeps (execMemWr cmd s) := by
  refine keeps_next (State.pending_garhalRun _ _ _ _ ?_) fun hi => State.inv_garhalRun hi _ _ _ ?_
  · (try dsimp only); (repeat' split) <;> first | rfl | (simp; done)
  · (try dsimp only); (repeat' split) <;> first | exact hi | (simp (maxDischargeDepth := 12) [hi]; done) | (apply State.Inv.mk' <;> simp [hi])

theorem execHalt_keeps (s : State) (cmd : GarhalCmd) : s.Keeps (execHalt cmd s) := by
  refine keeps_next (State.pending_garhalRun _ _ _ _ ?_) fun hi => State.inv_garhalRun hi _ _ _ ?_
  · (try dsimp only); (repeat' split) <;> first | rfl | (simp; done)
  · (try dsimp only); (repeat' split) <;> first | exact hi | (simp (maxDischargeDepth := 12) [hi]; done) | (apply State.Inv.mk' <;> simp [hi])

theorem execResume_keeps (s : State) (cmd : GarhalCmd) : s.Keeps (execResume cmd s) := by
  refine keeps_next (State.pending_garhalRun _ _ _ _ ?_) fun hi => State.inv_garhalRun hi _ _ _ ?_
  · (try dsimp only); (repeat' split) <;> first | rfl | (simp; done)
  · (try dsimp only); (repeat' split) <;> first | exact hi | (simp (maxDischargeDepth := 12) [hi]; done) | (apply State.Inv.mk' <;> simp [hi])

theorem execStep_keeps (s : State) (cmd : GarhalCmd) : s.Keeps (execStep cmd s) := by
  refine keeps_next (State.pending_garhalRun _ _ _ _ ?_) fun hi => State.inv_garhalRun hi _ _ _ ?_
  · (try dsimp only); (repeat' split) <;> first | rfl | (simp; done)
  · (try dsimp only); (repeat' split) <;> first | exact hi | (simp (maxDischargeDepth := 12) [hi]; done) | (apply State.Inv.mk' <;> simp [hi])

theorem execBrkSet_keeps (s : State) (cmd : GarhalCmd) : s.Keeps (execBrkSet cmd s) := by
  refine keeps_next (State.pending_garhalRun _ _ _ _ ?_) fun hi => State.inv_garhalRun hi _ _ _ ?_
  · (repeat' split) <;> simp
  · (repeat' split) <;> simp [hi]

theorem execBrkClr_keeps (s : State) (cmd : GarhalCmd) : s.Keeps (execBrkClr cmd s) := by
  refine keeps_next (State.pending_garhalRun _ _ _ _ ?_) fun hi => State.inv_garhalRun hi _ _ _ ?_
  · (repeat' split) <;> simp
  · (repeat' split) <;> simp [hi]

theorem execStateRd_keeps (s : State) (cmd : GarhalCmd) : s.Keeps (execStateRd cmd s) := by
  refine keeps_next (State.pending_garhalRun _ _ _ _ ?_) fun hi => State.inv_garhalRun hi _ _ _ ?_
  · (try dsimp only); (repeat' split) <;> first | rfl | (simp; done)
  · (try dsimp only); (repeat' split) <;> first | exact hi | (simp (maxDischargeDepth := 12) [hi]; done) | (apply State.Inv.mk' <;> simp [hi])

theorem execBreakpointHit_keeps (s : State) (target : BitVec 5) (unit index : Nat) : s.Keeps (execBreakpointHit target unit index s) := by
  unfold execBreakpointHit
  refine keeps_next ?_ fun hi => ?_
  · (try dsimp only); (repeat' split) <;> first | rfl | (simp; done)
  · (try dsimp only); (repeat' split) <;> first | exact hi | (simp [hi]; done) | (simp (maxDischargeDepth := 12) [hi]; done) | (apply State.Inv.mk' <;> simp [hi])

theorem execGhTrst_keeps (s : State) : s.Keeps (execGhTrst s) := by
  refine keeps_next ?_ fun hi => ?_
  · rfl
  · (try dsimp only); (repeat' split) <;> first | exact hi | (simp [hi]; done) | (simp (maxDischargeDepth := 12) [hi]; done) | (apply State.Inv.mk' <;> simp [hi])

theorem execReservedOpcode_keeps (s : State) (ring : Nat) : s.Keeps (execReservedOpcode ring s) := by
  refine keeps_next ?_ fun hi => ?_
  · (repeat' split) <;> simp
  · (repeat' split) <;> simp [hi]

theorem execGarhalReservedOp_keeps (s : State) (op : BitVec 4) (cmd : GarhalCmd) : s.Keeps (execGarhalReservedOp op cmd s) := by
  unfold execGarhalReservedOp
  refine keeps_next (ite_pending rfl (State.pending_garhalRun _ _ _ _ (by simp))) fun hi =>
    ite_inv hi (State.inv_garhalRun hi _ _ _ (State.respond_inv hi ..))

theorem execInstructionRegisterUpdate_keeps (s : State) (code : BitVec 4) : s.Keeps (execInstructionRegisterUpdate code s) := by
  refine keeps_next ?_ fun hi => ?_
  · rfl
  · (try dsimp only); (repeat' split) <;> first | exact hi | (simp [hi]; done) | (simp (maxDischargeDepth := 12) [hi]; done) | (apply State.Inv.mk' <;> simp [hi])

theorem execEngineHalted_keeps (s : State) (target : BitVec 5) : s.Keeps (execEngineHalted target s) := by
  unfold execEngineHalted
  refine keeps_next ?_ fun hi => ?_
  · (try dsimp only); (repeat' split) <;> first | rfl | (simp; done)
  · (try dsimp only); (repeat' split) <;> first | exact hi | (simp [hi]; done) | (simp (maxDischargeDepth := 12) [hi]; done) | (apply State.Inv.mk' <;> simp [hi])

end Sys2Proof.Machine
end

