-- ==== Sys2Proof/Laws/Frames.lean ====
section
/-! SUPPORT. What the shared operations change and what they leave alone: updates of one table entry, records, region writes,
completion records, waking, pinning, and accepting a descriptor. -/

namespace Sys2Proof.Machine

variable {s : State}

/-! ## One entry of one table -/

theorem Tab.only_upd {α : Type} [DecidableEq α] {d : α} {t : Tab α} (h : Tab.wf d t = true) (i : Nat) (f : α → α) :
    Tab.Only d t (Tab.upd d t i f) i (f (Tab.get d t i)) :=
  ⟨Tab.get_upd_self h i f, fun _ hk => Tab.get_upd_ne t f hk⟩

theorem Tab.only_set {α : Type} [DecidableEq α] {d : α} {t : Tab α} (h : Tab.wf d t = true) (i : Nat) (v : α) :
    Tab.Only d t (Tab.set d t i v) i v :=
  ⟨Tab.get_set_self h i v, fun _ hk => Tab.get_set_ne t v hk⟩

theorem State.updShard_only (h : s.Inv) (n : Nat) (f : Shard → Shard) : s.OnlyShard (s.updShard n f) n (f (s.shard n)) :=
  ⟨rfl, Tab.only_upd h.shards_wf n f⟩
theorem State.updRing_only (h : s.Inv) (r : Nat) (f : Ring → Ring) : s.OnlyRing (s.updRing r f) r (f (s.ring r)) :=
  ⟨rfl, Tab.only_upd h.rings_wf r f⟩
theorem State.updJet_only (h : s.Inv) (j : Nat) (f : Jet → Jet) : s.OnlyJet (s.updJet j f) j (f (s.jet j)) :=
  ⟨rfl, Tab.only_upd h.jets_wf j f⟩
theorem State.updWell_only (h : s.Inv) (j : Nat) (f : Well → Well) : s.OnlyWell (s.updWell j f) j (f (s.well j)) :=
  State.updJet_only h j fun x => { x with well := f x.well }
theorem State.updBasin_only (h : s.Inv) (b : Nat) (f : Basin → Basin) : s.OnlyBasin (s.updBasin b f) b (f (s.basin b)) :=
  ⟨rfl, Tab.only_upd h.basins_wf b f⟩
theorem State.updOwn_only (h : s.Inv) (p : Nat) (f : Own → Own) : s.OnlyOwn (s.updOwn p f) p (f (s.ownOf p)) :=
  ⟨rfl, Tab.only_upd h.own_wf p f⟩

/-! ## Records -/

/-- A change of a basin's queue and episode alone. -/
theorem State.updBasin_queues (h : s.Inv) (b : Nat) (f : Basin → Basin) (hf : ∀ x, f x = { x with queue := (f x).queue, episode := (f x).episode }) (k : Nat) :
    (s.updBasin b f).basin k = { s.basin k with queue := ((s.updBasin b f).basin k).queue, episode := ((s.updBasin b f).basin k).episode } := by
  have := (State.updBasin_only h b f).2
  by_cases e : k = b
  · subst e; have h1 := this.1; simp only [State.basin] at *; rw [h1]; exact hf _
  · have h1 := this.2 k e; simp only [State.basin] at *; rw [h1]

theorem State.Records.refl (s : State) : s.Records s := ⟨rfl, fun _ => rfl⟩
theorem State.Records.trans {t u : State} (a : s.Records t) (b : t.Records u) : s.Records u :=
  ⟨by rw [b.sluice, a.sluice], fun k => by rw [b.basins k, a.basins k]⟩
theorem State.OnlyRecords.trans {t u : State} (a : s.OnlyRecords t) (b : t.OnlyRecords u) : s.OnlyRecords u :=
  { toRecords := State.Records.trans a.toRecords b.toRecords, rest := by rw [b.rest, a.rest] }
theorem State.OnlyRecords.refl (s : State) : s.OnlyRecords s := { sluice := rfl, basins := fun _ => rfl, rest := rfl }

theorem State.queueDrop_only (h : s.Inv) (b r : Nat) : s.OnlyRecords (s.queueDrop b r) :=
  { sluice := rfl, rest := rfl, basins := fun k => State.updBasin_queues (s := s.countDrop r) (by simp [h]) b _ (fun _ => rfl) k }

theorem State.enqueue_only (h : s.Inv) (b : Nat) (r : Queued) : s.OnlyRecords (s.enqueue b r) := by
  unfold State.enqueue
  dsimp only
  split
  · exact { sluice := rfl, rest := rfl, basins := fun k => State.updBasin_queues h b _ (fun _ => rfl) k }
  · split
    · refine State.OnlyRecords.trans (State.queueDrop_only h b (lowestRank (s.basin b).queue)) ?_
      exact { sluice := rfl, rest := rfl, basins := fun k => State.updBasin_queues (State.queueDrop_inv h _ _) b _ (fun _ => rfl) k }
    · exact State.queueDrop_only h b _

theorem State.raise_only (s : State) (e : Event') : s.OnlyRecords (s.raise e) := by
  unfold State.raise
  split
  · exact { sluice := rfl, rest := rfl, basins := fun _ => rfl }
  · exact State.OnlyRecords.refl s

theorem State.unlogged_only (s : State) (rank : Nat) : s.OnlyRecords (s.unlogged rank) := by
  unfold State.unlogged
  split
  · exact { sluice := rfl, rest := rfl, basins := fun _ => rfl }
  · exact State.OnlyRecords.refl s

theorem State.setNext_only {t : State} (h : s.OnlyRecords t) (q : Word) :
    s.OnlyRecords { t with sluice := { t.sluice with log := { t.sluice.log with next := q } } } :=
  { sluice := by rw [h.sluice], basins := h.basins, rest := by rw [h.rest] }

/-- Offering a record changes what records change, and nothing else. -/
theorem State.emit_only (h : s.Inv) (e : Event') : s.OnlyRecords (s.emit e) := by
  unfold State.emit
  generalize (if e.jet = 255 then e.basin else e.jet / 4) = b
  split
  · exact State.OnlyRecords.refl s
  · have hr := State.raise_inv h e
    have h1 := State.raise_only s e
    generalize s.raise e = t at hr h1
    by_cases h2 : (!s.sluice.log.enable) = true
    · simp only [h2, if_true]
      exact State.OnlyRecords.trans h1 (State.unlogged_only _ _)
    · simp only [h2]
      by_cases h3 : t.hasPlace b (rankOf e.cls) = true
      · simp only [h3, if_true]
        exact State.setNext_only (State.OnlyRecords.trans h1 (State.enqueue_only hr b _)) _
      · simp only [h3]
        exact State.OnlyRecords.trans h1 (State.queueDrop_only hr b (rankOf e.cls))

/-- A shard that changes its state changes nothing else, but for the record. -/
theorem State.enter_only (h : s.Inv) (n new : Nat) :
    (s.enter n new) = { s with shards := (s.enter n new).shards, basins := (s.enter n new).basins, sluice := (s.enter n new).sluice } ∧
    Tab.Only {} s.shards (s.enter n new).shards n { s.shard n with state := new } ∧ s.Records (s.enter n new) := by
  have h1 := State.updShard_only h n fun y => { y with state := new }
  have h2 := State.emit_only (State.updShard_inv h n fun y => { y with state := new })
    { cls := 3, code := 0x40, part := (s.shard n).owner, shard := some n, arg0 := (s.shard n).state, arg1 := new }
  have e : s.enter n new = (s.updShard n fun y => { y with state := new }).emit { cls := 3, code := 0x40, part := (s.shard n).owner, shard := some n, arg0 := (s.shard n).state, arg1 := new } := rfl
  rw [← e] at h2
  generalize s.enter n new = t at h2 e
  clear e
  refine ⟨by rw [h2.rest]; rfl, ?_, ?_⟩
  · rw [h2.rest]; exact h1.2
  · exact ⟨h2.sluice, h2.basins⟩

/-! ## Parts -/

theorem State.OnlyParts.refl (s : State) (sc : Job → Part → Prop) : s.OnlyParts s sc :=
  ⟨rfl, fun _ j h => ⟨j, h, rfl, rfl, rfl, rfl, rfl, rfl, fun _ p hp => ⟨p, hp, rfl, rfl, rfl, fun _ _ => rfl⟩⟩⟩

/-- A scope that a descriptor and the jet of a part tell. -/
def ofNames (sc : Job → Part → Prop) : Prop :=
  ∀ (j u : Job) (p q : Part), u.ring = j.ring → u.seq = j.seq → u.desc = j.desc → q.jet = p.jet → (sc u q ↔ sc j p)

theorem State.OnlyParts.trans {s t u : State} {sc : Job → Part → Prop} (hn : ofNames sc) (a : s.OnlyParts t sc) (b : t.OnlyParts u sc) :
    s.OnlyParts u sc := by
  refine ⟨b.1.trans a.1, fun i j hj => ?_⟩
  obtain ⟨x, hx, x1, x2, x3, x4, x5, x6, x7⟩ := a.2 i j hj
  obtain ⟨y, hy, y1, y2, y3, y4, y5, y6, y7⟩ := b.2 i x hx
  refine ⟨y, hy, y1.trans x1, y2.trans x2, y3.trans x3, y4.trans x4, y5.trans x5, y6.trans x6, fun k p hp => ?_⟩
  obtain ⟨q, hq, q1, q2, q3, q4⟩ := x7 k p hp
  obtain ⟨r, hr, r1, r2, r3, r4⟩ := y7 k q hq
  refine ⟨r, hr, r1.trans q1, r2.trans q2, r3.trans q3, fun hs hall => ?_⟩
  have e1 := q4 hs hall
  rw [← e1]
  refine r4 (fun hc => hs ((hn j x p q x1 x2 x3 q1).1 hc)) fun i' hi' z hz e3 e4 e5 hc => ?_
  obtain ⟨m, hm⟩ := List.mem_iff_getElem?.1 hi'
  have hlt : m < t.jobs.length := by rw [List.getElem?_eq_some_iff] at hm; exact hm.1
  rw [a.1] at hlt
  obtain ⟨w, hw, w1, w2, w3, _, _, w6, w7⟩ := a.2 m s.jobs[m] (List.getElem?_eq_some_iff.2 ⟨hlt, rfl⟩)
  rw [hm] at hw
  cases hw
  obtain ⟨n, hn'⟩ := List.mem_iff_getElem?.1 hz
  have hlt2 : n < i'.parts.length := by rw [List.getElem?_eq_some_iff] at hn'; exact hn'.1
  rw [w6] at hlt2
  obtain ⟨v, hv, v1, _, _, _⟩ := w7 n s.jobs[m].parts[n] (List.getElem?_eq_some_iff.2 ⟨hlt2, rfl⟩)
  rw [hn'] at hv
  cases hv
  exact hall s.jobs[m] (List.getElem_mem _) s.jobs[m].parts[n] (List.getElem_mem _) (by rw [← w1, e3, x1]) (by rw [← w2, e4, x2])
    (by rw [← v1, e5, q1]) ((hn _ _ _ _ w1 w2 w3 v1).1 hc)

theorem State.OnlyParts.of_jobs {s t u : State} {sc : Job → Part → Prop} (h : u.jobs = t.jobs) (a : s.OnlyParts t sc) : s.OnlyParts u sc := by
  unfold State.OnlyParts at *
  rw [h]
  exact a

theorem State.stopRills_jobs (s : State) (ring : Nat) (seq : Word) : (s.stopRills ring seq).jobs = s.jobs := by
  unfold State.stopRills
  split
  · split
    · rename_i j _ _
      generalize j.parts.filter (·.ended.isNone) = l
      induction l generalizing s with
      | nil => rfl
      | cons x l ih => exact (foldl_jobs _ l _ fun _ _ => rfl)
    · rfl
  · rfl
where
  foldl_jobs {β : Type} (f : State → β → State) (l : List β) (s : State) (hf : ∀ t x, (f t x).jobs = t.jobs) :
      (l.foldl f s).jobs = s.jobs := by
    induction l generalizing s with
    | nil => rfl
    | cons x l ih => exact (ih _).trans (hf s x)

/-- The end of a part changes the parts of its descriptor on its jet alone. -/
theorem State.endPart_parts (s : State) (ring : Nat) (seq : Word) (jet : Nat) (v : Verdict') (sc : Job → Part → Prop)
    (h : ∃ i ∈ s.jobs, i.ring = ring ∧ i.seq = seq ∧ ∃ r ∈ i.parts, r.jet = jet ∧ sc i r) : s.OnlyParts (s.endPart ring seq jet v) sc := by
  obtain ⟨i, him, i1, i2, r, hr, i3, i4⟩ := h
  have hj : (s.endPart ring seq jet v).jobs = (s.updJob ring seq fun j => j.updPart jet fun p =>
    if j.partDone p then p else { p.endWith v with inFlight := [] }).jobs := State.stopRills_jobs _ _ _
  refine State.OnlyParts.of_jobs hj ⟨?_, fun n j hi => ?_⟩
  · simp [State.updJob]
  · by_cases hc : (j.ring == ring && j.seq == seq) = true
    · refine ⟨j.updPart jet fun p => if j.partDone p then p else { p.endWith v with inFlight := [] }, ?_, rfl, rfl, rfl, rfl, rfl, ?_,
        fun k p hp => ?_⟩
      · simp only [State.updJob, List.getElem?_map, hi, Option.map_some, hc, if_true]
      · simp [Job.updPart]
      · simp only [Bool.and_eq_true, beq_iff_eq] at hc
        by_cases e : p.jet == jet
        · refine ⟨if j.partDone p then p else { p.endWith v with inFlight := [] }, ?_, ?_, ?_, ?_, fun _ hall => ?_⟩
          · simp only [Job.updPart, List.getElem?_map, hp, Option.map_some, e, if_true]
          · split <;> rfl
          · split <;> rfl
          · split <;> rfl
          · exact absurd i4 (hall i him r hr (i1.trans hc.1.symm) (i2.trans hc.2.symm) (i3.trans (by simpa using Eq.symm (by simpa using e))))
        · refine ⟨p, ?_, rfl, rfl, rfl, fun _ _ => rfl⟩
          simp only [Job.updPart, List.getElem?_map, hp, Option.map_some, e, Bool.false_eq_true, if_false]
    · refine ⟨j, ?_, rfl, rfl, rfl, rfl, rfl, rfl, fun k p hp => ⟨p, hp, rfl, rfl, rfl, fun _ _ => rfl⟩⟩
      simp only [State.updJob, List.getElem?_map, hi, Option.map_some, hc, Bool.false_eq_true, if_false]


/-! ## What the block writes -/

theorem State.OnlyMarks.refl (s : State) : s.OnlyMarks s := fun _ => ⟨_, _, id, id, rfl⟩

theorem State.OnlyMarks.trans {t u : State} (a : s.OnlyMarks t) (b : t.OnlyMarks u) : s.OnlyMarks u := by
  intro k
  obtain ⟨x, y, hx, hy, e⟩ := a k
  obtain ⟨x', y', hx', hy', e'⟩ := b k
  rw [e] at hx' hy' e'
  exact ⟨x', y', fun h => hx' (hx h), fun h => hy' (hy h), e'⟩

theorem State.Shown.refl (s : State) : s.Shown s :=
  { sluice := rfl, basins := fun _ => rfl, rest := rfl, jobs := State.OnlyParts.refl s _, regions := State.OnlyMarks.refl s
    shards := fun _ => rfl, jets := fun _ => rfl }

theorem readsPlane_names : ofNames fun j _ => opOf j.desc = 9 ∨ opOf j.desc = 0x0A :=
  fun _ _ _ _ _ _ h _ => by simp only [h]

theorem State.Shown.trans {t u : State} (a : s.Shown t) (b : t.Shown u) : s.Shown u :=
  { toRecords := State.Records.trans a.toRecords b.toRecords
    rest := by rw [b.rest, a.rest]
    jobs := State.OnlyParts.trans readsPlane_names a.jobs b.jobs
    regions := State.OnlyMarks.trans a.regions b.regions
    shards := fun n => by rw [b.shards n, a.shards n]
    jets := fun k => by rw [b.jets k, a.jets k] }

theorem State.OnlyRecords.shown {t : State} (h : s.OnlyRecords t) : s.Shown t :=
  { toRecords := h.toRecords
    rest := by rw [h.rest]
    jobs := State.OnlyParts.of_jobs (by rw [h.rest]) (State.OnlyParts.refl s _)
    regions := fun k => by rw [h.rest]; exact ⟨_, _, id, id, rfl⟩
    shards := fun n => by unfold State.shard; rw [h.rest]
    jets := fun k => by unfold State.jet; rw [h.rest] }

theorem State.updShard_shown (h : s.Inv) (n : Nat) (f : Shard → Shard)
    (hf : ∀ x, f x = { x with landing := (f x).landing, straySeen := (f x).straySeen }) : s.Shown (s.updShard n f) :=
  { sluice := rfl, basins := fun _ => rfl, rest := rfl, jobs := State.OnlyParts.of_jobs rfl (State.OnlyParts.refl s _)
    regions := fun k => ⟨_, _, id, id, rfl⟩, jets := fun _ => rfl
    shards := fun m => by
      have h1 := State.shard_updShard h n m f
      rw [h1]
      split
      · rename_i e; subst e; exact hf _
      · rfl }

theorem State.updJet_shown (h : s.Inv) (j : Nat) (f : Jet → Jet) (hf : ∀ x, f x = { x with ledger := (f x).ledger, naps := (f x).naps, well := (f x).well }) :
    s.Shown (s.updJet j f) :=
  { sluice := rfl, basins := fun _ => rfl, rest := rfl, jobs := State.OnlyParts.of_jobs rfl (State.OnlyParts.refl s _)
    regions := fun k => ⟨_, _, id, id, rfl⟩, shards := fun _ => rfl
    jets := fun k => by
      have h1 := (State.updJet_only h j f).2
      by_cases e : k = j
      · subst e; have := h1.1; simp only [State.jet] at *; rw [this]; exact hf _
      · have := h1.2 k e; simp only [State.jet] at *; rw [this] }

theorem State.emitIf_shown (h : s.Inv) (c : Bool) (e : Event') : s.Shown (s.emitIf c e) := by
  unfold State.emitIf
  split
  · exact (State.emit_only h e).shown
  · exact State.Shown.refl s

theorem State.countStray_shown (h : s.Inv) (n j : Nat) : s.Shown (s.countStray n j) := by
  unfold State.countStray
  dsimp only
  have ht := State.updShard_shown h n (·.countLanding 11 1) fun _ => rfl
  split
  · exact ht
  · exact State.Shown.trans ht (State.updJet_shown (State.updShard_inv h _ _) _ _ fun _ => rfl)

theorem State.stray_shown (h : s.Inv) (n j part off : Nat) : s.Shown (s.stray n j part off) := by
  unfold State.stray
  dsimp only
  refine State.Shown.trans ?_ (State.updShard_shown ?_ n (fun y => { y with straySeen := true }) fun _ => rfl)
  · split
    · exact State.Shown.trans (State.countStray_shown h n j) (State.emitIf_shown (State.countStray_inv h n j) _ _)
    · exact State.emitIf_shown h _ _
  · split <;> simp [h]

theorem State.tapBeat_shown (h : s.Inv) (jet key : Nat) (e : RegionEntry) (off : Nat) (en : BitVec 64) (d : List Byte) (tag : Nat) :
    s.Shown (s.tapBeat jet key e off en d tag) := by
  unfold State.tapBeat
  dsimp only
  split
  · exact State.Shown.refl s
  · split
    · unfold State.tapLost
      split
      · exact State.updJet_shown h _ _ fun _ => rfl
      · exact State.Shown.refl s
    · unfold State.reckon
      split
      · refine State.Shown.trans (State.updJet_shown h _ _ fun _ => rfl) (State.updShard_shown ?_ _ _ fun _ => rfl)
        exact State.updBlock_inv h ..
      · exact State.stray_shown h ..

/-- What every turn of a loop shows, the loop shows. -/
theorem foldl_shown {β : Type} {f : State → β → State} (hi : ∀ t x, State.Inv t → (f t x).Inv) (hf : ∀ t x, State.Inv t → t.Shown (f t x))
    (l : List β) (h : s.Inv) : s.Shown (l.foldl f s) := by
  induction l generalizing s with
  | nil => exact State.Shown.refl s
  | cons x l ih => exact State.Shown.trans (hf s x h) (ih (hi s x h))

theorem State.showWeir_shown (h : s.Inv) (a : Nat) (bs : List Byte) (tag : Nat) : s.Shown (s.showWeir a bs tag) := by
  unfold State.showWeir
  refine foldl_shown (fun t x ht => State.tapBytes_inv ht ..) (fun t x ht => ?_) _ h
  unfold State.tapBytes
  split
  · exact State.Shown.refl t
  · exact foldl_shown (fun t x ht => State.tapBeat_inv ht ..) (fun t x ht => State.tapBeat_shown ht ..) _ ht

theorem State.stopRills_shown (h : s.Inv) (ring : Nat) (seq : Word) : s.Shown (s.stopRills ring seq) := by
  unfold State.stopRills
  split
  · split
    · exact foldl_shown (fun t x ht => State.updWell_inv ht ..) (fun t x ht => State.updJet_shown ht _ _ fun _ => rfl) _ h
    · exact State.Shown.refl s
  · exact State.Shown.refl s

theorem State.endPart_shown (h : s.Inv) (ring : Nat) (seq : Word) (jet : Nat) (v : Verdict')
    (hr : ∃ i ∈ s.jobs, i.ring = ring ∧ i.seq = seq ∧ ∃ r ∈ i.parts, r.jet = jet ∧ (opOf i.desc = 9 ∨ opOf i.desc = 0x0A)) :
    s.Shown (s.endPart ring seq jet v) := by
  have hj : s.OnlyParts (s.endPart ring seq jet v) _ := State.endPart_parts s ring seq jet v _ hr
  have hk : (s.endPart ring seq jet v).jobs = (s.cutPart ring seq jet v).jobs := State.stopRills_jobs _ _ _
  replace hj : s.OnlyParts (s.cutPart ring seq jet v) _ := State.OnlyParts.of_jobs hk.symm hj
  unfold State.endPart
  refine State.Shown.trans ?_ (State.stopRills_shown (State.cutPart_inv h ..) _ _)
  unfold State.cutPart at hj ⊢
  generalize hu : (s.updJob ring seq fun j => j.updPart jet fun p => if j.partDone p then p else { p.endWith v with inFlight := [] }) = u at hj ⊢
  have hi : u.Inv := hu ▸ State.updJob_inv h ..
  have e : u = { s with jobs := u.jobs } := by rw [← hu]; rfl
  refine State.Shown.trans (t := u) ?_ (State.updJet_shown hi _ _ fun _ => rfl)
  have hj2 : s.OnlyParts u _ := State.OnlyParts.of_jobs (rfl : (u.updWell jet (·.dropJob ring seq)).jobs = u.jobs).symm hj
  exact { sluice := by rw [e], basins := fun _ => by rw [e]; rfl, rest := by rw [e], jobs := hj2
          regions := fun k => by rw [e]; exact ⟨_, _, id, id, rfl⟩, shards := fun _ => by rw [e]; rfl, jets := fun _ => by rw [e]; rfl }

theorem State.updRegion_break (h : s.Inv) (key slot : Nat) : s.Shown (s.updRegion key (·.break slot)) :=
  { sluice := rfl, basins := fun _ => rfl, rest := rfl, jobs := State.OnlyParts.of_jobs rfl (State.OnlyParts.refl s _)
    shards := fun _ => rfl, jets := fun _ => rfl
    regions := fun k => by
      have h1 := Tab.only_upd h.regions_wf key fun e : RegionEntry => e.break slot
      by_cases e : k = key
      · subst e
        have e0 : ∀ e : RegionEntry, (e.broken0 = true → (e.break slot).broken0 = true) ∧ (e.broken1 = true → (e.break slot).broken1 = true) ∧
            e.break slot = { e with broken0 := (e.break slot).broken0, broken1 := (e.break slot).broken1 } := by
          intro e; unfold RegionEntry.break; split <;> simp
        exact ⟨_, _, (e0 _).1, (e0 _).2.1, h1.1.trans (e0 _).2.2⟩
      · exact ⟨_, _, id, id, h1.2 k e⟩ }

/-- The image of a descriptor after parts of descriptors have ended. -/
theorem State.OnlyParts.image {t : State} {sc : Job → Part → Prop} (a : s.OnlyParts t sc) {j : Job} (hj : j ∈ s.jobs) {p : Part}
    (hp : p ∈ j.parts) : ∃ i ∈ t.jobs, i.ring = j.ring ∧ i.seq = j.seq ∧ i.desc = j.desc ∧ ∃ r ∈ i.parts, r.jet = p.jet := by
  obtain ⟨n, hn⟩ := List.mem_iff_getElem?.1 hj
  obtain ⟨u, hu, u1, u2, u3, _, _, _, u7⟩ := a.2 n j hn
  obtain ⟨m, hm⟩ := List.mem_iff_getElem?.1 hp
  obtain ⟨q, hq, q1, _⟩ := u7 m p hm
  exact ⟨u, List.mem_of_getElem? hu, u1, u2, u3, q, List.mem_of_getElem? hq, q1⟩

theorem State.breakSlot_shown (h : s.Inv) (key slot : Nat) : s.Shown (s.breakSlot key slot) := by
  have ht := State.updRegion_break h key slot
  have hi : (s.updRegion key (·.break slot)).Inv := State.updRegion_inv h ..
  unfold State.breakSlot
  dsimp only
  generalize s.updRegion key (·.break slot) = t at ht hi
  refine State.Shown.trans ht ?_
  suffices k : ∀ (l : List Job) (u : State), u.Inv → t.Shown u → (∀ j ∈ l, j ∈ t.jobs ∧ (opOf j.desc = 9 ∨ opOf j.desc = 0x0A)) →
      t.Shown (l.foldl (fun u j => j.parts.foldl (fun u p => u.endPart j.ring j.seq p.jet (.fault, 0x0C)) u) u) by
    refine k _ t hi (State.Shown.refl t) fun j hj => ?_
    simp only [List.mem_filter, Job.readsPlane, Bool.and_eq_true, Bool.or_eq_true, beq_iff_eq] at hj
    exact ⟨hj.1, hj.2.1.2⟩
  intro l
  induction l with
  | nil => intro u _ hu _; exact hu
  | cons j l ih =>
    intro u hui hu hl
    simp only [List.foldl_cons]
    have hj := hl j List.mem_cons_self
    suffices k2 : ∀ (ps : List Part) (w : State), w.Inv → t.Shown w → (∀ p ∈ ps, p ∈ j.parts) →
        (ps.foldl (fun u p => u.endPart j.ring j.seq p.jet (.fault, 0x0C)) w).Inv ∧
        t.Shown (ps.foldl (fun u p => u.endPart j.ring j.seq p.jet (.fault, 0x0C)) w) by
      obtain ⟨a, b⟩ := k2 j.parts u hui hu fun _ h => h
      exact ih _ a b fun x hx => hl x (List.mem_cons_of_mem _ hx)
    intro ps
    induction ps with
    | nil => intro w hw hs _; exact ⟨hw, hs⟩
    | cons p ps ihp =>
      intro w hw hs hp
      refine ihp _ (State.endPart_inv hw ..) (State.Shown.trans hs (State.endPart_shown hw _ _ _ _ ?_)) fun x hx => hp x (List.mem_cons_of_mem _ hx)
      obtain ⟨i, im, i1, i2, i3, r, hr, r1⟩ := hs.jobs.image hj.1 (hp p List.mem_cons_self)
      exact ⟨i, im, i1, i2, r, hr, r1, by rw [i3]; exact hj.2⟩

theorem State.sealReported_shown (h : s.Inv) (x : Nat × Nat × RegionEntry × Nat) : s.Shown (s.sealReported x) := by
  unfold State.sealReported
  dsimp only
  split
  · exact State.Shown.refl s
  · exact State.Shown.trans (State.emit_only h _).shown (State.breakSlot_shown (State.emit_inv h _) _ _)

theorem State.WritesOnly.refl (s : State) (l : List (Nat × Nat)) : s.WritesOnly s l := fun _ _ => rfl

theorem State.WritesOnly.trans {t u : State} {l : List (Nat × Nat)} (a : s.WritesOnly t l) (b : t.WritesOnly u l) :
    s.WritesOnly u l :=
  fun i hi => (b i hi).trans (a i hi)

theorem State.WritesOnly.mono {t : State} {l m : List (Nat × Nat)} (a : s.WritesOnly t l) (h : ∀ r ∈ l, r ∈ m) : s.WritesOnly t m :=
  fun i hi => a i fun r hr => hi r (h r hr)

theorem State.WritesOnly.of_mem {t u : State} {l : List (Nat × Nat)} (h : u.mem = t.mem) (a : s.WritesOnly t l) : s.WritesOnly u l :=
  fun i hi => by rw [h]; exact a i hi

theorem State.write_writes (s : State) (a : Nat) (bs : List Byte) : s.WritesOnly (s.write a bs) [(a, bs.length)] := by
  intro i hi
  have hi := hi _ List.mem_cons_self
  unfold State.write
  dsimp only
  split
  · refine memGet_memPatch_out _ _ _ fun c hc e => ?_
    simp only [List.mem_filter] at hc
    obtain ⟨k, hk, e2⟩ := List.mem_iff_getElem.1 hc.1
    simp only [List.getElem_zip, List.getElem_map, List.getElem_range] at e2
    simp only [List.length_zip, List.length_map, List.length_range, Nat.min_self] at hk
    have : c.1 = a + k := by rw [← e2]
    omega
  · exact memGet_memWrite_out _ _ _ _ hi

/-- What is written where there is memory is read back. -/
theorem State.write_reads (s : State) (a : Nat) (bs : List Byte) (h : s.touches (a, bs.length) = false) :
    memRead (s.write a bs).mem a bs.length = bs := by
  unfold State.write
  simp only [h, Bool.false_eq_true, if_false]
  exact memRead_memWrite_same _ _ _

theorem foldl_mem {β : Type} {f : State → β → State} (hf : ∀ t x, (f t x).mem = t.mem) (l : List β) (s : State) :
    (l.foldl f s).mem = s.mem := by
  induction l generalizing s with
  | nil => rfl
  | cons x l ih => exact (ih _).trans (hf s x)

theorem State.enqueue_mem (s : State) (b : Nat) (r : Queued) : (s.enqueue b r).mem = s.mem := by
  unfold State.enqueue; dsimp only; (repeat' split) <;> rfl

theorem State.raise_mem (s : State) (e : Event') : (s.raise e).mem = s.mem := by
  unfold State.raise; split <;> rfl

theorem State.emit_mem (s : State) (e : Event') : (s.emit e).mem = s.mem := by
  unfold State.emit
  generalize (if e.jet = 255 then e.basin else e.jet / 4) = b
  have hr := State.raise_mem s e
  generalize s.raise e = t at hr
  split
  · rfl
  · by_cases h2 : (!s.sluice.log.enable) = true
    · simp only [h2, if_true]
      unfold State.unlogged
      split <;> exact hr
    · simp only [h2]
      by_cases h3 : t.hasPlace b (rankOf e.cls) = true
      · simp only [h3, if_true]
        exact (State.enqueue_mem ..).trans hr
      · simp only [h3]
        exact hr

theorem State.updBlock_mem (s : State) (j r b : Nat) (f : Block → Block) : (s.updBlock j r b f).mem = s.mem := rfl

theorem State.stray_mem (s : State) (h j part off : Nat) : (s.stray h j part off).mem = s.mem := by
  unfold State.stray
  dsimp only
  refine (State.updShard_mem ..).trans ?_
  have k (t : State) (c : Bool) (e : Event') : (t.emitIf c e).mem = t.mem := by
    unfold State.emitIf
    split
    · exact State.emit_mem ..
    · rfl
  refine (k ..).trans ?_
  split
  · unfold State.countStray
    dsimp only
    split
    · exact State.updShard_mem ..
    · exact (State.updJet_mem ..).trans (State.updShard_mem ..)
  · rfl

theorem State.tapBeat_mem (s : State) (jet key : Nat) (e : RegionEntry) (off : Nat) (en : BitVec 64) (d : List Byte) (tag : Nat) :
    (s.tapBeat jet key e off en d tag).mem = s.mem := by
  unfold State.tapBeat
  dsimp only
  split
  · rfl
  · split
    · unfold State.tapLost
      split
      · exact State.updBlock_mem ..
      · rfl
    · unfold State.reckon
      split
      · exact (State.updShard_mem ..).trans (State.updBlock_mem ..)
      · exact State.stray_mem ..

theorem State.tapBytes_mem (s : State) (jet key : Nat) (e : RegionEntry) (off : Nat) (bs : List Byte) (tag : Nat) :
    (s.tapBytes jet key e off bs tag).mem = s.mem := by
  unfold State.tapBytes
  generalize (List.range ((off + bs.length - 1) / 64 + 1 - off / 64)).map (off / 64 + ·) = l
  split
  · rfl
  · induction l generalizing s with
    | nil => rfl
    | cons x l ih => exact (ih _).trans (State.tapBeat_mem ..)

theorem State.showWeir_mem (s : State) (a : Nat) (bs : List Byte) (tag : Nat) : (s.showWeir a bs tag).mem = s.mem := by
  unfold State.showWeir
  generalize s.landingHits a bs.length = l
  induction l generalizing s with
  | nil => rfl
  | cons x l ih => exact (ih _).trans (State.tapBytes_mem ..)

theorem State.endPart_mem (s : State) (r : Nat) (q : Word) (j : Nat) (v : Verdict') : (s.endPart r q j v).mem = s.mem := by
  unfold State.endPart State.stopRills
  split
  · split
    · exact (foldl_mem (f := fun t (p : Part) => t.updWell p.jet (·.dropJob r q)) (fun _ _ => rfl) _ (s.cutPart r q j v)).trans rfl
    · rfl
  · rfl

theorem State.breakSlot_mem (s : State) (key slot : Nat) : (s.breakSlot key slot).mem = s.mem := by
  unfold State.breakSlot
  exact foldl_mem (fun t j => foldl_mem (fun u p => State.endPart_mem ..) _ _) _ _

theorem State.sealReported_mem (s : State) (x : Nat × Nat × RegionEntry × Nat) : (s.sealReported x).mem = s.mem := by
  unfold State.sealReported
  dsimp only
  split
  · rfl
  · refine (State.breakSlot_mem ..).trans (State.emit_mem ..)

/-- The bytes that a write of the block leaves are those that it writes; what is shown changes none. -/
theorem State.put_mem (s : State) (fabric : Bool) (a : Nat) (bs : List Byte) (tag : Nat) : (s.put fabric a bs tag).mem = (s.write a bs).mem := by
  unfold State.put
  dsimp only
  split
  · exact (foldl_mem (fun t x => State.sealReported_mem t x) _ _).trans (State.showWeir_mem ..)
  · exact State.showWeir_mem ..

theorem State.put_stores (h : s.Inv) (fabric : Bool) (a : Nat) (bs : List Byte) (tag : Nat) :
    s.Stores (s.put fabric a bs tag) [(a, bs.length)] := by
  have hw : s.Shown (s.write a bs) := { sluice := rfl, basins := fun _ => rfl, rest := rfl, jobs := State.OnlyParts.of_jobs rfl (State.OnlyParts.refl s _)
                                        regions := fun _ => ⟨_, _, id, id, rfl⟩, shards := fun _ => rfl, jets := fun _ => rfl }
  have hi : (s.write a bs).Inv := State.write_inv h a bs
  have hv := State.Shown.trans hw (State.showWeir_shown hi a bs tag)
  refine { toShown := ?_, writes := State.WritesOnly.of_mem (State.put_mem ..) (State.write_writes s a bs), unwatched := fun hu => ?_ }
  · unfold State.put
    dsimp only
    split
    · exact State.Shown.trans hv (foldl_shown (fun t x ht => State.sealReported_inv ht x) (fun t x ht => State.sealReported_shown ht x) _
        (State.showWeir_inv hi a bs tag))
    · exact hv
  · have hu := hu _ List.mem_cons_self
    have e1 : (s.write a bs).showWeir a bs tag = s.write a bs := by
      unfold State.showWeir
      rw [show (s.write a bs).landingHits a bs.length = s.landingHits a bs.length from rfl, hu.1]
      rfl
    unfold State.put
    dsimp only
    rw [e1, show (s.write a bs).sealHits a bs.length = s.sealHits a bs.length from rfl, hu.2]
    split <;> rfl

theorem State.unwatched.mono {l m : List (Nat × Nat)} (h : s.unwatched m) (hl : ∀ r ∈ l, r ∈ m) : s.unwatched l :=
  fun r hr => h r (hl r hr)

theorem State.Stores.refl (s : State) (l : List (Nat × Nat)) : s.Stores s l :=
  { toShown := State.Shown.refl s, writes := State.WritesOnly.refl s l, unwatched := fun _ => rfl }

/-- The regions tell what is watched, but for their marks. -/
theorem State.Stores.trans {t u : State} {l : List (Nat × Nat)} (a : s.Stores t l) (b : t.Stores u l) : s.Stores u l :=
  { toShown := State.Shown.trans a.toShown b.toShown
    writes := a.writes.trans b.writes
    unwatched := fun h => by
      have e := a.unwatched h
      have hb : t.unwatched l := by
        intro r hr
        rw [e]
        exact h r hr
      rw [b.unwatched hb, e] }

theorem State.Stores.mono {t : State} {l m : List (Nat × Nat)} (a : s.Stores t l) (h : ∀ r ∈ l, r ∈ m) : s.Stores t m :=
  { toShown := a.toShown, writes := a.writes.mono h, unwatched := fun hu => a.unwatched (hu.mono h) }

/-- Fewer bytes of a range. -/
theorem State.Stores.sub {t : State} {a n m : Nat} (h : s.Stores t [(a, n)]) (hn : n ≤ m) (l : List (Nat × Nat)) (hm : (a, m) ∈ l) :
    s.Stores t l :=
  { toShown := h.toShown
    writes := fun i hi => h.writes i fun r hr => by
      cases List.mem_singleton.1 hr
      have := hi _ hm
      dsimp only at this ⊢
      omega
    unwatched := fun hu => h.unwatched fun r hr => by
      cases List.mem_singleton.1 hr
      have := hu _ hm
      dsimp only at this ⊢
      constructor
      · have h1 := this.1
        unfold State.landingHits at h1 ⊢
        rw [List.flatMap_eq_nil_iff] at h1 ⊢
        intro x hx
        have h2 := h1 x hx
        rw [List.filterMap_eq_nil_iff] at h2 ⊢
        intro j hj
        have h3 := h2 j hj
        unfold commonRange at h3 ⊢
        dsimp only at h3 ⊢
        split at h3
        · cases h3
        · rw [if_neg (by omega)]; rfl
      · have h1 := this.2
        unfold State.sealHits at h1 ⊢
        rw [List.flatMap_eq_nil_iff] at h1 ⊢
        intro x hx
        have h2 := h1 x hx
        rw [List.flatMap_eq_nil_iff] at h2 ⊢
        intro j hj
        have h3 := h2 j hj
        rw [List.map_eq_nil_iff, List.filter_eq_nil_iff] at h3 ⊢
        intro k hk
        have h4 := h3 k hk
        unfold commonRange at h4 ⊢
        dsimp only at h4 ⊢
        split at h4
        · exact absurd rfl h4
        · rw [if_neg (by omega)]; exact Bool.false_ne_true }

/-- Writing bytes of a region writes no byte outside the ranges they lie in, and shows what is watched. -/
theorem State.writeRegion_stores (h : s.Inv) (e : RegionEntry) (slot off : Nat) (bs : List Byte) (tag : Nat) :
    s.Stores (s.writeRegion e slot off bs tag) (e.ranges slot off bs.length) := by
  unfold State.writeRegion
  generalize e.ranges slot off bs.length = l
  suffices h : ∀ (m : List (Nat × Nat)) (t : State) (rest : List Byte), (∀ r ∈ m, r ∈ l) → t.Inv → s.Stores t l →
      s.Stores (m.foldl (fun (x : State × List Byte) r => (x.1.put (e.loc == 1) r.1 (x.2.take r.2) tag, x.2.drop r.2)) (t, rest)).1 l from
    h l s bs (fun _ h => h) ‹_› (State.Stores.refl s l)
  intro m
  induction m with
  | nil => intro t rest _ _ ht; exact ht
  | cons r m ih =>
    intro t rest hm hi ht
    refine ih _ _ (fun x hx => hm x (List.mem_cons_of_mem _ hx)) (State.put_inv hi ..) (ht.trans ?_)
    exact (State.put_stores hi _ _ _ _).sub (by simp only [List.length_take]; omega) l (hm r List.mem_cons_self)

/-- Bytes written to a region in fabric memory, where there is memory, are read back. -/
theorem State.writeRegion_fabric (s : State) (e : RegionEntry) (slot off : Nat) (bs : List Byte) (tag : Nat) (h : e.loc = 1)
    (hm : s.touches (e.base + off, bs.length) = false) :
    memRead (s.writeRegion e slot off bs tag).mem (e.base + off) bs.length = bs := by
  have hr : e.ranges slot off bs.length = [(e.base + off, bs.length)] := by unfold RegionEntry.ranges; rw [if_pos h]
  unfold State.writeRegion
  rw [hr]
  show memRead (s.put _ (e.base + off) (bs.take bs.length) _).mem _ _ = _
  rw [State.put_mem, List.take_length]
  exact State.write_reads s _ bs hm

/-! ## Completion records -/

theorem recordBytes_length (c : Ring) (q : Word) (st : Status) (op jet tag det : Nat) (f h : Bool) : (recordBytes c q st op jet tag det f h).length = 16 := by
  simp [recordBytes, leBytes_length]

/-- What a write through a port does: its request, and what is stored. -/
theorem State.portWrite_only (h : s.Inv) (r : Request) (a : Nat) (bs : List Byte) :
    s.Stores { s.portWrite r a bs with reqs := s.reqs } [(a, bs.length)] ∧ (s.portWrite r a bs).rings = s.rings ∧
      (s.portWrite r a bs).mem = (s.write a bs).mem := by
  unfold State.portWrite
  generalize hq : s.request _ = t
  have ht : t = { s with reqs := t.reqs } := by rw [← hq]; rfl
  have hi : t.Inv := hq ▸ State.request_inv h _
  have hp := State.put_stores hi (!r.stack) a bs 15
  have hm := State.put_mem t (!r.stack) a bs 15
  generalize t.put (!r.stack) a bs 15 = u at hp hm
  refine ⟨?_, ?_, ?_⟩
  · exact {
      sluice := by have := hp.sluice; rw [ht] at this; exact this
      basins := fun b => by have := hp.basins b; rw [ht] at this; exact this
      rest := by have := hp.rest; rw [ht] at this; rw [this]
      jobs := State.OnlyParts.of_jobs rfl (by have := hp.jobs; rw [ht] at this; exact this)
      regions := by have := hp.regions; rw [ht] at this; exact this
      shards := fun n => by have := hp.shards n; rw [ht] at this; exact this
      jets := fun k => by have := hp.jets k; rw [ht] at this; exact this
      writes := by have := hp.writes; rw [ht] at this; exact this
      unwatched := fun hu => by
        have := hp.unwatched (by rw [ht]; exact hu)
        rw [this, ht] }
  · have := congrArg State.rings hp.rest
    rw [this, ht]
  · rw [hm, ht]; rfl

/-- Everything that writing a completion record does. -/
theorem State.writeRecord_only (hi : s.Inv) (r : Nat) (q : Word) (v : Verdict') (op jet tag : Nat) (fenced : Bool) (he : (s.ring r).enable = true) :
    let c := s.ring r
    let halts := c.haltOnRefuse && v.1 == .refusedState
    let there := (s.region c.part c.cplRegion).kind == 10
    let t := s.writeRecord r q v op jet tag fenced
    s.Stores { t with rings := s.rings, reqs := s.reqs } (if there then [(s.recordAddr c q, 16)] else []) ∧
      (there = true → s.touches (s.recordAddr c q, 16) = false →
        memRead t.mem (s.recordAddr c q) 16 = recordBytes c q v.1 (opField op) jet tag v.2 fenced halts) ∧
      Tab.Only {} s.rings t.rings r (if halts then c.halt q else c) := by
  intro c halts there t
  have hh : (c.haltOnRefuse && ((s.ring r).enable || (s.ring r).draining) && v.1 == .refusedState) = halts := by
    show (c.haltOnRefuse && ((s.ring r).enable || (s.ring r).draining) && v.1 == .refusedState) = _
    rw [he]; simp [halts]
  generalize hw : (if there then s.portWrite { stack := false, place := c.home, purpose := .record r q } (s.recordAddr c q)
        (recordBytes c q v.1 (opField op) jet tag v.2 fenced halts) else s) = w
  have ht : t = if halts then (w.updRing r (·.halt q)).dropFetches r else w := by
    show s.writeRecord r q v op jet tag fenced = _
    unfold State.writeRecord
    dsimp only
    rw [show ((s.ring r).haltOnRefuse && ((s.ring r).enable || (s.ring r).draining) && v.1 == .refusedState) = halts from hh]
    have : (if (s.region (s.ring r).part (s.ring r).cplRegion).kind = 10 then s.portWrite { stack := false, place := c.home, purpose := .record r q } (s.recordAddr c q)
        (recordBytes c q v.1 (opField op) jet tag v.2 fenced halts) else s) = w := by
      rw [← hw]; simp only [there, beq_iff_eq]; rfl
    rw [← this]
  have hs : s.Stores { w with reqs := s.reqs } (if there then [(s.recordAddr c q, 16)] else []) ∧ w.rings = s.rings ∧
      (there = true → w.mem = (s.write (s.recordAddr c q) (recordBytes c q v.1 (opField op) jet tag v.2 fenced halts)).mem) := by
    rw [← hw]
    cases there
    · exact ⟨State.Stores.refl s _, rfl, fun h => by cases h⟩
    · have := State.portWrite_only hi { stack := false, place := c.home, purpose := .record r q } (s.recordAddr c q)
        (recordBytes c q v.1 (opField op) jet tag v.2 fenced halts)
      rw [recordBytes_length] at this
      exact ⟨this.1, this.2.1, fun _ => this.2.2⟩
  have hm : t.mem = w.mem := by rw [ht]; cases halts <;> rfl
  refine ⟨?_, fun h ho => ?_, ?_⟩
  · have e : ({ t with rings := s.rings, reqs := s.reqs } : State) = { w with reqs := s.reqs } := by
      rw [ht]
      cases halts
      · rw [← hs.2.1]; rfl
      · rw [← hs.2.1]; rfl
    rw [e]
    exact hs.1
  · rw [hm, hs.2.2 h]
    have := State.write_reads s (s.recordAddr c q) (recordBytes c q v.1 (opField op) jet tag v.2 fenced halts) (by rw [recordBytes_length]; exact ho)
    rw [recordBytes_length] at this
    exact this
  · rw [ht]
    cases halts
    · simp only [Bool.false_eq_true, if_false]; rw [hs.2.1]
      exact ⟨rfl, fun _ _ => rfl⟩
    · simp only [if_true]
      have e : ((w.updRing r fun x => x.halt q).dropFetches r).rings = Tab.upd {} s.rings r (fun c : Ring => c.halt q) := by rw [← hs.2.1]; rfl
      rw [e]
      exact Tab.only_upd hi.rings_wf r (fun c : Ring => c.halt q)

/-- A ring whose descriptor can be accepted is enabled. -/
theorem State.front_enable {r : Nat} {p} {h : Held} (e : s.front r p = some h) : (s.ring r).enable = true := by
  unfold State.front at e
  dsimp only at e
  split at e
  · rename_i hc
    simp only [Bool.and_eq_true] at hc
    exact hc.1.1.1.2
  · cases e

/-- Everything that a completion at acceptance does. -/
theorem State.refuse_only (hi : s.Inv) (ring : Nat) (h : Held) (v : Verdict') (he : (s.ring ring).enable = true) :
    let c := s.ring ring
    let d := h.bytes
    let halts := c.haltOnRefuse && v.1 == .refusedState
    let there := (s.region c.part c.cplRegion).kind == 10
    let t := s.refuse ring h v
    s.Stores { t with rings := s.rings, reqs := s.reqs } (if there then [(s.recordAddr c h.seq, 16)] else []) ∧
      (there = true → s.touches (s.recordAddr c h.seq, 16) = false → memRead t.mem (s.recordAddr c h.seq) 16 =
        leBytes 1 v.1.code ++ leBytes 1 (opField (opOf d)) ++
        leBytes 1 (b2n (!h.seq.getLsbD c.sizeExp) + 2 * b2n (cplFenceOf d) + 4 * b2n halts) ++ leBytes 1 0xFF ++
        leBytes 4 h.seq.toNat ++ leBytes 4 (tagOf d) ++ leBytes 4 v.2) ∧
      Tab.Only {} s.rings t.rings ring (if halts then
          { c with halted := true, haltSeq := h.seq, held := [], next := (c.held.tail.head?.map (·.seq)).getD c.next }
        else { c with held := c.held.tail }) := by
  intro c d halts there t
  have hu := State.updRing_only hi ring fun c => { c with held := c.held.tail }
  have hc : (s.unhold ring).ring ring = { c with held := c.held.tail } := hu.2.1
  have := State.writeRecord_only (State.unhold_inv hi ring) ring h.seq v (opOf d) 0xFF (tagOf d) (cplFenceOf d) (by rw [hc]; exact he)
  dsimp only at this
  rw [hc] at this
  obtain ⟨a, e, f⟩ := this
  have ht : (s.unhold ring).writeRecord ring h.seq v (opOf d) 0xFF (tagOf d) (cplFenceOf d) = t := rfl
  rw [ht] at a e f
  refine ⟨?_, e, f.1, fun k hk => ?_⟩
  · exact {
      sluice := a.sluice, basins := a.basins, jobs := a.jobs, regions := a.regions, shards := a.shards, jets := a.jets, writes := a.writes
      rest := by have := a.rest; generalize t = t at this ⊢; rw [State.mk.injEq] at this ⊢; simpa [State.unhold, State.updRing] using this
      unwatched := fun hu => by
        have := a.unwatched hu; generalize t = t at this ⊢; rw [State.mk.injEq] at this ⊢; simpa [State.unhold, State.updRing] using this }
  · refine (f.2 k hk).trans ?_
    exact hu.2.2 k hk

/-! ## Waking -/

theorem Tab.get_updAll_of {α : Type} [DecidableEq α] {d : α} {t : Tab α} (h : Tab.wf d t = true) (p : α → α → Prop)
    (hr : ∀ x, p x x) (ht : ∀ x y z, p x y → p y z → p x z) (f : Nat → α → α) (hf : ∀ k x, p x (f k x)) (ks : List Nat) (i : Nat) :
    p (Tab.get d t i) (Tab.get d (Tab.updAll d t ks f) i) := by
  unfold Tab.updAll
  induction ks generalizing t with
  | nil => exact hr _
  | cons k ks ih =>
    refine ht _ _ _ ?_ (ih (Tab.wf_upd h k (f k)))
    by_cases hk : i = k
    · subst hk
      rw [Tab.get_upd_self h]
      exact hf i _
    · rw [Tab.get_upd_ne t _ hk]
      exact hr _

theorem State.wake_only (h : s.Inv) (js bs : List Nat) : s.OnlyWakes (s.wake js bs) := by
  unfold State.wake
  split
  · exact {
      rest := rfl
      jets := fun j => Tab.get_updAll_of h.jets_wf (fun x y => y = { x with waking := y.waking }) (fun _ => rfl)
        (fun x y z a b => by rw [b, a]) _ (fun _ x => by split <;> rfl) _ j
      basins := fun b => Tab.get_updAll_of h.basins_wf (fun x y => y = { x with waking := y.waking }) (fun _ => rfl)
        (fun x y z a b => by rw [b, a]) _ (fun _ x => by split <;> rfl) _ b }
  · exact ⟨rfl, fun _ => rfl, fun _ => rfl⟩

/-! ## Pins -/

theorem State.takePins_only (h : s.Inv) (l : List Nat) :
    s.takePins l = { s with shards := (s.takePins l).shards } ∧
      ∀ n, (s.takePins l).shard n = { s.shard n with
        pins0 := ((s.takePins l).shard n).pins0, pins1 := ((s.takePins l).shard n).pins1 } := by
  unfold State.takePins
  induction l generalizing s with
  | nil => exact ⟨rfl, fun _ => rfl⟩
  | cons k l ih =>
    have hk := State.updShard_inv h k fun x => x.setPins x.curSlot (x.pins x.curSlot + 1)
    obtain ⟨e, hn⟩ := ih hk
    simp only [List.foldl_cons]
    refine ⟨by rw [e]; rfl, fun n => ?_⟩
    have hs := State.shard_updShard h k n fun x => x.setPins x.curSlot (x.pins x.curSlot + 1)
    refine (hn n).trans ?_
    rw [hs]
    split
    · unfold Shard.setPins
      split <;> rfl
    · rfl

/-! ## Acceptance -/

/-- What accepting a descriptor as a job does. -/
theorem State.takeUp_only (h : s.Inv) (ring : Nat) (d : Held) (j : Job)
    (hj : j.ring = ring ∧ j.seq = d.seq ∧ j.desc = d.bytes ∧ j.part = (s.ring ring).part ∧ j.recorded = false) :
    s.AcceptsOnly (s.takeUp ring j) ring d j := by
  have hu := State.updRing_only h ring fun c => { c with held := c.held.tail }
  have hi : (s.unhold ring).Inv := State.updRing_inv h _ _
  have hp := State.takePins_only hi (j.pins.map (·.1))
  have hq := State.takePins_inv hi (j.pins.map (·.1))
  unfold State.takeUp
  dsimp only
  generalize (s.unhold ring).takePins (j.pins.map (·.1)) = p at hp hq
  have hw := State.wake_only hq (s.workJets j) (s.routes (s.ring ring).home (s.workJets j))
  generalize p.wake _ _ = w at hw
  have e : w = { s with rings := (s.unhold ring).rings, shards := p.shards, jets := w.jets, basins := w.basins } := by
    refine hw.rest.trans ?_
    rw [hp.1]
    rfl
  have pj : p.jets = s.jets := by rw [hp.1]; rfl
  have pb : p.basins = s.basins := by rw [hp.1]; rfl
  refine { jobs := ?_, names := hj, rings := ?_, rest := ?_, shards := fun n => ?_, jets := fun k => ?_, basins := fun b => ?_ }
  · show w.jobs ++ [j] = _
    rw [e]
  · show Tab.Only {} s.rings w.rings ring _
    have : w.rings = (s.unhold ring).rings := by rw [e]
    rw [this]
    exact hu.2
  · show ({ w with jobs := w.jobs ++ [j] } : State) = _
    rw [e]
  · have hs : Tab.get {} w.shards n = p.shard n := by
      rw [e]
      rfl
    show Tab.get {} w.shards n = { s.shard n with pins0 := (Tab.get {} w.shards n : Shard).pins0, pins1 := (Tab.get {} w.shards n : Shard).pins1 }
    rw [hs]
    exact hp.2 n
  · have hs := hw.jets k
    simp only [State.jet, pj] at hs
    exact hs
  · have hs := hw.basins b
    simp only [State.basin, pb] at hs
    exact hs

/-- Accepting a job that has no parts and takes no pins, and is no LAND and no METER. -/
theorem State.takeUp_plain (s : State) (r : Nat) (j : Job) (hw : opOf j.desc ≠ 1 ∧ opOf j.desc ≠ 2) (hp : j.parts = [])
    (hq : j.pins = []) : s.takeUp r j = { s.unhold r with jobs := s.jobs ++ [j] } := by
  unfold State.takeUp State.wake State.takePins State.routes State.workJets
  simp only [hw.1, hw.2, or_self, if_false, hp, hq, List.map_nil, List.filter_nil, List.foldl_nil, Tab.updAll, List.flatMap_nil, List.eraseDups_nil]
  split <;> rfl

theorem State.takeUp_plain_only (h : s.Inv) (r : Nat) (d : Held) (j : Job) (hw : opOf j.desc ≠ 1 ∧ opOf j.desc ≠ 2)
    (hp : j.parts = []) (hq : j.pins = [])
    (hj : j.ring = r ∧ j.seq = d.seq ∧ j.desc = d.bytes ∧ j.part = (s.ring r).part ∧ j.recorded = false) :
    s.Accepts (s.takeUp r j) r d j ∧ s.takeUp r j = { s with jobs := s.jobs ++ [j], rings := (s.takeUp r j).rings } := by
  rw [State.takeUp_plain s r j hw hp hq]
  have hu := State.updRing_only h r fun c => { c with held := c.held.tail }
  exact ⟨⟨rfl, hj, hu.2⟩, rfl⟩

end Sys2Proof.Machine
end

