-- ==== Sys2Proof/WellFormed.lean ====
section
/-! DEFINITION. The well-formed commands: every operand within the range that the manual gives it. -/

namespace Sys2Proof

/-- A ring number (R110). -/
def okRing (ring : Nat) : Bool := decide (ring < 4096)
/-- A logical jet (R15). -/
def okJet (jet : Nat) : Bool := decide (jet < 24)
/-- A basin (R15). -/
def okBasin (basin : Nat) : Bool := decide (basin < 6)
/-- A partition (R103). -/
def okPart (part : Nat) : Bool := decide (part < 8)
/-- A shard (R221). -/
def okShard (shard : Nat) : Bool := decide (shard < 64)
/-- A part of a descriptor: of a jet, or 255 for the one that a basin controller runs (R132). -/
def okPlace (jet : Nat) : Bool := okJet jet || jet == 255
/-- A logical bank of a wellspring stack (R267). -/
def okBank (bank : Nat) : Bool := decide (bank < 512)
/-- A direction and a lane of an aqueduct link (R421). -/
def okLane (direction lane : Nat) : Bool := decide (direction < 2) && decide (lane < 10)
/-- A beat of a stack: 64-byte aligned, of 36 address bits (R416). -/
def okBeat (offset : Nat) : Bool := decide (offset < 2 ^ 36) && offset % 64 == 0
/-- The readings of eight gauges for each of at most 24 jets (R375). -/
def okGauges (gauges : List (List Nat)) : Bool :=
  decide (gauges.length ≤ 24) && gauges.all fun l => l.length == 8

/-- What a request was made for, with its numbers in range. -/
def RequestFor.ok : RequestFor → Bool
  | .operand ring _ | .store ring _ | .fetch ring _ | .record ring _ => okRing ring
  | .report | .upkeep => true
  | .catchUp shard group channel => okShard shard && decide (group < 4096) && decide (channel < 4)

/-- The requests that a stack port makes (R414). -/
def RequestFor.ofStack : RequestFor → Bool
  | .operand _ _ | .store _ _ | .catchUp _ _ _ | .upkeep => true
  | .fetch _ _ | .record _ _ | .report => false

/-- The place and the index of a unit of a class (R16, R366): a jet, a basin, a core, or none for a copy. -/
def okUnit (cls : FaultClass) (place index : Nat) : Bool :=
  decide (index < 512) && match cls with
  | .reservoir | .aqueduct => okBasin place
  | .core => decide (place < 30)
  | .pourCopy | .wardenCopy => place == 0 && decide (index < 3)
  | .lane | .row | .column | .cistern | .castUnit | .weirUnit | .stackData | .bank | .planeSeal => okJet place

/-- A reset of a level (R359). -/
def okReset (level : ResetLevel) (index : Nat) : Bool :=
  match level with
  | .jet => okJet index
  | .basin => okBasin index
  | .partition => okPart index
  | .whole => index == 0

/-- A register access (R424, R429). -/
def okAccess (part addr : Nat) : Bool := okPart part && decide (addr < 2 ^ 16)

/-- The well-formed commands. Where two rows of the table are writes of one register, the bit that tells them apart is
as the row says. -/
def Instr.wellFormed : Instr → Bool
  | .land ring | .meter ring | .still ring | .cast ring | .vote ring | .pour ring | .rewind ring | .crucible ring
  | .gemv ring | .rill ring | .copy ring | .fill ring | .sched ring | .fence ring | .census ring | .fwchunk ring
  | .fwactivate ring | .attest ring | .exportStream ring | .reservedOpcode ring => okRing ring
  | .descriptorFetch basin => okBasin basin
  | .tileStart ring _ jet | .tileCommit ring _ jet => okRing ring && okPlace jet
  | .descriptorComplete ring _ | .meterComplete ring _ => okRing ring
  | .voteTaken => true
  | .verdict record _ => record.length == 64
  | .doorbellWrite part ring _ | .ringResume part ring _ => okPart part && okRing ring
  | .pin part shard | .unpin part shard _ => okPart part && okShard shard
  | .doorbellPageBadAccess part offset _ _ => okPart part && decide (offset < 0x20000)
  | .regionCommit part value => okPart part && value.toNat % 16 != 0
  | .regionClear part value => okPart part && value.toNat % 16 == 0
  | .rangeAck jet => okJet jet
  | .ringEnable part value => okPart part && value.getLsbD 0
  | .ringDisable part value => okPart part && !value.getLsbD 0
  | .programCommit part value => okPart part && value.getLsbD 0
  | .programClear part value => okPart part && value.getLsbD 1
  | .jetMove part jet _ | .faultCntClear part jet _ => okPart part && okJet jet
  | .stepWrite part shard _ | .retire part shard _ => okPart part && okShard shard
  | .partGo part value => okPart part && value.getLsbD 7
  | .partitionResetDone part => okPart part
  | .jetRst part value => okPart part && value.getLsbD 13
  | .censusLogWrite part log _ => okPart part && okPart log
  | .sluiceLogWrite part _ | .clkHoldWrite part _ | .dbgCtlWrite part _ => okPart part
  | .clrDrops part value | .alarmPop part value | .bootGo part value => okPart part && value.getLsbD 0
  | .alarmHeadRead part => okPart part
  | .counterLowRead part addr | .registerWrite part addr _ => okAccess part addr
  | .keyxGo part value => okPart part && value.getLsbD 20
  | .keyAgreementDone | .romDone _ | .bootVerify _ => true
  | .bootMap badLanes => badLanes.all fun x => okBasin x.1 && okLane x.2.1 x.2.2
  | .bootLoad gauges => okGauges gauges
  | .stationSelfTestDone jet _ _ _ spares => okJet jet && decide (spares < 2 ^ 64)
  | .testEnd | .soakSweepDone | .soakEnd | .temperWrite | .temperWriteDone => true
  | .mzRstAssert | .mzRstDeassert | .aonPowerLoss => true
  | .jetResetAssert jet | .jetResetEnd jet | .jetSleep jet => okJet jet
  | .basinResetAssert basin | .basinResetDeassert basin | .basinSleep basin | .takeAck basin | .sluiceWrite basin =>
    okBasin basin
  | .drainTimeout level index => okReset level index
  | .mzWake | .freeze | .freezeClocksStop | .thaw => true
  | .wakeDone ofBasin index => if ofBasin then okBasin index else okJet index
  | .refreshTick jet bank | .refreshIssue jet bank | .pend jet bank => okJet jet && okBank bank
  | .rillStart jet | .rillWord jet | .gemvDrainDone jet | .patrolRead jet | .flushAck jet | .adoptionDone jet
  | .bankCopyDone jet | .opack jet _ _ => okJet jet
  | .bankIdle jet channel _ => okJet jet && decide (channel < 32)
  | .sealReport jet offset _ => okJet jet && okBeat offset
  | .landingWrite jet offset _ data tag => okJet jet && okBeat offset && data.length == 64 && decide (tag < 16)
  | .stackResponse jet request _ => okJet jet && request.ok && request.ofStack
  | .fabricResponse basin request _ => okBasin basin && request.ok
  | .flit basin direction lane arrival => okBasin basin && okLane direction lane && (arrival.work.all fun w => okRing w.1)
  | .laneRetrain basin direction lane _ => okBasin basin && okLane direction lane
  | .detectedError cls place index work => okUnit cls place index && (work.all fun w => okRing w.1)
  | .correction cls place index | .selfTestResult cls place index _ => okUnit cls place index
  | .copyReload _ n _ => decide (n < 3)
  | .replan gauges eyes => okGauges gauges && decide (eyes.length ≤ 6)
  | .chunkFetch core => decide (core ≤ 30)
  | .fwSwap | .fwactivateTimeout => true
  | .stat _ | .regRd _ | .regWr _ | .memRd _ | .memWr _ | .halt _ | .resume _ | .step _ | .brkSet _ | .brkClr _
  | .stateRd _ => true
  | .breakpointHit target unit index => decide (target.toNat < 0x1E) && decide (unit < 2) && decide (index < 4)
  | .ghTrst => true
  | .garhalReservedOp op _ => decide (0xB ≤ op.toNat)
  | .instructionRegisterUpdate _ => true
  | .engineHalted target => decide (target.toNat < 0x1E)

end Sys2Proof
end

