-- ==== Sys2Proof/Tests/Slice0.lean ====
section
/-! SUPPORT. Tests: ill-formed commands are refused, what reset and single commands do on small states, and for every
statement with hypotheses a concrete state and operands that meet them all. -/

namespace Sys2Proof.Machine.Tests

open Sys2Proof Sys2Proof.Machine

/-! ## Well-formed commands -/

theorem test_ill_ring : Instr.wellFormed (.land 4096) = false ∧ Instr.wellFormed (.land 4095) = true := by decide
theorem test_ill_basin : Instr.wellFormed (.descriptorFetch 6) = false ∧ Instr.wellFormed (.descriptorFetch 5) = true := by decide
theorem test_ill_place : Instr.wellFormed (.tileStart 0 0 24) = false ∧ Instr.wellFormed (.tileStart 0 0 255) = true := by decide
theorem test_ill_record : Instr.wellFormed (.verdict [] true) = false ∧ Instr.wellFormed (.verdict (List.replicate 64 0#8) true) = true := by
  decide
theorem test_ill_part : Instr.wellFormed (.doorbellWrite 8 0 0) = false ∧ Instr.wellFormed (.doorbellWrite 7 0 0) = true := by decide
theorem test_ill_shard : Instr.wellFormed (.pin 0 64) = false ∧ Instr.wellFormed (.pin 0 63) = true := by decide
theorem test_ill_page : Instr.wellFormed (.doorbellPageBadAccess 0 0x20000 8 false) = false := by decide
theorem test_ill_commit : Instr.wellFormed (.regionCommit 0 0x10) = false ∧ Instr.wellFormed (.regionClear 0 0x10) = true := by decide
theorem test_ill_enable : Instr.wellFormed (.ringEnable 0 2) = false ∧ Instr.wellFormed (.ringDisable 0 2) = true := by decide
theorem test_ill_program : Instr.wellFormed (.programCommit 0 2) = false ∧ Instr.wellFormed (.programClear 0 1) = false := by decide
theorem test_ill_jet : Instr.wellFormed (.jetMove 0 24 0) = false ∧ Instr.wellFormed (.jetMove 0 23 0) = true := by decide
theorem test_ill_go : Instr.wellFormed (.partGo 0 0) = false ∧ Instr.wellFormed (.jetRst 0 0x80) = false ∧
    Instr.wellFormed (.bootGo 0 2) = false ∧ Instr.wellFormed (.keyxGo 0 0) = false ∧ Instr.wellFormed (.alarmPop 0 0) = false ∧
    Instr.wellFormed (.clrDrops 0 0) = false := by decide
theorem test_ill_access : Instr.wellFormed (.registerWrite 0 0x10000 0) = false ∧ Instr.wellFormed (.censusLogWrite 0 8 0) = false := by
  decide
theorem test_ill_lane : Instr.wellFormed (.bootMap [(0, 2, 0)]) = false ∧ Instr.wellFormed (.flit 0 0 10 ⟨true, none⟩) = false ∧
    Instr.wellFormed (.laneRetrain 6 0 0 0) = false := by decide
theorem test_ill_gauges : Instr.wellFormed (.bootLoad [[1]]) = false ∧ Instr.wellFormed (.replan [] [1, 1, 1, 1, 1, 1, 1]) = false := by
  decide
theorem test_ill_spares : Instr.wellFormed (.stationSelfTestDone 0 .nozzle true false (2 ^ 64)) = false := by decide
theorem test_ill_reset : Instr.wellFormed (.drainTimeout .whole 1) = false ∧ Instr.wellFormed (.drainTimeout .partition 8) = false ∧
    Instr.wellFormed (.drainTimeout .jet 24) = false ∧ Instr.wellFormed (.drainTimeout .basin 6) = false := by decide
theorem test_ill_wake : Instr.wellFormed (.wakeDone true 6) = false ∧ Instr.wellFormed (.wakeDone false 6) = true := by decide
theorem test_ill_bank : Instr.wellFormed (.refreshTick 3 512) = false ∧ Instr.wellFormed (.bankIdle 3 32 0) = false := by decide
theorem test_ill_beat : Instr.wellFormed (.sealReport 0 32 0) = false ∧ Instr.wellFormed (.landingWrite 0 0 0 [] 0) = false ∧
    Instr.wellFormed (.landingWrite 0 0 0 (List.replicate 64 0#8) 16) = false := by decide
theorem test_ill_request : Instr.wellFormed (.stackResponse 0 .report .ok) = false ∧
    Instr.wellFormed (.fabricResponse 0 (.catchUp 64 0 0) .ok) = false ∧ Instr.wellFormed (.fabricResponse 0 .report .ok) = true := by decide
theorem test_ill_unit : Instr.wellFormed (.detectedError .reservoir 6 0 none) = false ∧ Instr.wellFormed (.correction .core 30 0) = false ∧
    Instr.wellFormed (.selfTestResult .pourCopy 0 3 true) = false ∧ Instr.wellFormed (.detectedError .lane 24 0 none) = false ∧
    Instr.wellFormed (.detectedError .lane 0 0 (some (4096, 0))) = false := by decide
theorem test_ill_copy : Instr.wellFormed (.copyReload true 3 true) = false ∧ Instr.wellFormed (.chunkFetch 31) = false := by decide
theorem test_ill_target : Instr.wellFormed (.breakpointHit 0x1E 0 0) = false ∧ Instr.wellFormed (.breakpointHit 0 2 0) = false ∧
    Instr.wellFormed (.breakpointHit 0 0 4) = false ∧ Instr.wellFormed (.engineHalted 0x1F) = false ∧
    ∀ c, Instr.wellFormed (.garhalReservedOp 0xA c) = false := by
  exact ⟨by decide, by decide, by decide, by decide, fun _ => by simp [Instr.wellFormed]⟩
theorem test_words_spell_nothing : decodeTableWord 8 0 = none ∧ State.reset.withFetchWord 8 0 = State.reset := by decide

/-! ## States that the witnesses start from -/

/-- The decidable parts of the invariant. -/
def checks (s : State) : Bool :=
  Memory.wf s.mem && Tab.wf {} s.regions && Tab.wf {} s.rings && Tab.wf {} s.shards && Tab.wf {} s.groups && Tab.wf {} s.slots &&
    Tab.wf 0x100 s.quotas && Tab.wf {} s.jets && Tab.wf {} s.basins && Tab.wf {} s.own && Tab.wf {} s.censusLogs &&
    Tab.wf [] s.census.totals && Tab.wf none s.census.attempts && Tab.wf [] s.census.firsts && Tab.wf none s.resets.parts && Tab.wf {} s.warden.exports &&
    Tab.wf {} s.boot.temper.jets && decide (s.sluice.alarms.length ≤ 511) && s.basins.all fun x => decide (x.2.queue.length ≤ 64)

/-- A state that passes the checks meets the invariant. -/
theorem inv_of {s : State} (h : checks s = true) : s.Inv := by
  simp only [checks, Bool.and_eq_true, decide_eq_true_eq, List.all_eq_true] at h
  obtain ⟨⟨⟨⟨⟨⟨⟨⟨⟨⟨⟨⟨⟨⟨⟨⟨⟨⟨a, b⟩, c⟩, d⟩, e⟩, f⟩, g⟩, h⟩, i⟩, j⟩, k⟩, l⟩, m⟩, n⟩, o⟩, p⟩, q⟩, r⟩, u⟩ := h
  exact ⟨a, ⟨b, c, d, e, f, g, h, i, j, k, l, m, n, o, p, q⟩, .inl r, u⟩

/-- A descriptor of fields (byte, length, value). -/
def desc (fields : List (Nat × Nat × Nat)) : List Byte :=
  fields.foldl (fun d f => putField d f.1 f.2.1 f.2.2) (List.replicate 64 0#8)

/-- An engine that is awake, with every station READY. -/
def soundJet (j : Nat) : Jet := { codes := List.replicate 6 2, awake := true, port := j }

/-- An address that no stack has. -/
def host : Nat := 0x180000000000

/-- A region of a kind on jet 0, or outside the stacks where it has no jets. -/
def area (kind jets base length : Nat) : RegionEntry :=
  { kind := kind, loc := if jets = 0 then 1 else 0, jets := jets, base := if jets = 0 then host + base else base, length := length }

/-- The regions of partition 0: two of a ring, streams, a landing, records, a table. -/
def areas : Tab RegionEntry :=
  [(1, area 10 0 0 0x400), (2, area 10 0 0x400 0x100), (3, area 3 1 0x200000 0x4000), (4, { area 1 1 0x100000 0x4000 with slotted := true, alt := 0x180000 }),
    (5, area 2 1 0x300000 0x4000), (6, area 8 0 0x10000 0x40000), (7, area 9 0 0x60000 0x4000), (8, area 11 0 0x70000 0x1000),
    (9, { area 4 1 0x400000 0x4800 with format := 4 })]

/-- A Molzen that runs, with ring 0 of partition 0, shard 0 and the areas. -/
def running : State :=
  { boot := { phase := .run, verified := true, wcfg := 1 }, warden := { ready := 2 }, sluice := { ready := 2 }, pourReady := 2
    jets := (List.range 24).map fun j => (j, soundJet j), basins := (List.range 6).map fun b => (b, { awake := true })
    regions := areas, shards := [(0, { owner := some 0 })]
    rings := [(0, { enable := true, sizeExp := 4, descRegion := 1, cplRegion := 2, tail := 2, next := 1 })] }

/-- The running Molzen with a descriptor at the front of ring 0. -/
def with' (d : List Byte) (s : State := running) : State :=
  s.updRing 0 fun c => { c with held := [{ seq := 0, bytes := d }] }

/-- The descriptor as it is held. -/
def held (d : List Byte) : Held := { seq := 0, bytes := d }

/-- The running Molzen with shard 0 as given. -/
def shardAt (x : Shard) (s : State := running) : State := s.updShard 0 fun _ => { x with owner := some 0 }

theorem running_inv : running.Inv := inv_of (by decide)

/-! ## Witnesses: descriptors at acceptance -/

theorem witness_StepRunsFrontCommand : running.Inv ∧ running.pending = [] ∧ running.clocks.rst = false ∧ (running.jet 0).halted = false ∧
    (({ running with pending := [.mzWake] } : State).pending = .mzWake :: []) ∧
    ({ running with clocks := { rst := true } } : State).clocks.rst = true ∧ ({ running with clocks := { rst := true } } : State).Inv :=
  ⟨running_inv, by decide, by decide, by decide, rfl, by decide, inv_of (by decide)⟩
/-- Records of each class, with the event log off and with the buffer of alarms empty. -/
theorem witness_RecordsAndAlarms : running.Inv ∧ running.sluice.log.trace = false ∧ running.sluice.log.enable = false ∧
    ({ cls := 3, code := 0 } : Event').cls = 3 ∧ ({ cls := 0, code := 0 } : Event').cls = 0 :=
  ⟨running_inv, by decide, by decide, rfl, rfl⟩

/-- A descriptor with a reserved bit, in byte 3, that every opcode refuses. -/
def wrong (op : Nat) : List Byte := desc [(0, 1, op), (3, 1, 1)]

/-- Every opcode of the statement refuses it; ring 0 has its completion region. -/
theorem witness_RefusalWritesRecord : (∀ op ∈ (List.range 20).tail,
      checks (with' (wrong op)) = true ∧ (with' (wrong op)).front 0 (· == op) = some (held (wrong op))) ∧
    (with' (wrong 1)).unitStopped = false ∧ ((with' (wrong 1)).region 0 2).kind = 10 ∧ (with' (wrong 2)).meterChecks 0 (wrong 2) = some (.format, 3) ∧
    (with' (wrong 3)).stillChecks ((with' (wrong 3)).stillView 0 (wrong 3)) = some (.format, 3) ∧
    (with' (wrong 4)).castChecks 0 (wrong 4) = some (.format, 3) ∧ (with' (wrong 9)).gemvChecks 0 (wrong 9) = some (.format, 3) ∧
    (with' (wrong 10)).rillChecks 0 (wrong 10) = some (.format, 3) ∧ (with' (wrong 13)).schedChecks 0 (wrong 13) = some (.format, 3) ∧
    (with' (wrong 1)).landChecks 0 (wrong 1) = some (.format, 3) ∧ (with' (wrong 5)).voteChecks 0 (wrong 5) = some (.format, 3) ∧
    (with' (wrong 6)).pourChecks 0 (wrong 6) = some (.format, 3) := by decide
theorem witness_RefusalWritesRecord_rest : (with' (wrong 7)).rewindChecks 0 (wrong 7) = some (.format, 3) ∧
    (with' (wrong 8)).crucibleChecks 0 (wrong 8) = some (.format, 3) ∧ (with' (wrong 11)).copyChecks 0 (wrong 11) = some (.format, 3) ∧
    (with' (wrong 12)).fillChecks 0 (wrong 12) = some (.format, 3) ∧ (with' (wrong 14)).fenceChecks 0 (wrong 14) = some (.format, 3) ∧
    (with' (wrong 15)).censusChecks 0 (wrong 15) = some (.format, 3) ∧ (with' (wrong 16)).chunkChecks 0 (wrong 16) = some (.format, 3) ∧
    (with' (wrong 17)).activateChecks 0 (wrong 17) = some (.format, 3) ∧ (with' (wrong 18)).attestChecks 0 (wrong 18) = some (.format, 3) ∧
    (with' (wrong 19)).exportChecks 0 (wrong 19) = some (.format, 3) := by decide

/-- A reserved opcode at either end of the two ranges. -/
theorem witness_RefusalWritesRecord_reserved : ∀ op ∈ [0, 0x14, 0xFF], checks (with' (wrong op)) = true ∧
    (with' (wrong op)).front 0 (fun o => o == 0 || 0x14 ≤ o) = some (held (wrong op)) ∧ ((with' (wrong op)).region 0 2).kind = 10 := by
  decide
theorem witness_RefusalWritesRecord_land : (with' (wrong 1)).weirsFree (shardOf (wrong 1)) = true := by decide

def landD : List Byte := desc [(0, 1, 1), (8, 4, 1)]
theorem witness_LandOpensTheAttempt : (with' landD).Inv ∧ (with' landD).front 0 (· == 1) = some (held landD) ∧
    (with' landD).unitStopped = false ∧ (with' landD).landChecks 0 landD = none ∧ (with' landD).landingJets 0 = [0] :=
  ⟨inv_of (by decide), by decide, by decide, by decide, by decide⟩
/-- The Weir of the landing jet is under no test, and its engine awake or asleep. -/
theorem witness_LandOpensTheAttempt_jets : (with' landD).weirsFree (shardOf landD) = true ∧ (with' landD).present 0 = true ∧
    (let s := with' landD (running.updJet 0 fun x => { x with awake := false });
      checks s = true ∧ s.weirsFree 0 = true ∧ s.front 0 (· == 1) = some (held landD) ∧ s.landChecks 0 landD = none ∧
      0 ∈ s.landingJets 0 ∧ (s.jet (s.engine 0)).awake = false) := by decide

def landing : Shard := { state := 1, openEpoch := 1 }
def meterD : List Byte := desc [(0, 1, 2), (8, 4, 1)]
/-- FENCE on ring 0 up to its descriptor 7, and FENCE on nothing. -/
def fenceD : List Byte := desc [(0, 1, 14), (9, 1, 0x80), (12, 4, 7)]
theorem witness_MeterAndFenceWait : (with' meterD (shardAt landing)).Inv ∧
    (with' meterD (shardAt landing)).front 0 (· == 2) = some (held meterD) ∧
    (with' meterD (shardAt landing)).shardChecks 0 meterD = none ∧ ((with' meterD (shardAt landing)).shard 0).state = 1 ∧
    (∀ j ∈ (with' meterD (shardAt landing)).landingJets 0, (with' meterD (shardAt landing)).code j 0 = 2) ∧
    (with' meterD (shardAt landing)).pourReady = 2 ∧
    (with' fenceD).front 0 (· == 0x0E) = some (held fenceD) ∧ (with' fenceD).fenceChecks 0 fenceD = none ∧
    (with' fenceD).Inv ∧ 2 ^ 15 ≤ fieldAt fenceD 8 2 :=
  ⟨inv_of (by decide), by decide, by decide, by decide, by decide, by decide, by decide, by decide, inv_of (by decide), by decide⟩

def metered : Shard := { state := 2, openEpoch := 1, figures := { epoch := 1, sumsq := 0x3F800000, valid := true } }
def session : Session := { number := 7, chip := 9, key := List.replicate 32 1#8 }
def keyed (s : State) : State := { s with warden := { s.warden with sessions := [session] } }
def voteD : List Byte := desc [(0, 1, 5), (8, 4, 1)]
/-- The first vote of METERED, and the vote sent again in VOTED. -/
theorem witness_VoteSendsTheRecord : ∀ x ∈ [metered, { metered with state := 4 }],
    checks (keyed (with' voteD (shardAt x))) = true ∧ (keyed (with' voteD (shardAt x))).front 0 (· == 5) = some (held voteD) ∧
    (keyed (with' voteD (shardAt x))).voteChecks 0 voteD = none ∧ (keyed (with' voteD (shardAt x))).session = some session := by decide
theorem witness_VoteSendsTheRecord_fields : 63 < 64 ∧ ({ attempt := 65535 } : Shard).attempt < 2 ^ 16 ∧ session.number < 2 ^ 16 ∧
    session.chip < 2 ^ 32 := by decide

def poured : Shard := { state := 6, rewindable := true, pouredOnce := true, curSlot := 1, curEpoch := 2, prevEpoch := 1 }
def rewindD : List Byte := desc [(0, 1, 7), (8, 4, 1)]
theorem witness_RewindFlipsBack : (with' rewindD (shardAt poured)).Inv ∧
    (with' rewindD (shardAt poured)).front 0 (· == 7) = some (held rewindD) ∧ (with' rewindD (shardAt poured)).unitStopped = false ∧
    (with' rewindD (shardAt poured)).rewindChecks 0 rewindD = none :=
  ⟨inv_of (by decide), by decide, by decide, by decide⟩

/-- A shard whose verdict is held, for the last attempt of an epoch. -/
def voted (verdict : Nat) : Shard :=
  { state := 5, verdictHeld := true, verdict := verdict, stillDone := true, openEpoch := 1, attempt := 65535, heldG := 0x3F800000 }
def pourD (action : Nat) : List Byte := desc [(0, 1, 6), (8, 4, 1), (12, 1, action)]
theorem witness_PourCommitFlips : (with' (pourD 0) (shardAt (voted 0))).Inv ∧
    (with' (pourD 0) (shardAt (voted 0))).front 0 (· == 6) = some (held (pourD 0)) ∧
    (with' (pourD 0) (shardAt (voted 0))).unitStopped = false ∧
    (with' (pourD 0) (shardAt (voted 0))).pourChecks 0 (pourD 0) = none ∧ bit (fieldAt (pourD 0) 12 1) 0 = false ∧
    ((with' (pourD 0) (shardAt (voted 0))).shard 0).verdict = 0 ∧ (with' (pourD 0) (shardAt (voted 0))).unwatched [] :=
  ⟨inv_of (by decide), by decide, by decide, by decide, by decide, by decide, fun _ h => nomatch h⟩
/-- ACTION 1 under a held COMMIT, and a held SKIP and a held ABORT. -/
theorem witness_PourEndsTheAttempt : ∀ x ∈ [(0, 1), (1, 0), (2, 0)],
    checks (with' (pourD x.2) (shardAt (voted x.1))) = true ∧
    (with' (pourD x.2) (shardAt (voted x.1))).front 0 (· == 6) = some (held (pourD x.2)) ∧
    (with' (pourD x.2) (shardAt (voted x.1))).unitStopped = false ∧
    (with' (pourD x.2) (shardAt (voted x.1))).pourChecks 0 (pourD x.2) = none ∧
    (bit (fieldAt (pourD x.2) 12 1) 0 = true ∨ (voted x.1).verdict = 1 ∨ (voted x.1).verdict = 2) := by decide

/-! ## Witnesses: data opcodes -/

/-- A STILL of SGD over 4096 parameters, or over none, with a CLIP field. -/
def stillD (clip len : Nat) : List Byte :=
  desc [(0, 1, 3), (16, 5, len), (24, 1, 4), (25, 1, 3), (26, 1, 5), (30, 1, 4), (31, 1, 5), (38, 2, 199), (40, 2, 3), (44, 4, 1), (48, 1, clip)]
/-- A first pass under LAGGED, EXACT under a held COMMIT, and a re-still, and one over an empty range. -/
theorem witness_StillAccepted : ∀ x ∈ [(metered, 1, 0x4000, StillMode.firstPass), (voted 0, 0, 0x4000, .exact),
      ({ voted 0 with restillDue := true }, 2, 0x4000, .restill), (metered, 2, 0, .firstPass)],
    let d := stillD x.2.1 x.2.2.1
    let s := with' d (shardAt x.1)
    checks s = true ∧ s.front 0 (· == 3) = some (held d) ∧
      s.stillChecks (s.stillView 0 d) = none ∧ (s.shard 0).stillMode (clipOf d) = some x.2.2.2 ∧
      (s.stillView 0 d).count = x.2.2.1 / 4 := by decide

/-- A CAST of 4096 elements, or of none, into a cast region of the format of CAST_CTL 0. -/
def castD (len : Nat) : List Byte := desc [(0, 1, 4), (16, 5, len), (24, 1, 5), (25, 1, 9), (28, 1, 3)]
def castState (d : List Byte) : State := (with' d).updRegion 9 fun e => { e with format := (ctlFormat 0).code }
theorem witness_CastAccepted : ∀ len ∈ [0x4000, 0], checks (castState (castD len)) = true ∧
    (castState (castD len)).front 0 (· == 4) = some (held (castD len)) ∧
    (castState (castD len)).castChecks 0 (castD len) = none ∧
    countElem (castD len) ((castState (castD len)).operand 0 (castD len) 24) = len / 4 := by decide

def copyD (len : Nat) : List Byte := desc [(0, 1, 11), (16, 5, len), (24, 1, 5), (25, 1, 4)]
def fillD (len : Nat) : List Byte := desc [(0, 1, 12), (16, 5, len), (24, 1, 5), (32, 4, 0xFFFFFFFF)]
/-- C := A × B of sizes m × 1 and 1 × 1, on F16 operands. -/
def crucibleD (m : Nat) : List Byte := desc [(0, 1, 8), (24, 1, 10), (25, 1, 10), (26, 1, 5), (32, 4, m), (36, 4, 1), (40, 4, 1)]
def crucibleState (d : List Byte) : State :=
  let s := with' d
  { s with boot := { s.boot with features := 2 }, regions := s.regions ++ [(10, { area 2 1 0x500000 0x2000 with format := 2 })] }
def exportD (len : Nat) : List Byte := desc [(0, 1, 19), (16, 5, len), (24, 1, 5), (25, 1, 8)]

/-- COPY, FILL and CRUCIBLE over a range, the last to the end of its region, and over an empty one. -/
theorem witness_MovesAccepted : (∀ len ∈ [0xFFFFFFFFFF, 0], checks (with' (copyD len)) = true ∧
      (with' (copyD len)).front 0 (· == 0x0B) = some (held (copyD len)) ∧ (with' (copyD len)).copyChecks 0 (copyD len) = none ∧
      lengthOf (copyD len) ((with' (copyD len)).operand 0 (copyD len) 24).size = (if len = 0 then 0 else 0x4000)) ∧
    (∀ len ∈ [0x4000, 0], checks (with' (fillD len)) = true ∧ (with' (fillD len)).front 0 (· == 0x0C) = some (held (fillD len)) ∧
      (with' (fillD len)).fillChecks 0 (fillD len) = none ∧ lengthOf (fillD len) ((with' (fillD len)).operand 0 (fillD len) 24).size = len) ∧
    (∀ m ∈ [1, 0], checks (crucibleState (crucibleD m)) = true ∧
      (crucibleState (crucibleD m)).front 0 (· == 8) = some (held (crucibleD m)) ∧
      (crucibleState (crucibleD m)).crucibleChecks 0 (crucibleD m) = none ∧ crucibleM (crucibleD m) * crucibleN (crucibleD m) = m) := by
  decide
theorem witness_ExportAccepted : (∀ len ∈ [16, 0], checks (with' (exportD len)) = true ∧
      (with' (exportD len)).front 0 (· == 0x13) = some (held (exportD len)) ∧
      (with' (exportD len)).exportChecks 0 (exportD len) = none ∧
      lengthOf (exportD len) ((with' (exportD len)).operand 0 (exportD len) 24).size = len) ∧
    (with' (exportD 16)).wardenCopies.stopped = false ∧ (Tab.get {} (with' (exportD 16)).warden.exports 0 : ExportKey).seq < 2 ^ 64 ∧
    (with' (exportD 16)).touches (host + 0x70000, 128) = false := by decide
theorem witness_ExportAccepted_header : exportEncrypts (exportD 16) = false ∧
    (let d := desc [(0, 1, 19), (16, 5, 16), (24, 1, 5), (25, 1, 8), (26, 1, 1)];
      exportEncrypts d = true ∧ (with' d).front 0 (· == 0x13) = some (held d) ∧
      ({ with' d with warden := { running.warden with exports := [(0, { valid := true, keyId := 3 })] }, boot := { running.boot with features := 4 } } : State).exportChecks 0 d = none) := by decide

/-- Cells of consecutive bytes. -/
def cells (a : Nat) (bs : List Byte) : List Host.Cell := cellsOf a bs

/-- A RILL of one word that clears tally set 0, or of none, on jet 3. -/
def rillD (len : Nat) : List Byte := desc [(0, 1, 10), (16, 5, len), (24, 1, 6), (25, 1, 3)]
def rillState (d : List Byte) : State := { with' d with mem := cells (host + 0x10000) [0x18#8] }
/-- A product of a 32 × 128 matrix with one vector of signed bytes, on jet 3. -/
def gemvD : List Byte :=
  desc [(0, 1, 9), (24, 1, 20), (25, 1, 6), (26, 1, 21), (27, 1, 22), (28, 4, 32), (32, 4, 128), (36, 1, 1)]
def gemvState : State :=
  let s := with' gemvD
  { s with
    mem := cells (host + 0x10000) (leBytes 4 7 ++ leBytes 4 0x3F800000 ++ leBytes 4 128)
    regions := s.regions ++ [(20, area 6 8 0 0x8C00000), (21, area 8 0 0x80000 0x1000), (22, area 7 8 0x10000000 0x2000000)] }
theorem witness_RillAndGemvQueued : (∀ len ∈ [8, 0], checks (rillState (rillD len)) = true ∧
      (rillState (rillD len)).front 0 (· == 0x0A) = some (held (rillD len)) ∧ (rillState (rillD len)).rillChecks 0 (rillD len) = none ∧
      lengthOf (rillD len) ((rillState (rillD len)).operand 0 (rillD len) 24).size = len) ∧
    gemvState.Inv ∧ gemvState.front 0 (· == 9) = some (held gemvD) ∧ gemvState.gemvChecks 0 gemvD = none ∧
    (gemvState.operand 0 gemvD 24).castShare ≠ 0 :=
  ⟨by decide +kernel, inv_of (by decide), by decide +kernel, by decide +kernel, by decide⟩

/-- CENSUS of one group, and ATTEST. -/
def censusD : List Byte := desc [(0, 1, 15), (8, 2, 4095 % 4096), (24, 1, 7)]
def attestD : List Byte := desc [(0, 1, 18), (24, 1, 8), (32, 8, 0x1122334455667788)]
theorem witness_CensusAndAttestWrite : (with' censusD).Inv ∧ (with' censusD).front 0 (· == 0x0F) = some (held censusD) ∧
    (with' censusD).censusChecks 0 censusD = none ∧ (with' censusD).censusGroups 0 censusD = [4095] ∧
    (with' censusD).touches (host + 0x60000, 1024) = false ∧
    (with' attestD).Inv ∧ (with' attestD).front 0 (· == 0x12) = some (held attestD) ∧ (with' attestD).attestChecks 0 attestD = none ∧
    (with' attestD).touches (host + 0x70000, 512) = false ∧ (with' attestD).wardenCopies.stopped = false :=
  ⟨inv_of (by decide), by decide, by decide, by decide, by decide, inv_of (by decide), by decide, by decide, by decide, by decide⟩

/-- SCHED of group 5 from a table of one point, all zeros. -/
def schedD : List Byte := desc [(0, 1, 13), (8, 2, 5), (10, 1, 6), (12, 2, 1)]
theorem witness_SchedSetsTheGroup : (with' schedD).Inv ∧ (with' schedD).front 0 (· == 0x0D) = some (held schedD) ∧
    (with' schedD).schedChecks 0 schedD = none :=
  ⟨inv_of (by decide), by decide, by decide +kernel⟩

theorem witness_EmptyRangeCompletesEmpty : (with' (fillD 0)).front 0 (· == 0x0C) = some (held (fillD 0)) ∧
    (with' (fillD 0)).fillChecks 0 (fillD 0) = none ∧ lengthOf (fillD 0) ((with' (fillD 0)).operand 0 (fillD 0) 24).size = 0 ∧
    (with' (fillD 0)).Inv ∧ (with' (copyD 0)).copyChecks 0 (copyD 0) = none ∧ (with' (exportD 0)).exportChecks 0 (exportD 0) = none ∧
    (rillState (rillD 0)).rillChecks 0 (rillD 0) = none ∧ (crucibleState (crucibleD 0)).crucibleChecks 0 (crucibleD 0) = none ∧
    (castState (castD 0)).castChecks 0 (castD 0) = none :=
  ⟨by decide, by decide, by decide, inv_of (by decide), by decide, by decide, by decide +kernel, by decide, by decide⟩

/-- The first chunk of a manifest, and an image chunk of a staged manifest. -/
def chunkD (c : Nat) : List Byte := desc [(0, 1, 16), (8, 4, 1), (12, 4, c), (24, 1, 6)]
def manifest0 : List Byte := padTo 4096 (leBytes 4 0x4D465A4D ++ leBytes 4 1 ++ leBytes 4 0 ++ leBytes 2 1)
/-- A manifest of one chunk is staged, and every core lacks it. -/
def staging (s : State) : State :=
  { s with warden := { s.warden with
    fwStage := 1, manifest := [(0, manifest0)], manifestOk := true, lacks := (List.range 31).map fun c => (c, 1) } }
def activateD : List Byte := desc [(0, 1, 17), (8, 4, 1)]
/-- The same manifest with PREV of the running header, and with its chunk on every core. -/
def wholeStaged (s : State) : State :=
  { s with warden := { s.warden with
    fwStage := 1, manifest := [(0, putBytes manifest0 80 (sha384 (s.warden.runHeader.take 160)))], manifestOk := true, lacks := [] } }
theorem witness_FirmwareIsStagedAndActivated :
    (∀ c ∈ [0x80000000, 0], checks (staging (with' (chunkD c))) = true ∧
      (staging (with' (chunkD c))).front 0 (· == 0x10) = some (held (chunkD c)) ∧
      (staging (with' (chunkD c))).chunkChecks 0 (chunkD c) = none) ∧
    (with' (chunkD 0)).wardenCopies.stopped = false ∧
    (∀ s ∈ [with' activateD, wholeStaged (with' activateD)], checks s = true ∧ s.front 0 (· == 0x11) = some (held activateD) ∧
      s.activateChecks 0 activateD = none) ∧
    (with' activateD).warden.stages 1 = false ∧ (wholeStaged (with' activateD)).warden.stages 1 = true ∧
    (wholeStaged (with' activateD)).warden.manifestOk = true ∧ (wholeStaged (with' activateD)).missing = [] :=
  ⟨by decide +kernel, by decide, by decide +kernel, by decide, by decide +kernel, by decide, by decide +kernel⟩

/-! ## Witnesses: fetch, tiles, completion, verdicts -/

/-- Ring 0 has one descriptor more to fetch; basin 0 has visited no ring, or ring 0. -/
theorem witness_FetchTakesTheNextTurn : running.Inv ∧ running.live = true ∧ running.basinRuns 0 = true ∧ running.nextRing 0 = some 0 ∧
    running.resets.parts = [] ∧ (running.basin 0).last = none ∧ (running.updBasin 0 fun b => { b with last := some 0 }).nextRing 0 = some 0 ∧
    (running.updBasin 0 fun b => { b with last := some 0 }).Inv :=
  ⟨running_inv, by decide, by decide, by decide, rfl, by decide, by decide, inv_of (by decide)⟩

/-- A descriptor of an opcode in progress on jet 0, with the last of its tiles to start or to commit. -/
def job (op : Nat) (p : Part) : Job :=
  { ring := 0, seq := 0, desc := desc [(0, 1, op)], part := 0, ents := [(24, area 2 1 0x300000 0x4000)], length := 0x4000, parts := [p] }
def busy (j : Job) (s : State := running) : State := { s with jobs := [j] }
def toStart : Part := { jet := 0, count := 4096, tiles := 1, ready := 1 }
def inFlight : Part := { jet := 0, count := 4096, tiles := 1, ready := 1, started := 1, inFlight := [{ index := 0 }] }
theorem witness_TileStartEntersTheNext : ∀ op ∈ [3, 4, 8, 0x0B, 0x0C, 0x13],
    (busy (job op toStart)).live = true ∧ (busy (job op toStart)).job 0 0 = some (job op toStart) ∧
    (job op toStart).partOn 0 = some toStart ∧ (job op toStart).tileReady toStart = true ∧
    (busy (job op toStart)).startsTiles (job op toStart) 0 = true ∧
    (busy (job op toStart)).tileFits (job op toStart) toStart = true := by decide
theorem witness_MoveTilesStore : (∀ op ∈ [8, 0x0B, 0x0C, 0x13], checks (busy (job op inFlight)) = true ∧
      (busy (job op inFlight)).live = true ∧ (busy (job op inFlight)).job 0 0 = some (job op inFlight) ∧
      (job op inFlight).partOn 0 = some inFlight ∧ (busy (job op inFlight)).clocked (job op inFlight) 0 = true ∧
      opOf (job op inFlight).desc = op ∧ (busy (job op inFlight)).accessHeld (job op inFlight) inFlight = false ∧
      (busy (job op inFlight)).hasLeft (job op inFlight) inFlight { index := 0 } = true) ∧
    (busy (job 0x0C inFlight) { running with clocks := { rst := true } }).clocks.rst = true := by decide
/-- A FILL of two elements in both slots of a slotted region: its writes are apart and watched by nothing. -/
def littleFill : Job := { job 0x0C { inFlight with count := 2 } with ents := [(24, { area 1 1 0x100000 0x4000 with slotted := true, alt := 0x180000 })] }
def littleLaid : List Laid := (littleFill.ent 24).bothSlots.map fun k => (busy littleFill).laysElems (littleFill.ent 24) k 0 [7, 7]
theorem witness_MoveTilesStore_bytes : (busy littleFill).Apart littleLaid ∧ (busy littleFill).unwatched (placesOf littleLaid) := by
  have h : placesOf littleLaid = [(0x100000, 8), (0x180000, 8)] := by decide
  have hl : littleLaid = [.pieces [(0x100000, leBytes 4 7 ++ leBytes 4 7)], .pieces [(0x180000, leBytes 4 7 ++ leBytes 4 7)]] := by decide
  refine ⟨⟨?_, ?_, ?_⟩, ?_⟩
  · rw [h]; unfold State.inMemory; decide
  · rw [hl]; simp [Laid.once]
  · rw [hl]; simp [Laid.places, clear] <;> exact .inl (by decide)
  · rw [h]; unfold State.unwatched; decide
/-- A CAST and a STILL whose tile in flight is skipped; a tile that a program fault ends. -/
def skippedTile : Part := { inFlight with inFlight := [{ index := 0, treatment := .skip }] }
def faultTile : Tile := { index := 0, treatment := .run, nz := some { i0 := 0, pidx := 0, stamp := 0, present := true, start := 0, counts := [], groups := [], fault := some ⟨1, 0, 0⟩ } }
def faultyTile : Part := { inFlight with inFlight := [faultTile], cycle := 4096 }
theorem witness_StillAndCastTilesStore : (∀ x ∈ [((3, inFlight) : Nat × Part), (3, skippedTile), (3, faultyTile), (4, inFlight)],
      checks (busy (job x.1 x.2)) = true ∧ (busy (job x.1 x.2)).live = true ∧ (busy (job x.1 x.2)).job 0 0 = some (job x.1 x.2) ∧
      (job x.1 x.2).partOn 0 = some x.2 ∧ (busy (job x.1 x.2)).clocked (job x.1 x.2) 0 = true ∧ opOf (job x.1 x.2).desc = x.1 ∧
      (busy (job x.1 x.2)).accessHeld (job x.1 x.2) x.2 = false ∧
      ∃ z ∈ x.2.inFlight, (busy (job x.1 x.2)).hasLeft (job x.1 x.2) x.2 z = true ∧ z.index = 0 ∧
        (busy (job x.1 x.2)).breaksFirst (job x.1 x.2) x.2 (z.leaves (job x.1 x.2).env.image) = false ∧
        (x.1 = 3 → x.2.canLeave (job x.1 x.2).env.image ((busy (job x.1 x.2)).lastTile (job x.1 x.2) x.2) = true ∧
          x.2.advance (job x.1 x.2).env = x.2)) ∧
    (job 3 skippedTile).slottedOuts = [] ∧ (faultTile.nz.bind (·.fault)) = some ⟨1, 0, 0⟩ := by decide

/-- A FILL and an EXPORT with every tile committed; a descriptor with a status, under CPL_FENCE, before and after its store is
acknowledged; and a STILL of the open attempt whose parts have ended, in OK and in FAULT. -/
def doneTiles : Part := { jet := 0, count := 4096, tiles := 1, ready := 1, started := 1, committed := 1 }
def ended : Job := job 0x0C doneTiles
def fenced : Job := { job 0x0F toStart with desc := desc [(0, 1, 15), (1, 1, 2)], status := some (.ok, 0xFF, 0), wait := .ready, parts := [] }
def endedStill (f : Bool) : Job := job 3 { doneTiles with ended := if f then some (.fault, 8) else none }
theorem witness_CompletionWritesTheRecord : (∀ j ∈ [ended, job 0x13 doneTiles, endedStill false, endedStill true],
      let s := busy j (shardAt { metered with torn := [(endedStill false).torn] })
      checks s = true ∧ s.live = true ∧ s.job 0 0 = some j ∧ j.recorded = false ∧ s.basinRuns (s.ring 0).home = true ∧
      s.recordHeld 0 0 = false ∧ s.backAwake j = true ∧ j.status = none ∧ j.wait = .parts ∧ s.partsEnded j = true ∧
      s.storesDue 0 0 = false ∧ (s.shard 0).isOpen = true ∧ j.parts ≠ [] ∧
      (∀ p ∈ j.parts, p.status.1 ∈ [Status.fault, .abortedReset, .length, .ok, .empty]) ∧ j.coversPlane = false) ∧
    (endedStill false).stillClass = true ∧ (endedStill false).outcome = (.ok, 0, 1) ∧ (endedStill true).outcome = (.fault, 0, 8) ∧
    ended.outcome.1 = .ok ∧ (busy fenced).job 0 0 = some fenced ∧ fenced.stillClass = false ∧ (busy fenced).workWaits fenced = false ∧
    (busy fenced).recordHeld 0 0 = false ∧ (busy fenced).backAwake fenced = true ∧
    (cplFenceOf fenced.desc && (busy fenced).storesDue 0 0) = false ∧
    (cplFenceOf fenced.desc && ({ busy fenced with reqs := [{ stack := false, place := 0, purpose := .store 0 0 }] } : State).storesDue 0 0) = true := by
  decide

/-- A METER whose flushes have been acknowledged, with no block and with a block of jet 0, where a jet's basin on the way back is
awake or asleep; and a vote at the port under a controller that runs, or sleeps. -/
def metering : Job := { job 2 toStart with desc := meterD, wait := .meter, parts := [] }
def voting : Job := { job 5 toStart with desc := voteD, wait := .vote, parts := [] }
def voteState (awake : Bool) : State :=
  { busy voting (running.updBasin 0 fun b => { b with awake := awake }) with port := { votes := [(0, 0, [])] } }
def meterState (away state : Nat) : State :=
  let s := busy metering (shardAt { landing with state := state } (running.updBasin 5 fun b => { b with awake := decide (away < 20) }))
  { s with regions := s.regions ++ [(10, { area 3 (2 ^ away) 0x500000 0x4000 with shard := 0 })] }
theorem witness_MeterAndVoteComplete : (∀ x ∈ [((3, 1) : Nat × Nat), (3, 0), (20, 1)], let s := meterState x.1 x.2
      checks s = true ∧ s.live = true ∧ s.job 0 0 = some metering ∧ s.basinRuns (s.ring 0).home = true ∧ s.weirsReady 0 = true ∧
      s.readsDue 0 0 = false ∧ s.recordHeld 0 0 = false ∧ s.backAwake metering = decide (x.1 < 20) ∧ (s.shard 0).state = x.2) ∧
    metering.wait = .meter ∧ metering.flush = [] ∧ metering.recorded = false ∧ Tab.wf 0 landing.landing = true ∧
    (∀ w ∈ [true, false], checks (voteState w) = true ∧ (voteState w).open? = true ∧ (voteState w).job 0 0 = some voting ∧
      (voteState w).basinRuns 0 = w ∧ (voteState w).recordHeld 0 0 = false) ∧
    voting.recorded = false ∧ voting.status = none := by
  decide

/-- The verdict record of attempt 65535 of epoch 1 of shard 0 under the session, with an ACTION and ALL_FINITE. -/
def verdictOf (action finite : Nat) : List Byte :=
  let body := [2#8, 1#8] ++ leBytes 2 0 ++ leBytes 4 1 ++ leBytes 4 0 ++ leBytes 2 65535 ++ leBytes 2 7 ++ leBytes 4 0x3F800000 ++
    leBytes 1 action ++ leBytes 1 finite ++ leBytes 2 0 ++ leBytes 4 9 ++ List.replicate 20 0#8
  body ++ (hmac session.key body).take 16
def waiting : Shard := { state := 4, openEpoch := 1, attempt := 65535 }
/-- A COMMIT and a SKIP for the waiting attempt; a SKIP again for one that has ended; and pour logic that has stopped. -/
theorem witness_VerdictIsHeldOrIgnored :
    (∀ v ∈ [verdictOf 0 1, verdictOf 1 1], (keyed (shardAt waiting)).verdictMalformed v true = false ∧
      (keyed (shardAt waiting)).macMatches v = true ∧ badBasis (fieldAt v 16 4) = false ∧ fieldAt v 4 4 = 1 ∧ fieldAt v 12 2 = 65535) ∧
    (keyed (shardAt waiting)).Inv ∧ (keyed (shardAt waiting)).live = true ∧ ((keyed (shardAt waiting)).shard 0).owner = some 0 ∧
    ((keyed (shardAt waiting)).shard 0).figures.nonfin = 0 ∧ (keyed (shardAt waiting)).pourCopies.stopped = false ∧
    (keyed (shardAt { state := 6, ended := [(1, 65535)] })).macMatches (verdictOf 1 1) = true ∧
    ({ running with pourCopies := { stopped := true } } : State).Inv ∧
    (∀ v ∈ [[], verdictOf 0 1], ({ running with pourCopies := { stopped := true } } : State).verdictMalformed v true = true) :=
  ⟨by decide +kernel, inv_of (by decide), by decide, by decide, by decide, by decide, by decide +kernel, inv_of (by decide),
    by decide +kernel⟩

/-- SHA-384 of "abc" (the example of FIPS 180-4). -/
theorem test_sha384 : (sha384 (ascii "abc")).take 8 = [0xcb#8, 0x00#8, 0x75#8, 0x3f#8, 0x45#8, 0xa3#8, 0x5e#8, 0x8b#8] := by decide +kernel

/-! ## Witnesses: doorbell pages and the register port -/

/-- Ring 0 with HEAD 0 and NEXT 1: a valid TAIL (1, 16), one below NEXT, one past the ring; the ring enabled and another
disabled; its controller asleep. -/
def doorState : State := with' (List.replicate 64 0#8)
theorem witness_DoorbellMovesTheTail : doorState.Inv ∧ doorState.pageOpen 0 = true ∧ (doorState.ring 0).part = 0 ∧
    (doorState.ring 0).next - doorState.head 0 = 1 ∧ 2 ^ (doorState.ring 0).sizeExp = 16 ∧
    ((16 : Word) - doorState.head 0).toNat = 16 ∧ ((0 : Word) - doorState.head 0).toNat < 1 ∧ 16 < ((17 : Word) - doorState.head 0).toNat ∧
    doorState.live = true ∧ ((doorState.updBasin 0 fun b => { b with awake := false }).basin 0).awake = false ∧
    (doorState.ring 4095).enable = false ∧ (doorState.ring 4095).part = 0 :=
  ⟨inv_of (by decide), by decide, by decide, by decide, by decide, by decide, by decide, by decide, by decide, by decide, by decide,
    by decide⟩

def haltedRing : State := running.updRing 0 fun c => { c with halted := true }
theorem witness_ResumeRestartsAHaltedRing : haltedRing.Inv ∧ running.Inv ∧ haltedRing.pageOpen 0 = true ∧ running.pageOpen 0 = true ∧
    (haltedRing.ring 0).part = 0 ∧ (haltedRing.ring 0).halted = true ∧ (running.ring 0).halted = false ∧ (2 : Word64) ≠ 0 ∧ (2 : Word64) ≠ 1 :=
  ⟨inv_of (by decide), running_inv, by decide, by decide, by decide, by decide, by decide, by decide, by decide⟩

def pinned (n : Nat) : State := shardAt { state := 6, pouredOnce := true, curEpoch := 9, pins0 := n, otherLabel := some 8 }
/-- A pin that is taken, at 65535 one that is not, and none before the first Pour; an unpin of each slot's epoch, of an epoch
that no slot holds, of a slot without pins, and of a value above 32 bits. -/
theorem witness_PinsAreTakenAndReleased : (∀ n ∈ [0, 1, 65535], checks (pinned n) = true ∧ (pinned n).pageOpen 0 = true ∧
      ((pinned n).shard 0).owner = some 0) ∧
    ((pinned 65535).shard 0).pins 0 = 65535 ∧ (running.shard 0).pouredOnce = false ∧ ((pinned 1).shard 0).pins 0 ≠ 0 ∧
    ((pinned 1).shard 0).curEpoch = 9 ∧ ((pinned 1).shard 0).otherLabel = some 8 ∧ ((pinned 1).shard 0).pins 1 = 0 ∧
    ((pinned 0).shard 0).pins 0 = 0 := by decide

/-- Ring 5 and shard 1 belong to others; offsets of each clause. -/
def others : State := (running.updRing 5 fun c => { c with part := 2 }).updShard 1 fun x => { x with owner := some 2 }
theorem witness_RefusedPageAccess : others.Inv ∧ others.pageOpen 0 = true ∧ 8 * 5 < 0x10000 ∧
    (others.ring (8 * 5 % 0x8000 / 8)).part ≠ 0 ∧ (others.ring ((0x8000 + 8 * 5) % 0x8000 / 8)).part ≠ 0 ∧
    (others.shard ((0x10000 + 16 - 0x10000) / 16)).owner ≠ some 0 ∧ (others.shard 63).owner ≠ some 0 ∧
    (others.shard ((0x10000 - 0x10000) / 16)).owner = some 0 ∧ 0x10000 % 16 = 0 ∧ 0x10008 % 16 ≠ 0 :=
  ⟨inv_of (by decide), by decide, by decide, by decide, by decide, by decide, by decide, by decide, by decide, by decide⟩

/-- Words 1 to 9 staged for entry 10: JETS, BASE and LENGTH. -/
def stagedRegion (jets base : Nat) : State :=
  running.updOwn 0 fun o => { o with rtEntry := 10, staging := [jets, base % 2 ^ 32, base / 2 ^ 32, 0, 0, 0x4000, 0, 0, 0] }
/-- Word 0 of a table region outside the stacks, which withdraws no range, and of a landing region, which does; the same
address with an offending KIND; a clear, of an entry in use too; the last acknowledgement and one before it. -/
theorem witness_RegionEntriesAreCommitted :
    (∀ x ∈ [((0, host + 0x90000, 8 + 2 ^ 11, false) : Nat × Nat × Nat × Bool), (1, 0x800000, 3, true)],
      let s := stagedRegion x.1 x.2.1
      let o := s.ownOf 0
      let e := entryOf x.2.2.1 o.staging
      checks s = true ∧ s.portOpen 0 false = true ∧ o.rtEntry < 256 ∧ bits (x.2.2.1 % 2 ^ 32) 0 4 ≠ 0 ∧
      s.entryReason 0 10 e (reservedSet x.2.2.1 o.staging) = 0 ∧ (e.kind == 3) = x.2.2.2 ∧ e.jetList.isEmpty = !x.2.2.2 ∧
      s.entryReason 0 10 (entryOf 12 o.staging) (reservedSet 12 o.staging) ≠ 0 ∧ s.entryInUse 0 10 = false) ∧
    (with' landD |>.entryInUse 0 1) = true ∧
    (∀ acks ∈ [[(⟨0, 20, none⟩ : RangeMsg)], [⟨0, 20, some (1, 0x800000, 0x4000)⟩, ⟨0, 21, none⟩]],
      ({ running with range := some ⟨0, 10, {}, acks⟩ } : State).clocks.waiting = [] ∧ (acks.find? (·.jet == 0)).isSome = true ∧
      checks { running with range := some ⟨0, 10, {}, acks⟩ } = true) :=
  ⟨by decide, by decide, by decide⟩

/-- Words that enable ring 0 as it stands, with REASON 0 and 7; a word that changes its home; a ring at rest; a ring that
drains; and a partition that is not the ring's. -/
def ringWord (enable home : Nat) : Word := BitVec.ofNat 32 (enable + 16 * 4 + 512 * home)
def atRest : State := running.updRing 0 fun c => { c with enable := false }
def drainingRing : State := running.updRing 0 fun c => { c with enable := false, draining := true }
theorem witness_RingsAreEnabledAndDisabled : atRest.Inv ∧ atRest.portOpen 0 false = true ∧ (ringWord 1 0).getLsbD 0 = true ∧
    (ringWord 0 0).getLsbD 0 = false ∧ (atRest.ownOf 0).ringSel = 0 ∧ (atRest.ring 0).part = 0 ∧ (atRest.ring 0).sizeExp = 4 ∧
    2 ^ 4 * 64 = (atRest.region 0 1).length ∧ 2 ^ 4 * 16 = (atRest.region 0 2).length ∧ (atRest.region 0 1).kind = 10 ∧
    (running.ring 0).enable = true ∧ (running.ring 0).home = 0 ∧ bits (ringWord 0 5).toNat 9 3 = 5 ∧ drainingRing.Inv ∧
    (drainingRing.ring 0).draining = true ∧ running.portOpen 3 false = true ∧ (running.ring 0).part ≠ 3 :=
  ⟨inv_of (by decide), by decide, by decide, by decide, by decide, by decide, by decide, by decide, by decide, by decide, by decide,
    by decide, by decide, inv_of (by decide), by decide, by decide, by decide⟩

/-- The program that stores input stream 0 in output stream 0, and one with a store of a stream it does not declare. -/
def copyImage : Image := builtinImage 1 1 0 [stWord 0 0x10 0]
/-- Slots within and beside the store, and CTL words with COMMIT, CLEAR and both. -/
def slotState (n : Nat) : State := running.updOwn 0 fun o => { o with progSel := n, image := copyImage }
theorem witness_ProgramSlotsAreCommitted : (∀ n ∈ [0xFF, 0x100, 0x1FF, 0x200], (slotState n).Inv) ∧
    (∀ n ∈ [0xFF, 0x100, 0x1FF, 0x200], (slotState n).portOpen 0 false = true ∧ ((slotState n).ownOf 0).progSel = n) ∧
    imageReason copyImage = 0 ∧ imageReason (builtinImage 1 2 0 [stWord 0 0x10 0]) ≠ 0 ∧ (slotState 0x100).slotInUse 0x100 = false ∧
    ((slotState 0x100).slot 0x100).owner = none ∧ 1 ≤ (slotState 0x100).quota 0 ∧
    ((1 : Word).getLsbD 0 = true ∧ (2 : Word).getLsbD 1 = true ∧ (3 : Word).getLsbD 1 = true) := by
  refine ⟨fun n _ => ?_, by decide, by decide, by decide, by decide, by decide, by decide, by decide⟩
  exact State.updOwn_inv running_inv _ _

/-- Jet 5 moves, and stays in its partition; jet 0 is named by a region; a descriptor runs on jet 5; jet 5 has a rill. -/
theorem witness_JetMovesBetweenPartitions : running.Inv ∧ running.portOpen 0 false = true ∧ running.present 5 = true ∧
    (running.jet 5).part = 0 ∧ bits (1#32).toNat 0 3 = 1 ∧ (∀ e ∈ running.regions, bit e.2.jets 5 = false) ∧ running.jobs = [] ∧
    (running.well 5).running = none ∧ (running.well 5).rills = [] ∧ (∃ e ∈ running.regions, e.1 / 256 = 0 ∧ bit e.2.jets 0 = true) ∧
    (busy (job 0x0C { toStart with jet := 5 })).Inv ∧ (job 0x0C { toStart with jet := 5 }).partDone { toStart with jet := 5 } = false ∧
    (running.updJet 5 fun x => { x with well := { x.well with rills := [{ ring := 0, seq := 0, ops := [] }] } }).Inv :=
  ⟨running_inv, by decide, by decide, by decide, by decide, by decide, by decide, by decide, by decide, by decide, inv_of (by decide),
    by decide, inv_of (by decide)⟩

/-- An IDLE shard, a POURED one at rest, with a pin, and named by an accepted descriptor; partition 0 and the owner. -/
theorem witness_ShardContextWrites : (∀ x ∈ [({} : Shard), { poured with pins1 := 1 }, poured], checks (shardAt x) = true ∧
      (shardAt x).portOpen 0 false = true ∧ ((shardAt x).shard 0).owner = some 0 ∧ (shardAt x).stillBusy 0 = false ∧
      (shardAt x).jobs = []) ∧ poured.state = 6 ∧ poured.pins0 = 0 ∧ poured.pins1 = 0 ∧
    (1#32).getLsbD 0 = true ∧ (0#32).getLsbD 0 = false ∧
    (∃ e ∈ (busy (job 0x0C toStart) (shardAt poured)).jobs, e.recorded = false ∧
      ∃ x ∈ ({ e with ents := [(24, areas.headD (0, {}) |>.2), (25, { area 1 1 0 0 with slotted := true })] } : Job).ents,
        x.2.slotted = true ∧ x.2.shard = 0) :=
  ⟨by decide, by decide, by decide, by decide, by decide, by decide, by decide⟩

/-- Log 7 written by partitions 0, 7 and 3; entry 7 holds a log of 1024-byte and of 32-byte records, and entry 1 does not. -/
theorem witness_ControlRegistersAreWritten : running.Inv ∧ (∀ p ∈ [0, 3, 7], running.portOpen p false = true) ∧
    (running.region 0 7).kind = 9 ∧ 2 ^ 4 * 1024 ≤ (running.region 0 7).size ∧ (running.region 0 1).kind ≠ 9 ∧
    running.present 23 = true ∧ (running.jet (running.engine 23)).awake = true ∧ running.live = true ∧
    ((running.updJet 23 fun x => { x with awake := false }).jet 23).awake = false ∧ bit (0x0F800000#32 : Word).toNat 24 = true :=
  ⟨running_inv, by decide, by decide, by decide, by decide, by decide, by decide, by decide, by decide, by decide⟩

/-- Every clause's address, at a port that serves it and, before RUN, at one that serves the early registers alone. -/
theorem witness_RegisterWritesStayInTheirPartition : running.Inv ∧ (∀ p ∈ [0, 7], running.portOpen p false = true ∧
      running.portOpen p true = true) ∧ ({} : State).Inv ∧ ({} : State).portOpen 0 true = true ∧ ({} : State).portOpen 0 false = false ∧
    earlyAddr 1 = true ∧ earlyAddr 0x40 = false ∧ (atRest.ring (atRest.ownOf 0).ringSel).enable = false ∧
    (atRest.ring (atRest.ownOf 0).ringSel).draining = false ∧ atRest.portOpen 0 false = true :=
  ⟨running_inv, by decide, inv_of (by decide), by decide, by decide, by decide, by decide, by decide, by decide, by decide⟩

/-- Both readers, and a counter whose high word is not zero, of a shard that the reader owns or not. -/
def counted : State := shardAt { landing := [(11, 2 ^ 32 + 5)] }
theorem witness_ReadsLatchWholeValues : counted.Inv ∧ (∀ p ∈ [0, 3], counted.portOpen p true = true ∧ counted.portOpen p false = true) ∧
    (counted.shard 0).owner = some 0 ∧ Tab.get 0 (counted.shard 0).landing 11 = 2 ^ 32 + 5 :=
  ⟨inv_of (by decide), by decide, by decide, by decide⟩
theorem witness_ReadsLatchWholeValues_asleep : (counted.updJet 0 fun x => { x with awake := false, naps := [(0, 2)] }).napped 0 = 2 ∧
    (counted.updJet 0 fun x => { x with awake := false, naps := [(0, 2)] }).Inv := ⟨by decide, inv_of (by decide)⟩

/-- Jet 4 at its pin and by RESET_CTL, of partition 0 in ABSORB; basin 1; work on jet 4 and on jet 0. -/
def twoJobs : State := { running with jobs := [job 0x0C { toStart with jet := 4 }, { job 0x0C inFlight with seq := 1 }] }
theorem witness_ResetsStayInTheirScope : twoJobs.Inv ∧ twoJobs.live = true ∧ twoJobs.present 4 = true ∧ twoJobs.engine 4 = 4 ∧
    (twoJobs.jet 4).inReset = false ∧ (twoJobs.jet 4).bad = false ∧ (twoJobs.jet 4).pin = false ∧ twoJobs.portOpen 0 false = true ∧
    (let v : Word := 0x2401#32; v.getLsbD 13 = true ∧ v.getLsbD 7 = false ∧ bits v.toNat 8 5 = 4 ∧ v.getLsbD 0 = true) ∧
    (twoJobs.basin 1).pin = false :=
  ⟨inv_of (by decide), by decide, by decide, by decide, by decide, by decide, by decide, by decide, by decide, by decide⟩
/-- Engine 4 also serves jet 5, which partition 1 has; jet 4 is partition 2's. -/
def sharedEngine : State := (twoJobs.updJet 5 fun x => { x with bad := true, adopter := some 4, part := 1 }).updJet 4 fun x => { x with part := 2 }
theorem witness_ResetsStayInTheirScope_shared : sharedEngine.Inv ∧ sharedEngine.live = true ∧ sharedEngine.present 4 = true ∧
    (sharedEngine.jet 4).inReset = false ∧ (sharedEngine.jet 4).bad = false ∧ sharedEngine.portOpen 2 false = true ∧
    sharedEngine.engine 5 = sharedEngine.engine 4 ∧ (sharedEngine.jet 5).part ≠ 2 ∧ (sharedEngine.jet 4).part = 2 :=
  ⟨inv_of (by decide), by decide, by decide, by decide, by decide, by decide, by decide, by decide, by decide⟩
theorem witness_ResetsStayInTheirScope_rills : twoJobs.noRills 0 4 ∧ twoJobs.rillsOwned (· < 24) := by
  refine ⟨by unfold State.noRills; decide, fun k r hk _ h => ?_⟩
  have : ∀ k, k < 24 → (twoJobs.well k).running = none := by decide
  rw [this k hk] at h; cases h

/-! ## Witnesses: resets, boot and soak, sleep, freeze -/

/-- A reset of partition 0 in ABSORB, and one of partition 3 that another partition asks for; a partition reset whose
descriptors have completed; rings of both kinds. -/
def resettingPart : State :=
  { running with resets := { parts := [(0, some { level := 2, absorb := true, since := 0 })] }, jobs := [{ ended with recorded := true }] }
theorem witness_PartitionResetClearsTheTenancy : twoJobs.Inv ∧ twoJobs.portOpen 0 false = true ∧ twoJobs.portOpen 3 false = true ∧
    (let v : Word := 0x88#32; v.getLsbD 7 = true ∧ v.getLsbD 13 = false ∧ bits v.toNat 4 3 = 0 ∧ v.getLsbD 3 = true) ∧
    Tab.get none twoJobs.resets.parts 0 = none ∧ twoJobs.present 23 = true ∧ (twoJobs.jet 23).part = 0 ∧
    (twoJobs.jet (twoJobs.engine 23)).inReset = false ∧ (twoJobs.jet (twoJobs.engine 23)).bad = false ∧
    resettingPart.Inv ∧ resettingPart.live = true ∧
    Tab.get none resettingPart.resets.parts 0 = some { level := 2, absorb := true, since := 0 } ∧
    (∀ j ∈ resettingPart.jobs, j.part = 0 → j.recorded = true) ∧ (∀ c ∈ resettingPart.rings, c.2.held = []) :=
  ⟨inv_of (by decide), by decide, by decide, by decide, by decide, by decide, by decide, by decide, by decide, inv_of (by decide),
    by decide, by decide, by decide, by decide⟩
theorem witness_PartitionResetClearsTheTenancy_rills : twoJobs.noRills 2 0 ∧ (resettingPart.well 5).running = none :=
  ⟨by unfold State.noRills; decide, by decide⟩

/-- Jet 4 in a reset of a level, with a job on it; its stations under test, or one that has FAILED. -/
def inReset (level : Nat) (codes : List Nat) : State :=
  { (running.updJet 4 fun x => { x with codes := codes, resetting := some { level := level, absorb := false, since := 0 }, pin := true }) with
    jobs := [job 0x0C { inFlight with jet := 4 }] }
def basinInReset : State := (inReset 1 [1, 1, 1, 1, 1, 0]).updBasin 1 fun b =>
  { b with pin := true, resetting := some { level := 1, absorb := false, since := 0 } }
def partInReset : State := { inReset 2 [1, 1, 1, 1, 1, 0] with
  resets := { parts := [(0, some { level := 2, absorb := false, since := 0 })] } }
theorem witness_ResetsEnd : (∀ c ∈ [[1, 1, 1, 1, 1, 0], [3, 3, 3, 3, 3, 3]], checks (inReset 0 c) = true ∧ (inReset 0 c).open? = true ∧
      (inReset 0 c).engine 4 = 4 ∧ ((inReset 0 c).jet 4).resetting = some { level := 0, absorb := false, since := 0 } ∧
      ¬∃ k, k < 24 ∧ (inReset 0 c).engine k = 4 ∧ k ≠ 4 ∧ ((inReset 0 c).jet k).pin = true) ∧
    ((inReset 1 []).jet 4).resetting = some { level := 1, absorb := false, since := 0 } ∧ (running.basin 0).resetting = none ∧
    basinInReset.Inv ∧ basinInReset.open? = true ∧ (basinInReset.basin 1).resetting = some { level := 1, absorb := false, since := 0 } ∧
    (basinInReset.updJet 4 fun x => { x with pin := false }).Inv ∧
    (inReset 0 [1, 1, 1, 1, 1, 0]).live = true ∧ basinInReset.live = true ∧ partInReset.live = true ∧ partInReset.Inv ∧
    Tab.get none partInReset.resets.parts 0 = some { level := 2, absorb := false, since := 0 } := by
  exact ⟨by decide, by decide, by decide, inv_of (by decide), by decide, by decide, inv_of (by decide), by decide, by decide, by decide,
    inv_of (by decide), by decide⟩
theorem witness_ResetsEnd_halted : basinInReset.scopeHalted 1 1 = false ∧ partInReset.scopeHalted 2 0 = false ∧
    (twoJobs.updJet 4 fun x => { x with halted := true }).scopeHalted 2 0 = true := by decide

/-- MZ_RST over an accepted descriptor, in both modes, and after all have completed; while it is held. -/
def draining (absorb : Bool) (rst : Bool) : State :=
  { twoJobs with resets := { wholeMode := absorb }, clocks := { rst := rst } }
theorem witness_WholeResetLeaves : (∀ a ∈ [true, false], ∀ r ∈ [true, false], checks (draining a r) = true ∧
      (draining a r).clocks.rst = r ∧ (draining a r).resets.wholeMode = a) ∧ (∀ j ∈ ({} : State).jobs, j.recorded = true) := by
  decide
theorem witness_WholeResetLeaves_work : (draining true true).scopeHalted 3 0 = false ∧ (draining false false).noRills 3 0 ∧
    (∃ x ∈ [twoJobs.updJet 4 fun x => { x with halted := true }], x.scopeHalted 3 0 = true) :=
  ⟨by decide, by unfold State.noRills; decide, by decide⟩

/-- A state in a phase of the boot. -/
def booting (p : Phase) (s : State := {}) : State := { s with boot := { s.boot with phase := p } }
/-- A directory outside the stacks that R341 accepts, with empty records beside it. -/
def directory : List Byte :=
  [(0, 1, 0x20), (1, 1, 1), (8, 6, host + 0x1000), (16, 6, host + 0x10000), (24, 4, 0x1000), (32, 6, host + 0x4000), (40, 6, host + 0x5000),
    (48, 4, 160), (56, 6, host + 0x20000)].foldl (fun d f => putField d f.1 f.2.1 f.2.2) (List.replicate 128 0#8)
def verifying : State :=
  { booting .verify with mem := cells host directory, boot := { phase := .verify, dir := host } }
/-- BOOT_DIR in the doorbell window. -/
def astray : State := { booting .verify with boot := { phase := .verify, dir := doorbellBase } }
/-- Every phase with its event; a directory that is no memory, that is bad, and that is sound (the signature of the capsule
is under the opaque ROM key, so that only its other fields can be evaluated); GO of partitions 0 and 1. -/
theorem witness_BootPhasesFollow : (∀ p ∈ [Phase.rom, .waitGo, .verify, .map, .load], checks (booting p) = true ∧
      (booting p).open? = true ∧ (booting p).portOpen 0 true = true ∧ (booting p).portOpen 1 true = true) ∧
    (1 : Word).getLsbD 0 = true ∧ directoryBad (booting .verify).boot.dir false (booting .verify).bootReads.directory = true ∧
    (booting .verify).touches ((booting .verify).boot.dir, 128) = false ∧ verifying.Inv ∧
    verifying.touches (verifying.boot.dir, 128) = false ∧ astray.touches (astray.boot.dir, 128) = true ∧
    directoryBad verifying.boot.dir false verifying.bootReads.directory = false ∧
    (∀ x ∈ (bootRanges verifying.bootReads.directory 0).1 ++ (bootRanges verifying.bootReads.directory 0).2, verifying.touches x = false) ∧
    ((booting .map { boot := { warm := true } }).boot.warm = true) ∧ (booting .load running).present 23 = true ∧
    (booting .load running).pinned 23 = none :=
  ⟨by decide, by decide, by decide +kernel, by decide, inv_of (by decide +kernel), by decide, by decide, by decide +kernel,
    by decide +kernel, rfl, by decide, by decide⟩

/-- A Weir and a Wellspring under test in TEST. -/
def testing (st : Nat) : State := booting .test (running.updJet 3 fun x => { x with codes := modAt (fun _ => 1) x.codes st })
/-- TEST with and without a soak asked for, with an area of one tile of parameters and with none. -/
def settledState (soak : Bool) (len : Nat) : State :=
  { running with boot := { running.boot with phase := .test, soakReq := soak, directory := putField (List.replicate 128 0#8) 72 8 len } }
/-- The soak of jets 0 and 1 before its first sweep, with 0 sweeps to follow, and at its end. -/
def soaking (sweep : Nat) : State :=
  { running with boot := { running.boot with
      phase := .soak, sweep := sweep, soakJets := [0, 1], directory := putField (List.replicate 128 0#8) 72 8 0x1F000 } }
theorem witness_TestAndSoakSettle : (∀ x ∈ [((0, Station.weir) : Nat × Station), (4, .cast), (5, .wellspring)],
      checks (testing x.1) = true ∧ (testing x.1).present 3 = true ∧ stationNo x.2 = x.1 ∧
      (testing x.1).selfTests ((testing x.1).engine 3) x.1 = true ∧ (testing x.1).handling = false ∧
      (((testing x.1).loseSpares 3 x.2 5).jet ((testing x.1).engine 3)).unspared = false) ∧
    (∀ x ∈ [((false, 0) : Bool × Nat), (true, 0), (true, 0x1F000)], checks (settledState x.1 x.2) = true ∧
      (settledState x.1 x.2).open? = true ∧ (settledState x.1 x.2).settled = true ∧ (settledState x.1 x.2).soakBad = (x.2 == 0)) ∧
    (∀ n ∈ [0, 1], checks (soaking n) = true ∧ (soaking n).open? = true ∧ (soaking n).boot.soakOver = false ∧
      (soaking n).boot.sweep = n ∧ (soaking n).soakSweeps = 0) :=
  ⟨by decide, by decide +kernel, by decide +kernel⟩

/-- The record is due; its age is due with the writes 500,000,000 cycles apart; and a write is on its way. -/
def temperState (due age : Bool) (aon : Nat) : State :=
  { running with
    aon := aon
    boot := { running.boot with temperDue := due, ageDue := age, directory := putField (List.replicate 128 0#8) 56 6 (host + 0x20000) } }
theorem witness_TemperRecordIsSealed : (∀ x ∈ [((true, false, 0) : Bool × Bool × Nat), (false, true, 500000000)],
      checks (temperState x.1 x.2.1 x.2.2) = true ∧ (temperState x.1 x.2.1 x.2.2).live = true ∧
      (temperState x.1 x.2.1 x.2.2).boot.temperWriting = false ∧ (temperState x.1 x.2.1 x.2.2).boot.temperAt = 0) ∧
    (temperState true false 0).touches (fieldAt (temperState true false 0).boot.directory 56 6, 0x10000) = false ∧
    (temperState true false 0).wardenCopies.stopped = false ∧
    (∀ o ∈ [true, false], checks { running with boot := { running.boot with temperWriting := true, soakOver := o } } = true) ∧
    ({ running with wardenCopies := { stopped := true } } : State).wardenCopies.stopped = true :=
  ⟨by decide, by decide +kernel, by decide, by decide, by decide⟩
theorem witness_TemperRecordIsSealed_phase : (temperState true false 0).boot.phase ≠ .test ∧ (testing 0).boot.phase = .test := by decide

/-- The refresh of every basin belongs to the block, and every take-back is acknowledged. -/
def wells : State :=
  { running with
    jets := (List.range 24).map fun j => (j, { soundJet j with well := { taken := true, spares := List.replicate 32 1 } })
    basins := (List.range 6).map fun b => (b, { awake := true, rfhOwn := true }) }
/-- Wellspring jet 7, idle beside the other jets; basin 1, whose jets sleep; basin 2 and jet 9 waking. -/
def dozing : State :=
  (([4, 5, 6, 7].foldl (fun s j => s.updJet j fun x => { x with awake := false }) running).updBasin 2 fun b =>
    { b with awake := false, waking := true }).updJet 9 fun x => { x with awake := false, waking := true, clearDue := true }
theorem witness_SleepAndWake : wells.Inv ∧ wells.live = true ∧ wells.present 7 = true ∧ wells.clocks.sleepIdle ≠ 0 ∧ wells.engine 7 = 7 ∧
    (wells.jet 7).awake = true ∧ (wells.jet 7).resetting = none ∧ (wells.jet 7).halted = false ∧ (wells.jet 7).halting = false ∧
    wells.engineIdle 7 = true ∧ wells.wellsIdle 7 = true ∧ wells.wellspring 7 = true ∧ dozing.Inv ∧ dozing.live = true ∧
    (dozing.basin 1).awake = true ∧ bit dozing.clocks.basinHold 1 = false ∧ dozing.jetsAsleep 1 = true ∧
    dozing.ringWork 1 = false ∧ dozing.recordsWait 1 = false ∧ (dozing.basin 2).waking = true ∧ (dozing.jet 9).waking = true ∧
    dozing.engine 9 = 9 ∧ (dozing.jet 9).clearDue = true ∧ dozing.clocks.wake = false ∧
    checks { dozing with clocks := { wake := true } } = true :=
  ⟨inv_of (by decide), by decide, by decide, by decide, by decide, by decide, by decide, by decide, by decide, by decide, by decide,
    by decide, inv_of (by decide), by decide, by decide, by decide, by decide, by decide, by decide, by decide, by decide, by decide,
    by decide, by decide, by decide⟩

/-- Each stage of a freeze, with nothing held. -/
theorem witness_FreezeAndThaw : ∀ f ∈ [Freeze.off, .stopping, .frozen],
    checks { wells with clocks := { freeze := f } } = true ∧ ({ wells with clocks := { freeze := f } } : State).clocks.waiting = [] ∧
    wells.reqs = [] ∧ (∀ x ∈ wells.jets, x.2.pinDue = false ∧ x.2.resetting = none) ∧
    (∀ x ∈ wells.basins, x.2.pinDue = false ∧ x.2.resetting = none) := by decide
/-- A part on jet 0 that waits for an operand, and one whose read was lost in the freeze. -/
def waitsRead : Part := { toStart with ready := 0 }
def starved : State := { busy (job 0x0B waitsRead) with clocks := { freeze := .frozen } }
theorem witness_FreezeAndThaw_starving : checks starved = true ∧ starved.reqs = [] ∧
    starved.starving = [(job 0x0B waitsRead, waitsRead)] ∧ starved.job 0 0 = some (job 0x0B waitsRead) ∧
    (job 0x0B waitsRead).partOn 0 = some waitsRead ∧ (job 0x0B waitsRead).partDone waitsRead = false ∧ wells.starving = [] := by decide

/-! ## Witnesses: refresh, rills, seals, the landing tap -/

/-- Wellspring jet 7 as given, in the state whose basins refresh. -/
def wellAt (w : Well) : State := wells.updJet 7 fun x => { x with well := w }
def taken : Well := { taken := true, spares := List.replicate 32 1 }
theorem witness_RefreshKeepsItsDebts : running.Inv ∧ running.open? = true ∧ (running.basin 1).rfhOwn = false ∧
    (wellAt {}).Inv ∧ ((wellAt {}).basin 1).rfhOwn = true ∧ (∃ j ∈ (wellAt {}).wellJets 1, ((wellAt {}).well j).taken = false) ∧
    wells.Inv ∧ wells.live = true ∧ wells.wellspring 7 = true ∧
    (∀ w ∈ [{ taken with debts := [(511, 1)] }, { taken with debts := [(511, 7)], ops := [{ number := 4 }] }],
      checks (wellAt w) = true ∧ Tab.wf 0 w.debts = true ∧ w.refreshes = true ∧ w.nextRefresh (511 / 16) = some 511 ∧
      (w.ops.filter fun o => o.bank.any (· / 16 == 511 / 16)).length < 4 ∧ w.debt 0 = 0) ∧
    ({ taken with ops := [{ number := 4, bank := some 511 }] } : Well).ops.find? (·.number == 4) = some { number := 4, bank := some 511 } ∧
    (∀ o ∈ ({ taken with ops := [{ number := 4, bank := some 511 }] } : Well).ops, o.number ≠ 5) ∧
    (∀ w ∈ [{ taken with running := some { ring := 0, seq := 0, ops := [] }, held := [511] }, { taken with pend := [511] }],
      checks (wellAt w) = true) :=
  ⟨running_inv, by decide, by decide, inv_of (by decide), by decide, by decide, inv_of (by decide), by decide, by decide, by decide,
    by decide, by decide, by decide⟩

/-- A rill of one word of the descriptor at ring 0, number 0. -/
def rill (o : RillOp) : Rill := { ring := 0, seq := 0, ops := [o] }
/-- A rill waits on jet 7, with debts and pending banks. -/
def rillWaits (debts : Tab Nat) (pend : List Nat) : State := wellAt { taken with debts := debts, pend := pend, rills := [rill (.word 0x18)] }
/-- A word of a rill, of a replica or of a product runs on jet 7. -/
def rillRuns (o : RillOp) : State :=
  { wellAt { taken with running := some (rill o), held := [0], idle := [0] } with jobs := [job 0x0A { toStart with jet := 7 }] }
theorem witness_RillsRunWordByWord : (∀ x ∈ [(([], []) : Tab Nat × List Nat), ([(9, 5)], []), ([(9, 6)], []), ([], [9])],
      checks (rillWaits x.1 x.2) = true ∧ (rillWaits x.1 x.2).live = true ∧ (rillWaits x.1 x.2).wellReady 7 = true ∧
      (rillWaits x.1 x.2).runs 7 = true ∧ (rillWaits x.1 x.2).underTest ((rillWaits x.1 x.2).engine 7) = false ∧
      (rillWaits x.1 x.2).inAdoption 7 = false) ∧ 0 ∈ (rill (.word 0x18)).addressed ∧ 9 ∈ (rill (.word 0x18)).addressed ∧
    ∀ o ∈ ([1, 8, 9, 10, 11, 12, 0x10, 0x11, 0x18, 0x19, 0x1A].map RillOp.word) ++ [.replica 0 0 0 0, .product 0 0 0 0, .product 0 1 7 7],
      checks (rillRuns o) = true ∧ (rillRuns o).live = true ∧ (rillRuns o).wellReady 7 = true ∧ (rill o).word = some o ∧
      (rillRuns o).job 0 0 = some (job 0x0A { toStart with jet := 7 }) ∧ ((rillRuns o).well 7).drainDue o = false := by decide +kernel
theorem witness_RillsRunWordByWord_reads : (rillWaits [] []).readsDue 0 0 = false ∧
    (rillRuns (.word 0x18)).underTest ((rillRuns (.word 0x18)).engine 7) = false := by decide

/-- A plane region of two slots over jet 7, in the regions of the state. -/
def planes : RegionEntry := { area 6 128 0 0x8C00000 with sealKind := 1 }
/-- The last step of a product of a 32 × 128 matrix waits for its drain on jet 7. -/
def drainPart : Part := { jet := 7, count := 4096, tiles := 1 }
def drainJob : Job := { ring := 0, seq := 0, desc := gemvD, part := 0, ents := [(24, planes), (26, area 8 0 0x80000 0x1000)], parts := [drainPart] }
def drainState : State := { wellAt { taken with drains := [{ ring := 0, seq := 0, vec := 0, stepNo := 0 }] } with
  jobs := [drainJob], mem := cells (stackAddr 7 (bankOffset 32 0 0)) (List.replicate 32 [0x80#8, 0x3F#8]).flatten }
/-- The planes under the patrol, before their first row and at their end. -/
def patrolState (row : Nat) : State :=
  { wellAt { taken with patrol := row } with regions := areas ++ [(20, planes)] }
/-- A bank of jet 7 is being copied to a spare. -/
def copyState : State := wellAt { taken with copying := [511, 0] }
theorem witness_DrainsPatrolsAndSeals : drainState.Inv ∧ drainState.live = true ∧ drainState.job 0 0 = some drainJob ∧
    drainJob.partOn 7 = some drainPart ∧ drainState.wellReady 7 = true ∧ rowsDone (gemvCols drainJob.desc) drainPart 0 = List.range 32 ∧
    drainState.scaleFault drainJob drainPart (rowsDone (gemvCols drainJob.desc) drainPart 0) = none ∧
    (∀ x ∈ [((0, 0) : Nat × Nat), (35, 0)], checks (patrolState x.1) = true ∧ (patrolState x.1).wellspring 7 = true ∧
      (patrolState x.1).runs 7 = true ∧ ((patrolState x.1).basin 1).rfhOwn = true ∧ (patrolState x.1).stackHeld 7 = false ∧
      (patrolState x.1).underTest 7 = false) ∧ (patrolState 0).patrolRow 7 = some 0 ∧
    (patrolState 35).patrolRow 7 = some 0 ∧ (∀ x ∈ (patrolState 0).patrolSlots 7, tilesCompleted x.2.1 x.2.2 0 = []) ∧
    ((patrolState 0).jet ((patrolState 0).engine 7)).inReset = false ∧
    (planes.sealKind = 1 ∧ planes.loc = 0 ∧ bit planes.jets 7 = true ∧ planes.slotBase 0 = 0 ∧ 0 ∈ planes.slotList) ∧
    copyState.Inv ∧ (copyState.well 7).copying = [511, 0] ∧ 511 / 16 < (copyState.well 7).spares.length :=
  ⟨inv_of (by decide), by decide, by decide, by decide, by decide, by decide, by decide +kernel, by decide, by decide +kernel,
    by decide +kernel, by decide, by decide, by decide, inv_of (by decide), by decide, by decide⟩
theorem witness_DrainsPatrolsAndSeals_drain : drainState.underTest (drainState.engine 7) = false ∧
    (∀ i ∈ rowsDone (gemvCols drainJob.desc) drainPart 0, ∀ m ∈ List.range (gemvCols drainJob.desc / 128),
      let x := i * gemvCols drainJob.desc + 128 * m
      let (bank, row, _, u) := planePlace ((drainJob.ent 24).slotBase (drainJob.readSlot (drainJob.ent 24))) (x / 4096)
      drainState.touches (stackAddr 7 (bankOffset (row + 32) bank (64 * u + 2 * (x % 4096 / 128))), 2) = false) := by decide +kernel

/-- A beat of the landing region of jet 0 while its shard lands, and while it does not; a tap in reset; a METER that waits
for jet 0. -/
def flushing : State := busy { metering with flush := [0] } (shardAt landing)
theorem witness_LandingWritesAreReckoned : (shardAt landing).Inv ∧ (shardAt landing).landingAt 0 0 = none ∧
    (shardAt landing).landingAt 0 0x200000 = some (3, area 3 1 0x200000 0x4000) ∧ (shardAt landing).landingOpen 0 0 = true ∧
    running.landingOpen 0 0 = false ∧ (running.shard 0).isOpen = false ∧ (shardAt metered).landingOpen 0 0 = false ∧
    ((shardAt metered).shard 0).isOpen = true ∧ (running.shard 0).straySeen = false ∧ Tab.wf {} ((shardAt landing).jet 0).ledger = true ∧
    wellFormedWrite (area 3 1 0x200000 0x4000) 0xF0#64 0 = true ∧ wellFormedWrite (area 3 1 0x200000 0x4000) 0x70#64 0 = false ∧
    ((inReset 0 []).jet 4).inReset = true ∧ flushing.Inv ∧ flushing.open? = true ∧ (flushing.jet 0).inReset = false ∧ (flushing.jet 0).halted = false ∧
    (flushing.jobs.find? fun x => x.wait == .meter && x.flush.contains 0) = some { metering with flush := [0] } ∧
    (∀ x ∈ flushing.jobs, x.wait = .meter → 1 ∉ x.flush) :=
  ⟨inv_of (by decide), by decide, by decide, by decide, by decide, by decide, by decide, by decide, by decide, by decide, by decide,
    by decide, by decide, inv_of (by decide), by decide, by decide, by decide, by decide, by decide⟩
theorem witness_LandingWritesAreReckoned_asleep : (∀ a ∈ [true, false], let s := shardAt metered (running.updJet 0 fun x => { x with awake := a })
      checks s = true ∧ (s.jet (s.engine 0)).awake = a ∧ (s.shard 0).isOpen = true ∧ s.landingOpen 0 0 = false) ∧
    flushing.deferredOn (shardOf metering.desc) 0 = false := by decide

/-! ## Witnesses: ports, links, faults, the Warden, Garhal -/

/-- A request in flight at the stack port of jet 0, or at the fabric port of basin 0, behind another of jet 1. -/
def asks (p : RequestFor) (stack : Bool) : State :=
  { busy (job 0x0C toStart) with
    reqs := [{ stack := true, place := 1, purpose := .store 0 0 }, { stack := stack, place := 0, purpose := p, old := [⟨host, 7#8⟩] }] }
/-- A record of each log in the queue of basin 0, with its log enabled or disabled, and the basin asleep. -/
def logging (rank : Nat) (enable awake : Bool) : State :=
  let l : Log := { region := 7, enable := enable, sizeExp := 2 }
  { running.updBasin 0 fun b => { b with
      awake := awake, queue := [{ rank := rank, part := 0, seq := 5, bytes := List.replicate (if rank = 2 then 1024 else 32) 1#8 }] } with
    sluice := { ready := 2, log := l }, censusLogs := [(0, l)] }
theorem witness_PortsAreAnswered : (busy (job 0x0B waitsRead)).Inv ∧ (busy (job 0x0B waitsRead)).clocks.rst = false ∧
    (busy (job 0x0B waitsRead)).clocks.freeze ≠ .frozen ∧ (busy (job 0x0B waitsRead)).present 0 = true ∧
    (busy (job 0x0B waitsRead)).job 0 0 = some (job 0x0B waitsRead) ∧ (job 0x0B waitsRead).partOn 0 = some waitsRead ∧
    (job 0x0B waitsRead).partDone waitsRead = false ∧ (busy (job 0x0B waitsRead)).fabricPart (job 0x0B waitsRead) 0 = some 0 ∧
    (∀ x ∈ [((.store 0 0, true) : RequestFor × Bool), (.store 0 0, false), (.fetch 0 0, false), (.record 0 0, false), (.report, false),
        (.catchUp 63 4095 3, true), (.catchUp 63 4095 3, false)],
      checks (asks x.1 x.2) = true ∧ (asks x.1 x.2).reqs.length = 2 ∧ (asks x.1 x.2).present 0 = true) ∧
    (∀ x ∈ [((0, true, true) : Nat × Bool × Bool), (2, true, true), (3, false, true), (1, true, false)],
      let s := logging x.1 x.2.1 x.2.2
      s.Inv ∧ s.live = true ∧ s.basinRuns 0 = x.2.2 ∧ (s.basin 0).queue.length = 1 ∧ (∀ n ∈ (s.basin 0).episode, n = 0)) ∧
    running.touches (host + 0x60400, 1024) = false ∧ (busy metering).job 0 0 = some metering ∧ metering.readsAlone = true ∧
    metering.parts = [] ∧ (∀ p ∈ [RequestFor.operand 0 0, .record 0 0], (busy metering).requestListed false 0 p = (p == .record 0 0)) ∧
    ({ running with clocks := { freeze := .frozen } } : State).present 0 = true := by
  refine ⟨inv_of (by decide), by decide, by decide, by decide, by decide, by decide, by decide, by decide, by decide, ?_, by decide, by decide,
    by decide, by decide, by decide, by decide⟩
  · intro x hx
    simp only [List.mem_cons, List.not_mem_nil, or_false] at hx
    obtain rfl | rfl | rfl | rfl := hx <;> exact ⟨inv_of (by decide +kernel), by decide, by decide, by decide, by decide⟩
/-- A SCHED that waits for its table. -/
def reading : Job := { job 0x0D toStart with parts := [], wait := .ready }
theorem witness_PortsAreAnswered_reads : (∀ b ∈ [true, false], let s := { asks (.operand 0 0) b with jobs := [reading] }
      checks s = true ∧ s.job 0 0 = some reading ∧ s.present 0 = true ∧ s.requestListed b 0 (.operand 0 0) = true ∧
      (busy (job 0x0B waitsRead)).requestListed b 0 (.operand 0 0) = false) ∧ reading.recorded = false ∧ reading.readsAlone = true ∧
    (job 0x0B waitsRead).movesAlone = false ∧ (running.region 0 2).kind = 10 ∧ running.touches (running.recordAddr (running.ring 0) 0, 16) = false ∧
    (∀ x ∈ [((0, false) : Nat × Bool), (0, true)], let s := { logging x.1 true true with
        regions := areas.map fun e => if e.1 = 7 then (7, { area 9 0 0x60000 0x4000 with base := 7 * 2 ^ 36 }) else e
        jets := (wellAt { taken with held := if x.2 then List.range 512 else [] }).jets }
      checks s = true ∧ (s.basin 0).queue.all s.logHeld = x.2) := by decide +kernel

/-- Lane 7 of basin 5 with 0, 4 failures in a row, its link withdrawn, without spares, and with four lanes. -/
def linkState (l : Link) : State := running.updBasin 5 fun b => b.setLink 1 l
theorem witness_LinksAndGaugesAge : (∀ l ∈ [({} : Link), { retries := [(7, 4)] }, { out := true }, { spare := 0 }, { spare := 0, active := 4 }],
      checks (linkState l) = true ∧ (linkState l).live = true ∧ ((linkState l).basin 5).link 1 = l ∧ Tab.wf 0 l.retries = true ∧
      (linkState l).laneTest 5 (7 + 256) = false ∧ (linkState l).handling = false) ∧
    running.Inv ∧ running.live = true ∧ running.present 23 = true ∧ (running.jet (running.engine 23)).awake = true ∧
    (∀ m ∈ [29, 30, 60, 61], m ∈ nth (List.replicate 24 [99, m]) 23 [] ∧ ∀ x ∈ nth (List.replicate 24 [99, m]) 23 [], m ≤ x) :=
  ⟨by decide, running_inv, by decide, by decide, by decide, by decide⟩
/-- The basin that a flit of basin 5 comes from is awake or asleep. -/
theorem witness_LinksAndGaugesAge_far : (∀ a ∈ [true, false], let s := (linkState {}).updBasin (farBasin 5 1) fun b => { b with awake := a }
      checks s = true ∧ s.live = true ∧ (s.basin (farBasin 5 1)).awake = a ∧ s.laneTest 5 (7 + 256) = false) := by decide

/-- A lane, a row, a column, and a unit that cannot be spared are to be tested, with spares and with none; an adoption. -/
def toTest (c : FaultClass) (spare : Bool) : State :=
  { running.updJet 4 fun x => { x with laneSpares := if spare then 1 else 0, rowSpare := spare, colSpare := spare } with
    tests := [{ cls := c, place := 4, index := 0, engine := 4 }] }
def adopted : State := running.updJet 4 fun x => { x with bad := true, adoptBy := some 5, ledger := [(0, { present := true, opened := true })] }
theorem witness_FaultsAreContained : (busy (job 0x0C inFlight)).Inv ∧ (busy (job 0x0C inFlight)).open? = true ∧
    (busy (job 0x0C inFlight)).live = true ∧ (∀ c ∈ [FaultClass.lane, .stackData, .core, .aqueduct], copyClass c = false ∧
      (busy (job 0x0C inFlight)).unitAt c 0 0 = true) ∧ (busy (job 0x0C inFlight)).unitAt .bank 3 511 = true ∧
    (busy (job 0x0C inFlight)).unitAt .core 29 0 = true ∧
    (job 0x0C inFlight).partOn 0 = some inFlight ∧ (job 0x0C inFlight).partDone inFlight = false ∧
    (∀ l ∈ [[], [0]], checks { running with wardenCopies := { lost := l }, pourCopies := { lost := l } } = true ∧ 2 ∉ l) ∧
    checks { running with wardenCopies := { reloading := [2] }, pourCopies := { reloading := [2] } } = true ∧
    (∀ c ∈ [FaultClass.cistern, .reservoir, .aqueduct], correctable c = true ∧ running.unitAt c 5 7 = true) ∧
    (∀ c ∈ [FaultClass.lane, .row, .column, .cistern, .castUnit, .weirUnit], ∀ b ∈ [true, false],
      checks (toTest c b) = true ∧ (toTest c b).adopting = false ∧ (toTest c b).adopts 4 = false ∧ (toTest c b).adopterFor 4 = some 5) ∧
    (toTest .lane true).handling = true ∧ adopted.Inv ∧ (adopted.jet 4).adoptBy = some 5 ∧ adopted.runs 5 = true ∧ adopted.tileInFlight 5 = false ∧ Tab.wf {} (adopted.jet 4).ledger = true :=
  ⟨inv_of (by decide), by decide, by decide, by decide, by decide, by decide, by decide, by decide, by decide, by decide, by decide,
    by decide, by decide, inv_of (by decide), by decide, by decide, by decide, by decide⟩
/-- A copy that disagrees is to be tested, by itself or in an adoption. -/
def copyDue (warden adopts : Bool) : State :=
  { running.updJet 4 fun x => { x with bad := adopts, adoptBy := if adopts then some 5 else none } with
    wardenCopies := { reloading := [2] }, pourCopies := { reloading := [2] }, tests := [{ cls := copyOf warden, place := 0, index := 2 }] }
theorem witness_FaultsAreContained_copies : (∀ w ∈ [true, false], ∀ a ∈ [true, false], checks (copyDue w a) = true ∧
      (copyDue w a).open? = true ∧ (copyDue w a).adopting = a ∧ (copyDue w a).tests.head? = some { cls := copyOf w, place := 0, index := 2 } ∧
      (copyDue w a).tests.head? ≠ some { cls := copyOf !w, place := 0, index := 2 }) ∧
    (∀ c ∈ [FaultClass.lane, .row, .column, .cistern, .castUnit, .weirUnit], copyClass c = false) ∧
    (job 0x0C inFlight).movesAlone = false ∧ (job 0x0C inFlight).recorded = false := by decide

/-- KEYX_CTL with the generator as the peer's key: for a session, for the export key of partition 3, for number 0, and while
the unit is busy. -/
def keyAsked (peer : List Byte) (askedFor : Nat × Nat × Nat × Nat) (w : Bool) : State :=
  { running with warden := { running.warden with peer := peer, busy := w, asked := peer, askedFor := askedFor } }
/-- An activation whose deadline has begun, with the image on every core, and with a descriptor in progress. -/
def activating (js : List Job) : State :=
  { wholeStaged running with
    jobs := { job 0x11 toStart with desc := activateD, seq := 1, wait := .activation 0, parts := [] } :: js }
theorem witness_KeysAndFirmwareChange : (∀ p ∈ [[], pointBytes p384G], ∀ b ∈ [true, false], checks (keyAsked p (1, 7, 9, 3) b) = true ∧
      (keyAsked p (1, 7, 9, 3) b).portOpen 0 false = true ∧ (keyAsked p (1, 7, 9, 3) b).portOpen 3 false = true) ∧
    (pointOf (pointBytes p384G)).isSome = true ∧ (pointOf []).isSome = false ∧ bit (0x1B0007#32 : Word).toNat 20 = true ∧
    bit (0x1B0007#32 : Word).toNat 19 = true ∧ bits (0x1B0007#32 : Word).toNat 16 3 = 3 ∧ bits (0x1B0007#32 : Word).toNat 0 16 = 7 ∧
    (keyAsked [] (0, 7, 9, 0) true).wardenCopies.stopped = false ∧ Tab.wf {} (keyAsked [] (0, 7, 9, 0) true).warden.exports = true ∧
    (staging running).Inv ∧ (staging running).live = true ∧ 30 ∈ (staging running).cores ∧ (staging running).coreReset 30 = none ∧
    Tab.wf 0 (staging running).warden.lacks = true ∧
    (∀ x ∈ [(([] : List Job), true), ([job 0x0C inFlight], false)], (activating x.1).live = true ∧
      ((activating x.1).activation.map fun a => (a.1.seq, (activating x.1).maySwap a.1)) = some (1, x.2) ∧
      (activating x.1).anyHalted (List.range 24) (List.range 6) = false) ∧ (activating []).Inv :=
  ⟨by decide +kernel, by decide +kernel, by decide +kernel, by decide, by decide, by decide, by decide, by decide, by decide,
    inv_of (by decide +kernel), by decide, by decide, by decide, by decide, by decide, inv_of (by decide +kernel)⟩

/-- GARHAL is selected, with and without the enables, in every stage of a freeze. -/
def debugging (en mem : Bool) (f : Freeze) (s : State := running) : State :=
  { s with clocks := { freeze := f }, garhal := { ir := 8, enabled := en, memEnabled := mem, brkEnabled := true } }
def cmd (target : Nat) (addr data : Nat := 0) (unit reserved : Nat := 0) : GarhalCmd :=
  ⟨BitVec.ofNat 32 data, BitVec.ofNat 48 addr, BitVec.ofNat 5 target, BitVec.ofNat 2 unit, BitVec.ofNat 5 reserved⟩
theorem witness_GarhalAnswers : (∀ e ∈ [true, false], ∀ m ∈ [true, false], ∀ f ∈ [Freeze.off, .stopping, .frozen],
      checks (debugging e m f) = true ∧ (debugging e m f).clocks.rst = false ∧ (debugging e m f).garhal.resp.status ≠ 1 ∧
      (debugging e m f).range = none) ∧
    (cmd 0 (reserved := 1)).reserved ≠ 0 ∧ (cmd 0x1E).target = 0x1E ∧ (cmd 0x1F).reserved = 0 ∧ (cmd 0x1F).target ≠ 0x1E ∧
    (cmd 0 (host + 6)).addr.toNat / 4 * 4 < doorbellBase ∧
    (debugging true true .off).touches ((cmd 0 (host + 6)).addr.toNat / 4 * 4, 4) = false ∧ 11 ≤ (0xF#4).toNat ∧
    (debugging true true .off).garhal.tap = .testLogicReset ∧
    ({ debugging true true .off with range := some ⟨0, 10, {}, []⟩ } : State).Inv :=
  ⟨by decide, by decide, by decide, by decide, by decide, by decide, by decide, by decide, by decide, inv_of (by decide)⟩
theorem witness_GarhalAnswers_banks : (∀ l ∈ [true, false], let s := debugging true true .off (wellAt { taken with held := if l then List.range 512 else [] })
      checks s = true ∧ s.garhal.resp.status ≠ 1 ∧ s.rangeHeld (7 * 2 ^ 36) 4 = l) ∧ 7 * 2 ^ 36 < doorbellBase := by decide +kernel

/-- A memory access of the debug port that waits for a bank, which is low or high, and one under a freeze. -/
def portWaits (low write : Bool) (f : Freeze) : State :=
  { wellAt { taken with held := if low then List.range 512 else [] } with
    garhal := { waits := some (write, cmd 0 (7 * 2 ^ 36 + 64)) }, clocks := { freeze := f } }
theorem witness_StepRunsFrontCommand_waits : (∀ l ∈ [true, false], ∀ w ∈ [true, false], ∀ f ∈ [Freeze.off, .stopping],
      checks (portWaits l w f) = true ∧ (portWaits l w f).pending = [] ∧ (portWaits l w f).clocks.freeze = f ∧
      (portWaits l w f).clocks.rst = false ∧
      (portWaits l w f).garhal.waits = some (w, cmd 0 (7 * 2 ^ 36 + 64)) ∧
      (portWaits l w f).rangeHeld (cmdPlace (cmd 0 (7 * 2 ^ 36 + 64))) 4 = l) ∧ running.garhal.waits = none := by decide +kernel

/-- Jet 7 goes on, is asked to halt, or has halted; a breakpoint at position 3 of its core. -/
def halting (now then' : Bool) (f : Freeze := .off) : State :=
  let s := debugging true true f (wells.updJet 7 fun x => { x with halting := now, halted := then' })
  { s with garhal := { s.garhal with breaks := [⟨7, 0, 3, 0x40⟩] } }
theorem witness_EnginesHaltAndGoOn : (∀ x ∈ [((false, false) : Bool × Bool), (true, false), (false, true)], ∀ f ∈ [Freeze.off, .frozen],
      checks (halting x.1 x.2 f) = true ∧ (halting x.1 x.2 f).garhal.enabled = true ∧ (halting x.1 x.2 f).garhal.resp.status ≠ 1 ∧
      (halting x.1 x.2 f).present 7 = true ∧ (halting x.1 x.2 f).engine 7 = 7 ∧ ((halting x.1 x.2 f).jet 7).halted = x.2) ∧
    (halting false false).live = true ∧ (halting false false).runs 7 = true ∧ (halting false false).wellspring 7 = true ∧
    (halting false false).garhal.brkEnabled = true ∧
    (cmd 7 (unit := 1)).unit = 1 ∧ (cmd 7).unit = 0 ∧ (cmd 7 (data := 5) (unit := 1)).data.toNat % 4 < 2 ∧
    stateAddress 7 (2 ^ 45 + 2 ^ 15 - 1) = true ∧ stateAddress 7 (2 ^ 45 + 2 ^ 15) = false :=
  ⟨by decide, by decide, by decide, by decide, by decide, by decide, by decide, by decide, by decide, by decide⟩
/-- The controller of basin 2 goes on, is asked to halt, or has halted; a breakpoint of its core. -/
def ctlHalting (now then' : Bool) (f : Freeze := .off) : State :=
  let s := debugging true true f (running.updBasin 2 fun x => { x with halting := now, halted := then' })
  { s with garhal := { s.garhal with breaks := [⟨0x1A, 0, 3, 0x40⟩] } }
theorem witness_EnginesHaltAndGoOn_controller : (∀ x ∈ [((false, false) : Bool × Bool), (true, false), (false, true)], ∀ f ∈ [Freeze.off, .frozen],
      checks (ctlHalting x.1 x.2 f) = true ∧ (ctlHalting x.1 x.2 f).garhal.enabled = true ∧ (ctlHalting x.1 x.2 f).garhal.resp.status ≠ 1 ∧
      (ctlHalting x.1 x.2 f).clocks.freeze = f ∧ ((ctlHalting x.1 x.2 f).basin 2).halted = x.2 ∧ ((ctlHalting x.1 x.2 f).basin 2).halting = x.1) ∧
    (ctlHalting false false).live = true ∧ (ctlHalting false false).basinRuns 2 = true ∧ (cmd 0x1A (unit := 1)).unit ≠ 0 ∧ (cmd 0x1A).unit = 0 ∧
    (cmd 0x1A).target.toNat - 0x18 = 2 ∧ stateAddress 0x1A 255 = true ∧ stateAddress 0x1A 256 = false := by
  exact ⟨by decide, by decide, by decide, by decide, by decide, by decide, by decide, by decide⟩

/-! ## The manual's worked examples -/

/-- Codes 32h, 01h and 88h of Q8E4 (the example after R37's table). -/
theorem test_q8e4 : Fmt.q8e4.decode 0x32 = .fin ⟨false, 10, -5⟩ ∧ Fmt.q8e4.decode 0x01 = .fin ⟨false, 1, -10⟩ ∧
    Fmt.q8e4.decode 0x88 = .fin ⟨true, 8, -10⟩ := by decide
/-- Five F32 values to Q8E4 under RNE: 0.3, 250, 0.001, -0.0001, -0 (the example after R56). -/
theorem test_to_q8e4 : [0x3E99999A, 0x437A0000, 0x3A83126F, 0xB8D1B717, 0x80000000].map (convert .f32 .q8e4 .rne 0) =
    [(0x32, none), (0x7F, some .saturated), (0x01, none), (0x00, some .flushed), (0x00, none)] := by decide
/-- F64 2.5 + 2^-30 to Q4E2 under RNE is 3, not 2 (the example after R54). -/
theorem test_via_f32 : convert .f64 .q4e2 .rne 0 0x4004000000400000 = (0x5, none) := by decide
/-- 2.6 to Q4E2 under RSR: 3 with the draw 1234h, 2 with C000h; 2.0 is exact (the example after R48). -/
theorem test_rsr : (convert .f64 .q4e2 .rsr 0x1234 0x4004CCCCCCCCCCCD).1 = 0x5 ∧ (convert .f64 .q4e2 .rsr 0xC000 0x4004CCCCCCCCCCCD).1 = 0x4 ∧
    (convert .f32 .q4e2 .rsr 0 0x40000000).1 = 0x4 := by decide
/-- The products 1.5 × 2, 1.5 × 2^-21 and -1.5 × 2^-23 sum to 40400003h (the example after R69). -/
theorem test_dot : (accOut .f32 .rne (dot none ([(0x3FC0, 0x4000), (0x3AC0, 0x3A00), (0xB9C0, 0x3A00)].map fun x =>
    (Fmt.b16.decode x.1, Fmt.b16.decode x.2)))) = (0x40400003, none) := by decide
/-- 57344 × 2^127 by 240 × 2^127 goes to B16 as infinity and counts saturated (the example after R70). -/
theorem test_dot_overflow : accOut .b16 .rne (dot none [(scaledOperand .q8e5 0x7B (some 0xFE), scaledOperand .q8e4 0x7F (some 0xFE))]) =
    (0x7F80, some .saturated) := by decide
/-- The fields of the rill word of the example before R277. -/
theorem test_rill_word : let x := 0x0000000480100A90
    bits x 0 6 = 0x10 ∧ bits x 6 1 = 0 ∧ bit x 7 = true ∧ bits x 8 4 = 10 ∧ bits x 12 14 = 256 ∧ bits x 26 14 = 288 ∧ bits x 40 14 = 0 := by
  decide
/-- Three instructions of the momentum program (the example at the end of Nozzle Engine). -/
theorem test_instructions : stWord 0 4 0 + 2 ^ 34 = 0x000800040000403F ∧ stWord 1 2 2 + 2 ^ 34 = 0x012800040000203F ∧
    insnWord 4 2 0x21 0x12 1 0 = 0x00080000014A1204 := by decide

/-- The 96 bits of BRK_SET for instruction 4 of program 120h on the Nozzle of jet 3, breakpoint 0 (R407, R408, R410). -/
theorem test_garhal_command : garhalCommand 0x023800000004012000000000#96 = .brkSet (cmd 3 0x40120 0 1) ∧
    garhalCommand 0x000B00000000000000000000#96 = .garhalReservedOp 0xB (cmd 0) := by decide

/-! ## Single steps -/

/-- The state after a command, or the state itself where it stops. -/
def after (c : Instr) (s : State) : State :=
  match exec c s with | .next t => t | _ => s

/-- Reset: ROM phase, every station in reset, SLEEP_IDLE 1388h, whole resets in ABSORB, every quota 100h, nothing owned. -/
theorem test_reset : State.reset.boot.phase = .rom ∧ (State.reset.jet 0).codes = List.replicate 6 0 ∧
    State.reset.clocks.sleepIdle = 0x1388 ∧ State.reset.resets.wholeMode = true ∧ State.reset.resets.jetMode = false ∧
    State.reset.quota 7 = 0x100 ∧ (State.reset.shard 63).owner = none ∧ (State.reset.ring 4095).enable = false ∧
    State.reset.garhal.ir = 15 ∧ (State.reset.basin 0).rfhOwn = false := by decide
/-- The region of the placement example (after R99) passes R95, and places element 40 000 000 on jet 2. -/
def layer : RegionEntry := { area 1 15 0x40000000 0x4000000 with slotted := true, alt := 0x44000000, pidx := 0x80000000 }
theorem test_placement : ({ running with regions := [] } : State).entryReason 0 10 layer false = 0 ∧
    layer.placeOf layer.perShare 40000000 = (2, 6445568) := by decide
theorem test_doorbell : ((after (.doorbellWrite 0 0 5) running).ring 0).tail = 5 ∧
    ((after (.doorbellWrite 0 0 0x100000005) running).ring 0).tail = 2 := by decide
theorem test_resume : ((after (.ringResume 0 0 1) haltedRing).ring 0).halted = false := by decide
/-- Shard 3 of the pin example: a read answers EPOCH 812 and SLOT 1, and counts one pin of slot 1. -/
def pinExample : State := running.updShard 3 fun _ => { owner := some 0, state := 6, pouredOnce := true, curSlot := 1, curEpoch := 812, otherLabel := some 811 }
theorem test_pin : (after (.pin 0 3) pinExample).pinReply = 812 + 2 ^ 32 ∧ ((after (.pin 0 3) pinExample).shard 3).pins1 = 1 ∧
    ((after (.unpin 0 3 812) (after (.pin 0 3) pinExample)).shard 3).pins1 = 0 := by decide
theorem test_region_commit : ((after (.regionCommit 0 (BitVec.ofNat 32 (8 + 2 ^ 11))) (stagedRegion 0 (host + 0x90000))).region 0 10).length = 0x4000 ∧
    ((after (.regionClear 0 0) (stagedRegion 0 0)).region 0 10).kind = 0 := by decide
/-- A landing region waits for the acknowledgement of jet 0's memory controller. -/
theorem test_range_ack : ((after (.regionCommit 0 3) (stagedRegion 1 0x800000)).region 0 10).kind = 0 ∧
    ((after (.rangeAck 0) (after (.regionCommit 0 3) (stagedRegion 1 0x800000))).region 0 10).kind = 3 := by decide
theorem test_ring_enable : ((after (.ringEnable 0 (ringWord 1 0)) atRest).ring 0).enable = true ∧
    ((after (.ringEnable 0 (ringWord 1 0)) running).ownOf 0).ringReason = 7 := by decide
theorem test_ring_disable : ((after (.ringDisable 0 (ringWord 0 0)) running).ring 0).enable = false := by decide
theorem test_jet_move : ((after (.jetMove 0 5 3) running).jet 5).part = 3 ∧ (after (.jetMove 0 0 3) running).resets.statReason = 1 := by decide
theorem test_step_write : ((after (.stepWrite 0 0 9) running).shard 0).stepNo = 9 ∧
    ((after (.stepWrite 0 0 9) (shardAt poured)).shard 0).stepNo = 0 := by decide
theorem test_retire : ((after (.retire 0 0 1) (shardAt poured)).shard 0).state = 0 ∧
    ((after (.retire 0 0 1) (shardAt { poured with pins0 := 1 })).shard 0).state = 6 := by decide
theorem test_land : ((after (.land 0) (with' landD)).shard 0).state = 1 ∧ ((after (.land 0) (with' landD)).shard 0).openEpoch = 1 := by decide
theorem test_rewind : ((after (.rewind 0) (with' rewindD (shardAt poured))).shard 0).curSlot = 0 ∧
    ((after (.rewind 0) (with' rewindD (shardAt poured))).shard 0).curEpoch = 1 := by decide
/-- A COMMIT whose ALL_FINITE is 00h is held as SKIP (the first worked example of Pour Protocol, event 5). -/
theorem test_verdict : ((after (.verdict (verdictOf 0 0) true) (keyed (shardAt waiting))).shard 0).verdict = 1 := by decide +kernel
theorem test_tile_start : ((after (.tileStart 0 0 0) (busy (job 0x0C toStart))).job 0 0).map (·.parts.map (·.started)) = some [1] := by
  decide +kernel
/-- FILL stores its pattern in every element of the tile (R125). -/
theorem test_fill : memRead (after (.tileCommit 0 0 0) (busy { job 0x0C inFlight with
    desc := desc [(0, 1, 0x0C), (32, 4, 0x44332211)] })).mem 0x303FF8 8 = [0x11#8, 0x22#8, 0x33#8, 0x44#8, 0x11#8, 0x22#8, 0x33#8, 0x44#8] := by
  decide +kernel
theorem test_sleep : ((after (.jetSleep 7) wells).jet 7).awake = false ∧ ((after (.jetSleep 7) wells).basin 1).rfhOwn = false := by decide
theorem test_wake : ((after .mzWake dozing).jet 4).waking = true ∧ ((after (.wakeDone false 9) dozing).jet 9).awake = true := by decide
theorem test_freeze : (after .freeze wells).clocks.freeze = .stopping ∧ ((after .freeze wells).basin 5).rfhOwn = false ∧
    (after .thaw (after .freezeClocksStop (after .freeze wells))).clocks.freeze = .off := by decide +kernel
theorem test_take_ack : ((after (.takeAck 1) (wellAt {})).well 7).debt 511 = 7 ∧ Tab.get 0 ((after (.takeAck 1) (wellAt {})).well 7).firsts 511 = 2 := by
  decide +kernel
theorem test_refresh_tick : ((after (.refreshTick 7 511) wells).well 7).debt 511 = 1 := by decide
theorem test_pend : ((after (.pend 7 511) wells).well 7).pend = [511] := by decide
theorem test_bank_idle : ((after (.bankIdle 7 31 0x8000) (wellAt { taken with running := some (rill (.word 0x18)), held := [510, 511] })).well 7).idle =
    [511] := by decide
theorem test_rill_start : ((after (.rillStart 7) (rillWaits [(9, 5)] [])).well 7).running.isSome = true ∧
    ((after (.rillStart 7) (rillWaits [(9, 6)] [])).well 7).running.isSome = false := by decide
/-- A beat of the landing region of jet 0: eight bytes of it are stored, and counted in its block. -/
theorem test_landing_write :
    let t := after (.landingWrite 0 0x200000 0xFF00#64 ((List.range 64).map (BitVec.ofNat 8)) 0) (shardAt landing)
    memGet t.mem 0x200008 = 8#8 ∧ memGet t.mem 0x200007 = 0#8 ∧ (t.block 0 3 0).landed = 8 := by decide +kernel
theorem test_flit : Tab.get 0 (((after (.flit 5 1 7 ⟨false, none⟩) running).basin 5).link 1).retries 7 = 1 := by decide
theorem test_lane_retrain : (((after (.laneRetrain 5 1 7 14) running).basin 5).link 1).spare = 1 ∧
    (((after (.laneRetrain 5 1 7 15) running).basin 5).link 1).spare = 2 := by decide
theorem test_copies : (after (.detectedError .pourCopy 0 2 none) running).pourCopies.reloading = [2] ∧
    (after (.detectedError .pourCopy 0 2 none) { running with pourCopies := { lost := [0] } }).pourCopies.stopped = true := by decide
theorem test_self_test : ((after (.selfTestResult .lane 4 0 false) (toTest .lane true)).jet 4).laneSpares = 0 ∧
    ((after (.selfTestResult .lane 4 0 false) (toTest .lane false)).jet 4).adoptBy = some 5 := by decide
theorem test_jet_reset : ((after (.jetResetAssert 4) running).jet 4).codes = [1, 1, 1, 1, 1, 2] ∧
    (((after (.jetResetEnd 4) (inReset 0 [2, 2, 2, 2, 2, 2])).jet 4).resetting = none) := by decide +kernel
theorem test_boot_go : (after (.bootGo 0 1) (booting .waitGo)).boot.phase = .verify ∧ (after (.bootGo 1 1) (booting .waitGo)).boot.phase = .waitGo := by
  decide
theorem test_garhal : (after (.stat (cmd 0)) (debugging false false .off)).garhal.resp.status = 0 ∧
    (after (.halt (cmd 0)) (debugging false false .off)).garhal.resp.status = 2 := by decide
theorem test_halt : (after (.halt (cmd 7)) (halting false false)).garhal.resp.status = 1 ∧
    ((after (.resume (cmd 7)) (halting false true)).jet 7).halted = false := by decide
theorem test_memory_write : let t := after (.memWr (cmd 0 (host + 6) 0x44332211)) (debugging true true .off)
    memRead t.mem (host + 4) 4 = [0x11#8, 0x22#8, 0x33#8, 0x44#8] := by decide
theorem test_power_loss : (after .aonPowerLoss { running with boot := { running.boot with retValid := true, retSeq := 9 } }).boot.retSeq = 0 := by
  decide
theorem test_step_at_front : (Sys2Proof.Machine.step { running with pending := [.mzRstAssert] } = exec .mzRstAssert running) := by
  rfl
theorem witness_StepKeepsInvariant : running.Inv ∧ (∃ t, step { running with pending := [.mzWake] } = .next t) ∧ ∃ t, step running = .next t :=
  ⟨running_inv, ⟨_, rfl⟩, ⟨_, rfl⟩⟩
/-- A command that reads above the 48 GiB of the stack of jet 0 goes on. -/
theorem witness_EveryCommandHasItsMeaning : (debugging true true .off).isHole 0xC00000000 = true ∧
    ∃ t, exec (.memRd (cmd 0 0xC00000000)) (debugging true true .off) = .next t ∧ t.pending = [] :=
  ⟨by decide, _, rfl, by decide⟩

end Sys2Proof.Machine.Tests
end

section
/-! SUPPORT. Whose turn it is at a basin controller, what a fetch changes, and which accesses of a doorbell page are refused
(R116, R119). -/

namespace Sys2Proof.Machine

/-! ## The keys of a sparse table -/

section
variable {α : Type} {d : α}

theorem Tab.lt_of_wfFrom [DecidableEq α] {k : Nat} {t : Tab α} (h : Tab.wfFrom d (some k) t = true) :
    ∀ x ∈ t, k < x.1 := by
  induction t generalizing k with
  | nil => simp
  | cons y t ih =>
    obtain ⟨i, v⟩ := y
    simp only [Tab.wfFrom, Bool.and_eq_true, decide_eq_true_eq] at h
    obtain ⟨⟨hki, -⟩, ht⟩ := h
    exact List.forall_mem_cons.2 ⟨hki, fun x hx => Nat.lt_trans hki (ih ht x hx)⟩

/-- The keys of a canonical table rise. -/
theorem Tab.pairwise_keys [DecidableEq α] {t : Tab α} (h : Tab.wf d t = true) : (t.map (·.1)).Pairwise (· < ·) := by
  induction t with
  | nil => exact .nil
  | cons x t ih =>
    obtain ⟨-, ht⟩ := Tab.wf_cons.1 h
    refine List.pairwise_cons.2 ⟨fun k hk => ?_, ih (Tab.wf_of_wfFrom ht)⟩
    obtain ⟨y, hy, rfl⟩ := List.mem_map.1 hk
    exact Tab.lt_of_wfFrom ht y hy

theorem Tab.mem_keys_of_get_ne {t : Tab α} {i : Nat} (h : Tab.get d t i ≠ d) : i ∈ t.map (·.1) :=
  List.mem_map.2 ⟨_, (Tab.get_mem d t i).resolve_right h, rfl⟩

theorem Tab.get_of_any_eq_false {t : Tab α} {i : Nat} (h : (t.any (·.1 == i)) = false) : Tab.get d t i = d :=
  (Tab.get_mem d t i).resolve_left fun hm => by simpa using List.any_eq_false.1 h _ hm

end

/-! ## The first of a rising list -/

theorem le_of_head?_of_pairwise {l : List Nat} (hl : l.Pairwise (· < ·)) {r : Nat} (h : l.head? = some r) {q : Nat}
    (hq : q ∈ l) : r ≤ q := by
  obtain ⟨rest, rfl⟩ := List.head?_eq_some_iff.1 h
  rcases List.mem_cons.1 hq with rfl | hq
  · exact Nat.le_refl _
  · exact Nat.le_of_lt ((List.pairwise_cons.1 hl).1 q hq)

/-- The first number of a rising list that passes a test is the least that does. -/
theorem le_of_find?_of_pairwise {l : List Nat} (hl : l.Pairwise (· < ·)) {p : Nat → Bool} {r : Nat} (h : l.find? p = some r)
    {q : Nat} (hq : q ∈ l) (hp : p q = true) : r ≤ q :=
  le_of_head?_of_pairwise (hl.filter p) (List.head?_filter.trans h) (List.mem_filter.2 ⟨hq, hp⟩)

/-! ## Whose turn it is (R119) -/

variable {s : State} {b r q : Nat}

/-- The rings of a basin that are eligible for fetch, ascending. -/
def State.eligibleRings (s : State) (b : Nat) : List Nat := (s.rings.map (·.1)).filter (s.eligible b)

theorem State.eligible_iff (h : s.resets.parts.any (·.1 == (s.ring q).part) = false) :
    s.eligible b q = true ↔ (s.ring q).home = b ∧ (s.ring q).enable = true ∧ (s.ring q).halted = false ∧
      (s.ring q).next ≠ (s.ring q).tail ∧ (s.outstanding q).length < 16 ∧ s.basinLoad b < 256 := by
  have hp : Tab.get none s.resets.parts (s.ring q).part = none := Tab.get_of_any_eq_false h
  simp only [State.eligible, hp, Bool.and_eq_true, Bool.not_eq_true', beq_iff_eq, bne_iff_ne, decide_eq_true_eq,
    Option.isNone_none, and_true, and_assoc]
  exact ⟨fun ⟨hen, hhalt, hhome, hrest⟩ => ⟨hhome, hen, hhalt, hrest⟩,
    fun ⟨hhome, hen, hhalt, hrest⟩ => ⟨hen, hhalt, hhome, hrest⟩⟩

theorem State.enable_of_eligible (h : s.eligible b q = true) : (s.ring q).enable = true := by
  simp only [State.eligible, Bool.and_eq_true, and_assoc] at h
  obtain ⟨hen, -⟩ := h
  exact hen

/-- A ring with no context is disabled, so an eligible ring has one. -/
theorem State.mem_eligibleRings : q ∈ s.eligibleRings b ↔ s.eligible b q = true := by
  refine List.mem_filter.trans ⟨And.right, fun h => ⟨Tab.mem_keys_of_get_ne (d := {}) fun hd => ?_, h⟩⟩
  have hen : (Tab.get {} s.rings q : Ring).enable = true := State.enable_of_eligible h
  rw [hd] at hen
  cases hen

theorem State.eligibleRings_pairwise (hi : s.Inv) (b : Nat) : (s.eligibleRings b).Pairwise (· < ·) :=
  (Tab.pairwise_keys hi.rings_wf).filter _

theorem State.nextRing_of_last_none (h : (s.basin b).last = none) : s.nextRing b = (s.eligibleRings b).head? := by
  simp only [State.nextRing, h, State.eligibleRings]

theorem State.nextRing_of_last_some {l : Nat} (h : (s.basin b).last = some l) :
    s.nextRing b = ((s.eligibleRings b).find? (l < ·)).orElse fun _ => (s.eligibleRings b).head? := by
  simp only [State.nextRing, h, State.eligibleRings]

/-- The ring whose turn it is, after ring `l`: the least eligible one above `l`, or, where there is none, the least of all. -/
theorem State.nextRing_after {l : Nat} (h : s.nextRing b = some r) (hl : (s.basin b).last = some l) :
    (s.eligibleRings b).find? (l < ·) = some r ∨
      (s.eligibleRings b).find? (l < ·) = none ∧ (s.eligibleRings b).head? = some r := by
  rw [State.nextRing_of_last_some hl] at h
  cases hf : (s.eligibleRings b).find? (l < ·) with
  | none => exact .inr ⟨rfl, by simpa [hf] using h⟩
  | some k => exact .inl (by simpa [hf] using h)

theorem State.eligible_nextRing (h : s.nextRing b = some r) : s.eligible b r = true := by
  refine State.mem_eligibleRings.1 ?_
  cases hl : (s.basin b).last with
  | none => exact List.mem_of_head? (State.nextRing_of_last_none hl ▸ h)
  | some l =>
    rcases State.nextRing_after h hl with hf | ⟨-, hf⟩
    · exact List.mem_of_find?_eq_some hf
    · exact List.mem_of_head? hf

/-- No ring below the first eligible one is eligible. -/
theorem State.not_eligible_of_lt_head (hi : s.Inv) (h : (s.eligibleRings b).head? = some r) (hq : q < r) :
    s.eligible b q = false :=
  Bool.eq_false_iff.2 fun he =>
    Nat.not_le_of_lt hq (le_of_head?_of_pairwise (State.eligibleRings_pairwise hi b) h (State.mem_eligibleRings.2 he))

/-- Between the ring visited last and the one whose turn it is, wrapping, no ring is eligible. -/
theorem State.not_eligible_of_passed {l : Nat} (hi : s.Inv) (h : s.nextRing b = some r) (hl : (s.basin b).last = some l) :
    (l < r ∧ ∀ q, l < q → q < r → s.eligible b q = false) ∨ (r ≤ l ∧ ∀ q, l < q ∨ q < r → s.eligible b q = false) := by
  rcases State.nextRing_after h hl with hf | ⟨hnone, hhead⟩
  · refine .inl ⟨by simpa using List.find?_some hf, fun q hlq hqr => Bool.eq_false_iff.2 fun he => ?_⟩
    have : r ≤ q := le_of_find?_of_pairwise (State.eligibleRings_pairwise hi b) hf (State.mem_eligibleRings.2 he) (by simpa using hlq)
    omega
  · have hle : ∀ q, s.eligible b q = true → q ≤ l := fun q he => by
      simpa using List.find?_eq_none.1 hnone q (State.mem_eligibleRings.2 he)
    refine .inr ⟨hle r (State.eligible_nextRing h), fun q hq => ?_⟩
    rcases hq with hq | hq
    · exact Bool.eq_false_iff.2 fun he => Nat.not_le_of_lt hq (hle q he)
    · exact State.not_eligible_of_lt_head hi hhead hq

/-! ## What a fetch changes (R119) -/

/-- Fresh free values are all that an access beyond memory draws (log 106). -/
theorem State.overHoles_eq (s : State) (ranges : List (Nat × Nat)) :
    s.overHoles ranges = { s with free := (s.overHoles ranges).free } := by
  unfold State.overHoles
  split <;> rfl

/-- Ring context `c` once it has fetched the descriptor `bytes` at NEXT. -/
def Ring.fetched (c : Ring) (bytes : List Byte) : Ring :=
  { c with next := c.next + 1, held := c.held ++ [{ seq := c.next, bytes := bytes }] }

/-- The state in which ring `r` of basin `b` has fetched its next descriptor, but for free values drawn. -/
def State.fetch (s : State) (b r : Nat) : State :=
  ((s.updRing r fun c => c.fetched (s.read (s.slotAddr (s.ring r) (s.ring r).next) 64)).updBasin b fun x =>
    { x with last := some r }).request { stack := false, place := b, purpose := .fetch r (s.ring r).next }

theorem exec_descriptorFetch (hl : s.live = true) (hb : b < 6) (hr : s.basinRuns b = true) (hn : s.nextRing b = some r) :
    exec (.descriptorFetch b) s = .next ((s.fetch b r).overHoles [(s.slotAddr (s.ring r) (s.ring r).next, 64)]) := by
  show execDescriptorFetch b s = _
  simp only [execDescriptorFetch, hl, hr, Nat.not_le_of_lt hb, hn, Bool.not_true, Bool.or_false, decide_false,
    Bool.false_eq_true, if_false]
  rfl

theorem State.fetch_rings (hi : s.Inv) (b r : Nat) : Tab.Only {} s.rings (s.fetch b r).rings r
    ((s.ring r).fetched (s.read (s.slotAddr (s.ring r) (s.ring r).next) 64)) :=
  (State.updRing_only hi r fun c => c.fetched (s.read (s.slotAddr (s.ring r) (s.ring r).next) 64)).2

theorem State.fetch_basins (hi : s.Inv) (b r : Nat) :
    Tab.Only {} s.basins (s.fetch b r).basins b { s.basin b with last := some r } :=
  (State.updBasin_only hi b fun x => { x with last := some r }).2

/-- Settles O23: the candidates are the keys of a canonical table, so they rise, and the first that `nextRing` finds is the
least; a fetch is one update of the ring, one of the basin, and a request. -/
theorem fetchTakesTheNextTurn : Obligations.FetchTakesTheNextTurn := by
  unfold Obligations.FetchTakesTheNextTurn
  intro s b r hi hlive hb hruns hnext
  refine ⟨⟨_, exec_descriptorFetch hlive hb hruns hnext, ?_⟩, fun q hq => State.eligible_iff hq,
    State.eligible_nextRing hnext, fun hlast q hq => ?_, fun l hlast => State.not_eligible_of_passed hi hnext hlast⟩
  · rw [State.overHoles_eq]
    exact ⟨rfl, State.fetch_rings hi b r, State.fetch_basins hi b r⟩
  · exact State.not_eligible_of_lt_head hi (State.nextRing_of_last_none hlast ▸ hnext) hq

/-! ## Refused accesses of a doorbell page (R116) -/

variable {part n offset size : Nat} {write : Bool} {value : Word64}

theorem State.pageRefuses_iff : s.pageRefuses part offset size write = true ↔
    size ≠ 8 ∨ offset % 8 ≠ 0 ∨ (offset < 0x10000 ∧ (s.ring (offset % 0x8000 / 8)).part ≠ part) ∨
      (0x10000 ≤ offset ∧ offset < 0x10400 ∧
        ((s.shard ((offset - 0x10000) / 16)).owner ≠ some part ∨ (write = true ↔ offset % 16 = 0))) := by
  have hdir : (write == (offset % 16 == 0)) = true ↔ (write = true ↔ offset % 16 = 0) := by
    rw [beq_iff_eq, Bool.eq_iff_iff, beq_iff_eq]
  unfold State.pageRefuses
  split
  · rename_i hbad
    exact iff_of_true rfl (hbad.imp_right .inl)
  · rename_i hgood
    obtain ⟨hsize, halign⟩ := not_or.1 hgood
    split
    · rename_i hring
      have : ¬ 0x10000 ≤ offset := Nat.not_le_of_lt hring
      simp [hsize, halign, hring, this]
    · rename_i hring
      have hpast : 0x10000 ≤ offset := Nat.le_of_not_lt hring
      split
      · rename_i hshard
        simp [hsize, halign, hring, hpast, hshard, ← hdir]
      · rename_i hrest
        simp [hsize, halign, hring, hrest]

theorem exec_doorbellPageBadAccess_of_pageRefuses (hp : s.pageOpen part = true) (ho : offset < 0x20000)
    (h : s.pageRefuses part offset size write = true) :
    exec (.doorbellPageBadAccess part offset size write) s =
      .next (if write then s.badAccess part offset true else { s.badAccess part offset false with pinReply := 0 }) := by
  show execDoorbellPageBadAccess part offset size write s = _
  cases write <;> simp [execDoorbellPageBadAccess, hp, h, Nat.not_le_of_lt ho]

theorem exec_doorbellWrite_of_part_ne (hp : s.pageOpen part = true) (hr : r < 4096) (h : (s.ring r).part ≠ part) :
    exec (.doorbellWrite part r value) s = .next (s.badAccess part (8 * r) true) := by
  show execDoorbellWrite part r value s = _
  simp [execDoorbellWrite, hp, h, Nat.not_le_of_lt hr]

theorem exec_ringResume_of_part_ne (hp : s.pageOpen part = true) (hr : r < 4096) (h : (s.ring r).part ≠ part) :
    exec (.ringResume part r value) s = .next (s.badAccess part (0x8000 + 8 * r) true) := by
  show execRingResume part r value s = _
  simp [execRingResume, hp, h, Nat.not_le_of_lt hr]

theorem exec_pin_of_owner_ne (hp : s.pageOpen part = true) (hn : n < 64) (h : (s.shard n).owner ≠ some part) :
    exec (.pin part n) s = .next { s.badAccess part (0x10000 + 16 * n) false with pinReply := 0 } := by
  show execPin part n s = _
  simp [execPin, hp, h, Nat.not_le_of_lt hn]

theorem exec_unpin_of_owner_ne (hp : s.pageOpen part = true) (hn : n < 64) (h : (s.shard n).owner ≠ some part) :
    exec (.unpin part n value) s = .next (s.badAccess part (0x10008 + 16 * n) true) := by
  show execUnpin part n value s = _
  simp [execUnpin, hp, h, Nat.not_le_of_lt hn]

/-- Settles O33: each word of the page checks what R116 asks before it does anything else. -/
theorem refusedPageAccess : Obligations.RefusedPageAccess := by
  unfold Obligations.RefusedPageAccess
  intro s part offset size write _ hopen hoffset
  refine ⟨fun h => exec_doorbellPageBadAccess_of_pageRefuses hopen hoffset (State.pageRefuses_iff.2 h),
    fun ring value hring hpart => ⟨?_, ?_⟩, fun n value hn howner => ⟨?_, ?_⟩⟩
  · exact exec_doorbellWrite_of_part_ne hopen hring hpart
  · exact exec_ringResume_of_part_ne hopen hring hpart
  · exact exec_pin_of_owner_ne hopen hn howner
  · exact exec_unpin_of_owner_ne hopen hn howner

end Sys2Proof.Machine
end

section
/-! SUPPORT. REWIND (R242): what an accepted REWIND leaves of the block, and the statement about it. -/

namespace Sys2Proof.Machine

variable {s : State} {ring : Nat} {h : Held}

/-- A descriptor that can be accepted has the opcode that was asked for. -/
theorem State.front_isOp {isOp : Nat → Bool} (hf : s.front ring isOp = some h) : isOp (opOf h.bytes) = true := by
  unfold State.front at hf
  dsimp only at hf
  split at hf
  · split at hf
    · split at hf
      · rename_i hop
        obtain rfl := Option.some.inj hf
        simp only [Bool.and_eq_true] at hop
        obtain ⟨⟨⟨⟨⟨hop, -⟩, -⟩, -⟩, -⟩, -⟩ := hop
        exact hop
      · cases hf
    · cases hf
  · cases hf

/-- The job of an accepted REWIND: done at once, with the epoch that becomes current as its DETAIL. -/
def State.rewindJob (s : State) (ring : Nat) (h : Held) : Job :=
  { newJob s ring h with
    wait := .ready, status := some (.ok, 0xFF, (s.shard (shardOf h.bytes)).prevEpoch.toNat) }

theorem exec_rewind_of_checks (hf : s.front ring (· == 7) = some h) (hu : s.unitStopped = false)
    (hc : s.rewindChecks (s.ring ring).part h.bytes = none) :
    exec (.rewind ring) s = .next ((s.updShard (shardOf h.bytes) Shard.rewind).takeUp ring (s.rewindJob ring h)) := by
  show execRewind ring s = _
  simp only [execRewind, hf, hu, hc, Bool.false_eq_true, if_false]
  rfl

/-- Settles O11: a REWIND is one update of the shard, and taking up a job that has no parts and takes no pins touches
only the accepted descriptors and its ring. -/
theorem rewindFlipsBack : Obligations.RewindFlipsBack := by
  unfold Obligations.RewindFlipsBack
  intro s ring h hi hf hu hc
  have hop : opOf h.bytes = 7 := eq_of_beq (State.front_isOp hf)
  have hplain : opOf h.bytes ≠ 1 ∧ opOf h.bytes ≠ 2 := by simp [hop]
  obtain ⟨-, hshards⟩ := State.updShard_only hi (shardOf h.bytes) Shard.rewind
  obtain ⟨haccepts, hrest⟩ := State.takeUp_plain_only (State.updShard_inv hi (shardOf h.bytes) Shard.rewind) ring h
    (s.rewindJob ring h) hplain rfl rfl ⟨rfl, rfl, rfl, rfl, rfl⟩
  refine ⟨_, exec_rewind_of_checks hf hu hc, ⟨haccepts.jobs, haccepts.names, haccepts.rings⟩, ?_, ?_⟩
  · rw [hrest]
    rfl
  · rw [hrest]
    exact hshards

end Sys2Proof.Machine
end
